-- ==== Sys2Proof/Word.lean ====
section
/-! DEFINITION. The plain values that commands and state share: bytes, lines, masks, and the header, payload and
completion that a command carries. -/

namespace Sys2Proof

/-- A byte; bit 0 is the least significant bit (00_scope.md, Conventions). -/
abbrev Byte := BitVec 8

/-- A set of the 64 byte positions of a line: bit i stands for position i. -/
abbrev Mask := BitVec 64

/-- The 64 bytes of a line, byte 0 the lowest-addressed. -/
abbrev LineData := Vector Byte 64

/-- A line address, 0 to 2^30 - 1 (R149). -/
abbrev LineAddr := BitVec 30

/-- A tag, 0 to 63 (R149). -/
abbrev Tag := BitVec 6

/-- A write sequence number (R5). -/
abbrev Wsn := BitVec 32

/-- One of the four die ports. -/
abbrev DieId := Fin 4

/-- The line of 64 zero bytes. -/
def zeroLine : LineData := Vector.replicate 64 0

/-- The two timing profiles (R140). -/
inductive ProfileId
  | a | b
  deriving DecidableEq, Repr

/-- A die's thermal class (R103). -/
inductive Band
  | cool | normal | hot | critical
  deriving DecidableEq, Repr

/-- The fields of a request header beside its kind code and byte 7, with every reserved bit (section 11.1, R169).
The kind code, and byte 7 of a SETUP or QUERY, are fixed by the command itself. -/
structure Header where
  /-- byte 0, bits 3-7: reserved -/
  kindRsvd : BitVec 5
  tag : Tag
  /-- byte 1, bits 6-7: reserved -/
  tagRsvd : BitVec 2
  line : LineAddr
  /-- bytes 2-5, bits 30-31: reserved -/
  lineRsvd : BitVec 2
  startBeat : BitVec 3
  /-- byte 6, bit 3: 0 FULL, 1 HALF -/
  half : Bool
  /-- byte 6, bit 4: 0 LINEAR, 1 PAIRWISE -/
  pairwise : Bool
  /-- byte 6, bits 5-7: reserved -/
  beatRsvd : BitVec 3
  /-- bytes 8-11: the value of a SETUP or the argument of a QUERY -/
  value : BitVec 32
  dieMask : BitVec 4
  /-- byte 12, bits 4-7: reserved -/
  dieMaskRsvd : BitVec 4
  /-- bytes 13-14: reserved -/
  tailRsvd : BitVec 16
  /-- byte 15: the header check as received -/
  check : Byte
  deriving DecidableEq, Repr

/-- A WRITE's payload: bytes 16-23, 24-87 and 88-89 (section 11.1). -/
structure WritePayload where
  mask : Mask
  data : LineData
  /-- the data check as received -/
  check : BitVec 16
  deriving DecidableEq, Repr

/-- The outcomes a completion can name (section 5.6). -/
inductive OutcomeCode
  | done | checkFail | uncorrectable | fail
  deriving DecidableEq, Repr

/-- A completion as it comes on a die link: its outcome and what it carries (R79, R80, R87). -/
structure Completion where
  outcome : OutcomeCode
  data : Option LineData
  band : Option Band
  deriving DecidableEq, Repr

end Sys2Proof
end

