-- ==== Sys2Proof/Syntax.lean ====
section
/-! DEFINITION. The commands of the part: one constructor per row of spec/opcode_table.json. -/

namespace Sys2Proof

/-- A command: a request message, a reset release, an answer sent, a timer's expiry or a die's completion. A message
carries its header as sent (`h`); `byte7` is byte 7 of a message whose kind does not use it. -/
inductive Instr
  /-- READ request message (R40) -/
  | read (byte7 : Byte) (h : Header)
  /-- WRITE request message (R7) -/
  | write (byte7 : Byte) (h : Header) (p : WritePayload)
  /-- FLUSH request message (R63) -/
  | flush (byte7 : Byte) (h : Header)
  /-- a message of an undefined kind code, 5 to 7 (R152) -/
  | undefinedKind (kind : BitVec 3) (byte7 : Byte) (h : Header)
  /-- SETUP of CHECK_POLICY (R139) -/
  | setupCheckPolicy (h : Header)
  /-- SETUP of HIGH_MARK (R136) -/
  | setupHighMark (h : Header)
  /-- SETUP of LOW_MARK (R136) -/
  | setupLowMark (h : Header)
  /-- SETUP of IDLE_DRAIN_TIME (R24) -/
  | setupIdleDrainTime (h : Header)
  /-- SETUP of READ_WAIT_LIMIT (R52) -/
  | setupReadWaitLimit (h : Header)
  /-- SETUP of PARK_DELAY (R119) -/
  | setupParkDelay (h : Header)
  /-- SETUP of WAKE_MODE (R108) -/
  | setupWakeMode (h : Header)
  /-- SETUP of PULL_IN (R101) -/
  | setupPullIn (h : Header)
  /-- SETUP of MASKED_WRITES (R137) -/
  | setupMaskedWrites (h : Header)
  /-- SETUP of DIE_COUNT (R137) -/
  | setupDieCount (h : Header)
  /-- SETUP of DIE_LINES_LOG2 (R136) -/
  | setupDieLinesLog2 (h : Header)
  /-- SETUP of GRANULARITY (R138) -/
  | setupGranularity (h : Header)
  /-- SETUP of TEMP_POLL (R102) -/
  | setupTempPoll (h : Header)
  /-- SETUP of DRAIN_RETRY (R31) -/
  | setupDrainRetry (h : Header)
  /-- SETUP of DIE_OP_LIMIT (R83) -/
  | setupDieOpLimit (h : Header)
  /-- SETUP of field n of a profile (R140) -/
  | profileFieldWrite (p : ProfileId) (n : Fin 16) (h : Header)
  /-- PROFILE_COMMIT (R142) -/
  | profileCommit (h : Header)
  /-- START (R116) -/
  | start (h : Header)
  /-- RATE_SWITCH (R124) -/
  | rateSwitch (h : Header)
  /-- CLEAR_ERRORS (R161) -/
  | clearErrors (h : Header)
  /-- RESTART (R133) -/
  | restart (h : Header)
  /-- DIE_SETTING forward (R144) -/
  | dieSetting (h : Header)
  /-- QUERY STATUS (R156) -/
  | queryStatus (h : Header)
  /-- QUERY LOG (R167) -/
  | queryLog (h : Header)
  /-- QUERY ENTRY (R20) -/
  | queryEntry (h : Header)
  /-- QUERY POISON (R164) -/
  | queryPoison (h : Header)
  /-- QUERY PROFILE (R148) -/
  | queryProfile (h : Header)
  /-- QUERY SHADOW (R148) -/
  | queryShadow (h : Header)
  /-- QUERY SETTINGS (R148) -/
  | querySettings (h : Header)
  /-- release of the POWER_ON input (R134) -/
  | powerOn
  /-- release of the LINK_RESET input (R157) -/
  | linkReset
  /-- the upstream link has carried the oldest queued answer (R154) -/
  | answerSent
  /-- expiry of the idle-drain timer (R24) -/
  | idleDrainTimerExpiry
  /-- expiry of the park-delay timer (R120) -/
  | parkDelayTimerExpiry
  /-- expiry of the relock timer (R126) -/
  | relockTimerExpiry
  /-- expiry of a port's settle timer (R77) -/
  | settleTimerExpiry (d : DieId)
  /-- expiry of a port's op-limit timer (R83) -/
  | opLimitExpiry (d : DieId)
  /-- expiry of the deadline of the listed read record with this tag (R53) -/
  | deadlineExpiry (tag : Tag)
  /-- expiry of a die's refresh due timer (R98) -/
  | refreshDueEvent (d : DieId)
  /-- expiry of a die's recal due timer (R104) -/
  | recalDueEvent (d : DieId)
  /-- expiry of the thermal poll timer (R102) -/
  | thermalPollExpiry
  /-- completion of a LINE READ (R48) -/
  | lineReadCompletion (d : DieId) (c : Completion)
  /-- completion of a LINE WRITE (R30) -/
  | lineWriteCompletion (d : DieId) (c : Completion)
  /-- completion of a MASKED WRITE (R30) -/
  | maskedWriteCompletion (d : DieId) (c : Completion)
  /-- completion of a REFRESH (R100) -/
  | refreshCompletion (d : DieId) (c : Completion)
  /-- completion of a SHORT RECAL (R104) -/
  | shortRecalCompletion (d : DieId) (c : Completion)
  /-- completion of a LONG RECAL (R105) -/
  | longRecalCompletion (d : DieId) (c : Completion)
  /-- completion of a TEMP READ (R103) -/
  | tempReadCompletion (d : DieId) (c : Completion)
  /-- completion of a SET (R77) -/
  | setCompletion (d : DieId) (c : Completion)
  /-- completion of a DIE RESET (R74) -/
  | dieResetCompletion (d : DieId) (c : Completion)
  /-- completion of a PARK ENTER (R121) -/
  | parkEnterCompletion (d : DieId) (c : Completion)
  /-- completion of a PARK EXIT (R108) -/
  | parkExitCompletion (d : DieId) (c : Completion)
  /-- a SETUP whose setting code names nothing (R152) -/
  | undefinedSettingCode (code : Byte) (h : Header)
  /-- a QUERY whose query code names nothing (R152) -/
  | undefinedQueryCode (code : Byte) (h : Header)
  deriving DecidableEq, Repr

end Sys2Proof
end

