-- ==== Sys2Proof/WellFormed.lean ====
section
/-! DEFINITION. Which command terms spell a row of the table: an UNDEFINED_* command carries a code that is undefined. -/

namespace Sys2Proof

/-- The setting codes of section 11.4: the part settings, the six actions, the fields of profiles A and B. -/
def settingCodeDefined (c : Byte) : Bool :=
  (0x01 ≤ c.toNat && c.toNat ≤ 0x15) || (0x20 ≤ c.toNat && c.toNat ≤ 0x2F) || (0x40 ≤ c.toNat && c.toNat ≤ 0x4F)

/-- The query codes of section 11.4: STATUS 0 to SETTINGS 6. -/
def queryCodeDefined (c : Byte) : Bool := c.toNat ≤ 6

/-- The kind codes of section 11.4: READ 0 to QUERY 4. -/
def kindCodeDefined (k : BitVec 3) : Bool := k.toNat ≤ 4

/-- A well-formed command is one of the table's rows. Every other form a row admits is checked by the part itself, at
intake (R151, R152) or at the die port (R87). -/
def Instr.wf : Instr → Bool
  | .undefinedKind k _ _ => !kindCodeDefined k
  | .undefinedSettingCode c _ => !settingCodeDefined c
  | .undefinedQueryCode c _ => !queryCodeDefined c
  | .read _ _ | .write _ _ _ | .flush _ _ => true
  | .setupCheckPolicy _ | .setupHighMark _ | .setupLowMark _ | .setupIdleDrainTime _ | .setupReadWaitLimit _ => true
  | .setupParkDelay _ | .setupWakeMode _ | .setupPullIn _ | .setupMaskedWrites _ | .setupDieCount _ => true
  | .setupDieLinesLog2 _ | .setupGranularity _ | .setupTempPoll _ | .setupDrainRetry _ | .setupDieOpLimit _ => true
  | .profileFieldWrite _ _ _ | .profileCommit _ | .start _ | .rateSwitch _ | .clearErrors _ | .restart _ => true
  | .dieSetting _ | .queryStatus _ | .queryLog _ | .queryEntry _ | .queryPoison _ | .queryProfile _ => true
  | .queryShadow _ | .querySettings _ | .powerOn | .linkReset | .answerSent => true
  | .idleDrainTimerExpiry | .parkDelayTimerExpiry | .relockTimerExpiry | .settleTimerExpiry _ => true
  | .opLimitExpiry _ | .deadlineExpiry _ | .refreshDueEvent _ | .recalDueEvent _ | .thermalPollExpiry => true
  | .lineReadCompletion _ _ | .lineWriteCompletion _ _ | .maskedWriteCompletion _ _ | .refreshCompletion _ _ => true
  | .shortRecalCompletion _ _ | .longRecalCompletion _ _ | .tempReadCompletion _ _ | .setCompletion _ _ => true
  | .dieResetCompletion _ _ | .parkEnterCompletion _ _ | .parkExitCompletion _ _ => true

end Sys2Proof
end

