-- ==== Sys2Proof/Decode.lean ====
section
/-! DEFINITION. The byte layout of request messages (section 11.1, R169): the bytes of a message command and the command
that bytes spell. The table of commands itself gives no bits, so no table word spells a command. -/

namespace Sys2Proof

/-- The command that a word spells by the bits of spec/opcode_table.json. Its rows give none (log 20). -/
def decodeTableWord (_nbits _w : Nat) : Option Instr := none

/-- Kind code of READ, section 11.4; the four others follow. -/
def kindRead : BitVec 3 := 0
def kindWrite : BitVec 3 := 1
def kindFlush : BitVec 3 := 2
def kindSetup : BitVec 3 := 3
def kindQuery : BitVec 3 := 4

/-- Setting code of field n of a profile: 0x20 + n for A, 0x40 + n for B (section 11.4). -/
def fieldCode (p : ProfileId) (n : Fin 16) : Byte :=
  match p with
  | .a => BitVec.ofNat 8 (0x20 + n.val)
  | .b => BitVec.ofNat 8 (0x40 + n.val)

/-- The kind code, byte 7 and header of a request message; none for an event that is no message. -/
def Instr.message? : Instr → Option (BitVec 3 × Byte × Header)
  | .read b h => some (kindRead, b, h)
  | .write b h _ => some (kindWrite, b, h)
  | .flush b h => some (kindFlush, b, h)
  | .undefinedKind k b h => some (k, b, h)
  | .setupCheckPolicy h => some (kindSetup, 0x01, h)
  | .setupHighMark h => some (kindSetup, 0x02, h)
  | .setupLowMark h => some (kindSetup, 0x03, h)
  | .setupIdleDrainTime h => some (kindSetup, 0x04, h)
  | .setupReadWaitLimit h => some (kindSetup, 0x05, h)
  | .setupParkDelay h => some (kindSetup, 0x06, h)
  | .setupWakeMode h => some (kindSetup, 0x07, h)
  | .setupPullIn h => some (kindSetup, 0x08, h)
  | .setupMaskedWrites h => some (kindSetup, 0x09, h)
  | .setupDieCount h => some (kindSetup, 0x0A, h)
  | .setupDieLinesLog2 h => some (kindSetup, 0x0B, h)
  | .setupGranularity h => some (kindSetup, 0x0C, h)
  | .setupTempPoll h => some (kindSetup, 0x0D, h)
  | .setupDrainRetry h => some (kindSetup, 0x0E, h)
  | .setupDieOpLimit h => some (kindSetup, 0x0F, h)
  | .profileFieldWrite p n h => some (kindSetup, fieldCode p n, h)
  | .profileCommit h => some (kindSetup, 0x10, h)
  | .start h => some (kindSetup, 0x11, h)
  | .rateSwitch h => some (kindSetup, 0x12, h)
  | .clearErrors h => some (kindSetup, 0x13, h)
  | .restart h => some (kindSetup, 0x14, h)
  | .dieSetting h => some (kindSetup, 0x15, h)
  | .queryStatus h => some (kindQuery, 0, h)
  | .queryLog h => some (kindQuery, 1, h)
  | .queryEntry h => some (kindQuery, 2, h)
  | .queryPoison h => some (kindQuery, 3, h)
  | .queryProfile h => some (kindQuery, 4, h)
  | .queryShadow h => some (kindQuery, 5, h)
  | .querySettings h => some (kindQuery, 6, h)
  | .undefinedSettingCode c h => some (kindSetup, c, h)
  | .undefinedQueryCode c h => some (kindQuery, c, h)
  | .powerOn | .linkReset | .answerSent => none
  | .idleDrainTimerExpiry | .parkDelayTimerExpiry | .relockTimerExpiry | .settleTimerExpiry _ => none
  | .opLimitExpiry _ | .deadlineExpiry _ | .refreshDueEvent _ | .recalDueEvent _ | .thermalPollExpiry => none
  | .lineReadCompletion _ _ | .lineWriteCompletion _ _ | .maskedWriteCompletion _ _ | .refreshCompletion _ _ => none
  | .shortRecalCompletion _ _ | .longRecalCompletion _ _ | .tempReadCompletion _ _ | .setCompletion _ _ => none
  | .dieResetCompletion _ _ | .parkEnterCompletion _ _ | .parkExitCompletion _ _ => none

/-- A 16-bit field as bytes, least significant first (00_scope.md, Conventions). -/
def leBytes16 (w : BitVec 16) : List Byte := [w.extractLsb' 0 8, w.extractLsb' 8 8]

/-- A 32-bit field as bytes, least significant first. -/
def leBytes32 (w : BitVec 32) : List Byte :=
  [w.extractLsb' 0 8, w.extractLsb' 8 8, w.extractLsb' 16 8, w.extractLsb' 24 8]

/-- The 8 mask bytes: mask byte j holds positions 8j to 8j+7, position 8j in bit 0 (section 11.1, R81). -/
def maskBytes (m : Mask) : List Byte :=
  [m.extractLsb' 0 8, m.extractLsb' 8 8, m.extractLsb' 16 8, m.extractLsb' 24 8,
   m.extractLsb' 32 8, m.extractLsb' 40 8, m.extractLsb' 48 8, m.extractLsb' 56 8]

/-- Bytes 0 to 14 of a request message (section 11.1). -/
def headerBytes (kind : BitVec 3) (byte7 : Byte) (h : Header) : List Byte :=
  [(h.kindRsvd ++ kind : BitVec 8), (h.tagRsvd ++ h.tag : BitVec 8)] ++
  leBytes32 (h.lineRsvd ++ h.line : BitVec 32) ++
  [(h.beatRsvd ++ (BitVec.ofBool h.pairwise ++ (BitVec.ofBool h.half ++ h.startBeat)) : BitVec 8), byte7] ++
  leBytes32 h.value ++
  [(h.dieMaskRsvd ++ h.dieMask : BitVec 8)] ++ leBytes16 h.tailRsvd

/-- The header check: the exclusive-or of the bytes (R171). -/
def xorBytes (bytes : List Byte) : Byte := bytes.foldl (· ^^^ ·) 0

/-- The payload bytes 16 to 89 of a message: a WRITE's mask, data and data check (most significant byte first). -/
def Instr.payloadBytes : Instr → List Byte
  | .write _ _ p => maskBytes p.mask ++ p.data.toList ++ [p.check.extractLsb' 8 8, p.check.extractLsb' 0 8]
  | _ => []

/-- All bytes of a request message; none for an event that is no message. -/
def Instr.wireBytes (i : Instr) : Option (List Byte) :=
  i.message?.map fun (kind, byte7, h) => headerBytes kind byte7 h ++ [h.check] ++ i.payloadBytes

/-- The SETUP command that a setting code names (section 11.4). -/
def setupOfCode (code : Byte) (h : Header) : Instr :=
  match code.toNat with
  | 0x01 => .setupCheckPolicy h
  | 0x02 => .setupHighMark h
  | 0x03 => .setupLowMark h
  | 0x04 => .setupIdleDrainTime h
  | 0x05 => .setupReadWaitLimit h
  | 0x06 => .setupParkDelay h
  | 0x07 => .setupWakeMode h
  | 0x08 => .setupPullIn h
  | 0x09 => .setupMaskedWrites h
  | 0x0A => .setupDieCount h
  | 0x0B => .setupDieLinesLog2 h
  | 0x0C => .setupGranularity h
  | 0x0D => .setupTempPoll h
  | 0x0E => .setupDrainRetry h
  | 0x0F => .setupDieOpLimit h
  | 0x10 => .profileCommit h
  | 0x11 => .start h
  | 0x12 => .rateSwitch h
  | 0x13 => .clearErrors h
  | 0x14 => .restart h
  | 0x15 => .dieSetting h
  | n =>
    if 0x20 ≤ n ∧ n ≤ 0x2F then .profileFieldWrite .a (Fin.ofNat 16 (n - 0x20)) h
    else if 0x40 ≤ n ∧ n ≤ 0x4F then .profileFieldWrite .b (Fin.ofNat 16 (n - 0x40)) h
    else .undefinedSettingCode code h

/-- The QUERY command that a query code names (section 11.4). -/
def queryOfCode (code : Byte) (h : Header) : Instr :=
  match code.toNat with
  | 0 => .queryStatus h
  | 1 => .queryLog h
  | 2 => .queryEntry h
  | 3 => .queryPoison h
  | 4 => .queryProfile h
  | 5 => .queryShadow h
  | 6 => .querySettings h
  | _ => .undefinedQueryCode code h

/-- A WRITE's payload read from bytes 16 to 89; none when they are not 74 bytes. -/
def readPayload (bytes : List Byte) : Option WritePayload :=
  match bytes with
  | m0 :: m1 :: m2 :: m3 :: m4 :: m5 :: m6 :: m7 :: rest =>
    if hl : rest.length = 66 then
      some
        { mask := (m7 ++ (m6 ++ (m5 ++ (m4 ++ (m3 ++ (m2 ++ (m1 ++ m0)))))) : BitVec 64)
          data := Vector.ofFn fun (i : Fin 64) => rest[i.val]
          check := (rest[64] ++ rest[65] : BitVec 16) }
    else none
  | _ => none

/-- The message command that bytes spell by the layout of section 11.1 (R169); none when their number is not that of a
message. -/
def parseMessage (bytes : List Byte) : Option Instr :=
  match bytes with
  | b0 :: b1 :: b2 :: b3 :: b4 :: b5 :: b6 :: b7 :: b8 :: b9 :: b10 :: b11 :: b12 :: b13 :: b14 :: b15 :: rest =>
    let lineWord : BitVec 32 := b5 ++ (b4 ++ (b3 ++ b2))
    let h : Header :=
      { kindRsvd := b0.extractLsb' 3 5
        tag := b1.extractLsb' 0 6
        tagRsvd := b1.extractLsb' 6 2
        line := lineWord.extractLsb' 0 30
        lineRsvd := lineWord.extractLsb' 30 2
        startBeat := b6.extractLsb' 0 3
        half := b6.getLsbD 3
        pairwise := b6.getLsbD 4
        beatRsvd := b6.extractLsb' 5 3
        value := (b11 ++ (b10 ++ (b9 ++ b8)) : BitVec 32)
        dieMask := b12.extractLsb' 0 4
        dieMaskRsvd := b12.extractLsb' 4 4
        tailRsvd := (b14 ++ b13 : BitVec 16)
        check := b15 }
    let kind : BitVec 3 := b0.extractLsb' 0 3
    if kind = kindWrite then (readPayload rest).map (.write b7 h ·)
    else if rest ≠ [] then none
    else if kind = kindRead then some (.read b7 h)
    else if kind = kindFlush then some (.flush b7 h)
    else if kind = kindSetup then some (setupOfCode b7 h)
    else if kind = kindQuery then some (queryOfCode b7 h)
    else some (.undefinedKind kind b7 h)
  | _ => none

end Sys2Proof
end

