-- ==== Sys2Proof/Config.lean ====
section
/-! DEFINITION. The fixed capacities of the part. The spec leaves no result value open, so there is no free value. -/

namespace Sys2Proof.Config

/-- Entries of the Posted Write Table (R3). -/
def tableEntries : Nat := 32
/-- Records of the Read Wait List (R45). -/
def readRecords : Nat := 16
/-- Records of the Flush List (R62). -/
def flushRecords : Nat := 4
/-- Places of the Response Queue (R154). -/
def queuePlaces : Nat := 24
/-- Records of the Log (R165). -/
def logRecords : Nat := 16
/-- Lines of the Poison List (R163). -/
def poisonLines : Nat := 16
/-- Records that one QUERY LOG returns at most (R167). -/
def logPerQuery : Nat := 4
/-- The largest value of an entry's merges field (R1, R8). -/
def mergesMax : Nat := 65535

end Sys2Proof.Config
end

