-- ==== Sys2Proof/Machine/State.lean ====
section
/-! DEFINITION. The state of the part, block by block (00_scope.md, block diagram), and its value after power-on reset. -/

namespace Sys2Proof.Machine

/-- A timer: stopped, or running, started last with this length in ns (00_scope.md, Timers; log 3). -/
abbrev Timer := Option Nat

/-! ### Posted Write Table -/

/-- Entry states FREE, OPEN and DRAINING (R1). -/
inductive EntryState
  | free | opened | draining
  deriving DecidableEq, Repr

/-- Whether an entry may drain or waits for an older one of its line (R4). -/
inductive Generation
  | first | second
  deriving DecidableEq, Repr

/-- The die operation a drain is at (R28). -/
inductive DrainStep
  | maskedWrite | rmwRead | rmwWrite | fullWrite
  deriving DecidableEq, Repr

/-- One record of the table (R1). Its hold is derived from the Read Wait List. -/
structure Entry where
  state : EntryState
  line : Option LineAddr
  mask : Mask
  data : LineData
  firstWsn : Wsn
  lastWsn : Wsn
  merges : Nat
  gen : Generation
  step : Option DrainStep
  attempts : Nat
  deriving DecidableEq, Repr

/-- A FREE entry's field values (R1). -/
def Entry.freed : Entry :=
  { state := .free, line := none, mask := 0, data := zeroLine, firstWsn := 0, lastWsn := 0, merges := 0
    gen := .first, step := none, attempts := 0 }

/-- The table and its counter (R3, R5). -/
structure Table where
  entries : Vector Entry 32
  nextWsn : Wsn
  deriving DecidableEq, Repr

/-! ### Drain Scheduler -/

/-- Drain pressure levels (R22). -/
inductive Pressure
  | none | idle | active | urgent
  deriving DecidableEq, Repr

/-- The scheduler's own state; its claims are held at the ports (R22 to R24). -/
structure Drain where
  pressure : Pressure
  hysteresis : Bool
  idleTimer : Timer
  idleFlag : Bool
  deriving DecidableEq, Repr

/-! ### Read Service and Flush Tracker -/

/-- WAITING or AT_DIE (section 3.1). -/
inductive ReadState
  | waiting | atDie
  deriving DecidableEq, Repr

/-- A record of the Read Wait List (section 3.1). `claim` is the number of its die read claim (R47, log 13);
`deadline` is the length its running timer was started with, in ns. -/
structure ReadRecord where
  claim : Nat
  tag : Tag
  line : LineAddr
  die : DieId
  startBeat : BitVec 3
  half : Bool
  pairwise : Bool
  mask : Mask
  data : LineData
  state : ReadState
  lost : Bool
  deadline : Nat
  deriving DecidableEq, Repr

/-- The Read Wait List, oldest first (R45), and the next claim number (log 13). -/
structure Reads where
  list : List ReadRecord
  nextClaim : Nat
  deriving DecidableEq, Repr

/-- A record of the Flush List (section 4.1). -/
structure FlushRecord where
  tag : Tag
  boundary : Wsn
  loss : Bool
  deriving DecidableEq, Repr

/-! ### Die ports -/

/-- Port states (R73). -/
inductive PortState
  | off | init | idle | busy | settling | parked | failed
  deriving DecidableEq, Repr

/-- Modes of a PARK EXIT (R80). -/
inductive WakeMode
  | normal | quick
  deriving DecidableEq, Repr

/-- A die operation with the fields and profile values it is sent with (R79 to R82). Latencies are in die clocks,
windows and times in ns. -/
inductive Operation
  | lineRead (dieLine latency : Nat)
  | lineWrite (dieLine : Nat) (data : LineData) (check : BitVec 16) (latency recovery : Nat)
  | maskedWrite (dieLine : Nat) (mask : Mask) (data : LineData) (check : BitVec 16) (latency recovery : Nat)
  | refresh (window : Nat)
  | shortRecal (window : Nat)
  | longRecal (window : Nat)
  | tempRead
  | set (index : BitVec 4) (value : BitVec 16)
  | dieReset
  | parkEnter (time : Nat)
  | parkExit (mode : WakeMode) (time : Nat)
  deriving DecidableEq, Repr

/-- The block whose claim an operation serves, and the claim (section 5.8). -/
inductive Claimant
  | channel
  | maintenance
  | reads (claim : Nat)
  | drain (entry : Fin 32)
  deriving DecidableEq, Repr

/-- The operation record in a port's slot (R75); `line` is the line of a data operation (R85). -/
structure Slot where
  op : Operation
  claimant : Claimant
  line : Option LineAddr
  deriving DecidableEq, Repr

/-- What a Channel Control claim asks for (section 5.8). The mode of a PARK EXIT is taken at its grant (R108). -/
inductive ChannelOp
  | dieReset
  | longRecal
  | set (index : BitVec 4) (value : BitVec 16)
  | parkEnter
  | parkExit
  deriving DecidableEq, Repr

/-- A drain claim: it names an entry; a selection claim starts its drain, a continuation claim goes on with it. -/
structure DrainClaim where
  entry : Fin 32
  continuation : Bool
  deriving DecidableEq, Repr

/-- The kind granted last from place 3 of the grant order (R90). -/
inductive Alternation
  | read | drain
  deriving DecidableEq, Repr

/-- A die port: its state, slot, timers, pending claims, alternation flag and die clock (chapter 5). `settling` is the
SET whose settle time runs (R143); `clock` is the die clock's period in ps, or none while it is held low. -/
structure Port where
  state : PortState
  slot : Option Slot
  opLimit : Timer
  settle : Timer
  settling : Option (BitVec 4 × BitVec 16)
  channelClaim : Option ChannelOp
  refreshClaim : Bool
  recalClaim : Bool
  tempClaim : Bool
  readClaims : List Nat
  drainClaim : Option DrainClaim
  alternation : Alternation
  clock : Option Nat
  deriving DecidableEq, Repr

/-- A port after power-on reset, with the given die clock (R93). -/
def Port.atReset (clock : Option Nat) : Port :=
  { state := .off, slot := none, opLimit := none, settle := none, settling := none, channelClaim := none
    refreshClaim := false, recalClaim := false, tempClaim := false, readClaims := [], drainClaim := none
    alternation := .drain, clock := clock }

/-! ### Maintenance Unit -/

/-- Maintenance conditions (R95). -/
inductive Condition
  | stopped | active | suspended
  deriving DecidableEq, Repr

/-- The Maintenance Unit's state for one die (chapter 6). -/
structure DieCare where
  condition : Condition
  balance : Int
  refreshDue : Timer
  coolSkip : Bool
  band : Band
  recalDue : Timer
  recalPending : Bool
  recalForced : Bool
  tempPending : Bool
  deriving DecidableEq, Repr

/-- A die's values after power-on reset and RESTART (R111). -/
def DieCare.atReset : DieCare :=
  { condition := .stopped, balance := 0, refreshDue := none, coolSkip := false, band := .normal, recalDue := none
    recalPending := false, recalForced := false, tempPending := false }

/-- The Maintenance Unit: its dies and the thermal poll timer (R102). -/
structure Maint where
  dies : Vector DieCare 4
  pollTimer : Timer
  deriving DecidableEq, Repr

/-! ### Channel Control -/

/-- Part states (R113). -/
inductive PartState
  | config | bringup | running | parking | parked | waking | switching | stopped
  deriving DecidableEq, Repr

/-- Phases of a rate switch (R125 to R127). -/
inductive Phase
  | quiesce | clock | wake | recal | apply
  deriving DecidableEq, Repr

/-- Why the part entered STOPPED (R131). -/
inductive StopCause
  | dieFailed | poisonFull
  deriving DecidableEq, Repr

/-- What a procedure does and has done (section 7, R116, R124, R144). Die sets have bit d naming die d. -/
inductive ProcedureKind
  | start (failed : BitVec 4)
  | rateSwitch (target : ProfileId)
  | dieSetting (mask : BitVec 4) (index : BitVec 4) (value : BitVec 16) (done : BitVec 4)
  deriving DecidableEq, Repr

/-- The procedure in progress (R115). -/
structure Procedure where
  kind : ProcedureKind
  tag : Tag
  suppressed : Bool
  deriving DecidableEq, Repr

/-- The part settings, each a number in the unit of its row (R135). -/
structure Settings where
  checkPolicy : Nat
  highMark : Nat
  lowMark : Nat
  idleDrainTime : Nat
  readWaitLimit : Nat
  parkDelay : Nat
  wakeMode : Nat
  pullIn : Nat
  maskedWrites : Nat
  dieCount : Nat
  dieLinesLog2 : Nat
  granularity : Nat
  tempPoll : Nat
  drainRetry : Nat
  dieOpLimit : Nat
  deriving DecidableEq, Repr

/-- The defaults of R135. -/
def Settings.defaults : Settings :=
  { checkPolicy := 0, highMark := 24, lowMark := 8, idleDrainTime := 2, readWaitLimit := 40, parkDelay := 100
    wakeMode := 0, pullIn := 0, maskedWrites := 1, dieCount := 1, dieLinesLog2 := 24, granularity := 1
    tempPoll := 32, drainRetry := 3, dieOpLimit := 100 }

/-- A timing profile (section 8.2). -/
structure Profile where
  fields : Vector (BitVec 16) 16
  valid : Bool
  deriving DecidableEq, Repr

/-- Profile A after power-on reset (R140). -/
def Profile.resetA : Profile :=
  { fields := #v[2500, 10, 9, 12, 7800, 350, 260, 160, 128, 1024, 128, 30, 120, 600, 200, 20], valid := true }

/-- Profile B after power-on reset (R140). -/
def Profile.resetB : Profile := { fields := Vector.replicate 16 0, valid := false }

/-- One entry of the Setting Shadow (R143). -/
structure ShadowEntry where
  value : BitVec 16
  known : Bool
  deriving DecidableEq, Repr

/-- A die's sixteen shadow entries, unknown with value 0 (R143). -/
def shadowUnknown : Vector ShadowEntry 16 := Vector.replicate 16 { value := 0, known := false }

/-- Channel Control's state (chapters 7 and 8). -/
structure Channel where
  partState : PartState
  phase : Option Phase
  active : ProfileId
  procedure : Option Procedure
  parkDelay : Timer
  relock : Timer
  recalOwed : Vector Bool 4
  stopCause : Option StopCause
  settings : Settings
  profileA : Profile
  profileB : Profile
  shadow : Vector (Vector ShadowEntry 16) 4
  deriving DecidableEq, Repr

/-- Channel Control after power-on reset (R134). -/
def Channel.atReset : Channel :=
  { partState := .config, phase := none, active := .a, procedure := none, parkDelay := none, relock := none
    recalOwed := Vector.replicate 4 false, stopCause := none, settings := Settings.defaults
    profileA := Profile.resetA, profileB := Profile.resetB, shadow := Vector.replicate 4 shadowUnknown }

/-! ### Error Unit -/

/-- The eight error latches (R160). -/
inductive Latch
  | headerCheck | dataCheck | writeLost | readUncorrectable | thermalCritical | dieFailed | poisonFull | logOverwritten
  deriving DecidableEq, Repr

/-- Why a drain could not store its bytes (R33). -/
inductive LossCause
  | checkFail | uncorrectable
  deriving DecidableEq, Repr

/-- The kinds of log record (R166). -/
inductive LogKind
  | headerCheck | dataCheck | writeLost | readUncorrectable | readTimeout | refreshOverrun | thermalCritical
  | dieFailed | poisonFull | restart
  deriving DecidableEq, Repr

/-- A log record (R166); an absent field is none. -/
structure LogRecord where
  number : BitVec 8
  kind : LogKind
  part : PartState
  detail : BitVec 16
  die : Option DieId
  line : Option LineAddr
  tag : Option Tag
  wsn : Option Wsn
  deriving DecidableEq, Repr

/-- The Error Unit (section 10). `latches` holds the eight latches in the positions of section 11.4. -/
structure Errors where
  latches : BitVec 8
  alert : Bool
  log : List LogRecord
  nextRecord : BitVec 8
  overwrite : Bool
  poison : List (LineAddr × DieId)
  deriving DecidableEq, Repr

/-- The Error Unit after power-on reset (R168). -/
def Errors.atReset : Errors :=
  { latches := 0, alert := false, log := [], nextRecord := 0, overwrite := false, poison := [] }

/-! ### Request link -/

/-- Status codes (section 9.2). -/
inductive Status
  | ok | posted | retry | notReady | range | malformed | dataCheck | tagInUse | timeout | halted | stopped
  | badSetting | badState | failed | loss
  deriving DecidableEq, Repr

/-- An answer (R150, R170): `data` is its kind, DATA or ANSWER. -/
structure Answer where
  data : Bool
  poison : Bool
  tag : Tag
  status : Status
  beats : List (Vector Byte 8)
  payload : List Byte
  detail : BitVec 32
  deriving DecidableEq, Repr

/-- The Request Intake and the Response Queue (R153, R154): the Tag Set, the queued answers, and the messages the link
holds while the Intake takes none (log 5), each list oldest first. -/
structure Link where
  tags : List Tag
  answers : List Answer
  held : List Instr
  deriving DecidableEq, Repr

/-- The whole part, and the queue of commands waiting to be taken. -/
structure State where
  pending : List Instr
  link : Link
  table : Table
  drain : Drain
  reads : Reads
  flushes : List FlushRecord
  ports : Vector Port 4
  maint : Maint
  chan : Channel
  errs : Errors
  deriving DecidableEq, Repr

/-- No command faults: the spec gives every event of the part an effect, its errors being state (chapter 10). -/
inductive Fault
  deriving DecidableEq, Repr

/-- Why a command is not taken. -/
inductive Refusal
  /-- Raised by exec for a command that has no meaning yet; safe. No arm raises it. -/
  | notModelled (mnemonic : String)
  /-- Raised by the three UNDEFINED_* commands for a term whose code is defined, which spells no row (log 12); safe. -/
  | illFormed (mnemonic : String)
  deriving DecidableEq, Repr

/-- The part after power-on reset (R21, R37, R60, R62, R93, R111, R134, R159, R168). -/
def State.reset : State :=
  { pending := []
    link := { tags := [], answers := [], held := [] }
    table := { entries := Vector.replicate 32 Entry.freed, nextWsn := 0 }
    drain := { pressure := .none, hysteresis := false, idleTimer := none, idleFlag := false }
    reads := { list := [], nextClaim := 0 }
    flushes := []
    ports := #v[Port.atReset (some 2500), Port.atReset none, Port.atReset none, Port.atReset none]
    maint := { dies := Vector.replicate 4 DieCare.atReset, pollTimer := none }
    chan := Channel.atReset
    errs := Errors.atReset }

end Sys2Proof.Machine
end

