-- ==== Sys2Proof/Machine/Operands.lean ====
section
/-! DEFINITION. Operand forms and plain computations: write sequence numbers, masks and bytes of a line, beats, the data
check, malformed tests of a header, and the codes of chapter 11. -/

namespace Sys2Proof.Machine

/-! ### Write sequence numbers -/

/-- a precedes b (R6). -/
def precedes (a b : Wsn) : Bool := decide ((b - a).toNat < 2 ^ 31) && a != b

/-- The bound of R7 step 2: the counter n stands 2^31 - 1 or more after the first WSN f. -/
def tooFarBehind (n f : Wsn) : Bool := decide (2 ^ 31 - 1 ≤ (n - f).toNat)

/-! ### Masks and bytes of a line -/

/-- The mask holds all 64 positions. -/
def maskFull (m : Mask) : Bool := m == BitVec.allOnes 64

/-- The bytes of `top` at the positions in m, laid over `bottom` (R8, R41, R48). -/
def overlay (m : Mask) (top bottom : LineData) : LineData :=
  Vector.ofFn fun i => if m.getLsbD i.val then top[i] else bottom[i]

/-- The bytes at the positions in m, zero at every other position (R9, R42). -/
def maskedBytes (m : Mask) (data : LineData) : LineData := overlay m data zeroLine

/-! ### Beats (R55) -/

/-- The beats of a READ answer in the order they are sent, by start beat, length and order (R55). -/
def beatOrder (start : BitVec 3) (half pairwise : Bool) : List (BitVec 3) :=
  let s := start.toNat
  match half, pairwise with
  | false, false => (List.range 8).map fun i => BitVec.ofNat 3 ((s + i) % 8)
  | false, true => (List.range 8).map fun i => start ^^^ BitVec.ofNat 3 i
  | true, false => (List.range 4).map fun i => BitVec.ofNat 3 (4 * (s / 4) + (s % 4 + i) % 4)
  | true, true => (List.range 4).map fun i => start ^^^ BitVec.ofNat 3 i

/-- Beat k of a line: bytes 8k to 8k+7, byte 8k first (R55). -/
def beatOf (data : LineData) (k : BitVec 3) : Vector Byte 8 :=
  Vector.ofFn fun j => data[8 * k.toNat + j.val]'(by have := k.isLt; have := j.isLt; omega)

/-- The beats an answer carries (R55). -/
def beatsOf (start : BitVec 3) (half pairwise : Bool) (data : LineData) : List (Vector Byte 8) :=
  (beatOrder start half pairwise).map (beatOf data)

/-! ### The data check (R171) -/

/-- One step of the register. -/
def crcStep (r : BitVec 16) : BitVec 16 := if r.msb then (r <<< 1) ^^^ 0x1021#16 else r <<< 1

/-- One byte: into bits 8-15 by exclusive-or, then eight steps. -/
def crcByte (r : BitVec 16) (b : Byte) : BitVec 16 :=
  (List.range 8).foldl (fun x _ => crcStep x) (r ^^^ (b.setWidth 16 <<< 8))

/-- The data check of a list of bytes: initial value 0xFFFF, no final inversion (R171). -/
def dataCheck (bytes : List Byte) : BitVec 16 := bytes.foldl crcByte 0xFFFF#16

/-- The data check of a WRITE request and of a MASKED WRITE: mask bytes, then data bytes (R81, R171). -/
def maskedCheck (m : Mask) (data : LineData) : BitVec 16 := dataCheck (maskBytes m ++ data.toList)

/-- The data check of a LINE WRITE: the 64 data bytes (R81). -/
def lineCheck (data : LineData) : BitVec 16 := dataCheck data.toList

/-! ### Malformed tests (R149, R152, R169) -/

/-- Every bit reserved in all kinds is zero. -/
def rsvdZero (h : Header) : Bool :=
  h.kindRsvd == 0 && h.tagRsvd == 0 && h.lineRsvd == 0 && h.beatRsvd == 0 && h.dieMaskRsvd == 0 && h.tailRsvd == 0

/-- The start beat, length and order fields are zero. -/
def beatFieldsZero (h : Header) : Bool := h.startBeat == 0 && !h.half && !h.pairwise

/-- A READ uses the line and the beat fields. -/
def readMalformed (byte7 : Byte) (h : Header) : Bool :=
  !(rsvdZero h && byte7 == 0 && h.value == 0 && h.dieMask == 0)

/-- A WRITE uses the line. -/
def writeMalformed (byte7 : Byte) (h : Header) : Bool :=
  !(rsvdZero h && byte7 == 0 && h.value == 0 && h.dieMask == 0 && beatFieldsZero h)

/-- A FLUSH uses no field. -/
def flushMalformed (byte7 : Byte) (h : Header) : Bool :=
  !(rsvdZero h && byte7 == 0 && h.value == 0 && h.dieMask == 0 && beatFieldsZero h && h.line == 0)

/-- A SETUP other than DIE_SETTING uses its value, up to the largest `limit` its form allows. -/
def setupMalformed (limit : Nat) (h : Header) : Bool :=
  !(rsvdZero h && h.line == 0 && beatFieldsZero h && h.dieMask == 0 && decide (h.value.toNat ≤ limit))

/-- A DIE_SETTING uses the die mask and bits 0-23 of its value. -/
def dieSettingMalformed (h : Header) : Bool :=
  !(rsvdZero h && h.line == 0 && beatFieldsZero h && decide (h.value.toNat < 2 ^ 24))

/-- A QUERY uses its argument, 0 to `limit` (R152). -/
def queryMalformed (limit : Nat) (h : Header) : Bool := setupMalformed limit h

/-- The largest 32-bit value: no bit of the value is reserved. -/
def anyValue : Nat := 2 ^ 32 - 1

/-! ### Die sets -/

/-- The set that names die d alone. -/
def dieBit (d : DieId) : BitVec 4 := BitVec.twoPow 4 d.val

/-! ### Codes (section 11.4) -/

def Status.code : Status → Nat
  | .ok => 0 | .posted => 1 | .retry => 2 | .notReady => 3 | .range => 4 | .malformed => 5 | .dataCheck => 6
  | .tagInUse => 7 | .timeout => 8 | .halted => 9 | .stopped => 10 | .badSetting => 11 | .badState => 12
  | .failed => 13 | .loss => 14

def Latch.position : Latch → Nat
  | .headerCheck => 0 | .dataCheck => 1 | .writeLost => 2 | .readUncorrectable => 3 | .thermalCritical => 4
  | .dieFailed => 5 | .poisonFull => 6 | .logOverwritten => 7

def LogKind.code : LogKind → Nat
  | .headerCheck => 1 | .dataCheck => 2 | .writeLost => 3 | .readUncorrectable => 4 | .readTimeout => 5
  | .refreshOverrun => 6 | .thermalCritical => 7 | .dieFailed => 8 | .poisonFull => 9 | .restart => 10

def PartState.code : PartState → Nat
  | .config => 0 | .bringup => 1 | .running => 2 | .parking => 3 | .parked => 4 | .waking => 5 | .switching => 6
  | .stopped => 7

def PortState.code : PortState → Nat
  | .off => 0 | .init => 1 | .idle => 2 | .busy => 3 | .settling => 4 | .parked => 5 | .failed => 6

def Condition.code : Condition → Nat
  | .stopped => 0 | .active => 1 | .suspended => 2

def bandCode : Band → Nat
  | .cool => 0 | .normal => 1 | .hot => 2 | .critical => 3

/-- Phase codes (R170). -/
def Phase.code : Phase → Nat
  | .quiesce => 1 | .clock => 2 | .wake => 3 | .recal => 4 | .apply => 5

/-- Loss causes as a log detail (R172). -/
def LossCause.code : LossCause → Nat
  | .checkFail => 1 | .uncorrectable => 2

def Pressure.code : Pressure → Nat
  | .none => 0 | .idle => 1 | .active => 2 | .urgent => 3

def EntryState.code : EntryState → Nat
  | .free => 0 | .opened => 1 | .draining => 2

def DrainStep.code : DrainStep → Nat
  | .maskedWrite => 1 | .rmwRead => 2 | .rmwWrite => 3 | .fullWrite => 4

def profileCode : ProfileId → Nat
  | .a => 0 | .b => 1

/-! ### Response bytes (section 11.2, R170) -/

/-- Bytes 0 to 14 of an answer. -/
def Answer.header (a : Answer) : List Byte :=
  [BitVec.ofNat 8 (a.data.toNat + 2 * a.poison.toNat), a.tag.setWidth 8, BitVec.ofNat 8 a.status.code,
   BitVec.ofNat 8 a.beats.length] ++
  leBytes16 (BitVec.ofNat 16 a.payload.length) ++ leBytes32 a.detail ++ List.replicate 5 0

/-- An answer as it is sent: header, header check, then beats or payload. -/
def Answer.wireBytes (a : Answer) : List Byte :=
  a.header ++ [xorBytes a.header] ++ (a.beats.map (·.toList)).flatten ++ a.payload

end Sys2Proof.Machine
end

