-- ==== Sys2Proof/Machine/Flags.lean ====
section
/-! DEFINITION. Flags and levels computed from state: occupancy, hysteresis, drain pressure, halted, latches and ALERT. -/

namespace Sys2Proof.Machine

/-- The entry is OPEN or DRAINING. -/
def Entry.live (e : Entry) : Bool := e.state != .free

/-- The number of entries that are not FREE (R3). -/
def occupancy (t : Table) : Nat := t.entries.toList.countP Entry.live

/-- The hysteresis flag after a test at an occupancy (R23). -/
def hysteresisAfter (c : Settings) (occ : Nat) (flag : Bool) : Bool :=
  if c.highMark ≤ occ then true else if occ ≤ c.lowMark then false else flag

/-- The pressure level, first row that matches (R22). -/
def levelOf (occ flushes : Nat) (hysteresis idleFlag : Bool) : Pressure :=
  if occ = Config.tableEntries ∨ 0 < flushes then .urgent
  else if hysteresis then .active
  else if idleFlag ∧ 0 < occ then .idle
  else .none

/-- The level that the part's state gives (R22). -/
def State.level (s : State) : Pressure :=
  levelOf (occupancy s.table) s.flushes.length s.drain.hysteresis s.drain.idleFlag

/-- A change of level that places a claim or changes a claim's class, so that arbiters decide (R25, R88). -/
def levelStirs (old new : Pressure) : Bool :=
  old != new && (old == .none || old == .urgent || new == .urgent)

/-- The latch is set. -/
def Errors.latched (e : Errors) (l : Latch) : Bool := e.latches.getLsbD l.position

/-- The latch set becomes v; ALERT is asserted while it is not empty (R160). -/
def Errors.withLatches (e : Errors) (v : BitVec 8) : Errors := { e with latches := v, alert := v != 0 }

/-- A latch is set (R160). -/
def Errors.setLatch (e : Errors) (l : Latch) : Errors := e.withLatches (e.latches ||| BitVec.twoPow 8 l.position)

/-- The latches that CLEAR_ERRORS cannot clear: DIE_FAILED and POISON_FULL (R161). -/
def stickyLatches : BitVec 8 := BitVec.twoPow 8 Latch.dieFailed.position ||| BitVec.twoPow 8 Latch.poisonFull.position

/-- CLEAR_ERRORS with a latch mask (R161). -/
def Errors.clear (e : Errors) (mask : BitVec 8) : Errors := e.withLatches (e.latches &&& (~~~mask ||| stickyLatches))

/-- The halted condition: CHECK_POLICY is STOP and HEADER_CHECK is latched (R139, R162). -/
def State.halted (s : State) : Bool := s.chan.settings.checkPolicy == 1 && s.errs.latched .headerCheck

end Sys2Proof.Machine
end

