-- ==== Sys2Proof/Machine/Ops.lean ====
section
/-! DEFINITION. The named operations over the part's state: one home for each update, answers, the Log, the table's
look-ups, the Drain Scheduler, the Maintenance Unit, the Die Arbiter, and how an event closes. -/

namespace Sys2Proof.Machine

/-! ### Reading and updating one piece of state -/

def State.entry (s : State) (i : Fin 32) : Entry := s.table.entries[i]
def State.port (s : State) (d : DieId) : Port := s.ports[d]
def State.care (s : State) (d : DieId) : DieCare := s.maint.dies[d]

def State.setLink (s : State) (l : Link) : State := { s with link := l }
def State.setTable (s : State) (t : Table) : State := { s with table := t }
def State.setEntry (s : State) (i : Fin 32) (e : Entry) : State :=
  s.setTable { s.table with entries := s.table.entries.set i e }
def State.setDrain (s : State) (d : Drain) : State := { s with drain := d }
def State.setReads (s : State) (r : Reads) : State := { s with reads := r }
def State.setFlushes (s : State) (l : List FlushRecord) : State := { s with flushes := l }
def State.setPort (s : State) (d : DieId) (p : Port) : State := { s with ports := s.ports.set d p }
def State.setMaint (s : State) (m : Maint) : State := { s with maint := m }
def State.setCare (s : State) (d : DieId) (c : DieCare) : State :=
  s.setMaint { s.maint with dies := s.maint.dies.set d c }
def State.setChan (s : State) (c : Channel) : State := { s with chan := c }
def State.setErrs (s : State) (e : Errors) : State := { s with errs := e }

/-- The same step at dies 0 to 3 in turn. -/
def forDies (f : DieId → State → State) (s : State) : State := f 3 (f 2 (f 1 (f 0 s)))

/-- A property of all four dies. -/
def allDies (p : DieId → Bool) : Bool := p 0 && p 1 && p 2 && p 3

/-- The die is present: its number is below DIE_COUNT (R72). -/
def State.present (s : State) (d : DieId) : Bool := decide (d.val < s.chan.settings.dieCount)

/-- A property of every present die. -/
def State.allPresent (s : State) (p : DieId → Bool) : Bool := allDies fun d => !s.present d || p d

/-- The same step at every present die. -/
def State.forPresent (s : State) (f : DieId → State → State) : State :=
  forDies (fun d t => if t.present d then f d t else t) s

/-! ### Settings, profiles and timers -/

/-- A timer started with a setting in µs; 0 disables it (R24, R119). -/
def usTimer (us : Nat) : Timer := if us = 0 then none else some (us * 1000)

def Profile.field (p : Profile) (n : Fin 16) : Nat := p.fields[n].toNat

def Channel.profile (c : Channel) (p : ProfileId) : Profile :=
  match p with
  | .a => c.profileA
  | .b => c.profileB

def Channel.setProfile (c : Channel) (p : ProfileId) (v : Profile) : Channel :=
  match p with
  | .a => { c with profileA := v }
  | .b => { c with profileB := v }

/-- A field of the active profile (R141). -/
def State.activeField (s : State) (n : Fin 16) : Nat := (s.chan.profile s.chan.active).field n

/-- The capacity in lines: DIE_COUNT × 2^DIE_LINES_LOG2 (R137, R151). -/
def State.capacity (s : State) : Nat := s.chan.settings.dieCount * 2 ^ s.chan.settings.dieLinesLog2

/-- The park-delay timer restarts with PARK_DELAY, or stops at 0 (R119). -/
def State.restartParkDelay (s : State) : State :=
  s.setChan { s.chan with parkDelay := usTimer s.chan.settings.parkDelay }

/-- The idle-drain timer restarts with IDLE_DRAIN_TIME, or stops at 0, and the idle flag is cleared (R24). -/
def State.restartIdleDrain (s : State) : State :=
  s.setDrain { s.drain with idleTimer := usTimer s.chan.settings.idleDrainTime, idleFlag := false }

/-- The refresh window for the GRANULARITY in force (R80, R97). -/
def State.refreshWindow (s : State) : Nat :=
  match s.chan.settings.granularity with
  | 1 => s.activeField 5
  | 2 => s.activeField 6
  | _ => s.activeField 7

/-- A die's due interval as it stands (R97). -/
def State.dueInterval (s : State) (d : DieId) : Nat :=
  let full := s.activeField 4 / s.chan.settings.granularity
  match (s.care d).band with
  | .hot | .critical => full / 2
  | .cool | .normal => full

/-! ### The Log and the latches -/

/-- What a report gives to the Log; absent fields are none (R166). -/
structure LogNote where
  kind : LogKind
  detail : Nat := 0
  die : Option DieId := none
  line : Option LineAddr := none
  tag : Option Tag := none
  wsn : Option Wsn := none

/-- A record is appended; a full Log first loses its oldest (R165). -/
def Errors.append (e : Errors) (r : LogRecord) : Errors :=
  if Config.logRecords ≤ e.log.length then
    { e with log := e.log.tail ++ [r], overwrite := true, nextRecord := e.nextRecord + 1 }.setLatch .logOverwritten
  else
    { e with log := e.log ++ [r], nextRecord := e.nextRecord + 1 }

/-- A record takes the next number and the part state as it stands (R165, R166). -/
def State.logNote (s : State) (n : LogNote) : State :=
  s.setErrs (s.errs.append
    { number := s.errs.nextRecord, kind := n.kind, part := s.chan.partState, detail := BitVec.ofNat 16 n.detail
      die := n.die, line := n.line, tag := n.tag, wsn := n.wsn })

def State.latch (s : State) (l : Latch) : State := s.setErrs (s.errs.setLatch l)

/-! ### Answers -/

/-- An ANSWER with a status and detail (R150, R170). -/
def Answer.plain (tag : Tag) (status : Status) (detail : BitVec 32) : Answer :=
  { data := false, poison := false, tag := tag, status := status, beats := [], payload := [], detail := detail }

/-- A DATA answer to a READ (R150). -/
def Answer.ofRead (tag : Tag) (poison : Bool) (beats : List (Vector Byte 8)) : Answer :=
  { data := true, poison := poison, tag := tag, status := .ok, beats := beats, payload := [], detail := 0 }

/-- A DATA answer to a QUERY (R150, R155). -/
def Answer.ofQuery (tag : Tag) (payload : List Byte) : Answer :=
  { data := true, poison := false, tag := tag, status := .ok, beats := [], payload := payload, detail := 0 }

/-- An answer is queued (R154). A request answered in the event of its hand-off needs no more (R153). -/
def State.queue (s : State) (a : Answer) : State := s.setLink { s.link with answers := s.link.answers ++ [a] }

/-- An answer without data to a request answered at once. -/
def State.reply (s : State) (tag : Tag) (status : Status) : State := s.queue (Answer.plain tag status 0)

/-- A request becomes outstanding: its tag joins the Tag Set (R153). -/
def State.joinTag (s : State) (tag : Tag) : State := s.setLink { s.link with tags := s.link.tags ++ [tag] }

/-- The answer of an outstanding request is queued and its tag released (R153). -/
def State.close (s : State) (a : Answer) : State :=
  s.setLink { s.link with tags := s.link.tags.filter (· != a.tag), answers := s.link.answers ++ [a] }

/-- The procedure ends: it is answered unless suppressed, and its record is cleared (R115). -/
def State.endProcedure (s : State) (status : Status) (detail : BitVec 32) : State :=
  match s.chan.procedure with
  | none => s
  | some pr =>
    let s1 := s.setChan { s.chan with procedure := none }
    if pr.suppressed then s1 else s1.close (Answer.plain pr.tag status detail)

/-! ### The table: look-ups -/

/-- The die index of a line (R72). -/
def State.dieIndex (s : State) (line : LineAddr) : DieId := Fin.ofNat 4 (line.toNat % s.chan.settings.dieCount)

/-- The die line of a line (R72). -/
def State.dieLine (s : State) (line : LineAddr) : Nat := line.toNat / s.chan.settings.dieCount

/-- The die of an entry that is not FREE. -/
def State.entryDie (s : State) (i : Fin 32) : Option DieId := (s.entry i).line.map s.dieIndex

/-- The lowest index whose entry has the property. -/
def State.findEntry (s : State) (p : Entry → Bool) : Option (Fin 32) :=
  (List.finRange 32).find? fun i => p (s.entry i)

/-- The OPEN entry of a line (R3). -/
def State.openEntry (s : State) (line : LineAddr) : Option (Fin 32) :=
  s.findEntry fun e => e.state == .opened && e.line == some line

/-- The DRAINING entry of a line (R3). -/
def State.drainingEntry (s : State) (line : LineAddr) : Option (Fin 32) :=
  s.findEntry fun e => e.state == .draining && e.line == some line

/-- The SECOND entry of a line (R4). -/
def State.secondEntry (s : State) (line : LineAddr) : Option (Fin 32) :=
  s.findEntry fun e => e.state == .opened && e.gen == .second && e.line == some line

/-- The lowest-index FREE entry (R9). -/
def State.freeEntry (s : State) : Option (Fin 32) := s.findEntry fun e => e.state == .free

/-- A line's hold: a read of it is in the Read Wait List (R1, R61). -/
def State.lineHeld (s : State) (line : LineAddr) : Bool := s.reads.list.any fun r => r.line == line

/-- Among the entries with the property, the one whose first WSN precedes the others' (R6, R27). -/
def State.oldest (s : State) (p : Fin 32 → Bool) : Option (Fin 32) :=
  (List.finRange 32).foldl
    (fun best i =>
      if p i then
        match best with
        | none => some i
        | some j => if precedes (s.entry i).firstWsn (s.entry j).firstWsn then some i else some j
      else best)
    none

/-! ### The Drain Scheduler: eligibility, selection, level -/

/-- An entry is eligible for a selection claim (R26). -/
def State.eligible (s : State) (i : Fin 32) : Bool :=
  let e := s.entry i
  e.state == .opened && e.gen == .first &&
    match e.line with
    | none => false
    | some line =>
      let port := (s.port (s.dieIndex line)).state
      !s.lineHeld line && (port == .idle || port == .busy) &&
        (s.chan.partState == .running || (s.chan.partState == .stopped && port != .failed))

/-- A DRAINING entry lies on the die (R27). -/
def State.dieDraining (s : State) (d : DieId) : Bool :=
  (List.finRange 32).any fun i => (s.entry i).state == .draining && s.entryDie i == some d

def State.setDrainClaim (s : State) (d : DieId) (c : Option DrainClaim) : State :=
  s.setPort d { s.port d with drainClaim := c }

/-- Every selection claim of the die is withdrawn; a continuation claim stays (R25). -/
def State.withdrawSelection (s : State) (d : DieId) : State :=
  match (s.port d).drainClaim with
  | some c => if c.continuation then s else s.setDrainClaim d none
  | none => s

/-- The scheduler selects for a die: the claim of its oldest eligible entry, while pressure is above NONE and the die
has no DRAINING entry (R27). -/
def State.select (s : State) (d : DieId) : State :=
  if s.dieDraining d then s.withdrawSelection d
  else if s.drain.pressure = .none then s.setDrainClaim d none
  else
    s.setDrainClaim d
      ((s.oldest fun i => s.eligible i && s.entryDie i == some d).map fun i => { entry := i, continuation := false })

/-- The hysteresis flag is tested against the occupancy (R23). -/
def State.testHysteresis (s : State) : State :=
  s.setDrain
    { s.drain with hysteresis := hysteresisAfter s.chan.settings (occupancy s.table) s.drain.hysteresis }

/-- The level takes its value, and the change acts on the claims of each present die (R22, R25). -/
def State.takeLevel (s : State) : State :=
  let old := s.drain.pressure
  let new := s.level
  if new = old then s
  else
    (s.setDrain { s.drain with pressure := new }).forPresent fun d t =>
      if new = .none then t.withdrawSelection d else if old = .none then t.select d else t

/-! ### The Maintenance Unit: condition and claims -/

/-- The park suspension of a die: from the grant of its PARK ENTER to the DONE of its next PARK EXIT (R95). -/
def Port.parkSuspended (p : Port) : Bool :=
  p.state == .parked ||
    match p.slot with
    | some ⟨.parkEnter _, _, _⟩ | some ⟨.parkExit _ _, _, _⟩ => true
    | _ => false

/-- A switch phase that suspends every die (R95). -/
def State.phaseSuspends (s : State) : Bool :=
  s.chan.partState == .switching &&
    match s.chan.phase with
    | some .clock | some .wake | some .recal | some .apply => true
    | some .quiesce | none => false

/-- The maintenance condition that the port and the part state give (R95). -/
def State.conditionOf (s : State) (d : DieId) : Condition :=
  let p := s.port d
  match p.state with
  | .off | .init | .failed => .stopped
  | .idle | .busy | .settling | .parked => if p.parkSuspended || s.phaseSuspends then .suspended else .active

/-- The recal period of the active profile as a timer length in ns (R104). -/
def State.recalPeriod (s : State) : Nat := s.activeField 10 * 1000000

/-- The unit re-tests a die's condition; the due timers start or stop with it (R95). -/
def State.retest (s : State) (d : DieId) : State :=
  let c := s.care d
  let new := s.conditionOf d
  if new = c.condition then s
  else if new = .active then
    s.setCare d
      { c with
        condition := new, refreshDue := some (s.dueInterval d), recalDue := some s.recalPeriod, coolSkip := false }
  else s.setCare d { c with condition := new, refreshDue := none, recalDue := none }

/-- A refresh claim is owed or pulled in (R99). -/
def State.wantsRefresh (s : State) (d : DieId) : Bool :=
  let c := s.care d
  let inFlight :=
    match (s.port d).slot with
    | some ⟨.refresh _, _, _⟩ => true
    | _ => false
  c.condition == .active && !inFlight &&
    (decide (c.balance < 0) || (s.chan.settings.pullIn == 1 && decide (c.balance < 8)))

/-- A recal claim is owed and not in flight (R104). -/
def State.wantsRecal (s : State) (d : DieId) : Bool :=
  let c := s.care d
  let inFlight :=
    match (s.port d).slot with
    | some ⟨.shortRecal _, _, _⟩ => true
    | _ => false
  c.condition == .active && !inFlight && c.recalPending

/-- A TEMP READ claim is owed and not in flight (R103). -/
def State.wantsTemp (s : State) (d : DieId) : Bool :=
  let c := s.care d
  let inFlight :=
    match (s.port d).slot with
    | some ⟨.tempRead, _, _⟩ => true
    | _ => false
  c.condition == .active && !inFlight && c.tempPending

/-- The unit keeps its claims at the die's arbiter (R95, R99, R103, R104). -/
def State.keepCareClaims (s : State) (d : DieId) : State :=
  s.setPort d
    { s.port d with
      refreshClaim := s.wantsRefresh d, recalClaim := s.wantsRecal d, tempClaim := s.wantsTemp d }

/-! ### Channel Control: claims kept while a part state lasts -/

def State.setChannelClaim (s : State) (d : DieId) (c : Option ChannelOp) : State :=
  s.setPort d { s.port d with channelClaim := c }

/-- A PARK ENTER is in flight on the port. -/
def Port.entering (p : Port) : Bool :=
  match p.slot with
  | some ⟨.parkEnter _, _, _⟩ => true
  | _ => false

/-- The claims Channel Control keeps at a die: PARK EXIT of a parked die in WAKING and STOPPED (R122, R132), LONG RECAL
of an IDLE die that owes one in STOPPED (R132), PARK ENTER of a die with its refresh paid up in QUIESCE (R125). -/
def State.keepChannelClaim (s : State) (d : DieId) : State :=
  let p := s.port d
  match s.chan.partState with
  | .waking => if p.state = .parked then s.setChannelClaim d (some .parkExit) else s
  | .stopped =>
    if p.state = .parked then s.setChannelClaim d (some .parkExit)
    else if p.state = .idle ∧ s.chan.recalOwed[d] then s.setChannelClaim d (some .longRecal)
    else s
  | .switching =>
    if s.chan.phase = some .quiesce then
      s.setChannelClaim d
        (if p.state ≠ .parked ∧ ¬ p.entering ∧ 0 ≤ (s.care d).balance then some .parkEnter else none)
    else s
  | .config | .bringup | .running | .parking | .parked => s

/-! ### The Die Arbiter -/

/-- The classes of claim that the part state permits (R89, R91). -/
inductive ClaimClass
  | channel (op : ChannelOp)
  | forcedRefresh | owedRefresh | pullIn | recal | read | drain | temp
  deriving DecidableEq, Repr

/-- The part state permits the class (R91). -/
def State.permits (s : State) (c : ClaimClass) : Bool :=
  match s.chan.partState with
  | .config | .parked => false
  | .bringup =>
    match c with
    | .channel .dieReset | .channel .longRecal | .channel (.set _ _) => true
    | _ => false
  | .running | .waking => true
  | .parking =>
    match c with
    | .channel _ => true
    | _ => false
  | .switching =>
    match s.chan.phase with
    | some .quiesce =>
      match c with
      | .channel _ | .forcedRefresh | .owedRefresh => true
      | _ => false
    | some .wake | some .recal | some .apply =>
      match c with
      | .channel _ => true
      | _ => false
    | some .clock | none => false
  | .stopped =>
    match c with
    | .channel .parkExit | .channel .longRecal => true
    | .channel _ | .read => false
    | .forcedRefresh | .owedRefresh | .pullIn | .recal | .drain | .temp => true

/-- A claim that the arbiter grants. -/
inductive Pick
  | channel (op : ChannelOp)
  | refresh
  | recal
  | temp
  /-- a read claim; `place3` grants move the alternation flag -/
  | read (r : ReadRecord)
  | drain (c : DrainClaim) (place3 : Bool)
  deriving DecidableEq, Repr

/-- The oldest read claim with its record (R46, R89). -/
def State.readClaimant (s : State) (d : DieId) : Option ReadRecord :=
  (s.port d).readClaims.findSome? fun c => s.reads.list.find? fun r => r.claim == c

/-- The drain claim, unless it is a selection claim that fails the test of R28. -/
def State.drainClaimant (s : State) (d : DieId) : Option DrainClaim :=
  (s.port d).drainClaim.filter fun c => c.continuation || s.eligible c.entry

/-- The claim granted from place 3: reads and urgent drains alternate (R90). -/
def State.placeThree (s : State) (d : DieId) : Option Pick :=
  let read := (if s.permits .read then s.readClaimant d else none).map Pick.read
  let drain :=
    (if s.permits .drain ∧ s.drain.pressure = .urgent then s.drainClaimant d else none).map fun c => Pick.drain c true
  match (s.port d).alternation with
  | .read => drain <|> read
  | .drain => read <|> drain

/-- The first grantable claim at an IDLE port in the grant order (R89). -/
def State.firstInOrder (s : State) (d : DieId) : Option Pick :=
  let p := s.port d
  let balance := (s.care d).balance
  let claim (c : ClaimClass) (pending : Bool) (pick : Pick) : Option Pick :=
    if pending && s.permits c then some pick else none
  (p.channelClaim.bind fun op => claim (.channel op) true (.channel op)) <|>
  claim .forcedRefresh (p.refreshClaim && decide (balance ≤ -7)) .refresh <|>
  claim .recal (p.recalClaim && (s.care d).recalForced) .recal <|>
  s.placeThree d <|>
  claim .owedRefresh (p.refreshClaim && decide (-7 < balance) && decide (balance < 0)) .refresh <|>
  claim .recal (p.recalClaim && !(s.care d).recalForced) .recal <|>
  claim .temp p.tempClaim .temp <|>
  (if s.permits .drain ∧ s.drain.pressure ≠ .urgent then s.drainClaimant d else none).map (Pick.drain · false) <|>
  claim .pullIn (p.refreshClaim && decide (0 ≤ balance)) .refresh

/-- The arbiter's decision at a port: nothing while its slot is filled; only bring-up steps at OFF and INIT, only a
PARK EXIT at PARKED, any claim at IDLE (R73, R74, R78, R88). -/
def State.decision (s : State) (d : DieId) : Option Pick :=
  let p := s.port d
  if p.slot.isSome then none
  else
    match p.state with
    | .off => if p.channelClaim = some .dieReset ∧ s.permits (.channel .dieReset) then some (.channel .dieReset) else none
    | .init =>
      if p.settle.isSome then none
      else p.channelClaim.bind fun op => if s.permits (.channel op) then some (.channel op) else none
    | .parked => if p.channelClaim = some .parkExit ∧ s.permits (.channel .parkExit) then some (.channel .parkExit) else none
    | .idle => s.firstInOrder d
    | .busy | .settling | .failed => none

/-- The mode of a PARK EXIT at its grant: NORMAL in a rate switch, WAKE_MODE otherwise (R108, R127). -/
def State.exitMode (s : State) : WakeMode :=
  if s.chan.partState ≠ .switching ∧ s.chan.settings.wakeMode = 1 then .quick else .normal

/-- The operation of a Channel Control claim, with the active profile's values (R80, R82). -/
def State.channelOperation (s : State) (op : ChannelOp) : Operation :=
  match op with
  | .dieReset => .dieReset
  | .longRecal => .longRecal (s.activeField 9)
  | .set i v => .set i v
  | .parkEnter => .parkEnter (s.activeField 12)
  | .parkExit =>
    match s.exitMode with
    | .normal => .parkExit .normal (s.activeField 13)
    | .quick => .parkExit .quick (s.activeField 14)

/-- The drain step chosen at a drain grant (R28). -/
def State.firstStep (s : State) (e : Entry) : DrainStep :=
  if maskFull e.mask then .fullWrite
  else if s.chan.settings.maskedWrites = 1 then .maskedWrite
  else .rmwRead

/-- The die operation of a drain step, with the entry's bytes and the part's data check (R29, R81, R82). -/
def State.drainOperation (s : State) (e : Entry) (step : DrainStep) : Operation :=
  let dieLine := s.dieLine (e.line.getD 0)
  match step with
  | .fullWrite | .rmwWrite => .lineWrite dieLine e.data (lineCheck e.data) (s.activeField 2) (s.activeField 3)
  | .maskedWrite =>
    .maskedWrite dieLine e.mask e.data (maskedCheck e.mask e.data) (s.activeField 2) (s.activeField 3)
  | .rmwRead => .lineRead dieLine (s.activeField 1)

/-- The port state after a grant (R73, R75). -/
def PortState.granted : PortState → PortState
  | .off | .init => .init
  | _ => .busy

/-- A grant fills the slot, starts the op-limit timer and changes the port state (R75). -/
def State.fillSlot (s : State) (d : DieId) (slot : Slot) (p : Port) : State :=
  s.setPort d
    { p with
      slot := some slot, opLimit := some (s.chan.settings.dieOpLimit * 1000), state := p.state.granted }

/-- A grant of one claim: the claim leaves the pending set, its operation starts, and its claimant is told: a read
record becomes AT_DIE, an OPEN entry becomes DRAINING (R28, R46, R75, R90). -/
def State.grant (s : State) (d : DieId) (pick : Pick) : State :=
  let p := s.port d
  match pick with
  | .channel op => s.fillSlot d ⟨s.channelOperation op, .channel, none⟩ { p with channelClaim := none }
  | .refresh => s.fillSlot d ⟨.refresh s.refreshWindow, .maintenance, none⟩ { p with refreshClaim := false }
  | .recal => s.fillSlot d ⟨.shortRecal (s.activeField 8), .maintenance, none⟩ { p with recalClaim := false }
  | .temp => s.fillSlot d ⟨.tempRead, .maintenance, none⟩ { p with tempClaim := false }
  | .read r =>
    let s1 := s.fillSlot d ⟨.lineRead (s.dieLine r.line) (s.activeField 1), .reads r.claim, some r.line⟩
      { p with readClaims := p.readClaims.filter (· != r.claim), alternation := .read }
    s1.setReads
      { s.reads with list := s.reads.list.map fun x => if x.claim = r.claim then { x with state := .atDie } else x }
  | .drain c place3 =>
    let e := s.entry c.entry
    let e1 :=
      if c.continuation then e
      else { e with state := .draining, step := some (s.firstStep e), attempts := 0 }
    let step := e1.step.getD (s.firstStep e)
    let s1 := s.fillSlot d ⟨s.drainOperation e step, .drain c.entry, e.line⟩
      { p with drainClaim := none, alternation := if place3 then .drain else p.alternation }
    s1.setEntry c.entry e1

/-- The arbiter of a present port decides and grants (R88); the Maintenance Unit re-tests the die (R95), and the scheduler
selects for it, since its port state has changed (R26, R27). -/
def State.arbitrate (s : State) (d : DieId) : State :=
  if s.present d then
    match s.decision d with
    | none => s
    | some pick => (((s.grant d pick).retest d).keepCareClaims d).select d
  else s

/-! ### Closing an event -/

/-- The blocks place and withdraw their claims at a die whose port, part state, entries or reads have changed. -/
def State.prepare (s : State) (d : DieId) : State :=
  if s.present d then (((s.retest d).keepCareClaims d).keepChannelClaim d).select d else s

/-- The level is re-evaluated and acted on, with no other change (R22, R25). -/
def State.relevel (s : State) : State :=
  let t := s.takeLevel
  if levelStirs s.drain.pressure s.level then forDies (fun d x => x.arbitrate d) t else t

/-- An event closes: the hysteresis flag and the level are re-evaluated; the claims are placed at the touched dies, and
at all dies after a change of part state or phase; then the arbiters decide (R22, R23, R26, R76, R88, R113; log 7). -/
def State.finish (s before : State) (touched : DieId → Bool) : State :=
  let s1 := s.testHysteresis
  let moved := s.chan.partState != before.chan.partState || s.chan.phase != before.chan.phase
  let stirs := levelStirs s1.drain.pressure s1.level
  let s2 := forDies (fun d x => if moved || touched d then x.prepare d else x) s1.takeLevel
  forDies (fun d x => if moved || stirs || touched d then x.arbitrate d else x) s2

/-- An event that concerns one die closes. -/
def State.finishAt (s before : State) (d : DieId) : State := s.finish before fun x => x == d

end Sys2Proof.Machine
end

