-- ==== Sys2Proof/Machine/Table.lean ====
section
/-! DEFINITION. The Posted Write Table and the Flush Tracker: posting, capture, fill, retirement, revert at die failure,
and the notices that answer flushes (chapters 1, 2 and 4). -/

namespace Sys2Proof.Machine

/-! ### Posting (R7 to R12) -/

/-- A write merged into an OPEN entry (R8). -/
def Entry.merged (e : Entry) (m : Mask) (data : LineData) (wsn : Wsn) : Entry :=
  { e with
    mask := e.mask ||| m, data := overlay m data e.data, lastWsn := wsn
    merges := min (e.merges + 1) Config.mergesMax }

/-- A FREE entry allocated to a write (R9). -/
def Entry.allocated (line : LineAddr) (gen : Generation) (m : Mask) (data : LineData) (wsn : Wsn) : Entry :=
  { state := .opened, line := some line, mask := m, data := maskedBytes m data, firstWsn := wsn, lastWsn := wsn
    merges := 1, gen := gen, step := none, attempts := 0 }

/-- What the table decides for a WRITE (R7). -/
inductive Posting
  | unchanged
  | retry
  | entry (i : Fin 32) (e : Entry)
  deriving DecidableEq, Repr

/-- Some entry stands too far behind the counter (R7 step 2). -/
def State.tooFar (s : State) : Bool :=
  (List.finRange 32).any fun i => (s.entry i).live && tooFarBehind s.table.nextWsn (s.entry i).firstWsn

/-- The generation of an entry allocated now for a line (R4, R9). -/
def State.newGeneration (s : State) (line : LineAddr) : Generation :=
  if (s.drainingEntry line).isSome then .second else .first

/-- The table's decision for a WRITE handed to it (R7). -/
def State.posting (s : State) (line : LineAddr) (m : Mask) (data : LineData) : Posting :=
  let wsn := s.table.nextWsn
  if m = 0 then .unchanged
  else if s.tooFar then .retry
  else
    match s.openEntry line with
    | some i => .entry i ((s.entry i).merged m data wsn)
    | none =>
      match s.freeEntry with
      | some i => .entry i (Entry.allocated line (s.newGeneration line) m data wsn)
      | none => .retry

/-- The counter advances (R5). -/
def State.advanceWsn (s : State) : State := s.setTable { s.table with nextWsn := s.table.nextWsn + 1 }

/-- The line leaves the Poison List; the others keep their order (R12, R164). -/
def State.unpoison (s : State) (line : LineAddr) : State :=
  s.setErrs { s.errs with poison := s.errs.poison.filter (·.1 != line) }

/-- A posted write takes its WSN and its entry; a full mask takes the line off the Poison List (R5, R12). -/
def State.post (s : State) (i : Fin 32) (e : Entry) (line : LineAddr) (m : Mask) : State :=
  let s1 := (s.setEntry i e).advanceWsn
  if maskFull m then s1.unpoison line else s1

/-! ### Capture (R19, R41) -/

/-- The captured mask. -/
def State.captureMask (s : State) (line : LineAddr) : Mask :=
  let maskAt (o : Option (Fin 32)) : Mask := (o.map fun i => (s.entry i).mask).getD 0
  maskAt (s.drainingEntry line) ||| maskAt (s.openEntry line)

/-- The captured data: OPEN bytes over DRAINING bytes over zero. -/
def State.captureData (s : State) (line : LineAddr) : LineData :=
  let lay (o : Option (Fin 32)) (under : LineData) : LineData :=
    match o with
    | some i => overlay (s.entry i).mask (s.entry i).data under
    | none => under
  lay (s.openEntry line) (lay (s.drainingEntry line) zeroLine)

/-- The line is on the Poison List (R40). -/
def State.poisoned (s : State) (line : LineAddr) : Bool := s.errs.poison.any fun x => x.1 == line

/-! ### Flush Tracker (R62 to R67) -/

/-- No entry's first WSN precedes the boundary (R63 step 2, R65). -/
def State.flushComplete (s : State) (boundary : Wsn) : Bool :=
  (List.finRange 32).all fun i => !((s.entry i).live && precedes (s.entry i).firstWsn boundary)

/-- A loss notice sets the loss flag of each record whose boundary the first WSN precedes (R66). -/
def FlushRecord.flagged (r : FlushRecord) (lost : Bool) (first : Wsn) : FlushRecord :=
  { r with loss := r.loss || (lost && precedes first r.boundary) }

/-- The answer of a complete flush record (R65). -/
def FlushRecord.answer (r : FlushRecord) : Answer := Answer.plain r.tag (if r.loss then .loss else .ok) 0

/-- Answers of outstanding requests, queued in order. -/
def State.closeAll (s : State) (answers : List Answer) : State := answers.foldl State.close s

/-- A notice of a retirement or loss: flags, then every complete record is answered in list order (R65 to R67). -/
def State.notice (s : State) (lost : Bool) (first : Wsn) : State :=
  let records := s.flushes.map (·.flagged lost first)
  (s.setFlushes (records.filter fun r => !s.flushComplete r.boundary)).closeAll
    ((records.filter fun r => s.flushComplete r.boundary).map FlushRecord.answer)

/-! ### Leaving the table -/

/-- The SECOND entry of a line, if any, becomes FIRST (R4). -/
def State.promote (s : State) (line : LineAddr) : State :=
  match s.secondEntry line with
  | some j => s.setEntry j { s.entry j with gen := .first }
  | none => s

/-- A DRAINING entry is freed, its SECOND promoted and the Flush Tracker notified (R15, R16 steps 2 to 5). -/
def State.leave (s : State) (i : Fin 32) (lost : Bool) : State :=
  let e := s.entry i
  let s1 := s.setEntry i Entry.freed
  let s2 :=
    match e.line with
    | some line => s1.promote line
    | none => s1
  s2.notice lost e.firstWsn

/-- Retirement (R15, R30). -/
def State.retire (s : State) (i : Fin 32) : State := s.leave i false

/-- The fill of an RMW drain and its continuation claim (R32, R34). -/
def State.fill (s : State) (d : DieId) (i : Fin 32) (dieData : LineData) : State :=
  let e := s.entry i
  (s.setEntry i { e with data := overlay e.mask e.data dieData, step := some .rmwWrite }).setDrainClaim d
    (some { entry := i, continuation := true })

/-- A SECOND entry merged into the reverting entry of its line (R18). -/
def Entry.absorbed (e second : Entry) : Entry :=
  { e with
    mask := e.mask ||| second.mask, data := overlay second.mask second.data e.data, lastWsn := second.lastWsn
    merges := min (e.merges + second.merges) Config.mergesMax }

/-- A DRAINING entry of a failed die reverts to OPEN and absorbs the SECOND entry of its line (R18). -/
def State.revert (s : State) (i : Fin 32) : State :=
  let e : Entry := { s.entry i with state := .opened, step := none, gen := .first }
  match e.line.bind s.secondEntry with
  | some j => (s.setEntry i (e.absorbed (s.entry j))).setEntry j Entry.freed
  | none => s.setEntry i e

/-- Every DRAINING entry of the die reverts (R18, R36). -/
def State.revertDie (s : State) (d : DieId) : State :=
  (List.finRange 32).foldl
    (fun t i => if (t.entry i).state = .draining ∧ t.entryDie i = some d then t.revert i else t) s

end Sys2Proof.Machine
end

