-- ==== Sys2Proof/Machine/Control.lean ====
section
/-! DEFINITION. Channel Control: changes of part state and phase, bring-up, parking and waking, the rate switch, die
failure and STOPPED, the DIE_SETTING forward, and the loss of a drain (chapters 2, 5, 7, 8 and 10). -/

namespace Sys2Proof.Machine

/-! ### Part state -/

def State.setPartState (s : State) (p : PartState) (phase : Option Phase) : State :=
  s.setChan { s.chan with partState := p, phase := phase }

/-- The part becomes RUNNING from BRINGUP, WAKING or SWITCHING; the park-delay timer restarts (R119). -/
def State.becomeRunning (s : State) : State := (s.setPartState .running none).restartParkDelay

/-- A waking request turns PARKING or PARKED to WAKING (R122); the PARK EXIT claims follow as the event closes. -/
def State.wake (s : State) : State :=
  if s.chan.partState = .parking ∨ s.chan.partState = .parked then s.setPartState .waking none else s

/-- A port's state is one of those given at every present port. -/
def State.portsAll (s : State) (p : Port → Bool) : Bool := s.allPresent fun d => p (s.port d)

/-- A PARK ENTER or PARK EXIT is pending or in flight on the port. -/
def Port.moving (p : Port) : Bool :=
  p.channelClaim == some .parkEnter || p.channelClaim == some .parkExit ||
    match p.slot with
    | some ⟨.parkEnter _, _, _⟩ | some ⟨.parkExit _ _, _, _⟩ => true
    | _ => false

/-- The wake ends when no present port is PARKED or moving (R123). -/
def State.endWake (s : State) : State :=
  if s.chan.partState = .waking ∧ s.portsAll (fun p => p.state != .parked && !p.moving) then s.becomeRunning else s

/-! ### Setting Shadow and die settings -/

/-- The shadow records a value as known (R143). -/
def State.recordShadow (s : State) (d : DieId) (index : BitVec 4) (value : BitVec 16) : State :=
  s.setChan
    { s.chan with
      shadow := s.chan.shadow.set d ((s.chan.shadow[d]).set index.toFin { value := value, known := true }) }

/-- The value the part writes to die setting 0, 1, 2 or 3 (R117). -/
def State.dieSettingValue (s : State) (index : BitVec 4) : BitVec 16 :=
  let profile := s.chan.profile s.chan.active
  match index.toNat with
  | 0 => profile.fields[1]
  | 1 => profile.fields[2]
  | 2 => profile.fields[3]
  | _ => BitVec.ofNat 16 s.chan.settings.granularity

/-- The claim for the part's own SET of a die setting (R74, R127). -/
def State.claimSet (s : State) (d : DieId) (index : BitVec 4) : State :=
  s.setChannelClaim d (some (.set index (s.dieSettingValue index)))

/-- The die's clock recal owed flag. -/
def State.setRecalOwed (s : State) (d : DieId) (v : Bool) : State :=
  s.setChan { s.chan with recalOwed := s.chan.recalOwed.set d v }

/-- A die's refresh balance. -/
def State.setBalance (s : State) (d : DieId) (b : Int) : State := s.setCare d { s.care d with balance := b }

/-- A die's recal flags are cleared (R104, R105). -/
def State.clearRecal (s : State) (d : DieId) : State :=
  s.setCare d { s.care d with recalPending := false, recalForced := false }

/-! ### Bring-up (R117, R118) -/

/-- The failed dies of the START in progress. -/
def State.startFailed (s : State) : BitVec 4 :=
  match s.chan.procedure with
  | some ⟨.start failed, _, _⟩ => failed
  | _ => 0

/-- A die joins the failed dies of the START in progress (R118). -/
def State.addFailed (s : State) (d : DieId) : State :=
  match s.chan.procedure with
  | some ⟨.start failed, tag, suppressed⟩ =>
    s.setChan { s.chan with procedure := some ⟨.start (failed ||| dieBit d), tag, suppressed⟩ }
  | _ => s

/-- A die clock's period: the active profile's field 0 (R73, R141). -/
def State.activePeriod (s : State) : Nat := s.activeField 0

/-- A port returned to OFF after a failed START (R86). -/
def Port.toOff (p : Port) (clock : Nat) : Port :=
  { Port.atReset (some clock) with alternation := p.alternation }

/-- A failed START ends once every slot is empty and every settle timer stopped: ports OFF, shadow unknown, CONFIG, and
the answer FAILED with the failed dies (R118). -/
def State.abortBringup (s : State) : State :=
  let failed := s.startFailed
  if s.chan.partState = .bringup ∧ failed ≠ 0 ∧ s.portsAll (fun p => p.slot.isNone && p.settle.isNone) then
    let s1 := s.forPresent fun d t =>
      (t.setPort d ((t.port d).toOff t.activePeriod)).setChan
        { t.chan with shadow := t.chan.shadow.set d shadowUnknown }
    ((s1.setChan { s1.chan with recalOwed := Vector.replicate 4 false }).setPartState .config none).endProcedure .failed
      (failed.setWidth 32)
  else s

/-- A bring-up step's claim, unless a die has failed (R118). -/
def State.bringupClaim (s : State) (d : DieId) (op : ChannelOp) : State :=
  if s.startFailed = 0 then s.setChannelClaim d (some op) else s

/-- The thermal poll length in ns for a TEMP_POLL in ms. -/
def pollLength (ms : Nat) : Nat := ms * 1000000

/-- A die's bring-up ends (R106, R117); the part becomes RUNNING with the last present die's. -/
def State.endBringup (s : State) (d : DieId) : State :=
  let s1 := (((s.setPort d { s.port d with state := .idle }).setBalance d 0).clearRecal d).setRecalOwed d false
  if s1.portsAll (fun p => p.state == .idle) then
    let s2 := s1.becomeRunning.endProcedure .ok 0
    s2.setMaint { s2.maint with pollTimer := some (pollLength s2.chan.settings.tempPoll) }
  else s1

/-! ### Parking and the rate switch -/

/-- Entry to phase CLOCK (R126). -/
def State.enterClock (s : State) : State :=
  match s.chan.procedure with
  | some ⟨.rateSwitch target, _, _⟩ =>
    let profile := s.chan.profile target
    let s1 := s.forPresent fun d t =>
      (t.setPort d { t.port d with clock := some (profile.field 0) }).setRecalOwed d true
    s1.setChan { s1.chan with phase := some .clock, active := target, relock := some (profile.field 15 * 1000) }
  | _ => s

/-- The last present die has become PARKED: PARKING ends in PARKED, QUIESCE in CLOCK (R121, R125). -/
def State.allParked (s : State) : State :=
  if s.portsAll (fun p => p.state == .parked) then
    if s.chan.partState = .parking then s.setPartState .parked none
    else if s.chan.partState = .switching ∧ s.chan.phase = some .quiesce then s.enterClock
    else s
  else s

/-- A phase begins with one claim at every present port (R127). -/
def State.beginPhase (s : State) (phase : Phase) (op : State → ChannelOp) : State :=
  (s.setPartState .switching (some phase)).forPresent fun d t => t.setChannelClaim d (some (op t))

/-- Phase WAKE (R126, R127). -/
def State.beginWake (s : State) : State := s.beginPhase .wake fun _ => .parkExit

/-- Phase RECAL, when every present port is IDLE in WAKE (R127). -/
def State.endWakePhase (s : State) : State :=
  if s.chan.partState = .switching ∧ s.chan.phase = some .wake ∧ s.portsAll (fun p => p.state == .idle) then
    s.beginPhase .recal fun _ => .longRecal
  else s

/-- Phase APPLY, when every LONG RECAL of RECAL has completed DONE (R127). -/
def State.endRecalPhase (s : State) : State :=
  if s.chan.partState = .switching ∧ s.chan.phase = some .recal ∧ s.allPresent (fun d => !s.chan.recalOwed[d]) then
    s.beginPhase .apply fun t => .set 0 (t.dieSettingValue 0)
  else s

/-- A switch ends when the last settle timer of APPLY expires (R128). -/
def State.endSwitch (s : State) : State :=
  if s.portsAll (fun p => p.state == .idle && p.channelClaim.isNone) then
    (s.forPresent fun d t => t.setBalance d 0).becomeRunning.endProcedure .ok 0
  else s

/-! ### DIE_SETTING forward (R144 to R147) -/

/-- The SET of the forward in progress that die d still needs: its index and value. -/
def State.forwardSet (s : State) (d : DieId) : Option (BitVec 4 × BitVec 16) :=
  match s.chan.procedure with
  | some ⟨.dieSetting mask index value done, _, _⟩ =>
    if mask.getLsbD d.val && !done.getLsbD d.val then some (index, value) else none
  | _ => none

/-- The forward's SET claim is placed at die d, if the forward still needs it (R145). -/
def State.claimForward (s : State) (d : DieId) : State :=
  match s.forwardSet d with
  | some (index, value) => s.setChannelClaim d (some (.set index value))
  | none => s

/-- A settled SET of the forward marks its die done, and the forward ends with the last (R146, log 17). -/
def State.forwardSettled (s : State) (d : DieId) (index : BitVec 4) (value : BitVec 16) : State :=
  match s.chan.procedure with
  | some ⟨.dieSetting mask i v done, tag, suppressed⟩ =>
    if s.forwardSet d = some (index, value) then
      let done1 := done ||| dieBit d
      let s1 := s.setChan { s.chan with procedure := some ⟨.dieSetting mask i v done1, tag, suppressed⟩ }
      if mask &&& ~~~done1 = 0 then s1.endProcedure .ok 0 else s1
    else s
  | _ => s

/-! ### STOPPED and die failure -/

/-- The detail of a procedure overtaken by STOPPED: a switch's phase code, a forward's done mask (R130, R147). -/
def State.stopDetail (s : State) : BitVec 32 :=
  match s.chan.procedure with
  | some ⟨.rateSwitch _, _, _⟩ => BitVec.ofNat 32 ((s.chan.phase.map Phase.code).getD 0)
  | some ⟨.dieSetting _ _ _ done, _, _⟩ => done.setWidth 32
  | _ => 0

/-- Every listed READ is answered STOPPED in list order and its claim withdrawn (R59). -/
def State.stopReads (s : State) : State :=
  ((forDies (fun d t => t.setPort d { t.port d with readClaims := [] }) s).setReads { s.reads with list := [] }).closeAll
    (s.reads.list.map fun r => Answer.plain r.tag .stopped 0)

/-- Every listed FLUSH is answered STOPPED in list order (R69). -/
def State.stopFlushes (s : State) : State :=
  (s.setFlushes []).closeAll (s.flushes.map fun r => Answer.plain r.tag .stopped 0)

/-- Channel Control's pending claims other than PARK EXIT are withdrawn (R130, R131). -/
def State.stopClaims (s : State) : State :=
  forDies
    (fun d t => if (t.port d).channelClaim = some .parkExit then t else t.setChannelClaim d none) s

/-- Entry to STOPPED from RUNNING, PARKING, WAKING or SWITCHING (R131). In any other state nothing changes. -/
def State.enterStopped (s : State) (cause : StopCause) : State :=
  match s.chan.partState with
  | .running | .parking | .waking | .switching =>
    let s1 := s.setChan { s.chan with partState := .stopped, phase := none, stopCause := some cause }
    (s1.endProcedure .failed s.stopDetail).stopReads.stopFlushes.stopClaims
  | .config | .bringup | .parked | .stopped => s

/-- A FAILED port: operation abandoned, timers stopped, claims withdrawn, clock low (R85). -/
def Port.fail (p : Port) : Port := { Port.atReset none with state := .failed, alternation := p.alternation }

/-- The tag of the listed read record that the operation in the slot serves (R85 step 4). -/
def State.slotTag (s : State) (d : DieId) : Option Tag :=
  match (s.port d).slot with
  | some ⟨_, .reads claim, _⟩ => (s.reads.list.find? fun r => r.claim == claim).map ReadRecord.tag
  | _ => none

/-- A port becomes FAILED (R85, R86): the record and latch, the port, the reverted entry, then bring-up's failed set or
STOPPED. `detail` is TIMEOUT for an op-limit expiry and FAILED for a FAIL completion. -/
def State.failPort (s : State) (d : DieId) (detail : Status) : State :=
  let s1 :=
    (s.logNote
      { kind := .dieFailed, detail := detail.code, die := some d, line := (s.port d).slot.bind Slot.line
        tag := s.slotTag d }).latch .dieFailed
  let s2 := (s1.setPort d (s1.port d).fail).revertDie d
  if s2.chan.partState = .bringup then (s2.addFailed d).abortBringup else s2.enterStopped .dieFailed

/-! ### Loss of a drain (R16, R33, R163) -/

/-- The listed reads of the line take the lost mark (R50). -/
def State.markLost (s : State) (line : LineAddr) : State :=
  s.setReads { s.reads with list := s.reads.list.map fun r => if r.line = line then { r with lost := true } else r }

/-- The Error Unit takes a loss: the Poison List, the WRITE_LOST record and latch, the lost marks, and on overflow
the POISON_FULL record and latch and the entry to STOPPED (R163). -/
def State.reportLoss (s : State) (line : LineAddr) (wsn : Wsn) (cause : LossCause) : State :=
  let die := s.dieIndex line
  let note (kind : LogKind) : LogNote :=
    { kind := kind, detail := cause.code, die := some die, line := some line, wsn := some wsn }
  let overflow := !s.poisoned line && decide (Config.poisonLines ≤ s.errs.poison.length)
  let s1 :=
    if s.poisoned line ∨ overflow then s
    else s.setErrs { s.errs with poison := s.errs.poison ++ [(line, die)] }
  let s2 := ((s1.logNote (note .writeLost)).latch .writeLost).markLost line
  if overflow then ((s2.logNote (note .poisonFull)).latch .poisonFull).enterStopped .poisonFull else s2

/-- Loss of the drain of entry i (R16). -/
def State.lose (s : State) (i : Fin 32) (cause : LossCause) : State :=
  let e := s.entry i
  let s1 :=
    match e.line with
    | some line => s.reportLoss line e.firstWsn cause
    | none => s
  s1.leave i true

/-- A CHECK_FAIL on a write step: a retry of the same step, or the loss past DRAIN_RETRY (R31). -/
def State.retryOrLose (s : State) (d : DieId) (i : Fin 32) : State :=
  let e := s.entry i
  if e.attempts + 1 ≤ s.chan.settings.drainRetry then
    (s.setEntry i { e with attempts := e.attempts + 1 }).setDrainClaim d (some { entry := i, continuation := true })
  else s.lose i .checkFail

end Sys2Proof.Machine
end

