-- ==== Sys2Proof/Machine/Timers.lean ====
section
/-! DEFINITION. The expiries of the part's timers. An expiry of a timer that is not running changes nothing (log 4). -/

namespace Sys2Proof.Machine

/-! ### Drain Scheduler and Channel Control timers -/

/-- The idle flag is set and the level re-evaluated (R24). -/
def State.expireIdleDrain (s : State) : State :=
  (s.setDrain { s.drain with idleTimer := none, idleFlag := true }).relevel

/-- IDLE_DRAIN_TIMER_EXPIRY. -/
def execIdleDrainTimerExpiry (s : State) : Host.Outcome State Fault Refusal :=
  match s.drain.idleTimer with
  | none => .next s
  | some _ => .next s.expireIdleDrain

/-- The park conditions (R107, R120). -/
def State.mayPark (s : State) : Bool :=
  s.chan.partState == .running && occupancy s.table == 0 && s.reads.list.isEmpty && s.flushes.isEmpty &&
    s.chan.procedure.isNone &&
    s.allPresent fun d => (s.port d).state == .idle && decide (0 ≤ (s.care d).balance)

/-- Parking begins with a PARK ENTER claim at every present port (R120). -/
def State.beginParking (s : State) : State :=
  let s1 := s.setChan { s.chan with partState := .parking, phase := none, parkDelay := none }
  (s1.forPresent fun d t => t.setChannelClaim d (some .parkEnter)).finish s fun _ => true

/-- PARK_DELAY_TIMER_EXPIRY. -/
def execParkDelayTimerExpiry (s : State) : Host.Outcome State Fault Refusal :=
  match s.chan.parkDelay with
  | none => .next s
  | some _ => .next (if s.mayPark then s.beginParking else s.restartParkDelay)

/-- The relock timer stops and phase WAKE begins (R126, R127). -/
def State.expireRelock (s : State) : State :=
  ((s.setChan { s.chan with relock := none }).beginWake).finish s fun _ => true

/-- RELOCK_TIMER_EXPIRY. -/
def execRelockTimerExpiry (s : State) : Host.Outcome State Fault Refusal :=
  match s.chan.relock with
  | none => .next s
  | some _ => .next s.expireRelock

/-! ### Port timers -/

/-- What a settled SET moves on: bring-up, phase APPLY, or a forward (R74, R127, R146). -/
def State.settled (s : State) (d : DieId) (index : BitVec 4) (value : BitVec 16) : State :=
  match s.chan.partState with
  | .bringup =>
    (if index.toNat < 3 then s.bringupClaim d (.set (index + 1) (s.dieSettingValue (index + 1)))
      else s.endBringup d).abortBringup
  | .switching => if index.toNat < 3 then s.claimSet d (index + 1) else s.endSwitch
  | .config | .running | .parking | .parked | .waking | .stopped => s.forwardSettled d index value

/-- A port whose settle timer has expired (R77): IDLE, or still INIT in bring-up. -/
def Port.afterSettle (p : Port) : Port :=
  { p with state := if p.state = .settling then .idle else p.state, settle := none, settling := none }

/-- The settle timer's expiry: the port, the shadow, then what waited for it (R77, R143). -/
def State.expireSettle (s : State) (d : DieId) : State :=
  let s1 := s.setPort d (s.port d).afterSettle
  let s2 :=
    match (s.port d).settling with
    | some (index, value) => (s1.recordShadow d index value).settled d index value
    | none => s1
  s2.finishAt s d

/-- SETTLE_TIMER_EXPIRY. -/
def execSettleTimerExpiry (d : DieId) (s : State) : Host.Outcome State Fault Refusal :=
  match (s.port d).settle with
  | none => .next s
  | some _ => .next (s.expireSettle d)

/-- OP_LIMIT_EXPIRY: the port becomes FAILED with detail TIMEOUT (R83, R85). -/
def execOpLimitExpiry (d : DieId) (s : State) : Host.Outcome State Fault Refusal :=
  match (s.port d).opLimit with
  | none => .next s
  | some _ => .next ((s.failPort d .timeout).finishAt s d)

/-! ### Read deadlines -/

/-- A record leaves the list; a pending claim is withdrawn (R45, R46). -/
def State.dropRead (s : State) (r : ReadRecord) : State :=
  let s1 := s.setReads { s.reads with list := s.reads.list.filter (·.claim != r.claim) }
  s1.setPort r.die { s1.port r.die with readClaims := (s1.port r.die).readClaims.filter (· != r.claim) }

/-- The expiry of a record's deadline (R53). -/
def State.expireDeadline (s : State) (r : ReadRecord) : State :=
  let s1 := s.close (Answer.plain r.tag .timeout 0)
  let s2 :=
    s1.logNote
      { kind := .readTimeout, detail := Status.timeout.code, die := some r.die, line := some r.line, tag := some r.tag }
  (s2.dropRead r).finishAt s r.die

/-- DEADLINE_EXPIRY of the listed record with the tag. -/
def execDeadlineExpiry (tag : Tag) (s : State) : Host.Outcome State Fault Refusal :=
  match s.reads.list.find? fun r => r.tag == tag with
  | none => .next s
  | some r => .next (s.expireDeadline r)

/-! ### Maintenance timers -/

/-- A due event is counted in every band but COOL with the toggle set (R98). -/
def DieCare.counts (c : DieCare) : Bool := c.band != .cool || !c.coolSkip

/-- The toggle after a due event (R98). -/
def DieCare.nextToggle (c : DieCare) : Bool := c.band == .cool && !c.coolSkip

/-- The expiry of a refresh due timer: restarted, and the balance lowered, left at -8 with a record, or ignored (R96 to
R98). -/
def State.expireRefreshDue (s : State) (d : DieId) : State :=
  let c := s.care d
  let balance := if c.counts && decide (-8 < c.balance) then c.balance - 1 else c.balance
  let s1 :=
    s.setCare d { c with balance := balance, coolSkip := c.nextToggle, refreshDue := some (s.dueInterval d) }
  let s2 := if c.counts && decide (c.balance ≤ -8) then s1.logNote { kind := .refreshOverrun, die := some d } else s1
  s2.finishAt s d

/-- REFRESH_DUE_EVENT. -/
def execRefreshDueEvent (d : DieId) (s : State) : Host.Outcome State Fault Refusal :=
  match (s.care d).refreshDue with
  | none => .next s
  | some _ => .next (s.expireRefreshDue d)

/-- The expiry of a recal due timer: restarted; pending set, or forced when it was set already (R104). -/
def State.expireRecalDue (s : State) (d : DieId) : State :=
  let c := s.care d
  (s.setCare d
    { c with recalDue := some s.recalPeriod, recalPending := true, recalForced := c.recalForced || c.recalPending }).finishAt
    s d

/-- RECAL_DUE_EVENT. -/
def execRecalDueEvent (d : DieId) (s : State) : Host.Outcome State Fault Refusal :=
  match (s.care d).recalDue with
  | none => .next s
  | some _ => .next (s.expireRecalDue d)

/-- The expiry of the thermal poll timer: restarted; TEMP READ pending at every ACTIVE die (R102). -/
def State.expirePoll (s : State) : State :=
  let s1 := s.setMaint { s.maint with pollTimer := some (pollLength s.chan.settings.tempPoll) }
  (forDies
    (fun d t =>
      if (t.care d).condition = .active then t.setCare d { t.care d with tempPending := true } else t) s1).finish
    s fun _ => true

/-- THERMAL_POLL_EXPIRY. -/
def execThermalPollExpiry (s : State) : Host.Outcome State Fault Refusal :=
  match s.maint.pollTimer with
  | none => .next s
  | some _ => .next s.expirePoll

end Sys2Proof.Machine
end

