-- ==== Sys2Proof/Machine/Completions.lean ====
section
/-! DEFINITION. The completions of the eleven die operations at a port (R76, R84, R87) and what their claimants do. -/

namespace Sys2Proof.Machine

/-! ### The port's side -/

/-- The port after a completion other than FAIL: slot empty, op-limit timer cancelled, INIT in bring-up and IDLE
otherwise (R76). SET and PARK ENTER go on from there. -/
def Port.emptied (p : Port) : Port :=
  { p with slot := none, opLimit := none, state := if p.state = .init then .init else .idle }

def State.emptySlot (s : State) (d : DieId) : State := s.setPort d (s.port d).emptied

/-- A completion carries neither data nor a band. -/
def plainCompletion (c : Completion) : Bool := c.data.isNone && c.band.isNone

/-- DONE of an operation that carries nothing back. -/
def isDone (c : Completion) : Bool := c.outcome == .done && plainCompletion c

/-- FAIL, of an operation that has that outcome (R84). -/
def isFail (c : Completion) : Bool := c.outcome == .fail && plainCompletion c

/-- A port fails on a FAIL completion (R84, R85). -/
def State.completeFail (s : State) (d : DieId) : State := (s.failPort d .failed).finishAt s d

/-- A completion of a control operation in the slot: DONE goes on, FAIL fails the port, anything else is discarded
(R84, R87). -/
def State.controlCompletion (s : State) (d : DieId) (c : Completion) (done : State → State) : State :=
  if isDone c then (done (s.emptySlot d)).finishAt s d
  else if isFail c then s.completeFail d
  else s

/-! ### LINE READ (R47 to R49, R32, R33) -/

/-- Read Service takes the completion of a listed record's LINE READ (R48, R49). -/
def State.answerRead (s : State) (r : ReadRecord) (dieData : Option LineData) : State :=
  let beats (data : LineData) : List (Vector Byte 8) := beatsOf r.startBeat r.half r.pairwise data
  match dieData with
  | some data => (s.close (Answer.ofRead r.tag r.lost (beats (overlay r.mask r.data data)))).dropRead r
  | none =>
    let s1 := s.close (Answer.ofRead r.tag true (beats r.data))
    ((s1.logNote { kind := .readUncorrectable, die := some r.die, line := some r.line, tag := some r.tag }).latch
      .readUncorrectable).dropRead r

/-- The claimant of a LINE READ takes its outcome: 64 bytes, or none for UNCORRECTABLE. A record that has left the list
discards it (R47). -/
def State.takeLineRead (s : State) (d : DieId) (claimant : Claimant) (dieData : Option LineData) : State :=
  match claimant with
  | .reads claim =>
    match s.reads.list.find? fun r => r.claim == claim with
    | some r => s.answerRead r dieData
    | none => s
  | .drain i =>
    match dieData with
    | some data => s.fill d i data
    | none => s.lose i .uncorrectable
  | .channel | .maintenance => s

/-- The data a LINE READ completion brings: bytes on DONE, nothing on UNCORRECTABLE; none for a mismatch (R79, R87). -/
def lineReadOutcome (c : Completion) : Option (Option LineData) :=
  match c.outcome, c.data, c.band with
  | .done, some data, none => some (some data)
  | .uncorrectable, none, none => some none
  | _, _, _ => none

/-- LINE_READ_COMPLETION. -/
def execLineReadCompletion (d : DieId) (c : Completion) (s : State) : Host.Outcome State Fault Refusal :=
  match (s.port d).slot, lineReadOutcome c with
  | some ⟨.lineRead _ _, claimant, _⟩, some data => .next (((s.emptySlot d).takeLineRead d claimant data).finishAt s d)
  | _, _ => .next s

/-! ### LINE WRITE and MASKED WRITE (R30, R31) -/

/-- The Drain Scheduler takes the completion of a write step: DONE retires, CHECK_FAIL retries or loses. -/
def State.takeWriteStep (s : State) (d : DieId) (claimant : Claimant) (stored : Bool) : State :=
  match claimant with
  | .drain i => if stored then s.retire i else s.retryOrLose d i
  | .reads _ | .channel | .maintenance => s

/-- A write's outcome: whether the die stored the bytes; none for a mismatch (R79, R87). -/
def writeOutcome (c : Completion) : Option Bool :=
  if plainCompletion c then
    match c.outcome with
    | .done => some true
    | .checkFail => some false
    | .uncorrectable | .fail => none
  else none

/-- LINE_WRITE_COMPLETION. -/
def execLineWriteCompletion (d : DieId) (c : Completion) (s : State) : Host.Outcome State Fault Refusal :=
  match (s.port d).slot, writeOutcome c with
  | some ⟨.lineWrite _ _ _ _ _, claimant, _⟩, some stored =>
    .next (((s.emptySlot d).takeWriteStep d claimant stored).finishAt s d)
  | _, _ => .next s

/-- MASKED_WRITE_COMPLETION. -/
def execMaskedWriteCompletion (d : DieId) (c : Completion) (s : State) : Host.Outcome State Fault Refusal :=
  match (s.port d).slot, writeOutcome c with
  | some ⟨.maskedWrite _ _ _ _ _ _, claimant, _⟩, some stored =>
    .next (((s.emptySlot d).takeWriteStep d claimant stored).finishAt s d)
  | _, _ => .next s

/-! ### Maintenance operations -/

/-- REFRESH DONE raises the balance by one, never above +8 (R96, R100). -/
def State.refreshDone (d : DieId) (s : State) : State :=
  let b := (s.care d).balance
  s.setBalance d (if b < 8 then b + 1 else b)

/-- REFRESH_COMPLETION. -/
def execRefreshCompletion (d : DieId) (c : Completion) (s : State) : Host.Outcome State Fault Refusal :=
  match (s.port d).slot with
  | some ⟨.refresh _, _, _⟩ => .next (s.controlCompletion d c (State.refreshDone d))
  | _ => .next s

/-- SHORT_RECAL_COMPLETION: DONE clears both recal flags (R104). -/
def execShortRecalCompletion (d : DieId) (c : Completion) (s : State) : Host.Outcome State Fault Refusal :=
  match (s.port d).slot with
  | some ⟨.shortRecal _, _, _⟩ => .next (s.controlCompletion d c fun t => t.clearRecal d)
  | _ => .next s

/-- The Maintenance Unit takes a band (R103). -/
def State.takeBand (s : State) (d : DieId) (band : Band) : State :=
  let s1 := s.setCare d { s.care d with tempPending := false, band := band }
  if band = .critical then (s1.logNote { kind := .thermalCritical, die := some d }).latch .thermalCritical else s1

/-- The band a TEMP READ's DONE carries; none for a mismatch (R80, R87). -/
def temperatureOf (c : Completion) : Option Band :=
  match c.outcome, c.data with
  | .done, none => c.band
  | _, _ => none

/-- TEMP_READ_COMPLETION. -/
def execTempReadCompletion (d : DieId) (c : Completion) (s : State) : Host.Outcome State Fault Refusal :=
  match (s.port d).slot, temperatureOf c with
  | some ⟨.tempRead, _, _⟩, some band => .next (((s.emptySlot d).takeBand d band).finishAt s d)
  | _, _ => .next s

/-! ### Control operations -/

/-- LONG RECAL DONE clears the recal flags and the clock recal owed flag, and moves bring-up or the RECAL phase on
(R74, R105, R127, R132). -/
def State.longRecalDone (d : DieId) (s : State) : State :=
  let s1 := (s.clearRecal d).setRecalOwed d false
  match s1.chan.partState with
  | .bringup => (s1.bringupClaim d (.set 0 (s1.dieSettingValue 0))).abortBringup
  | .switching => s1.endRecalPhase
  | .config | .running | .parking | .parked | .waking | .stopped => s1

/-- LONG_RECAL_COMPLETION. -/
def execLongRecalCompletion (d : DieId) (c : Completion) (s : State) : Host.Outcome State Fault Refusal :=
  match (s.port d).slot with
  | some ⟨.longRecal _, _, _⟩ => .next (s.controlCompletion d c (State.longRecalDone d))
  | _ => .next s

/-- SET DONE starts the settle timer; outside bring-up the port is SETTLING (R74, R77). -/
def State.setDone (d : DieId) (index : BitVec 4) (value : BitVec 16) (s : State) : State :=
  let p := s.port d
  s.setPort d
    { p with
      state := if p.state = .init then .init else .settling, settle := some (s.activeField 11)
      settling := some (index, value) }

/-- SET_COMPLETION. -/
def execSetCompletion (d : DieId) (c : Completion) (s : State) : Host.Outcome State Fault Refusal :=
  match (s.port d).slot with
  | some ⟨.set index value, _, _⟩ => .next (s.controlCompletion d c (State.setDone d index value))
  | _ => .next s

/-- DIE_RESET_COMPLETION: DONE is followed by the LONG RECAL step (R74). -/
def execDieResetCompletion (d : DieId) (c : Completion) (s : State) : Host.Outcome State Fault Refusal :=
  match (s.port d).slot with
  | some ⟨.dieReset, _, _⟩ => .next (s.controlCompletion d c fun t => (t.bringupClaim d .longRecal).abortBringup)
  | _ => .next s

/-- PARK ENTER DONE: the port is PARKED with balance 0, and the last one ends PARKING or QUIESCE (R78, R107, R121,
R125). -/
def State.parkEnterDone (d : DieId) (s : State) : State :=
  ((s.setPort d { s.port d with state := .parked }).setBalance d 0).allParked

/-- PARK_ENTER_COMPLETION. -/
def execParkEnterCompletion (d : DieId) (c : Completion) (s : State) : Host.Outcome State Fault Refusal :=
  match (s.port d).slot with
  | some ⟨.parkEnter _, _, _⟩ => .next (s.controlCompletion d c (State.parkEnterDone d))
  | _ => .next s

/-- The balance a die resumes with (R108). -/
def WakeMode.balance : WakeMode → Int
  | .normal => 0
  | .quick => -1

/-- PARK EXIT DONE: the balance by its mode, the forward's SET claim, and the end of a wake or of phase WAKE (R108,
R123, R127, R145). -/
def State.parkExitDone (d : DieId) (mode : WakeMode) (s : State) : State :=
  ((((s.setBalance d mode.balance).claimForward d).endWake).endWakePhase)

/-- PARK_EXIT_COMPLETION. -/
def execParkExitCompletion (d : DieId) (c : Completion) (s : State) : Host.Outcome State Fault Refusal :=
  match (s.port d).slot with
  | some ⟨.parkExit mode _, _, _⟩ => .next (s.controlCompletion d c (State.parkExitDone d mode))
  | _ => .next s

end Sys2Proof.Machine
end

