-- ==== Sys2Proof/Machine/Intake.lean ====
section
/-! DEFINITION. The Request Intake: the checks of every message in their order, refusals, and the hold-back while the
Response Queue has no place (R151 to R154, R169). -/

namespace Sys2Proof.Machine

/-- What the Intake checks of one message: its header as sent, and how its kind and code bear on the checks (R151). -/
structure Request where
  kind : BitVec 3
  byte7 : Byte
  header : Header
  malformed : Bool
  /-- let through the halted check: a QUERY or CLEAR_ERRORS -/
  exempt : Bool
  /-- a READ, WRITE or FLUSH, which the state check concerns -/
  memory : Bool
  /-- the line that the range check concerns -/
  line : Option LineAddr
  /-- a WRITE's data check matches -/
  dataOk : Bool

/-- A SETUP of a code whose value may be at most `limit` in form. -/
def Request.setup (code : Byte) (limit : Nat) (h : Header) : Request :=
  { kind := kindSetup, byte7 := code, header := h, malformed := setupMalformed limit h, exempt := false
    memory := false, line := none, dataOk := true }

/-- A QUERY of a code whose argument may be at most `limit` (R152). -/
def Request.query (code : Byte) (limit : Nat) (h : Header) : Request :=
  { kind := kindQuery, byte7 := code, header := h, malformed := queryMalformed limit h, exempt := true
    memory := false, line := none, dataOk := true }

/-- The header check matches (R151 step 1, R171). -/
def Request.headerOk (r : Request) : Bool := xorBytes (headerBytes r.kind r.byte7 r.header) == r.header.check

/-- A message whose header check fails is dropped, logged and latched; it is no request arrival (R151 step 1). -/
def State.headerFault (s : State) : State := (s.logNote { kind := .headerCheck }).latch .headerCheck

/-- A request arrival restarts the idle-drain and park-delay timers, clears the idle flag, and has the level
re-evaluated (R22, R24, R119; log 8). -/
def State.arrive (s : State) : State := s.restartIdleDrain.restartParkDelay.relevel

/-- The state check of a READ, WRITE or FLUSH (R151 step 5). -/
def State.stateRefusal (s : State) : Option Status :=
  match s.chan.partState with
  | .config | .bringup => some .notReady
  | .stopped => some .stopped
  | .running | .parking | .parked | .waking | .switching => none

/-- The line is at or above the capacity (R151 step 6). -/
def State.outOfRange (s : State) (line : Option LineAddr) : Bool :=
  match line with
  | some l => decide (s.capacity ≤ l.toNat)
  | none => false

/-- The status of the first of the checks 2 to 7 that fails (R151). -/
def State.refusal (s : State) (r : Request) : Option Status :=
  if r.malformed then some .malformed
  else if s.halted && !r.exempt then some .halted
  else if s.link.tags.contains r.header.tag then some .tagInUse
  else
    match (if r.memory then s.stateRefusal else none) with
    | some st => some st
    | none =>
      if s.outOfRange r.line then some .range
      else if !r.dataOk then some .dataCheck
      else none

/-- A WRITE refused at the data check is logged with its line and tag, and latched (R151 step 7). -/
def State.dataFault (s : State) (r : Request) : State :=
  (s.logNote { kind := .dataCheck, detail := Status.dataCheck.code, line := r.line, tag := some r.header.tag }).latch
    .dataCheck

/-- The Intake takes a message: header fault, refusal, or hand-off to the block that serves it (R151). -/
def State.intake (s : State) (r : Request) (serve : State → State) : State :=
  if r.headerOk then
    let s1 := s.arrive
    match s1.refusal r with
    | some .dataCheck => (s1.dataFault r).reply r.header.tag .dataCheck
    | some st => s1.reply r.header.tag st
    | none => serve s1
  else s.headerFault

/-- The Response Queue has a place: queued answers and outstanding requests are fewer than 24 (R154). -/
def State.hasPlace (s : State) : Bool := decide (s.link.answers.length + s.link.tags.length < Config.queuePlaces)

/-- A message ready on the link is taken, or held there behind the ones held before it (R154, log 5). -/
def State.deliver (s : State) (c : Instr) (taken : State → State) : State :=
  if s.link.held = [] ∧ s.hasPlace then taken s
  else s.setLink { s.link with held := s.link.held ++ [c] }

end Sys2Proof.Machine
end

