-- ==== Sys2Proof/Machine/Settings.lean ====
section
/-! DEFINITION. SETUP of the fifteen part settings, of profile fields, and PROFILE_COMMIT (chapter 8), and a SETUP of
an undefined code. -/

namespace Sys2Proof.Machine

/-! ### Part settings (R135) -/

def State.setSettings (s : State) (c : Settings) : State := s.setChan { s.chan with settings := c }

/-- Channel Control decides a SETUP of a part setting: BAD_SETTING, BAD_STATE, or accepted and answered OK (R135). -/
def State.serveSetting (h : Header) (bad : State → Nat → Bool) (configOnly : Bool) (accept : Nat → State → State)
    (s : State) : State :=
  let v := h.value.toNat
  if bad s v then s.reply h.tag .badSetting
  else if configOnly ∧ s.chan.partState ≠ .config then s.reply h.tag .badState
  else (accept v s).reply h.tag .ok

/-- A range of values: those below `lo` or above `hi` are bad. -/
def outside (lo hi : Nat) (_ : State) (v : Nat) : Bool := decide (v < lo) || decide (hi < v)

/-- A part setting's SETUP. The whole 32-bit value is defined in form (R169). -/
def State.takeSetting (code : Byte) (h : Header) (bad : State → Nat → Bool) (configOnly : Bool)
    (accept : Nat → State → State) (s : State) : State :=
  s.intake (Request.setup code anyValue h) (State.serveSetting h bad configOnly accept)

def acceptCheckPolicy (v : Nat) (s : State) : State := s.setSettings { s.chan.settings with checkPolicy := v }

def takeSetupCheckPolicy (h : Header) (s : State) : State := s.takeSetting 0x01 h (outside 0 1) false acceptCheckPolicy

/-- SETUP_CHECK_POLICY: the halted condition is read from the setting and the latch (R139). -/
def execSetupCheckPolicy (h : Header) (s : State) : Host.Outcome State Fault Refusal :=
  .next (s.deliver (.setupCheckPolicy h) (takeSetupCheckPolicy h))

/-- HIGH_MARK must be above LOW_MARK (R136). -/
def badHighMark (s : State) (v : Nat) : Bool := outside 1 32 s v || decide (v ≤ s.chan.settings.lowMark)

def acceptHighMark (v : Nat) (s : State) : State :=
  (s.setSettings { s.chan.settings with highMark := v }).finish s fun _ => false

def takeSetupHighMark (h : Header) (s : State) : State := s.takeSetting 0x02 h badHighMark false acceptHighMark

/-- SETUP_HIGH_MARK: the hysteresis flag is re-tested and the level re-evaluated (R23, R38). -/
def execSetupHighMark (h : Header) (s : State) : Host.Outcome State Fault Refusal :=
  .next (s.deliver (.setupHighMark h) (takeSetupHighMark h))

/-- LOW_MARK must be below HIGH_MARK (R136). -/
def badLowMark (s : State) (v : Nat) : Bool := outside 0 31 s v || decide (s.chan.settings.highMark ≤ v)

def acceptLowMark (v : Nat) (s : State) : State :=
  (s.setSettings { s.chan.settings with lowMark := v }).finish s fun _ => false

def takeSetupLowMark (h : Header) (s : State) : State := s.takeSetting 0x03 h badLowMark false acceptLowMark

/-- SETUP_LOW_MARK: the hysteresis flag is re-tested and the level re-evaluated (R23, R38). -/
def execSetupLowMark (h : Header) (s : State) : Host.Outcome State Fault Refusal :=
  .next (s.deliver (.setupLowMark h) (takeSetupLowMark h))

def acceptIdleDrainTime (v : Nat) (s : State) : State :=
  (s.setSettings { s.chan.settings with idleDrainTime := v }).restartIdleDrain.relevel

def takeSetupIdleDrainTime (h : Header) (s : State) : State :=
  s.takeSetting 0x04 h (outside 0 1000) false acceptIdleDrainTime

/-- SETUP_IDLE_DRAIN_TIME: the idle-drain timer restarts with the new length or stops (R24, R38). -/
def execSetupIdleDrainTime (h : Header) (s : State) : Host.Outcome State Fault Refusal :=
  .next (s.deliver (.setupIdleDrainTime h) (takeSetupIdleDrainTime h))

def acceptReadWaitLimit (v : Nat) (s : State) : State := s.setSettings { s.chan.settings with readWaitLimit := v }

def takeSetupReadWaitLimit (h : Header) (s : State) : State :=
  s.takeSetting 0x05 h (outside 1 1000) false acceptReadWaitLimit

/-- SETUP_READ_WAIT_LIMIT: used for READs that arrive afterwards (R52). -/
def execSetupReadWaitLimit (h : Header) (s : State) : Host.Outcome State Fault Refusal :=
  .next (s.deliver (.setupReadWaitLimit h) (takeSetupReadWaitLimit h))

def acceptParkDelay (v : Nat) (s : State) : State :=
  (s.setSettings { s.chan.settings with parkDelay := v }).restartParkDelay

def takeSetupParkDelay (h : Header) (s : State) : State := s.takeSetting 0x06 h (outside 0 65535) false acceptParkDelay

/-- SETUP_PARK_DELAY: the park-delay timer restarts with the new length or stops (R119). -/
def execSetupParkDelay (h : Header) (s : State) : Host.Outcome State Fault Refusal :=
  .next (s.deliver (.setupParkDelay h) (takeSetupParkDelay h))

def acceptWakeMode (v : Nat) (s : State) : State := s.setSettings { s.chan.settings with wakeMode := v }

def takeSetupWakeMode (h : Header) (s : State) : State := s.takeSetting 0x07 h (outside 0 1) false acceptWakeMode

/-- SETUP_WAKE_MODE: used for each PARK EXIT granted afterwards (R108). -/
def execSetupWakeMode (h : Header) (s : State) : Host.Outcome State Fault Refusal :=
  .next (s.deliver (.setupWakeMode h) (takeSetupWakeMode h))

def acceptPullIn (v : Nat) (s : State) : State :=
  (s.setSettings { s.chan.settings with pullIn := v }).finish s fun _ => true

def takeSetupPullIn (h : Header) (s : State) : State := s.takeSetting 0x08 h (outside 0 1) false acceptPullIn

/-- SETUP_PULL_IN: pull-in refresh claims are placed or withdrawn at once (R99, R101). -/
def execSetupPullIn (h : Header) (s : State) : Host.Outcome State Fault Refusal :=
  .next (s.deliver (.setupPullIn h) (takeSetupPullIn h))

def acceptMaskedWrites (v : Nat) (s : State) : State := s.setSettings { s.chan.settings with maskedWrites := v }

def takeSetupMaskedWrites (h : Header) (s : State) : State := s.takeSetting 0x09 h (outside 0 1) true acceptMaskedWrites

/-- SETUP_MASKED_WRITES: used for each drain step chosen afterwards (R28). -/
def execSetupMaskedWrites (h : Header) (s : State) : Host.Outcome State Fault Refusal :=
  .next (s.deliver (.setupMaskedWrites h) (takeSetupMaskedWrites h))

/-- Neither 1, 2 nor 4: the values of DIE_COUNT and GRANULARITY (R135). -/
def notOneTwoFour (v : Nat) : Bool := v != 1 && v != 2 && v != 4

/-- A port's die clock runs at the given period when the die is present and is held low when it is absent (R72). -/
def State.setClocks (s : State) (period : Nat) : State :=
  forDies (fun d t => t.setPort d { t.port d with clock := if t.present d then some period else none }) s

def acceptDieCount (v : Nat) (s : State) : State :=
  let s1 := s.setSettings { s.chan.settings with dieCount := v }
  s1.setClocks s1.activePeriod

def takeSetupDieCount (h : Header) (s : State) : State :=
  s.takeSetting 0x0A h (fun _ v => notOneTwoFour v) true acceptDieCount

/-- SETUP_DIE_COUNT: sets the present ports, their die clocks and the capacity (R72, R137). -/
def execSetupDieCount (h : Header) (s : State) : Host.Outcome State Fault Refusal :=
  .next (s.deliver (.setupDieCount h) (takeSetupDieCount h))

def acceptDieLinesLog2 (v : Nat) (s : State) : State := s.setSettings { s.chan.settings with dieLinesLog2 := v }

def takeSetupDieLinesLog2 (h : Header) (s : State) : State :=
  s.takeSetting 0x0B h (outside 20 28) true acceptDieLinesLog2

/-- SETUP_DIE_LINES_LOG2: sets the capacity (R136, R137). -/
def execSetupDieLinesLog2 (h : Header) (s : State) : Host.Outcome State Fault Refusal :=
  .next (s.deliver (.setupDieLinesLog2 h) (takeSetupDieLinesLog2 h))

/-- The refresh window field for a GRANULARITY (R142). -/
def Profile.window (p : Profile) (g : Nat) : Nat :=
  match g with
  | 1 => p.field 5
  | 2 => p.field 6
  | _ => p.field 7

/-- The refresh rule of R142 under a GRANULARITY. -/
def Profile.refreshRule (p : Profile) (g : Nat) : Bool :=
  decide (4 * max (max (p.window g) (p.field 8)) (max (p.field 11) (p.field 12)) ≤ p.field 4 / g / 2)

/-- The other of the two profiles. -/
def otherProfile : ProfileId → ProfileId
  | .a => .b
  | .b => .a

/-- A GRANULARITY that breaks the refresh rule of a valid active profile is refused (R138). -/
def badGranularity (s : State) (v : Nat) : Bool :=
  let active := s.chan.profile s.chan.active
  notOneTwoFour v || (active.valid && !active.refreshRule v)

/-- The other profile loses its flag if it fails under the new value (R138). -/
def acceptGranularity (v : Nat) (s : State) : State :=
  let s1 := s.setSettings { s.chan.settings with granularity := v }
  let other := otherProfile s1.chan.active
  let profile := s1.chan.profile other
  s1.setChan (s1.chan.setProfile other { profile with valid := profile.valid && profile.refreshRule v })

def takeSetupGranularity (h : Header) (s : State) : State := s.takeSetting 0x0C h badGranularity true acceptGranularity

/-- SETUP_GRANULARITY (R138). -/
def execSetupGranularity (h : Header) (s : State) : Host.Outcome State Fault Refusal :=
  .next (s.deliver (.setupGranularity h) (takeSetupGranularity h))

def acceptTempPoll (v : Nat) (s : State) : State :=
  let s1 := s.setSettings { s.chan.settings with tempPoll := v }
  s1.setMaint { s1.maint with pollTimer := s1.maint.pollTimer.map fun _ => pollLength v }

def takeSetupTempPoll (h : Header) (s : State) : State := s.takeSetting 0x0D h (outside 1 1000) false acceptTempPoll

/-- SETUP_TEMP_POLL: a running poll timer restarts with the new length (R102). -/
def execSetupTempPoll (h : Header) (s : State) : Host.Outcome State Fault Refusal :=
  .next (s.deliver (.setupTempPoll h) (takeSetupTempPoll h))

def acceptDrainRetry (v : Nat) (s : State) : State := s.setSettings { s.chan.settings with drainRetry := v }

def takeSetupDrainRetry (h : Header) (s : State) : State := s.takeSetting 0x0E h (outside 0 7) false acceptDrainRetry

/-- SETUP_DRAIN_RETRY: compared at each later CHECK_FAIL (R31). -/
def execSetupDrainRetry (h : Header) (s : State) : Host.Outcome State Fault Refusal :=
  .next (s.deliver (.setupDrainRetry h) (takeSetupDrainRetry h))

def acceptDieOpLimit (v : Nat) (s : State) : State := s.setSettings { s.chan.settings with dieOpLimit := v }

def takeSetupDieOpLimit (h : Header) (s : State) : State :=
  s.takeSetting 0x0F h (outside 10 1000) false acceptDieOpLimit

/-- SETUP_DIE_OP_LIMIT: used for each operation granted afterwards (R83). -/
def execSetupDieOpLimit (h : Header) (s : State) : Host.Outcome State Fault Refusal :=
  .next (s.deliver (.setupDieOpLimit h) (takeSetupDieOpLimit h))

/-! ### Profiles (R140 to R142) -/

/-- A profile's field takes a value and the profile loses its flag; in CONFIG the present die clocks follow field 0 of
the active profile (R140, R141). -/
def State.writeField (s : State) (p : ProfileId) (n : Fin 16) (v : BitVec 16) : State :=
  let profile := s.chan.profile p
  let s1 := s.setChan (s.chan.setProfile p { fields := profile.fields.set n v, valid := false })
  if p = s.chan.active ∧ n = 0 then s1.setClocks v.toNat else s1

/-- Channel Control decides the write of a profile field (R140). -/
def State.serveFieldWrite (p : ProfileId) (n : Fin 16) (h : Header) (s : State) : State :=
  if 65535 < h.value.toNat then s.reply h.tag .badSetting
  else if s.chan.partState = .switching ∨ (p = s.chan.active ∧ s.chan.partState ≠ .config) then
    s.reply h.tag .badState
  else (s.writeField p n (h.value.setWidth 16)).reply h.tag .ok

def takeProfileFieldWrite (p : ProfileId) (n : Fin 16) (h : Header) (s : State) : State :=
  s.intake (Request.setup (fieldCode p n) anyValue h) (State.serveFieldWrite p n h)

/-- PROFILE_FIELD_WRITE. -/
def execProfileFieldWrite (p : ProfileId) (n : Fin 16) (h : Header) (s : State) : Host.Outcome State Fault Refusal :=
  .next (s.deliver (.profileFieldWrite p n h) (takeProfileFieldWrite p n h))

/-- The profile that a value names: 0 for A, 1 for B (R124, R142, R148). -/
def profileOfValue (v : BitVec 32) : Option ProfileId :=
  if v = 0 then some .a else if v = 1 then some .b else none

/-- The ranges at commit, by field number (section 8.2). -/
def commitRanges : Vector (Nat × Nat) 16 :=
  #v[(625, 2500), (8, 32), (6, 24), (8, 32), (1000, 15600), (50, 1000), (50, 1000), (50, 1000),
     (50, 1000), (100, 10000), (1, 1024), (10, 1000), (50, 2000), (100, 5000), (50, 5000), (1, 100)]

/-- The test of a PROFILE_COMMIT under a GRANULARITY (R142 step 3). -/
def Profile.sound (p : Profile) (g : Nat) : Bool :=
  ((List.finRange 16).all fun n => decide ((commitRanges[n]).1 ≤ p.field n ∧ p.field n ≤ (commitRanges[n]).2)) &&
    decide (p.field 2 ≤ p.field 1) && decide (p.field 14 ≤ p.field 13) && p.refreshRule g

/-- Channel Control decides a PROFILE_COMMIT (R142). -/
def State.serveCommit (h : Header) (s : State) : State :=
  match profileOfValue h.value with
  | none => s.reply h.tag .badSetting
  | some p =>
    let profile := s.chan.profile p
    if s.chan.partState = .switching then s.reply h.tag .badState
    else if profile.sound s.chan.settings.granularity then
      (s.setChan (s.chan.setProfile p { profile with valid := true })).reply h.tag .ok
    else s.reply h.tag .badSetting

def takeProfileCommit (h : Header) (s : State) : State :=
  s.intake (Request.setup 0x10 anyValue h) (State.serveCommit h)

/-- PROFILE_COMMIT. -/
def execProfileCommit (h : Header) (s : State) : Host.Outcome State Fault Refusal :=
  .next (s.deliver (.profileCommit h) (takeProfileCommit h))

/-! ### An undefined setting code (R152) -/

def takeUndefinedSettingCode (code : Byte) (h : Header) (s : State) : State :=
  s.intake { Request.setup code anyValue h with malformed := true } id

/-- A SETUP whose code names nothing is answered MALFORMED. -/
def execUndefinedSettingCode (code : Byte) (h : Header) (s : State) : Host.Outcome State Fault Refusal :=
  if settingCodeDefined code then .refused (.illFormed "UNDEFINED_SETTING_CODE")
  else .next (s.deliver (.undefinedSettingCode code h) (takeUndefinedSettingCode code h))

end Sys2Proof.Machine
end

