-- ==== Sys2Proof/Machine/Procedures.lean ====
section
/-! DEFINITION. The SETUP actions: START, RATE_SWITCH, CLEAR_ERRORS, RESTART and DIE_SETTING (chapters 7, 8 and 10). -/

namespace Sys2Proof.Machine

/-- A procedure record is made and its request keeps its tag (R115). -/
def State.beginProcedure (s : State) (kind : ProcedureKind) (tag : Tag) : State :=
  (s.setChan { s.chan with procedure := some { kind := kind, tag := tag, suppressed := false } }).joinTag tag

/-! ### START (R116) -/

/-- Channel Control decides a START. -/
def State.serveStart (h : Header) (s : State) : State :=
  if s.chan.partState ≠ .config ∨ ¬ (s.chan.profile s.chan.active).valid then s.reply h.tag .badState
  else
    let s1 := (s.beginProcedure (.start 0) h.tag).setPartState .bringup none
    (s1.forPresent fun d t => t.setChannelClaim d (some .dieReset)).finish s fun _ => true

def takeStart (h : Header) (s : State) : State := s.intake (Request.setup 0x11 0 h) (State.serveStart h)

/-- START. -/
def execStart (h : Header) (s : State) : Host.Outcome State Fault Refusal :=
  .next (s.deliver (.start h) (takeStart h))

/-! ### RATE_SWITCH (R124) -/

/-- A DIE_SETTING forward is in progress. -/
def State.forwarding (s : State) : Bool :=
  match s.chan.procedure with
  | some ⟨.dieSetting _ _ _ _, _, _⟩ => true
  | _ => false

/-- An accepted switch: QUIESCE from RUNNING, CLOCK from PARKED (R124). -/
def State.beginSwitch (s : State) (target : ProfileId) (tag : Tag) : State :=
  let s1 := (s.beginProcedure (.rateSwitch target) tag).setPartState .switching (some .quiesce)
  (if s.chan.partState = .parked then s1.enterClock else s1).finish s fun _ => true

/-- Channel Control decides a RATE_SWITCH. -/
def State.serveRateSwitch (h : Header) (s : State) : State :=
  match profileOfValue h.value with
  | none => s.reply h.tag .badSetting
  | some target =>
    if ¬ (s.chan.profile target).valid ∨ target = s.chan.active then s.reply h.tag .badSetting
    else if s.chan.partState ≠ .running ∧ s.chan.partState ≠ .parked then s.reply h.tag .badState
    else if s.forwarding then s.reply h.tag .retry
    else s.beginSwitch target h.tag

def takeRateSwitch (h : Header) (s : State) : State :=
  s.intake (Request.setup 0x12 anyValue h) (State.serveRateSwitch h)

/-- RATE_SWITCH. -/
def execRateSwitch (h : Header) (s : State) : Host.Outcome State Fault Refusal :=
  .next (s.deliver (.rateSwitch h) (takeRateSwitch h))

/-! ### CLEAR_ERRORS (R161) -/

/-- The Error Unit clears the named latches. -/
def State.serveClearErrors (h : Header) (s : State) : State :=
  (s.setErrs (s.errs.clear (h.value.setWidth 8))).reply h.tag .ok

def takeClearErrors (h : Header) (s : State) : State :=
  s.intake { Request.setup 0x13 255 h with exempt := true } (State.serveClearErrors h)

/-- CLEAR_ERRORS. -/
def execClearErrors (h : Header) (s : State) : Host.Outcome State Fault Refusal :=
  .next (s.deliver (.clearErrors h) (takeClearErrors h))

/-! ### RESTART (R133) -/

/-- A present port has an operation in flight. -/
def State.operating (s : State) : Bool := !s.portsAll fun p => p.slot.isNone

/-- Channel Control at RESTART: the settings, the profiles and the restarted park-delay timer stay (R119, R133). -/
def Channel.restarted (c : Channel) : Channel :=
  { Channel.atReset with
    settings := c.settings, profileA := c.profileA, profileB := c.profileB, parkDelay := c.parkDelay }

/-- Every block at its power-on value but for what R133 keeps; the RESTART record carries the discard count. -/
def State.restarted (s : State) : State :=
  let discarded := occupancy s.table
  let errs := (s.logNote { kind := .restart, detail := discarded }).errs
  let clock (d : DieId) : Option Nat := if s.present d then some (s.chan.profileA.field 0) else none
  { pending := s.pending
    link := { s.link with tags := [] }
    table := State.reset.table
    drain := { State.reset.drain with idleTimer := s.drain.idleTimer }
    reads := State.reset.reads
    flushes := []
    ports := Vector.ofFn fun d => Port.atReset (clock d)
    maint := State.reset.maint
    chan := s.chan.restarted
    errs := { errs with poison := [] } }

/-- Channel Control decides a RESTART. -/
def State.serveRestart (h : Header) (s : State) : State :=
  match s.chan.partState with
  | .config => s.restarted.reply h.tag .ok
  | .stopped => if s.operating then s.reply h.tag .retry else s.restarted.reply h.tag .ok
  | .bringup | .running | .parking | .parked | .waking | .switching => s.reply h.tag .badState

def takeRestart (h : Header) (s : State) : State := s.intake (Request.setup 0x14 0 h) (State.serveRestart h)

/-- RESTART. -/
def execRestart (h : Header) (s : State) : Host.Outcome State Fault Refusal :=
  .next (s.deliver (.restart h) (takeRestart h))

/-! ### DIE_SETTING (R144, R145) -/

def Request.dieSetting (h : Header) : Request :=
  { kind := kindSetup, byte7 := 0x15, header := h, malformed := dieSettingMalformed h, exempt := false
    memory := false, line := none, dataOk := true }

/-- The setting index that a DIE_SETTING's value carries in bits 16 to 23 (R169). -/
def settingIndex (h : Header) : Nat := (h.value.extractLsb' 16 8).toNat

/-- BAD_SETTING of R144: an index outside 4 to 15, an empty die mask, or an absent die. -/
def State.badForward (s : State) (h : Header) : Bool :=
  decide (settingIndex h < 4) || decide (15 < settingIndex h) || h.dieMask == 0 ||
    !allDies fun d => !h.dieMask.getLsbD d.val || s.present d

/-- The forward's SET claims at acceptance: at IDLE, BUSY and SETTLING ports with no park operation (R145). -/
def State.claimForwardNow (s : State) : State :=
  s.forPresent fun d t =>
    let p := t.port d
    if (p.state = .idle ∨ p.state = .busy ∨ p.state = .settling) ∧ ¬ p.moving then t.claimForward d else t

/-- An accepted forward (R144). -/
def State.beginForward (s : State) (h : Header) : State :=
  let kind : ProcedureKind :=
    .dieSetting h.dieMask (BitVec.ofNat 4 (settingIndex h)) (h.value.extractLsb' 0 16) 0
  ((s.beginProcedure kind h.tag).wake.claimForwardNow).finish s fun d => h.dieMask.getLsbD d.val

/-- Channel Control decides a DIE_SETTING. -/
def State.serveDieSetting (h : Header) (s : State) : State :=
  if s.badForward h then s.reply h.tag .badSetting
  else
    match s.chan.partState with
    | .config | .bringup | .switching | .stopped => s.reply h.tag .badState
    | .running | .parking | .parked | .waking =>
      if s.forwarding then s.reply h.tag .retry else s.beginForward h

def takeDieSetting (h : Header) (s : State) : State := s.intake (Request.dieSetting h) (State.serveDieSetting h)

/-- DIE_SETTING. -/
def execDieSetting (h : Header) (s : State) : Host.Outcome State Fault Refusal :=
  .next (s.deliver (.dieSetting h) (takeDieSetting h))

end Sys2Proof.Machine
end

