-- ==== Sys2Proof/Machine/Query.lean ====
section
/-! DEFINITION. The seven QUERYs and their payloads (R155, R172), and a QUERY of an undefined code. -/

namespace Sys2Proof.Machine

/-! ### Payload bytes -/

def byteOf (n : Nat) : Byte := BitVec.ofNat 8 n
def bitByte (b : Bool) (position : Nat) : Byte := BitVec.ofNat 8 (b.toNat * 2 ^ position)

/-- A line address as four bytes, 0 when absent. -/
def lineBytes (l : Option LineAddr) : List Byte := leBytes32 ((l.getD 0).setWidth 32)

/-- A die's four STATUS bytes; those of an absent die are 0 (R156, R172; log 9). -/
def State.dieStatus (s : State) (d : DieId) : List Byte :=
  let c := s.care d
  if s.present d then
    [byteOf (s.port d).state.code, byteOf c.condition.code, BitVec.ofInt 8 c.balance,
     byteOf (bandCode c.band) ||| bitByte c.recalPending 2 ||| bitByte c.recalForced 3]
  else [0, 0, 0, 0]

/-- The procedure's STATUS code. -/
def procedureCode : Option Procedure → Nat
  | none => 0
  | some ⟨.start _, _, _⟩ => 1
  | some ⟨.rateSwitch _, _, _⟩ => 2
  | some ⟨.dieSetting _ _ _ _, _, _⟩ => 3

/-- The stop cause's STATUS code. -/
def stopCauseCode : Option StopCause → Nat
  | none => 0
  | some .dieFailed => 1
  | some .poisonFull => 2

/-- STATUS, 36 bytes. -/
def State.statusBytes (s : State) : List Byte :=
  [byteOf s.chan.partState.code, byteOf ((s.chan.phase.map Phase.code).getD 0), byteOf (procedureCode s.chan.procedure),
   byteOf (profileCode s.chan.active + 2 * stopCauseCode s.chan.stopCause), s.errs.latches,
   bitByte s.halted 0 ||| bitByte s.errs.overwrite 1, byteOf s.errs.log.length, byteOf s.errs.poison.length,
   byteOf (occupancy s.table), byteOf s.drain.pressure.code ||| bitByte s.drain.hysteresis 2,
   byteOf s.reads.list.length, byteOf s.flushes.length, byteOf s.link.tags.length, 0, 0, 0] ++
  leBytes32 s.table.nextWsn ++ s.dieStatus 0 ++ s.dieStatus 1 ++ s.dieStatus 2 ++ s.dieStatus 3

/-- ENTRY, 28 bytes. -/
def entryBytes (i : Nat) (e : Entry) : List Byte :=
  [byteOf i, byteOf e.state.code,
   bitByte (e.gen == .second) 0 ||| byteOf (2 * (e.step.map DrainStep.code).getD 0), byteOf e.attempts] ++
  lineBytes e.line ++ maskBytes e.mask ++ leBytes32 e.firstWsn ++ leBytes32 e.lastWsn ++
  leBytes16 (BitVec.ofNat 16 e.merges) ++ [0, 0]

/-- A log record, 16 bytes. -/
def LogRecord.bytes (r : LogRecord) : List Byte :=
  [r.number, byteOf r.kind.code, byteOf r.part.code,
   bitByte r.die.isSome 0 ||| bitByte r.line.isSome 1 ||| bitByte r.tag.isSome 2 ||| bitByte r.wsn.isSome 3,
   byteOf ((r.die.map Fin.val).getD 0), (r.tag.getD 0).setWidth 8] ++
  lineBytes r.line ++ leBytes32 (r.wsn.getD 0) ++ leBytes16 r.detail

/-- LOG, 4 + 16n bytes: the records returned and the overwrite flag (R167). -/
def logBytes (records : List LogRecord) (overwrite : Bool) : List Byte :=
  [byteOf records.length, bitByte overwrite 0, 0, 0] ++ (records.map LogRecord.bytes).flatten

/-- POISON, 4 + 8n bytes. -/
def poisonBytes (lines : List (LineAddr × DieId)) : List Byte :=
  [byteOf lines.length, 0, 0, 0] ++ (lines.map fun (l, d) => lineBytes (some l) ++ [byteOf d.val, 0, 0, 0]).flatten

/-- PROFILE, 36 bytes. -/
def State.profileBytes (s : State) (p : ProfileId) : List Byte :=
  let profile := s.chan.profile p
  [byteOf (profileCode p), bitByte profile.valid 0 ||| bitByte (p == s.chan.active) 1, 0, 0] ++
  (profile.fields.toList.map leBytes16).flatten

/-- SHADOW, 36 bytes. -/
def State.shadowBytes (s : State) (d : DieId) : List Byte :=
  let shadow := s.chan.shadow[d]
  let known : BitVec 16 := BitVec.ofFnLE fun i => (shadow[i]).known
  [byteOf d.val, 0] ++ leBytes16 known ++ (shadow.toList.map fun e => leBytes16 e.value).flatten

/-- SETTINGS, 60 bytes, in code order (R135). -/
def Settings.bytes (c : Settings) : List Byte :=
  ([c.checkPolicy, c.highMark, c.lowMark, c.idleDrainTime, c.readWaitLimit, c.parkDelay, c.wakeMode, c.pullIn,
    c.maskedWrites, c.dieCount, c.dieLinesLog2, c.granularity, c.tempPoll, c.drainRetry, c.dieOpLimit].map
    fun n => leBytes32 (BitVec.ofNat 32 n)).flatten

/-! ### The queries -/

/-- A QUERY handed to the block that holds the state is answered at once with DATA (R155). -/
def State.answerQuery (s : State) (h : Header) (payload : List Byte) : State :=
  s.queue (Answer.ofQuery h.tag payload)

def takeQueryStatus (h : Header) (s : State) : State :=
  s.intake (Request.query 0 0 h) fun t => t.answerQuery h t.statusBytes

/-- QUERY_STATUS (R156). -/
def execQueryStatus (h : Header) (s : State) : Host.Outcome State Fault Refusal :=
  .next (s.deliver (.queryStatus h) (takeQueryStatus h))

/-- The oldest records, up to 4, leave the Log and the overwrite flag is cleared (R167). -/
def State.serveLog (h : Header) (s : State) : State :=
  (s.setErrs { s.errs with log := s.errs.log.drop Config.logPerQuery, overwrite := false }).answerQuery h
    (logBytes (s.errs.log.take Config.logPerQuery) s.errs.overwrite)

def takeQueryLog (h : Header) (s : State) : State := s.intake (Request.query 1 0 h) (State.serveLog h)

/-- QUERY_LOG (R167). -/
def execQueryLog (h : Header) (s : State) : Host.Outcome State Fault Refusal :=
  .next (s.deliver (.queryLog h) (takeQueryLog h))

def takeQueryEntry (h : Header) (s : State) : State :=
  s.intake (Request.query 2 31 h) fun t =>
    let i : Fin 32 := Fin.ofNat 32 h.value.toNat
    t.answerQuery h (entryBytes i.val (t.entry i))

/-- QUERY_ENTRY (R20). -/
def execQueryEntry (h : Header) (s : State) : Host.Outcome State Fault Refusal :=
  .next (s.deliver (.queryEntry h) (takeQueryEntry h))

def takeQueryPoison (h : Header) (s : State) : State :=
  s.intake (Request.query 3 0 h) fun t => t.answerQuery h (poisonBytes t.errs.poison)

/-- QUERY_POISON (R164). -/
def execQueryPoison (h : Header) (s : State) : Host.Outcome State Fault Refusal :=
  .next (s.deliver (.queryPoison h) (takeQueryPoison h))

def takeQueryProfile (h : Header) (s : State) : State :=
  s.intake (Request.query 4 1 h) fun t => t.answerQuery h (t.profileBytes (if h.value = 0 then .a else .b))

/-- QUERY_PROFILE (R148). -/
def execQueryProfile (h : Header) (s : State) : Host.Outcome State Fault Refusal :=
  .next (s.deliver (.queryProfile h) (takeQueryProfile h))

def takeQueryShadow (h : Header) (s : State) : State :=
  s.intake (Request.query 5 3 h) fun t => t.answerQuery h (t.shadowBytes (Fin.ofNat 4 h.value.toNat))

/-- QUERY_SHADOW (R148). -/
def execQueryShadow (h : Header) (s : State) : Host.Outcome State Fault Refusal :=
  .next (s.deliver (.queryShadow h) (takeQueryShadow h))

def takeQuerySettings (h : Header) (s : State) : State :=
  s.intake (Request.query 6 0 h) fun t => t.answerQuery h t.chan.settings.bytes

/-- QUERY_SETTINGS (R148). -/
def execQuerySettings (h : Header) (s : State) : Host.Outcome State Fault Refusal :=
  .next (s.deliver (.querySettings h) (takeQuerySettings h))

def takeUndefinedQueryCode (code : Byte) (h : Header) (s : State) : State :=
  s.intake { Request.query code anyValue h with malformed := true } id

/-- A QUERY whose code names nothing is answered MALFORMED (R152). -/
def execUndefinedQueryCode (code : Byte) (h : Header) (s : State) : Host.Outcome State Fault Refusal :=
  if queryCodeDefined code then .refused (.illFormed "UNDEFINED_QUERY_CODE")
  else .next (s.deliver (.undefinedQueryCode code h) (takeUndefinedQueryCode code h))

end Sys2Proof.Machine
end

