-- ==== Sys2Proof/Machine/Requests.lean ====
section
/-! DEFINITION. READ, WRITE, FLUSH and a message of undefined kind. -/

namespace Sys2Proof.Machine

/-! ### READ (R40) -/

def Request.ofRead (byte7 : Byte) (h : Header) : Request :=
  { kind := kindRead, byte7 := byte7, header := h, malformed := readMalformed byte7 h, exempt := false
    memory := true, line := some h.line, dataOk := true }

/-- The beats of a READ's answer from a line's bytes (R55). -/
def readBeats (h : Header) (data : LineData) : List (Vector Byte 8) := beatsOf h.startBeat h.half h.pairwise data

/-- The record of a READ that joins the Read Wait List now (R44). -/
def State.readRecord (s : State) (h : Header) : ReadRecord :=
  { claim := s.reads.nextClaim, tag := h.tag, line := h.line, die := s.dieIndex h.line, startBeat := h.startBeat
    half := h.half, pairwise := h.pairwise, mask := s.captureMask h.line, data := s.captureData h.line
    state := .waiting, lost := false, deadline := s.chan.settings.readWaitLimit * 1000 }

/-- A record joins the list, its claim is placed and its tag is held (R44, R46). -/
def State.joinReads (s : State) (r : ReadRecord) : State :=
  let s1 := s.setReads { list := s.reads.list ++ [r], nextClaim := s.reads.nextClaim + 1 }
  (s1.setPort r.die { s1.port r.die with readClaims := (s1.port r.die).readClaims ++ [r.claim] }).joinTag r.tag

/-- Read Service decides a READ handed to it (R40). -/
def State.serveRead (h : Header) (s : State) : State :=
  let data := s.captureData h.line
  if s.poisoned h.line then s.queue (Answer.ofRead h.tag true (readBeats h data))
  else if maskFull (s.captureMask h.line) then s.queue (Answer.ofRead h.tag false (readBeats h data))
  else if Config.readRecords ≤ s.reads.list.length then s.reply h.tag .retry
  else ((s.joinReads (s.readRecord h)).wake).finishAt s (s.dieIndex h.line)

def takeRead (byte7 : Byte) (h : Header) (s : State) : State := s.intake (Request.ofRead byte7 h) (State.serveRead h)

/-- READ. -/
def execRead (byte7 : Byte) (h : Header) (s : State) : Host.Outcome State Fault Refusal :=
  .next (s.deliver (.read byte7 h) (takeRead byte7 h))

/-! ### WRITE (R7) -/

def Request.ofWrite (byte7 : Byte) (h : Header) (p : WritePayload) : Request :=
  { kind := kindWrite, byte7 := byte7, header := h, malformed := writeMalformed byte7 h, exempt := false
    memory := true, line := some h.line, dataOk := maskedCheck p.mask p.data == p.check }

/-- The table decides a WRITE handed to it, which wakes the part in PARKING and PARKED (R7, R122; log 10). -/
def State.serveWrite (h : Header) (p : WritePayload) (s : State) : State :=
  let s1 :=
    match s.posting h.line p.mask p.data with
    | .unchanged => s.reply h.tag .posted
    | .retry => s.reply h.tag .retry
    | .entry i e => (s.post i e h.line p.mask).reply h.tag .posted
  s1.wake.finishAt s (s.dieIndex h.line)

def takeWrite (byte7 : Byte) (h : Header) (p : WritePayload) (s : State) : State :=
  s.intake (Request.ofWrite byte7 h p) (State.serveWrite h p)

/-- WRITE. -/
def execWrite (byte7 : Byte) (h : Header) (p : WritePayload) (s : State) : Host.Outcome State Fault Refusal :=
  .next (s.deliver (.write byte7 h p) (takeWrite byte7 h p))

/-! ### FLUSH (R63) -/

def Request.ofFlush (byte7 : Byte) (h : Header) : Request :=
  { kind := kindFlush, byte7 := byte7, header := h, malformed := flushMalformed byte7 h, exempt := false
    memory := true, line := none, dataOk := true }

/-- The Flush Tracker decides a FLUSH handed to it (R63). -/
def State.serveFlush (h : Header) (s : State) : State :=
  let boundary := s.table.nextWsn
  if s.flushComplete boundary then s.reply h.tag .ok
  else if Config.flushRecords ≤ s.flushes.length then s.reply h.tag .retry
  else
    ((s.setFlushes (s.flushes ++ [{ tag := h.tag, boundary := boundary, loss := false }])).joinTag h.tag).finish s
      fun _ => false

def takeFlush (byte7 : Byte) (h : Header) (s : State) : State := s.intake (Request.ofFlush byte7 h) (State.serveFlush h)

/-- FLUSH. -/
def execFlush (byte7 : Byte) (h : Header) (s : State) : Host.Outcome State Fault Refusal :=
  .next (s.deliver (.flush byte7 h) (takeFlush byte7 h))

/-! ### A kind code from 5 to 7 (R152) -/

def takeUndefinedKind (kind : BitVec 3) (byte7 : Byte) (h : Header) (s : State) : State :=
  s.intake
    { kind := kind, byte7 := byte7, header := h, malformed := true, exempt := false, memory := false, line := none
      dataOk := true }
    id

/-- A message of undefined kind is answered MALFORMED. -/
def execUndefinedKind (kind : BitVec 3) (byte7 : Byte) (h : Header) (s : State) : Host.Outcome State Fault Refusal :=
  if kindCodeDefined kind then .refused (.illFormed "UNDEFINED_KIND")
  else .next (s.deliver (.undefinedKind kind byte7 h) (takeUndefinedKind kind byte7 h))

end Sys2Proof.Machine
end

