-- ==== Sys2Proof/Machine/Link.lean ====
section
/-! DEFINITION. The resets and the sending of answers: POWER_ON, LINK_RESET and ANSWER_SENT (chapter 9, R134). -/

namespace Sys2Proof.Machine

/-- The part after the release of POWER_ON: every block at its power-on value (R134; log 6). -/
def State.poweredOn (s : State) : State := { State.reset with pending := s.pending }

/-- POWER_ON. -/
def execPowerOn (s : State) : Host.Outcome State Fault Refusal := .next s.poweredOn

/-- The answer of the procedure in progress is suppressed (R115). -/
def Procedure.suppress (p : Procedure) : Procedure := { p with suppressed := true }

/-- A die that a listed read concerns. -/
def State.readOf (s : State) (d : DieId) : Bool := s.reads.list.any fun r => r.die == d

/-- A link reset empties the Response Queue, the Tag Set, the Read Wait List with its claims, the Flush List and what
the link held, and suppresses the procedure's answer (R157; log 5). -/
def State.linkReset (s : State) : State :=
  let s1 := s.setLink { tags := [], answers := [], held := [] }
  let s2 := forDies (fun d t => t.setPort d { t.port d with readClaims := [] }) s1
  let s3 := (s2.setReads { s2.reads with list := [] }).setFlushes []
  (s3.setChan { s3.chan with procedure := s3.chan.procedure.map Procedure.suppress }).finish s s.readOf

/-- LINK_RESET. -/
def execLinkReset (s : State) : Host.Outcome State Fault Refusal := .next s.linkReset

/-- The taking of a message that the link held. An event is never held. -/
def takeHeld (c : Instr) (s : State) : State :=
  match c with
  | .read b h => takeRead b h s
  | .write b h p => takeWrite b h p s
  | .flush b h => takeFlush b h s
  | .undefinedKind k b h => takeUndefinedKind k b h s
  | .setupCheckPolicy h => takeSetupCheckPolicy h s
  | .setupHighMark h => takeSetupHighMark h s
  | .setupLowMark h => takeSetupLowMark h s
  | .setupIdleDrainTime h => takeSetupIdleDrainTime h s
  | .setupReadWaitLimit h => takeSetupReadWaitLimit h s
  | .setupParkDelay h => takeSetupParkDelay h s
  | .setupWakeMode h => takeSetupWakeMode h s
  | .setupPullIn h => takeSetupPullIn h s
  | .setupMaskedWrites h => takeSetupMaskedWrites h s
  | .setupDieCount h => takeSetupDieCount h s
  | .setupDieLinesLog2 h => takeSetupDieLinesLog2 h s
  | .setupGranularity h => takeSetupGranularity h s
  | .setupTempPoll h => takeSetupTempPoll h s
  | .setupDrainRetry h => takeSetupDrainRetry h s
  | .setupDieOpLimit h => takeSetupDieOpLimit h s
  | .profileFieldWrite p n h => takeProfileFieldWrite p n h s
  | .profileCommit h => takeProfileCommit h s
  | .start h => takeStart h s
  | .rateSwitch h => takeRateSwitch h s
  | .clearErrors h => takeClearErrors h s
  | .restart h => takeRestart h s
  | .dieSetting h => takeDieSetting h s
  | .queryStatus h => takeQueryStatus h s
  | .queryLog h => takeQueryLog h s
  | .queryEntry h => takeQueryEntry h s
  | .queryPoison h => takeQueryPoison h s
  | .queryProfile h => takeQueryProfile h s
  | .queryShadow h => takeQueryShadow h s
  | .querySettings h => takeQuerySettings h s
  | .undefinedSettingCode code h => takeUndefinedSettingCode code h s
  | .undefinedQueryCode code h => takeUndefinedQueryCode code h s
  | .powerOn | .linkReset | .answerSent => s
  | .idleDrainTimerExpiry | .parkDelayTimerExpiry | .relockTimerExpiry | .settleTimerExpiry _ => s
  | .opLimitExpiry _ | .deadlineExpiry _ | .refreshDueEvent _ | .recalDueEvent _ | .thermalPollExpiry => s
  | .lineReadCompletion _ _ | .lineWriteCompletion _ _ | .maskedWriteCompletion _ _ | .refreshCompletion _ _ => s
  | .shortRecalCompletion _ _ | .longRecalCompletion _ _ | .tempReadCompletion _ _ | .setCompletion _ _ => s
  | .dieResetCompletion _ _ | .parkEnterCompletion _ _ | .parkExitCompletion _ _ => s

/-- The Intake takes the held messages in order while the queue has a place (R154). -/
def takeAllHeld (held : List Instr) (s : State) : State :=
  match held with
  | [] => s
  | c :: rest => if s.hasPlace then takeAllHeld rest (takeHeld c (s.setLink { s.link with held := rest })) else s

/-- The oldest answer leaves the Response Queue, and the Intake tests its condition again (R154). -/
def State.answerSent (s : State) : State :=
  takeAllHeld s.link.held (s.setLink { s.link with answers := s.link.answers.tail })

/-- ANSWER_SENT. With no answer queued the link carries none (log 4). -/
def execAnswerSent (s : State) : Host.Outcome State Fault Refusal :=
  if s.link.answers = [] then .next s else .next s.answerSent

end Sys2Proof.Machine
end

