-- ==== Sys2Proof/Machine/Dispatch.lean ====
section
/-! DEFINITION. One arm per command: the meaning of each. -/

namespace Sys2Proof.Machine

/-- The effect of a command on everything but the queue of commands. -/
def exec (i : Instr) (s : State) : Host.Outcome State Fault Refusal :=
  match i with
  | .read byte7 h => Sys2Proof.Machine.execRead byte7 h s
  | .write byte7 h p => Sys2Proof.Machine.execWrite byte7 h p s
  | .flush byte7 h => Sys2Proof.Machine.execFlush byte7 h s
  | .undefinedKind kind byte7 h => Sys2Proof.Machine.execUndefinedKind kind byte7 h s
  | .setupCheckPolicy h => Sys2Proof.Machine.execSetupCheckPolicy h s
  | .setupHighMark h => Sys2Proof.Machine.execSetupHighMark h s
  | .setupLowMark h => Sys2Proof.Machine.execSetupLowMark h s
  | .setupIdleDrainTime h => Sys2Proof.Machine.execSetupIdleDrainTime h s
  | .setupReadWaitLimit h => Sys2Proof.Machine.execSetupReadWaitLimit h s
  | .setupParkDelay h => Sys2Proof.Machine.execSetupParkDelay h s
  | .setupWakeMode h => Sys2Proof.Machine.execSetupWakeMode h s
  | .setupPullIn h => Sys2Proof.Machine.execSetupPullIn h s
  | .setupMaskedWrites h => Sys2Proof.Machine.execSetupMaskedWrites h s
  | .setupDieCount h => Sys2Proof.Machine.execSetupDieCount h s
  | .setupDieLinesLog2 h => Sys2Proof.Machine.execSetupDieLinesLog2 h s
  | .setupGranularity h => Sys2Proof.Machine.execSetupGranularity h s
  | .setupTempPoll h => Sys2Proof.Machine.execSetupTempPoll h s
  | .setupDrainRetry h => Sys2Proof.Machine.execSetupDrainRetry h s
  | .setupDieOpLimit h => Sys2Proof.Machine.execSetupDieOpLimit h s
  | .profileFieldWrite p n h => Sys2Proof.Machine.execProfileFieldWrite p n h s
  | .profileCommit h => Sys2Proof.Machine.execProfileCommit h s
  | .start h => Sys2Proof.Machine.execStart h s
  | .rateSwitch h => Sys2Proof.Machine.execRateSwitch h s
  | .clearErrors h => Sys2Proof.Machine.execClearErrors h s
  | .restart h => Sys2Proof.Machine.execRestart h s
  | .dieSetting h => Sys2Proof.Machine.execDieSetting h s
  | .queryStatus h => Sys2Proof.Machine.execQueryStatus h s
  | .queryLog h => Sys2Proof.Machine.execQueryLog h s
  | .queryEntry h => Sys2Proof.Machine.execQueryEntry h s
  | .queryPoison h => Sys2Proof.Machine.execQueryPoison h s
  | .queryProfile h => Sys2Proof.Machine.execQueryProfile h s
  | .queryShadow h => Sys2Proof.Machine.execQueryShadow h s
  | .querySettings h => Sys2Proof.Machine.execQuerySettings h s
  | .powerOn => Sys2Proof.Machine.execPowerOn s
  | .linkReset => Sys2Proof.Machine.execLinkReset s
  | .answerSent => Sys2Proof.Machine.execAnswerSent s
  | .idleDrainTimerExpiry => Sys2Proof.Machine.execIdleDrainTimerExpiry s
  | .parkDelayTimerExpiry => Sys2Proof.Machine.execParkDelayTimerExpiry s
  | .relockTimerExpiry => Sys2Proof.Machine.execRelockTimerExpiry s
  | .settleTimerExpiry d => Sys2Proof.Machine.execSettleTimerExpiry d s
  | .opLimitExpiry d => Sys2Proof.Machine.execOpLimitExpiry d s
  | .deadlineExpiry tag => Sys2Proof.Machine.execDeadlineExpiry tag s
  | .refreshDueEvent d => Sys2Proof.Machine.execRefreshDueEvent d s
  | .recalDueEvent d => Sys2Proof.Machine.execRecalDueEvent d s
  | .thermalPollExpiry => Sys2Proof.Machine.execThermalPollExpiry s
  | .lineReadCompletion d c => Sys2Proof.Machine.execLineReadCompletion d c s
  | .lineWriteCompletion d c => Sys2Proof.Machine.execLineWriteCompletion d c s
  | .maskedWriteCompletion d c => Sys2Proof.Machine.execMaskedWriteCompletion d c s
  | .refreshCompletion d c => Sys2Proof.Machine.execRefreshCompletion d c s
  | .shortRecalCompletion d c => Sys2Proof.Machine.execShortRecalCompletion d c s
  | .longRecalCompletion d c => Sys2Proof.Machine.execLongRecalCompletion d c s
  | .tempReadCompletion d c => Sys2Proof.Machine.execTempReadCompletion d c s
  | .setCompletion d c => Sys2Proof.Machine.execSetCompletion d c s
  | .dieResetCompletion d c => Sys2Proof.Machine.execDieResetCompletion d c s
  | .parkEnterCompletion d c => Sys2Proof.Machine.execParkEnterCompletion d c s
  | .parkExitCompletion d c => Sys2Proof.Machine.execParkExitCompletion d c s
  | .undefinedSettingCode code h => Sys2Proof.Machine.execUndefinedSettingCode code h s
  | .undefinedQueryCode code h => Sys2Proof.Machine.execUndefinedQueryCode code h s

end Sys2Proof.Machine
end

