-- ==== Sys2Proof/Safety.lean ====
section
/-! DEFINITION. The terms that claims use: the part's invariants, when a message is accepted, and what the claims and
grants that close an event can change. -/

namespace Sys2Proof.Machine

/-! ### Invariants -/

/-- ALERT is asserted exactly while a latch is set (R160). -/
abbrev AlertFollows (s : State) : Prop := s.errs.alert = (s.errs.latches != 0)

/-- The pressure level is the one that the table, the Flush List and the two flags give (R22). -/
abbrev LevelKept (s : State) : Prop := s.drain.pressure = s.level

/-- Every refresh balance lies between -8 and +8 (R96). -/
abbrev BalancesBounded (s : State) : Prop := ∀ d, -8 ≤ (s.care d).balance ∧ (s.care d).balance ≤ 8

/-- The capacities of the Read Wait List, the Flush List, the Log and the Poison List, which holds no line twice (R45,
R62, R163, R165). -/
abbrev ListsBounded (s : State) : Prop :=
  s.reads.list.length ≤ 16 ∧ s.flushes.length ≤ 4 ∧ s.errs.log.length ≤ 16 ∧ s.errs.poison.length ≤ 16 ∧
    (s.errs.poison.map (·.1)).Nodup

/-- Every part setting lies in its range, and HIGH_MARK is above LOW_MARK (R135, R136). -/
abbrev SettingsInRange (c : Settings) : Prop :=
  c.checkPolicy ≤ 1 ∧ (1 ≤ c.highMark ∧ c.highMark ≤ 32) ∧ c.lowMark ≤ 31 ∧ c.lowMark < c.highMark ∧
    c.idleDrainTime ≤ 1000 ∧ (1 ≤ c.readWaitLimit ∧ c.readWaitLimit ≤ 1000) ∧ c.parkDelay ≤ 65535 ∧
    c.wakeMode ≤ 1 ∧ c.pullIn ≤ 1 ∧ c.maskedWrites ≤ 1 ∧ c.dieCount ∈ [1, 2, 4] ∧
    (20 ≤ c.dieLinesLog2 ∧ c.dieLinesLog2 ≤ 28) ∧ c.granularity ∈ [1, 2, 4] ∧
    (1 ≤ c.tempPoll ∧ c.tempPoll ≤ 1000) ∧ c.drainRetry ≤ 7 ∧ (10 ≤ c.dieOpLimit ∧ c.dieOpLimit ≤ 1000)

/-- No profile is valid under a GRANULARITY that breaks its refresh rule (R138). -/
abbrev ProfilesSound (s : State) : Prop :=
  ∀ p, (s.chan.profile p).valid = true → (s.chan.profile p).refreshRule s.chan.settings.granularity = true

/-- One port's slot, state and settle timer fit together (R73, R77): a filled slot only in BUSY and INIT, BUSY only with
a filled slot, and a settle timer only at a SETTLING or INIT port with an empty slot. -/
abbrev Port.Ordered (p : Port) : Prop :=
  (p.slot.isSome = true → (p.state = .busy ∨ p.state = .init) ∧ p.settle = none) ∧
    (p.state = .busy → p.slot.isSome = true) ∧
    (p.settle.isSome = true → p.state = .settling ∨ p.state = .init)

/-- Every port's slot, state and settle timer fit together. -/
abbrev PortsOrdered (s : State) : Prop := ∀ d, (s.port d).Ordered

/-- The table's entries (R1, R3, R4): a FREE entry alone holds no line; a line has at most one OPEN and one DRAINING
entry and no OPEN FIRST one beside a DRAINING one; a SECOND one is OPEN and stands beside a DRAINING one. -/
abbrev TableSound (s : State) : Prop :=
  (∀ i, (s.entry i).state = .free ↔ (s.entry i).line = none) ∧
    (∀ i j, (s.entry i).state = .opened → (s.entry j).state = .opened → (s.entry i).line = (s.entry j).line → i = j) ∧
    (∀ i j, (s.entry i).state = .draining → (s.entry j).state = .draining → (s.entry i).line = (s.entry j).line →
      i = j) ∧
    (∀ i j, (s.entry i).state = .opened → (s.entry i).gen = .first → (s.entry j).state = .draining →
      (s.entry i).line ≠ (s.entry j).line) ∧
    (∀ i, (s.entry i).gen = .second →
      (s.entry i).state = .opened ∧ ∃ j, (s.entry j).state = .draining ∧ (s.entry j).line = (s.entry i).line)

/-- Every entry that is not FREE has a first WSN that precedes the counter (R6, R63). -/
abbrev WsnsOrdered (s : State) : Prop :=
  ∀ i, (s.entry i).state ≠ .free → precedes (s.entry i).firstWsn s.table.nextWsn = true

/-- The tag that the procedure in progress holds, if its answer is not suppressed (R115, R153). -/
def State.procedureTags (s : State) : List Tag :=
  match s.chan.procedure with
  | some p => if p.suppressed then [] else [p.tag]
  | none => []

/-- The procedure that a part state may have: none in CONFIG, at most a forward while the part runs, parks or wakes
(R115, R124, R144). -/
def procedureFits (p : PartState) (procedure : Option Procedure) : Bool :=
  match p, procedure with
  | .config, some _ => false
  | .running, some ⟨.dieSetting _ _ _ _, _, _⟩ | .parking, some ⟨.dieSetting _ _ _ _, _, _⟩ => true
  | .parked, some ⟨.dieSetting _ _ _ _, _, _⟩ | .waking, some ⟨.dieSetting _ _ _ _, _, _⟩ => true
  | .running, some _ | .parking, some _ | .parked, some _ | .waking, some _ => false
  | _, _ => true

/-- The Tag Set holds, each once, the tags of the listed reads, the listed flushes and the procedure; the queue keeps a
place for each (R153, R154). Read claims are numbered apart, and the procedure fits the part state. -/
abbrev TagsHeld (s : State) : Prop :=
  s.link.tags.Nodup ∧
    s.link.tags.Perm (s.reads.list.map ReadRecord.tag ++ s.flushes.map FlushRecord.tag ++ s.procedureTags) ∧
    s.link.answers.length + s.link.tags.length ≤ 24 ∧
    (s.reads.list.map ReadRecord.claim).Nodup ∧ (∀ r ∈ s.reads.list, r.claim < s.reads.nextClaim) ∧
    procedureFits s.chan.partState s.chan.procedure = true

/-! ### Messages -/

/-- What the Intake checks of each command that is a request message (R151, R169). -/
def requestOf : Instr → Option Request
  | .read b h => some (Request.ofRead b h)
  | .write b h p => some (Request.ofWrite b h p)
  | .flush b h => some (Request.ofFlush b h)
  | .undefinedKind k b h =>
    some
      { kind := k, byte7 := b, header := h, malformed := true, exempt := false, memory := false, line := none
        dataOk := true }
  | .setupCheckPolicy h => some (Request.setup 0x01 anyValue h)
  | .setupHighMark h => some (Request.setup 0x02 anyValue h)
  | .setupLowMark h => some (Request.setup 0x03 anyValue h)
  | .setupIdleDrainTime h => some (Request.setup 0x04 anyValue h)
  | .setupReadWaitLimit h => some (Request.setup 0x05 anyValue h)
  | .setupParkDelay h => some (Request.setup 0x06 anyValue h)
  | .setupWakeMode h => some (Request.setup 0x07 anyValue h)
  | .setupPullIn h => some (Request.setup 0x08 anyValue h)
  | .setupMaskedWrites h => some (Request.setup 0x09 anyValue h)
  | .setupDieCount h => some (Request.setup 0x0A anyValue h)
  | .setupDieLinesLog2 h => some (Request.setup 0x0B anyValue h)
  | .setupGranularity h => some (Request.setup 0x0C anyValue h)
  | .setupTempPoll h => some (Request.setup 0x0D anyValue h)
  | .setupDrainRetry h => some (Request.setup 0x0E anyValue h)
  | .setupDieOpLimit h => some (Request.setup 0x0F anyValue h)
  | .profileFieldWrite p n h => some (Request.setup (fieldCode p n) anyValue h)
  | .profileCommit h => some (Request.setup 0x10 anyValue h)
  | .start h => some (Request.setup 0x11 0 h)
  | .rateSwitch h => some (Request.setup 0x12 anyValue h)
  | .clearErrors h => some { Request.setup 0x13 255 h with exempt := true }
  | .restart h => some (Request.setup 0x14 0 h)
  | .dieSetting h => some (Request.dieSetting h)
  | .queryStatus h => some (Request.query 0 0 h)
  | .queryLog h => some (Request.query 1 0 h)
  | .queryEntry h => some (Request.query 2 31 h)
  | .queryPoison h => some (Request.query 3 0 h)
  | .queryProfile h => some (Request.query 4 1 h)
  | .queryShadow h => some (Request.query 5 3 h)
  | .querySettings h => some (Request.query 6 0 h)
  | .undefinedSettingCode code h => some { Request.setup code anyValue h with malformed := true }
  | .undefinedQueryCode code h => some { Request.query code anyValue h with malformed := true }
  | .powerOn | .linkReset | .answerSent => none
  | .idleDrainTimerExpiry | .parkDelayTimerExpiry | .relockTimerExpiry | .settleTimerExpiry _ => none
  | .opLimitExpiry _ | .deadlineExpiry _ | .refreshDueEvent _ | .recalDueEvent _ | .thermalPollExpiry => none
  | .lineReadCompletion _ _ | .lineWriteCompletion _ _ | .maskedWriteCompletion _ _ | .refreshCompletion _ _ => none
  | .shortRecalCompletion _ _ | .longRecalCompletion _ _ | .tempReadCompletion _ _ | .setCompletion _ _ => none
  | .dieResetCompletion _ _ | .parkEnterCompletion _ _ | .parkExitCompletion _ _ => none

/-- The Intake takes a message now, and its header check matches (R151 step 1, R154). -/
abbrev Taken (s : State) (r : Request) : Prop := s.link.held = [] ∧ s.hasPlace = true ∧ r.headerOk = true

/-- The Intake takes the message and every check passes, so that it is handed to its block (R151 step 8). -/
abbrev Accepted (s : State) (r : Request) : Prop :=
  s.link.held = [] ∧ s.hasPlace = true ∧ r.headerOk = true ∧ s.refusal r = none

/-- A request arrival restarts both timers and clears the idle flag (R24, R119). -/
def State.arrived (s : State) : State :=
  { s with
    drain := { s.drain with idleTimer := usTimer s.chan.settings.idleDrainTime, idleFlag := false }
    chan := { s.chan with parkDelay := usTimer s.chan.settings.parkDelay } }

/-- A request arrival that is answered at once. -/
def State.answered (s : State) (a : Answer) : State :=
  { s.arrived with link := { s.link with answers := s.link.answers ++ [a] } }

/-- A request arrival that becomes outstanding under its tag. -/
def State.outstanding (s : State) (tag : Tag) : State :=
  { s.arrived with link := { s.link with tags := s.link.tags ++ [tag] } }

/-- Channel Control after a waking request (R122). -/
def Channel.woken (c : Channel) : Channel :=
  if c.partState = .parking ∨ c.partState = .parked then { c with partState := .waking, phase := none } else c

/-- What a request arrival alone makes of a state whose level is kept: both timers restarted, the idle flag clear, and
at a fall to NONE the selection claims withdrawn (R24, R25, R119). -/
def Arrival (s t : State) : Prop :=
  t.pending = s.pending ∧ t.link = s.link ∧ t.table = s.table ∧ t.reads = s.reads ∧ t.flushes = s.flushes ∧
    t.maint = s.maint ∧ t.errs = s.errs ∧
    t.chan = { s.chan with parkDelay := usTimer s.chan.settings.parkDelay } ∧
    t.drain =
      { pressure := levelOf (occupancy s.table) s.flushes.length s.drain.hysteresis false
        hysteresis := s.drain.hysteresis, idleTimer := usTimer s.chan.settings.idleDrainTime, idleFlag := false } ∧
    ∀ d, t.port d = s.port d ∨
      ((∃ c, (s.port d).drainClaim = some c ∧ c.continuation = false) ∧
        t.port d = { s.port d with drainClaim := none })

/-! ### Completions -/

/-- A completion that carries nothing. -/
def plain (outcome : OutcomeCode) : Completion := { outcome := outcome, data := none, band := none }

/-! ### What closing an event can change -/

/-- An entry stays, or a granted selection claim makes it DRAINING (R2, R14). -/
def EntryKept (e f : Entry) : Prop :=
  f = e ∨ (e.state = .opened ∧ e.gen = .first ∧
    ∃ step, f = { e with state := .draining, step := some step, attempts := 0 })

/-- A read record stays, or its granted claim makes it AT_DIE (R46). -/
def ReadKept (r q : ReadRecord) : Prop := q = r ∨ q = { r with state := .atDie }

/-- A die's balance, band and flags stay; its condition and due timers may follow its port (R95). -/
def CareKept (c e : DieCare) : Prop :=
  e.balance = c.balance ∧ e.band = c.band ∧ e.recalPending = c.recalPending ∧ e.recalForced = c.recalForced ∧
    e.tempPending = c.tempPending

/-- A port keeps its settle timer and clock; its slot, state, op-limit timer and alternation flag stay, or a grant fills
the empty slot of a port in OFF, INIT, IDLE or PARKED (R73, R75). -/
def PortKept (limit : Nat) (p q : Port) : Prop :=
  q.settle = p.settle ∧ q.settling = p.settling ∧ q.clock = p.clock ∧
    ((q.slot = p.slot ∧ q.state = p.state ∧ q.opLimit = p.opLimit ∧ q.alternation = p.alternation) ∨
      (p.slot = none ∧ q.slot.isSome = true ∧ q.opLimit = some limit ∧ q.state = p.state.granted ∧
        (p.state = .off ∨ p.state = .idle ∨ p.state = .parked ∨ (p.state = .init ∧ p.settle = none))))

/-- What the claims and grants that close an event leave of a state (R88, R95, R113): everything but pressure level and
hysteresis flag, claims, filled slots, conditions and due timers, and what a grant does to its entry or record. -/
structure Internal (s t : State) : Prop where
  pending : t.pending = s.pending
  link : t.link = s.link
  nextWsn : t.table.nextWsn = s.table.nextWsn
  entries : ∀ i, EntryKept (s.entry i) (t.entry i)
  idleTimer : t.drain.idleTimer = s.drain.idleTimer
  idleFlag : t.drain.idleFlag = s.drain.idleFlag
  reads : List.Forall₂ ReadKept s.reads.list t.reads.list
  nextClaim : t.reads.nextClaim = s.reads.nextClaim
  flushes : t.flushes = s.flushes
  ports : ∀ d, PortKept (s.chan.settings.dieOpLimit * 1000) (s.port d) (t.port d)
  care : ∀ d, CareKept (s.care d) (t.care d)
  pollTimer : t.maint.pollTimer = s.maint.pollTimer
  chan : t.chan = s.chan
  errs : t.errs = s.errs

/-- The command completes: it answers a next state, which is Internal to u, the state that the command's own effect
makes. Every field that u does not change is therefore unchanged, but for what `Internal` allows. -/
abbrev CompletesAs (c : Instr) (s u : State) : Prop := ∃ t, exec c s = .next t ∧ Internal u t

/-- A continuation claim of entry i is pending at die d, or has been granted there (R34). -/
abbrev ContinuationHeld (t : State) (d : DieId) (i : Fin 32) : Prop :=
  (t.port d).drainClaim = some { entry := i, continuation := true } ∨
    (t.port d).slot.map Slot.claimant = some (.drain i)

/-- A read claim is pending at die d, or has been granted there (R46). -/
abbrev ReadHeld (t : State) (d : DieId) (claim : Nat) : Prop :=
  claim ∈ (t.port d).readClaims ∨ (t.port d).slot.map Slot.claimant = some (.reads claim)

/-- An operation of a Channel Control claim is in flight at die d. -/
abbrev ChannelOperates (t : State) (d : DieId) (op : Operation) : Prop :=
  (t.port d).slot = some { op := op, claimant := .channel, line := none }

/-- The PARK EXIT that Channel Control grants outside a rate switch, with the active profile's wake time (R82, R108). -/
def State.wakeExit (s : State) : Operation :=
  if s.chan.settings.wakeMode = 1 then .parkExit .quick (s.activeField 14) else .parkExit .normal (s.activeField 13)

/-- At every present PARKED port a PARK EXIT is in flight (R122, R132). -/
abbrev ParkedLeave (s t : State) : Prop :=
  ∀ d, s.present d = true → (s.port d).state = .parked → (s.port d).slot = none → ChannelOperates t d s.wakeExit

/-- In PARKING and PARKED the command turns the part to WAKING and has PARK EXIT granted at every present PARKED port
(R108, R122). -/
abbrev Wakes (c : Instr) (s : State) : Prop :=
  s.chan.partState = .parking ∨ s.chan.partState = .parked →
    ∃ t, exec c s = .next t ∧ t.chan.partState = .waking ∧ ParkedLeave s t

/-- In STOPPED every present die but the failed one goes on: a PARKED one has PARK EXIT granted, an IDLE one that owes a
clock recal has LONG RECAL granted (R132). -/
abbrev OthersCarriedBack (s t : State) (failed : DieId) : Prop :=
  ∀ d, d ≠ failed → s.present d = true → (s.port d).slot = none →
    ((s.port d).state = .parked → ChannelOperates t d s.wakeExit) ∧
      ((s.port d).state = .idle → s.chan.recalOwed[d] = true → ChannelOperates t d (.longRecal (s.activeField 9)))

/-- From RUNNING, PARKING, WAKING and SWITCHING the command stops the part and carries every present die but this one back
(R131, R132). -/
abbrev Stops (c : Instr) (s : State) (d : DieId) : Prop :=
  s.chan.partState ∈ [PartState.running, .parking, .waking, .switching] →
    ∃ t, exec c s = .next t ∧ t.chan.partState = .stopped ∧ OthersCarriedBack s t d

/-- A loss at die d of a line that is not on a full Poison List stops the part (R163). -/
abbrev Overflows (c : Instr) (s : State) (line : LineAddr) (d : DieId) : Prop :=
  (∀ x ∈ s.errs.poison, x.1 ≠ line) → 16 ≤ s.errs.poison.length → Stops c s d

/-- Port d with the completed operation gone (R76): INIT in bring-up, IDLE otherwise. -/
def State.vacated (s : State) (d : DieId) : State :=
  s.setPort d
    { s.port d with
      slot := none, opLimit := none, state := if (s.port d).state = .init then .init else .idle }

/-! ### The Maintenance Unit's claims -/

/-- A die's condition is the one that R95 gives, and its claims are those that R99, R103 and R104 keep. -/
abbrev CareFollows (s : State) (d : DieId) : Prop :=
  (s.care d).condition = s.conditionOf d ∧ (s.port d).refreshClaim = s.wantsRefresh d ∧
    (s.port d).recalClaim = s.wantsRecal d ∧ (s.port d).tempClaim = s.wantsTemp d

/-- Both due timers of a die run exactly while its condition is ACTIVE (R95). -/
abbrev DueTimersFollow (s : State) (d : DieId) : Prop :=
  ((s.care d).refreshDue.isSome = true ↔ (s.care d).condition = .active) ∧
    ((s.care d).recalDue.isSome = true ↔ (s.care d).condition = .active)

/-! ### The Drain Scheduler's selection -/

/-- Entry i is eligible on die d, and its first WSN precedes that of every other eligible entry of the die (R26, R27). -/
abbrev OldestEligible (s : State) (d : DieId) (i : Fin 32) : Prop :=
  s.eligible i = true ∧ s.entryDie i = some d ∧
    ∀ j, j ≠ i → s.eligible j = true → s.entryDie j = some d →
      precedes (s.entry i).firstWsn (s.entry j).firstWsn = true

/-- A selection claim of entry i is pending at die d, or has been granted there (R27, R28). -/
abbrev SelectionHeld (t : State) (d : DieId) (i : Fin 32) : Prop :=
  (t.port d).drainClaim = some { entry := i, continuation := false } ∨
    (t.port d).slot.map Slot.claimant = some (.drain i)

/-- A DRAINING entry lies on the die (R27). -/
abbrev Drains (s : State) (d : DieId) : Prop := ∃ i, (s.entry i).state = .draining ∧ s.entryDie i = some d

/-- The operation is one of a drain's three (R29). -/
def Operation.drains : Operation → Bool
  | .lineRead _ _ | .lineWrite _ _ _ _ _ | .maskedWrite _ _ _ _ _ _ => true
  | .refresh _ | .shortRecal _ | .longRecal _ | .tempRead | .set _ _ | .dieReset | .parkEnter _ | .parkExit _ _ => false

/-- The Drain Scheduler's claims. A die has at most one DRAINING entry, whose operation is in flight or whose continuation
claim is pending (R27, R34). A drain in a slot is that of a DRAINING entry of the die; so is a continuation claim, and a
selection claim names an eligible entry of a die without one, while pressure is above NONE (R25 to R28). Such a die has its
oldest eligible entry claimed (R27). The table is empty in CONFIG and BRINGUP. -/
abbrev DrainsClaimed (s : State) : Prop :=
  (∀ i j, (s.entry i).state = .draining → (s.entry j).state = .draining → s.entryDie i = s.entryDie j → i = j) ∧
    (∀ d i, (s.entry i).state = .draining → s.entryDie i = some d → ContinuationHeld s d i) ∧
    (∀ d, ∀ x ∈ (s.port d).slot, ∀ i, x.claimant = .drain i →
      x.op.drains = true ∧ (s.entry i).state = .draining ∧ s.entryDie i = some d) ∧
    (∀ d, ∀ c ∈ (s.port d).drainClaim, s.entryDie c.entry = some d ∧
      if c.continuation = true then (s.entry c.entry).state = .draining
      else s.eligible c.entry = true ∧ s.drain.pressure ≠ .none ∧ ¬ Drains s d) ∧
    (∀ d i, s.drain.pressure ≠ .none → ¬ Drains s d → OldestEligible s d i →
      (s.port d).drainClaim = some { entry := i, continuation := false }) ∧
    (s.chan.partState = .config ∨ s.chan.partState = .bringup → ∀ i, (s.entry i).state = .free)

/-- The hysteresis flag is set at HIGH_MARK and above, and clear at LOW_MARK and below, which lies under it (R23, R136). -/
abbrev HysteresisFollows (s : State) : Prop :=
  s.chan.settings.lowMark < s.chan.settings.highMark ∧
    (s.chan.settings.highMark ≤ occupancy s.table → s.drain.hysteresis = true) ∧
    (occupancy s.table ≤ s.chan.settings.lowMark → s.drain.hysteresis = false)

/-! ### The read claims -/

/-- The operation in the slot is a LINE READ for the record's claim (R46). -/
def Slot.serves (x : Slot) (r : ReadRecord) : Bool :=
  match x.op with
  | .lineRead _ _ => x.claimant == .reads r.claim
  | _ => false

/-- A read claim that the claimant names comes before claim n. -/
def Claimant.below (n : Nat) : Claimant → Bool
  | .reads claim => decide (claim < n)
  | .channel | .maintenance | .drain _ => true

/-- Read Service's claims. The read claims of a port are those of its die's WAITING records, in list order; the LINE READ of
an AT_DIE record, and of no other listed record, is in its die's slot (R44, R46, R53). A record's die is its line's, a slot
names no claim that is still to be given, and reads are listed in RUNNING, WAKING and SWITCHING only. -/
abbrev ReadsClaimed (s : State) : Prop :=
  (∀ d, (s.port d).readClaims =
      (s.reads.list.filter fun r => r.die == d && r.state == .waiting).map ReadRecord.claim) ∧
    (∀ r ∈ s.reads.list, r.state = .atDie → (s.port r.die).slot.any (fun x => x.serves r) = true) ∧
    (∀ d, ∀ x ∈ (s.port d).slot, ∀ r ∈ s.reads.list, x.claimant = .reads r.claim → r.die = d ∧ r.state = .atDie) ∧
    (∀ r ∈ s.reads.list, r.die = s.dieIndex r.line) ∧
    (∀ d, ∀ x ∈ (s.port d).slot, x.claimant.below s.reads.nextClaim = true) ∧
    (s.reads.list ≠ [] → s.chan.partState ∈ [PartState.running, .waking, .switching])

/-! ### The claims of a switch -/

/-- In QUIESCE a PARK ENTER is pending at the die while it is not PARKED, none is in flight and its balance is 0 or more,
and no other Channel Control claim is (R125). -/
abbrev ParkEnterKept (s : State) (d : DieId) : Prop :=
  s.chan.partState = .switching → s.chan.phase = some .quiesce →
    (s.port d).channelClaim =
      if (s.port d).state ≠ .parked ∧ (s.port d).entering = false ∧ 0 ≤ (s.care d).balance then some .parkEnter else none

end Sys2Proof.Machine
end

