-- ==== Sys2Proof/Certificates/Slice0/Obligations.lean ====
section
/-! DEFINITION. The statements for the provers. In each, `CompletesAs c s u` says that command c answers a next state at s
and that this state is u but for what the claims and grants that close an event may change. -/

open Sys2Proof Sys2Proof.Machine

/-! ### The machine -/

/-- A step takes the command at the front of the queue; with none waiting the part idles (logs 1 and 2). -/
def Obligations.StepTakesFrontCommand : Prop :=
  (∀ (c : Instr) (rest : List Instr) (s : State),
    step { s with pending := c :: rest } = exec c { s with pending := rest }) ∧
  ∀ s : State, s.pending = [] → step s = .next s

/-- Every well-formed command completes in every state and leaves the queue of commands alone; every other is refused
as ill formed (log 12). -/
def Obligations.EveryCommandCompletes : Prop :=
  ∀ (c : Instr) (s : State),
    (c.wf = true → ∃ t, exec c s = .next t ∧ t.pending = s.pending) ∧
    (c.wf = false → ∃ m, exec c s = .refused (.illFormed m))

/-- The release of POWER_ON gives every register its value after power-on reset, from any state (R134). That the messages
which the link held are gone is the model's choice (log 6). -/
def Obligations.PowerOnGivesResetValues : Prop :=
  ∀ s : State, ∃ t, exec .powerOn s = .next t ∧ t.pending = s.pending ∧
    t.link = { tags := [], answers := [], held := [] } ∧
    t.table.nextWsn = 0 ∧
    (∀ i, t.entry i =
      { state := .free, line := none, mask := 0, data := zeroLine, firstWsn := 0, lastWsn := 0, merges := 0
        gen := .first, step := none, attempts := 0 }) ∧
    t.drain = { pressure := .none, hysteresis := false, idleTimer := none, idleFlag := false } ∧
    t.reads.list = [] ∧ t.flushes = [] ∧
    (∀ d, t.port d =
      { state := .off, slot := none, opLimit := none, settle := none, settling := none, channelClaim := none
        refreshClaim := false, recalClaim := false, tempClaim := false, readClaims := [], drainClaim := none
        alternation := .drain, clock := if d = 0 then some 2500 else none }) ∧
    (∀ d, t.care d =
      { condition := .stopped, balance := 0, refreshDue := none, coolSkip := false, band := .normal, recalDue := none
        recalPending := false, recalForced := false, tempPending := false }) ∧
    t.maint.pollTimer = none ∧
    t.chan.partState = .config ∧ t.chan.phase = none ∧ t.chan.active = .a ∧ t.chan.procedure = none ∧
    t.chan.parkDelay = none ∧ t.chan.relock = none ∧ (∀ d : DieId, t.chan.recalOwed[d] = false) ∧
    t.chan.stopCause = none ∧
    t.chan.settings =
      { checkPolicy := 0, highMark := 24, lowMark := 8, idleDrainTime := 2, readWaitLimit := 40, parkDelay := 100
        wakeMode := 0, pullIn := 0, maskedWrites := 1, dieCount := 1, dieLinesLog2 := 24, granularity := 1
        tempPoll := 32, drainRetry := 3, dieOpLimit := 100 } ∧
    t.chan.profileA =
      { fields := #v[2500, 10, 9, 12, 7800, 350, 260, 160, 128, 1024, 128, 30, 120, 600, 200, 20], valid := true } ∧
    (∀ n : Fin 16, t.chan.profileB.fields[n] = 0) ∧ t.chan.profileB.valid = false ∧
    (∀ (d : DieId) (n : Fin 16), t.chan.shadow[d][n] = { value := 0, known := false }) ∧
    t.errs = { latches := 0, alert := false, log := [], nextRecord := 0, overwrite := false, poison := [] } ∧
    t.halted = false

/-- State.reset satisfies every invariant stated below. -/
def Obligations.ResetSatisfiesInvariants : Prop :=
  AlertFollows State.reset ∧ BalancesBounded State.reset ∧ ListsBounded State.reset ∧
    SettingsInRange State.reset.chan.settings ∧ ProfilesSound State.reset ∧ LevelKept State.reset ∧
    PortsOrdered State.reset ∧ TableSound State.reset ∧ WsnsOrdered State.reset ∧ TagsHeld State.reset ∧
    HysteresisFollows State.reset ∧ ReadsClaimed State.reset ∧ DrainsClaimed State.reset ∧
    ∀ d, CareFollows State.reset d ∧ DueTimersFollow State.reset d ∧ ParkEnterKept State.reset d

/-! ### Formats -/

/-- The header check is the exclusive-or of its bytes. The data check is a 16-bit register that starts at 0xFFFF; each
byte goes into bits 8-15 by exclusive-or and eight steps follow, each a shift left by one and, if bit 15 was set, an
exclusive-or with 0x1021. A WRITE's check covers mask bytes, then data bytes, and is sent most significant byte first;
a die-link write and a response header are checked the same way (R171). -/
def Obligations.ChecksAreComputedBitByBit : Prop :=
  xorBytes [] = 0 ∧ (∀ (l : List Byte) (b : Byte), xorBytes (l ++ [b]) = xorBytes l ^^^ b) ∧
  dataCheck [] = 0xFFFF#16 ∧
  (∀ (l : List Byte) (b : Byte),
    dataCheck (l ++ [b]) =
      crcStep (crcStep (crcStep (crcStep (crcStep (crcStep (crcStep (crcStep
        (dataCheck l ^^^ (b.setWidth 16 <<< 8)))))))))) ∧
  (∀ r : BitVec 16,
    crcStep r = if r.getLsbD 15 = true then (r <<< 1) ^^^ 0x1021#16 else r <<< 1) ∧
  (∀ (m : Mask) (data : LineData), maskedCheck m data = dataCheck (maskBytes m ++ data.toList)) ∧
  (∀ (m : Mask) (data : LineData), (maskBytes m ++ data.toList).length = 72) ∧
  (∀ data : LineData, lineCheck data = dataCheck data.toList) ∧
  (∀ (byte7 : Byte) (h : Header) (p : WritePayload),
    (Instr.write byte7 h p).wireBytes =
      some (headerBytes kindWrite byte7 h ++ [h.check] ++
        (maskBytes p.mask ++ p.data.toList ++ [p.check.extractLsb' 8 8, p.check.extractLsb' 0 8]))) ∧
  (∀ r : Request, (headerBytes r.kind r.byte7 r.header).length = 15 ∧
    (r.headerOk = true ↔ xorBytes (headerBytes r.kind r.byte7 r.header) = r.header.check)) ∧
  ∀ a : Answer, a.header.length = 15 ∧
    a.wireBytes = a.header ++ [xorBytes a.header] ++ (a.beats.map (·.toList)).flatten ++ a.payload

/-- No bit of a request message is dropped: the bytes of every well-formed message command read back as that command
(section 11.1, R169). -/
def Obligations.RequestBytesRoundTrip : Prop :=
  ∀ (c : Instr) (bytes : List Byte), c.wf = true → c.wireBytes = some bytes → parseMessage bytes = some c

/-! ### The Request Intake -/

/-- A message whose header check fails is dropped: a HEADER_CHECK record and latch, no answer, and no request arrival. -/
def Obligations.HeaderFaultDropsMessage : Prop :=
  ∀ (c : Instr) (s : State) (r : Request),
    c.wf = true → requestOf c = some r → s.link.held = [] → s.hasPlace = true →
    xorBytes (headerBytes r.kind r.byte7 r.header) ≠ r.header.check →
    ∃ t, exec c s = .next t ∧ t = { s with errs := t.errs } ∧
      t.errs.log =
        (if 16 ≤ s.errs.log.length then s.errs.log.tail else s.errs.log) ++
          [{ number := s.errs.nextRecord, kind := .headerCheck, part := s.chan.partState, detail := 0, die := none
             line := none, tag := none, wsn := none }] ∧
      t.errs.nextRecord = s.errs.nextRecord + 1 ∧ t.errs.poison = s.errs.poison ∧
      t.errs.overwrite = (s.errs.overwrite || decide (16 ≤ s.errs.log.length)) ∧
      t.errs.latches = s.errs.latches ||| 1 ||| (if 16 ≤ s.errs.log.length then 128 else 0) ∧ t.errs.alert = true

/-- While the Response Queue has no place, or messages wait before it, a message stays on the link (R154; log 5). -/
def Obligations.MessageWaitsForPlace : Prop :=
  ∀ (c : Instr) (s : State) (r : Request),
    c.wf = true → requestOf c = some r →
    (s.link.held ≠ [] ∨ 24 ≤ s.link.answers.length + s.link.tags.length) →
    exec c s = .next { s with link := { s.link with held := s.link.held ++ [c] } }

/-- Steps 2 to 7 of R151: a message that the Intake takes is answered by the first check that fails, and has no other
effect than its arrival and, at the data check, a record and a latch. -/
def Obligations.RefusalsFollowIntakeOrder : Prop :=
  ∀ (c : Instr) (s : State) (r : Request),
    c.wf = true → requestOf c = some r → Taken s r →
    let refused (st : Status) : Prop := CompletesAs c s (s.answered (Answer.plain r.header.tag st 0))
    let halted : Prop := s.chan.settings.checkPolicy = 1 ∧ s.errs.latches.getLsbD 0 = true ∧ r.exempt = false
    if r.malformed = true then refused .malformed
    else if halted then refused .halted
    else if r.header.tag ∈ s.link.tags then refused .tagInUse
    else if r.memory = true ∧ (s.chan.partState = .config ∨ s.chan.partState = .bringup) then refused .notReady
    else if r.memory = true ∧ s.chan.partState = .stopped then refused .stopped
    else if (∃ l, r.line = some l ∧ s.chan.settings.dieCount * 2 ^ s.chan.settings.dieLinesLog2 ≤ l.toNat) then
      refused .range
    else if r.dataOk = false then
      CompletesAs c s
        { s.answered (Answer.plain r.header.tag .dataCheck 0) with
          errs := ((s.logNote { kind := .dataCheck, detail := 6, line := r.line, tag := some r.header.tag }).latch
            .dataCheck).errs }
    else Accepted s r

/-- The malformed tests of R152 and R169 by kind: the reserved fields, the fields a kind does not use, and the argument
ranges of the queries. -/
def Obligations.MalformedFormsOfEachKind : Prop :=
  ∀ (byte7 : Byte) (h : Header) (p : WritePayload),
    let rsvd : Prop := h.kindRsvd = 0 ∧ h.tagRsvd = 0 ∧ h.lineRsvd = 0 ∧ h.beatRsvd = 0 ∧ h.dieMaskRsvd = 0 ∧
      h.tailRsvd = 0
    let noBeats : Prop := h.startBeat = 0 ∧ h.half = false ∧ h.pairwise = false
    ((Request.ofRead byte7 h).malformed = false ↔ rsvd ∧ byte7 = 0 ∧ h.value = 0 ∧ h.dieMask = 0) ∧
    ((Request.ofWrite byte7 h p).malformed = false ↔
      rsvd ∧ byte7 = 0 ∧ h.value = 0 ∧ h.dieMask = 0 ∧ noBeats) ∧
    ((Request.ofFlush byte7 h).malformed = false ↔
      rsvd ∧ byte7 = 0 ∧ h.value = 0 ∧ h.dieMask = 0 ∧ noBeats ∧ h.line = 0) ∧
    (∀ code, (Request.setup code anyValue h).malformed = false ↔
      rsvd ∧ h.dieMask = 0 ∧ noBeats ∧ h.line = 0) ∧
    (∀ c r, c = .start h ∨ c = .restart h → requestOf c = some r →
      (r.malformed = false ↔ rsvd ∧ h.dieMask = 0 ∧ noBeats ∧ h.line = 0 ∧ h.value = 0)) ∧
    (∀ r, requestOf (.clearErrors h) = some r →
      (r.malformed = false ↔ rsvd ∧ h.dieMask = 0 ∧ noBeats ∧ h.line = 0 ∧ h.value.toNat < 256)) ∧
    (∀ r, requestOf (.dieSetting h) = some r →
      (r.malformed = false ↔ rsvd ∧ noBeats ∧ h.line = 0 ∧ h.value.toNat < 2 ^ 24)) ∧
    (∀ c r limit,
      (c, limit) ∈ [(Instr.queryStatus h, 0), (.queryLog h, 0), (.queryEntry h, 31), (.queryPoison h, 0),
        (.queryProfile h, 1), (.queryShadow h, 3), (.querySettings h, 0)] →
      requestOf c = some r →
      (r.malformed = false ↔ rsvd ∧ h.dieMask = 0 ∧ noBeats ∧ h.line = 0 ∧ h.value.toNat ≤ limit))

/-- A message of an undefined kind, setting code or query code is answered MALFORMED (R152). -/
def Obligations.UndefinedCodesAnsweredMalformed : Prop :=
  ∀ (s : State) (h : Header),
    (∀ (k : BitVec 3) (byte7 : Byte) (r : Request), 5 ≤ k.toNat →
      requestOf (.undefinedKind k byte7 h) = some r → Taken s r →
      CompletesAs (.undefinedKind k byte7 h) s (s.answered (Answer.plain h.tag .malformed 0))) ∧
    (∀ (code : Byte) (r : Request),
      (code.toNat = 0 ∨ (0x16 ≤ code.toNat ∧ code.toNat ≤ 0x1F) ∨ (0x30 ≤ code.toNat ∧ code.toNat ≤ 0x3F) ∨
        0x50 ≤ code.toNat) →
      requestOf (.undefinedSettingCode code h) = some r → Taken s r →
      CompletesAs (.undefinedSettingCode code h) s (s.answered (Answer.plain h.tag .malformed 0))) ∧
    (∀ (code : Byte) (r : Request), 7 ≤ code.toNat →
      requestOf (.undefinedQueryCode code h) = some r → Taken s r →
      CompletesAs (.undefinedQueryCode code h) s (s.answered (Answer.plain h.tag .malformed 0)))

/-! ### WRITE, READ and FLUSH -/

/-- A WRITE to a line with an OPEN entry is merged into it, takes the next WSN and is answered POSTED; a full mask takes
the line off the Poison List; in PARKING and PARKED it wakes the part, with a PARK EXIT granted at every PARKED port (R5,
R7, R8, R12, R108, R122). -/
def Obligations.WriteMergesIntoOpenEntry : Prop :=
  ∀ (s : State) (byte7 : Byte) (h : Header) (p : WritePayload) (i : Fin 32),
    LevelKept s → TableSound s → Accepted s (Request.ofWrite byte7 h p) → p.mask ≠ 0 →
    (∀ j, (s.entry j).state ≠ .free → (s.table.nextWsn - (s.entry j).firstWsn).toNat < 2 ^ 31 - 1) →
    (s.entry i).state = .opened → (s.entry i).line = some h.line →
    CompletesAs (.write byte7 h p) s
      { s.answered (Answer.plain h.tag .posted 0) with
        table :=
          { entries := s.table.entries.set i
              { s.entry i with
                mask := (s.entry i).mask ||| p.mask
                data := Vector.ofFn fun k => if p.mask.getLsbD k.val then p.data[k] else (s.entry i).data[k]
                lastWsn := s.table.nextWsn
                merges := min ((s.entry i).merges + 1) 65535 }
            nextWsn := s.table.nextWsn + 1 }
        chan := s.arrived.chan.woken
        errs :=
          if p.mask = BitVec.allOnes 64 then { s.errs with poison := s.errs.poison.filter fun x => x.1 != h.line }
          else s.errs } ∧
      Wakes (.write byte7 h p) s

/-- A WRITE to a line without an OPEN entry takes the FREE entry of lowest index: SECOND beside a DRAINING entry of the
line, FIRST otherwise; it takes the next WSN and is answered POSTED; in PARKING and PARKED it wakes the part, with a PARK
EXIT granted at every PARKED port (R4, R5, R7, R9, R12, R108, R122). -/
def Obligations.WriteAllocatesLowestFreeEntry : Prop :=
  ∀ (s : State) (byte7 : Byte) (h : Header) (p : WritePayload) (i : Fin 32),
    LevelKept s → Accepted s (Request.ofWrite byte7 h p) → p.mask ≠ 0 →
    (∀ j, (s.entry j).state ≠ .free → (s.table.nextWsn - (s.entry j).firstWsn).toNat < 2 ^ 31 - 1) →
    (∀ j, ¬ ((s.entry j).state = .opened ∧ (s.entry j).line = some h.line)) →
    (s.entry i).state = .free → (∀ j, j < i → (s.entry j).state ≠ .free) →
    CompletesAs (.write byte7 h p) s
      { s.answered (Answer.plain h.tag .posted 0) with
        table :=
          { entries := s.table.entries.set i
              { state := .opened, line := some h.line, mask := p.mask
                data := Vector.ofFn fun k => if p.mask.getLsbD k.val then p.data[k] else 0
                firstWsn := s.table.nextWsn, lastWsn := s.table.nextWsn, merges := 1
                gen :=
                  if ∃ j, (s.entry j).state = .draining ∧ (s.entry j).line = some h.line then .second else .first
                step := none, attempts := 0 }
            nextWsn := s.table.nextWsn + 1 }
        chan := s.arrived.chan.woken
        errs :=
          if p.mask = BitVec.allOnes 64 then { s.errs with poison := s.errs.poison.filter fun x => x.1 != h.line }
          else s.errs } ∧
      Wakes (.write byte7 h p) s

/-- A WRITE with an empty mask is answered POSTED and leaves table, counter and Poison List (R11); a WRITE that finds an
entry too far behind the counter, or a full table without an OPEN entry of its line, is answered RETRY and leaves them
as well (R7, R10). That these WRITEs, the empty-mask one and the one answered RETRY, wake the part in PARKING and PARKED
is the model's choice (log 10); the PARK EXITs granted then are those of R122. -/
def Obligations.WriteLeavesTableUnchanged : Prop :=
  ∀ (s : State) (byte7 : Byte) (h : Header) (p : WritePayload),
    LevelKept s → Accepted s (Request.ofWrite byte7 h p) →
    (p.mask = 0 →
      CompletesAs (.write byte7 h p) s
        { s.answered (Answer.plain h.tag .posted 0) with chan := s.arrived.chan.woken } ∧
      Wakes (.write byte7 h p) s) ∧
    (p.mask ≠ 0 →
      ((∃ j, (s.entry j).state ≠ .free ∧ 2 ^ 31 - 1 ≤ (s.table.nextWsn - (s.entry j).firstWsn).toNat) ∨
        ((∀ j, (s.entry j).state ≠ .free) ∧
          ∀ j, ¬ ((s.entry j).state = .opened ∧ (s.entry j).line = some h.line))) →
      CompletesAs (.write byte7 h p) s
        { s.answered (Answer.plain h.tag .retry 0) with chan := s.arrived.chan.woken } ∧
      Wakes (.write byte7 h p) s)

/-- The capture of a line: the positions that its entries hold; at each the OPEN entry's byte before the DRAINING
entry's; zero elsewhere (R19, R41). -/
def Obligations.CaptureTakesNewestHeldBytes : Prop :=
  ∀ (s : State) (line : LineAddr) (k : Fin 64), TableSound s →
    ((s.captureMask line).getLsbD k.val = true ↔
      ∃ i, (s.entry i).line = some line ∧ (s.entry i).mask.getLsbD k.val = true) ∧
    (∀ i, (s.entry i).state = .opened → (s.entry i).line = some line → (s.entry i).mask.getLsbD k.val = true →
      (s.captureData line)[k] = (s.entry i).data[k]) ∧
    (∀ i, (s.entry i).state = .draining → (s.entry i).line = some line → (s.entry i).mask.getLsbD k.val = true →
      (∀ j, (s.entry j).state = .opened → (s.entry j).line = some line → (s.entry j).mask.getLsbD k.val = false) →
      (s.captureData line)[k] = (s.entry i).data[k]) ∧
    ((s.captureMask line).getLsbD k.val = false → (s.captureData line)[k] = 0)

/-- A READ of a poisoned line is answered at once with the poison flag; a READ with a full capture at once without it;
another READ that finds 16 records is answered RETRY; for these no record is made and the part is not woken. Any other
READ joins the Read Wait List with its capture and a deadline of READ_WAIT_LIMIT, keeps its tag, has its claim pending or
granted at its die, and in PARKING and PARKED wakes the part, with a PARK EXIT granted at every PARKED port (R40, R42 to
R44, R46, R52, R57, R108, R122). That a claim's name is a number is the model's choice (log 13). -/
def Obligations.ReadAnsweredAtArrivalOrListed : Prop :=
  ∀ (s : State) (byte7 : Byte) (h : Header),
    LevelKept s → Accepted s (Request.ofRead byte7 h) →
    let beats := beatsOf h.startBeat h.half h.pairwise (s.captureData h.line)
    let poisoned : Prop := ∃ x ∈ s.errs.poison, x.1 = h.line
    (poisoned → CompletesAs (.read byte7 h) s (s.answered (Answer.ofRead h.tag true beats))) ∧
    (¬ poisoned → s.captureMask h.line = BitVec.allOnes 64 →
      CompletesAs (.read byte7 h) s (s.answered (Answer.ofRead h.tag false beats))) ∧
    (¬ poisoned → s.captureMask h.line ≠ BitVec.allOnes 64 → 16 ≤ s.reads.list.length →
      CompletesAs (.read byte7 h) s (s.answered (Answer.plain h.tag .retry 0))) ∧
    (¬ poisoned → s.captureMask h.line ≠ BitVec.allOnes 64 → s.reads.list.length < 16 →
      (∃ t, exec (.read byte7 h) s = .next t ∧ ReadHeld t (s.dieIndex h.line) s.reads.nextClaim ∧
        Internal
          { s.outstanding h.tag with
            reads :=
              { list := s.reads.list ++
                  [{ claim := s.reads.nextClaim, tag := h.tag, line := h.line, die := s.dieIndex h.line
                     startBeat := h.startBeat, half := h.half, pairwise := h.pairwise, mask := s.captureMask h.line
                     data := s.captureData h.line, state := .waiting, lost := false
                     deadline := s.chan.settings.readWaitLimit * 1000 }]
                nextClaim := s.reads.nextClaim + 1 }
            chan := s.arrived.chan.woken } t) ∧
      Wakes (.read byte7 h) s)

/-- The beats of a READ's answer by start beat, length and order, and the eight bytes of a beat (R55). -/
def Obligations.BeatsFollowStartLengthOrder : Prop :=
  ∀ (st : BitVec 3) (data : LineData),
    let s := st.toNat
    (beatOrder st false false).map BitVec.toNat = (List.range 8).map (fun i => (s + i) % 8) ∧
    (beatOrder st false true).map BitVec.toNat = (List.range 8).map (fun i => s ^^^ i) ∧
    (beatOrder st true false).map BitVec.toNat =
      (List.range 4).map (fun i => (if s < 4 then 0 else 4) + (s % 4 + i) % 4) ∧
    (beatOrder st true true).map BitVec.toNat = (List.range 4).map (fun i => s ^^^ i) ∧
    (∀ half pairwise, beatsOf st half pairwise data = (beatOrder st half pairwise).map (beatOf data)) ∧
    ∀ (k : BitVec 3) (j : Fin 8), (beatOf data k)[j] = data[8 * k.toNat + j.val]'(by have := k.isLt; omega)

/-- A FLUSH is answered OK at once when no entry's first WSN precedes its boundary, RETRY when four records are listed,
and joins the Flush List otherwise, which makes the pressure URGENT. It wakes nothing and changes no entry (R22, R63). -/
def Obligations.FlushDecidedAtArrival : Prop :=
  ∀ (s : State) (byte7 : Byte) (h : Header),
    LevelKept s → Accepted s (Request.ofFlush byte7 h) →
    let waits : Prop := ∃ i, (s.entry i).state ≠ .free ∧ precedes (s.entry i).firstWsn s.table.nextWsn = true
    (¬ waits → CompletesAs (.flush byte7 h) s (s.answered (Answer.plain h.tag .ok 0))) ∧
    (waits → 4 ≤ s.flushes.length → CompletesAs (.flush byte7 h) s (s.answered (Answer.plain h.tag .retry 0))) ∧
    (waits → s.flushes.length < 4 →
      ∃ t, exec (.flush byte7 h) s = .next t ∧ t.drain.pressure = .urgent ∧
        Internal
          { s.outstanding h.tag with
            flushes := s.flushes ++ [{ tag := h.tag, boundary := s.table.nextWsn, loss := false }] } t)

/-- The expiry of a listed record's deadline: answered TIMEOUT, a READ_TIMEOUT record without a latch, and the record
leaves the list; its claim is withdrawn, and a LINE READ in flight stays in its slot (R45, R53). An expiry that names no
listed record changes nothing (log 4). -/
def Obligations.DeadlineExpiryAnswersTimeout : Prop :=
  (∀ (s : State) (r : ReadRecord),
    TagsHeld s → r ∈ s.reads.list →
    ∃ t, exec (.deadlineExpiry r.tag) s = .next t ∧ r.claim ∉ (t.port r.die).readClaims ∧
      Internal
        { s with
          link :=
            { s.link with
              tags := s.link.tags.filter fun x => x != r.tag
              answers := s.link.answers ++ [Answer.plain r.tag .timeout 0] }
          reads := { s.reads with list := s.reads.list.filter fun x => x.claim != r.claim }
          errs :=
            (s.logNote
              { kind := .readTimeout, detail := 8, die := some r.die, line := some r.line, tag := some r.tag }).errs }
        t) ∧
  ∀ (s : State) (tag : Tag), (∀ r ∈ s.reads.list, r.tag ≠ tag) → exec (.deadlineExpiry tag) s = .next s

/-! ### Draining -/

/-- A completion of a write step, LINE WRITE or MASKED WRITE: DONE retires the entry; CHECK_FAIL up to DRAIN_RETRY times
keeps the step with a continuation claim and one more attempt; one more CHECK_FAIL loses the write, and a loss that
overflows the Poison List stops the part and carries the other dies back (R30, R31, R34, R131, R132, R163). -/
def Obligations.WriteStepRetiresRetriesOrLoses : Prop :=
  ∀ (s : State) (d : DieId) (i : Fin 32) (op : Operation) (ln : Option LineAddr) (command : Completion → Instr),
    (s.port d).slot = some ⟨op, .drain i, ln⟩ →
    ((∃ l data k w r, op = .lineWrite l data k w r ∧ command = .lineWriteCompletion d) ∨
      ∃ l m data k w r, op = .maskedWrite l m data k w r ∧ command = .maskedWriteCompletion d) →
    CompletesAs (command (plain .done)) s ((s.vacated d).leave i false) ∧
    ((s.entry i).attempts + 1 ≤ s.chan.settings.drainRetry →
      (s.entry i).state = .draining → s.entryDie i = some d →
      ∃ t, exec (command (plain .checkFail)) s = .next t ∧ ContinuationHeld t d i ∧
        Internal ((s.vacated d).setEntry i { s.entry i with attempts := (s.entry i).attempts + 1 }) t) ∧
    (∀ line, s.chan.settings.drainRetry < (s.entry i).attempts + 1 → (s.entry i).line = some line →
      CompletesAs (command (plain .checkFail)) s
          (((s.vacated d).reportLoss line (s.entry i).firstWsn .checkFail).leave i true) ∧
        Overflows (command (plain .checkFail)) s line d)

/-- A completion of an RMW drain's LINE READ: DONE fills the entry outside its mask and places a continuation claim for
RMW_WRITE; UNCORRECTABLE loses the write, and a loss that overflows the Poison List stops the part and carries the other
dies back (R32 to R34, R131, R132, R163). -/
def Obligations.RmwReadFillsOrLoses : Prop :=
  ∀ (s : State) (d : DieId) (i : Fin 32) (l latency : Nat) (ln : Option LineAddr),
    (s.port d).slot = some ⟨.lineRead l latency, .drain i, ln⟩ →
    (∀ data : LineData, (s.entry i).state = .draining → s.entryDie i = some d →
      ∃ t, exec (.lineReadCompletion d { outcome := .done, data := some data, band := none }) s = .next t ∧
        ContinuationHeld t d i ∧
        Internal
          ((s.vacated d).setEntry i
            { s.entry i with
              data := Vector.ofFn fun k => if (s.entry i).mask.getLsbD k.val then (s.entry i).data[k] else data[k]
              step := some .rmwWrite }) t) ∧
    (∀ line, (s.entry i).line = some line →
      CompletesAs (.lineReadCompletion d (plain .uncorrectable)) s
          (((s.vacated d).reportLoss line (s.entry i).firstWsn .uncorrectable).leave i true) ∧
        Overflows (.lineReadCompletion d (plain .uncorrectable)) s line d)

/-- A retirement or loss frees the DRAINING entry, promotes the SECOND entry of its line, flags on a loss the listed
flushes whose boundary its first WSN precedes, and answers in list order each flush that no entry holds back (R4, R15,
R16, R65, R66). -/
def Obligations.LeavingEntryPromotesAndAnswersFlushes : Prop :=
  ∀ (s : State) (i : Fin 32) (lost : Bool), TableSound s → (s.entry i).state = .draining →
    let t := s.leave i lost
    let records := s.flushes.map fun r => { r with loss := r.loss || (lost && precedes (s.entry i).firstWsn r.boundary) }
    let complete (r : FlushRecord) : Bool :=
      decide (∀ j, (t.entry j).state ≠ .free → precedes (t.entry j).firstWsn r.boundary = false)
    (∀ j, t.entry j =
      if j = i then
        { state := .free, line := none, mask := 0, data := zeroLine, firstWsn := 0, lastWsn := 0, merges := 0
          gen := .first, step := none, attempts := 0 }
      else if (s.entry j).gen = .second ∧ (s.entry j).line = (s.entry i).line then { s.entry j with gen := .first }
      else s.entry j) ∧
    t.flushes = records.filter (fun r => !complete r) ∧
    t.link.answers =
      s.link.answers ++
        (records.filter complete).map (fun r => Answer.plain r.tag (if r.loss then .loss else .ok) 0) ∧
    t.link.tags = s.link.tags.filter (fun x => !((records.filter complete).map FlushRecord.tag).contains x) ∧
    t = { s with link := t.link, table := t.table, flushes := t.flushes } ∧
    t.table.nextWsn = s.table.nextWsn ∧ t.link.held = s.link.held

/-- The Error Unit on a loss: a line already listed is not added, a new line is appended while the Poison List has room,
and a new line at a full list overflows into STOPPED; each loss writes a WRITE_LOST record and latch and marks the
listed reads of the line, and an overflow writes a POISON_FULL record and latch as well (R50, R163). -/
def Obligations.LossPoisonsLineOrStopsPart : Prop :=
  ∀ (s : State) (line : LineAddr) (wsn : Wsn) (cause : LossCause),
    let listed : Prop := ∃ x ∈ s.errs.poison, x.1 = line
    let detail := match cause with
      | .checkFail => 1
      | .uncorrectable => 2
    let note (kind : LogKind) : LogNote :=
      { kind := kind, detail := detail, die := some (s.dieIndex line), line := some line, wsn := some wsn }
    let marked (x : State) : State :=
      { x with
        reads :=
          { x.reads with
            list := x.reads.list.map fun r => if r.line = line then { r with lost := true } else r } }
    let recorded (poison : List (LineAddr × DieId)) : State :=
      marked ((({ s with errs := { s.errs with poison := poison } } : State).logNote (note .writeLost)).latch .writeLost)
    (listed → s.reportLoss line wsn cause = recorded s.errs.poison) ∧
    (¬ listed → s.errs.poison.length < 16 →
      s.reportLoss line wsn cause = recorded (s.errs.poison ++ [(line, s.dieIndex line)])) ∧
    (¬ listed → 16 ≤ s.errs.poison.length →
      s.reportLoss line wsn cause =
        (((recorded s.errs.poison).logNote (note .poisonFull)).latch .poisonFull).enterStopped .poisonFull)

/-! ### Reads at the die -/

/-- A completion of a LINE READ for a listed record: DONE answers with the capture laid over the die's bytes, poisoned
by the lost mark; UNCORRECTABLE answers with the poison flag, a record and a latch; the record leaves the list. For a
record that has left the list the completion only empties the slot (R47 to R50). -/
def Obligations.LineReadAnswersListedRecord : Prop :=
  ∀ (s : State) (d : DieId) (claim l latency : Nat) (ln : Option LineAddr),
    (s.port d).slot = some ⟨.lineRead l latency, .reads claim, ln⟩ →
    let done (data : LineData) : Instr :=
      .lineReadCompletion d { outcome := .done, data := some data, band := none }
    let uncorrectable : Instr := .lineReadCompletion d (plain .uncorrectable)
    let answered (r : ReadRecord) (poison : Bool) (data : LineData) : State :=
      { s.vacated d with
        link :=
          { s.link with
            tags := s.link.tags.filter fun x => x != r.tag
            answers :=
              s.link.answers ++ [Answer.ofRead r.tag poison (beatsOf r.startBeat r.half r.pairwise data)] }
        reads := { s.reads with list := s.reads.list.filter fun x => x.claim != claim } }
    (∀ r ∈ s.reads.list, r.claim = claim → (s.reads.list.map ReadRecord.claim).Nodup →
      (∀ data : LineData,
        CompletesAs (done data) s
          (answered r r.lost (Vector.ofFn fun k => if r.mask.getLsbD k.val then r.data[k] else data[k]))) ∧
      CompletesAs uncorrectable s
        { answered r true r.data with
          errs :=
            ((s.logNote
              { kind := .readUncorrectable, die := some r.die, line := some r.line, tag := some r.tag }).latch
              .readUncorrectable).errs }) ∧
    ((∀ r ∈ s.reads.list, r.claim ≠ claim) →
      (∀ data, CompletesAs (done data) s (s.vacated d)) ∧ CompletesAs uncorrectable s (s.vacated d))

/-! ### Die failure and STOPPED -/

/-- Entry to STOPPED from RUNNING, PARKING, WAKING or SWITCHING: the procedure is answered FAILED with its detail, then
every listed READ, then every listed FLUSH STOPPED, in list order; Channel Control's claims but PARK EXIT and every read
claim are withdrawn. In any other state nothing changes (R59, R69, R130, R131, R147). -/
def Obligations.EnteringStoppedAnswersAllOutstanding : Prop :=
  ∀ (s : State) (cause : StopCause),
    let t := s.enterStopped cause
    let detail : BitVec 32 :=
      match s.chan.procedure with
      | some ⟨.rateSwitch _, _, _⟩ =>
        (match s.chan.phase with
          | some .quiesce => 1
          | some .clock => 2
          | some .wake => 3
          | some .recal => 4
          | some .apply => 5
          | none => 0)
      | some ⟨.dieSetting _ _ _ done, _, _⟩ => done.setWidth 32
      | some ⟨.start _, _, _⟩ | none => 0
    if s.chan.partState ∈ [PartState.running, .parking, .waking, .switching] then
      t.chan =
        { s.chan with partState := .stopped, phase := none, stopCause := some cause, procedure := none } ∧
      t.reads = { s.reads with list := [] } ∧ t.flushes = [] ∧
      t.link.answers =
        s.link.answers ++ s.procedureTags.map (fun tag => Answer.plain tag .failed detail) ++
          s.reads.list.map (fun r => Answer.plain r.tag .stopped 0) ++
          s.flushes.map (fun r => Answer.plain r.tag .stopped 0) ∧
      (TagsHeld s → t.link.tags = []) ∧ t.link.held = s.link.held ∧
      (∀ d, t.port d =
        { s.port d with
          readClaims := []
          channelClaim := if (s.port d).channelClaim = some .parkExit then some .parkExit else none }) ∧
      t.pending = s.pending ∧ t.table = s.table ∧ t.drain = s.drain ∧ t.maint = s.maint ∧ t.errs = s.errs
    else t = s

/-- A port that becomes FAILED outside BRINGUP: a DIE_FAILED record and latch, an empty slot, stopped timers, no claims and
its clock held low; its DRAINING entry reverts to OPEN FIRST and absorbs the SECOND entry of its line; then the part
enters STOPPED (R18, R85, R131). In BRINGUP its die joins the failed dies of the START, and nothing else of Channel Control
changes but what the end of a failed START does (R86, R118). -/
def Obligations.FailedPortRevertsEntriesAndStopsPart : Prop :=
  ∀ (s : State) (d : DieId) (detail : Status), TableSound s →
    let joined : Option Procedure :=
      match s.chan.procedure with
      | some ⟨.start failed, tag, suppressed⟩ => some ⟨.start (failed ||| BitVec.twoPow 4 d.val), tag, suppressed⟩
      | other => other
    ∃ x : State,
      s.failPort d detail =
        (if s.chan.partState = .bringup then
          ({ x with chan := { s.chan with procedure := joined } } : State).abortBringup
        else x.enterStopped .dieFailed) ∧
      x = { s with table := x.table, ports := x.ports, errs := x.errs } ∧ x.table.nextWsn = s.table.nextWsn ∧
      x.errs =
        ((s.logNote
          { kind := .dieFailed, detail := detail.code, die := some d, line := (s.port d).slot.bind Slot.line
            tag := s.slotTag d }).latch .dieFailed).errs ∧
      (∀ e, x.port e =
        if e = d then
          { state := .failed, slot := none, opLimit := none, settle := none, settling := none, channelClaim := none
            refreshClaim := false, recalClaim := false, tempClaim := false, readClaims := [], drainClaim := none
            alternation := (s.port d).alternation, clock := none }
        else s.port e) ∧
      (∀ i, (s.entry i).state = .draining → s.entryDie i = some d →
        (∀ j, (s.entry j).gen = .second → (s.entry j).line ≠ (s.entry i).line) →
        x.entry i = { s.entry i with state := .opened, step := none, gen := .first }) ∧
      (∀ i j, (s.entry i).state = .draining → s.entryDie i = some d → (s.entry j).gen = .second →
        (s.entry j).line = (s.entry i).line →
        x.entry i =
          { s.entry i with
            state := .opened, step := none, gen := .first
            mask := (s.entry i).mask ||| (s.entry j).mask
            data := Vector.ofFn fun k =>
              if (s.entry j).mask.getLsbD k.val then (s.entry j).data[k] else (s.entry i).data[k]
            lastWsn := (s.entry j).lastWsn, merges := min ((s.entry i).merges + (s.entry j).merges) 65535 } ∧
        x.entry j = Entry.freed) ∧
      (∀ k, ((s.entry k).state = .draining → s.entryDie k ≠ some d) →
        ((s.entry k).gen = .second → s.entryDie k ≠ some d) → x.entry k = s.entry k)

/-- A FAIL completion of DIE RESET, REFRESH, SHORT RECAL, LONG RECAL, SET, PARK ENTER or PARK EXIT fails its port with
detail FAILED (R84, R85); the expiry of a running op-limit timer fails it with detail TIMEOUT (R83, R85). Where this stops
the part, a PARK EXIT is granted at every other PARKED die and a LONG RECAL at every other IDLE die that owes a clock
recal (R131, R132). An expiry of a timer that is not running changes nothing (log 4). -/
def Obligations.FailAndOpLimitFailPort : Prop :=
  ∀ (s : State) (d : DieId),
    (∀ (op : Operation) (cl : Claimant) (ln : Option LineAddr) (c : Instr),
      (s.port d).slot = some ⟨op, cl, ln⟩ →
      ((op = .dieReset ∧ c = .dieResetCompletion d (plain .fail)) ∨
        (∃ w, op = .refresh w ∧ c = .refreshCompletion d (plain .fail)) ∨
        (∃ w, op = .shortRecal w ∧ c = .shortRecalCompletion d (plain .fail)) ∨
        (∃ w, op = .longRecal w ∧ c = .longRecalCompletion d (plain .fail)) ∨
        (∃ i v, op = .set i v ∧ c = .setCompletion d (plain .fail)) ∨
        (∃ w, op = .parkEnter w ∧ c = .parkEnterCompletion d (plain .fail)) ∨
        ∃ m w, op = .parkExit m w ∧ c = .parkExitCompletion d (plain .fail)) →
      CompletesAs c s (s.failPort d .failed) ∧ Stops c s d) ∧
    (∀ n, (s.port d).opLimit = some n →
      CompletesAs (.opLimitExpiry d) s (s.failPort d .timeout) ∧ Stops (.opLimitExpiry d) s d) ∧
    ((s.port d).opLimit = none → exec (.opLimitExpiry d) s = .next s)

/-- A completion that does not match the operation in the slot, or has an outcome that the operation does not have,
changes nothing (R87). -/
def Obligations.MismatchedCompletionChangesNothing : Prop :=
  ∀ (s : State) (d : DieId) (c : Completion),
    let op : Option Operation := (s.port d).slot.map Slot.op
    let control : Prop := c = plain .done ∨ c = plain .fail
    let write : Prop := c = plain .done ∨ c = plain .checkFail
    let idle (i : Instr) : Prop := exec i s = .next s
    (((∀ l n, op ≠ some (.lineRead l n)) ∨
        ((∀ data, c ≠ { outcome := .done, data := some data, band := none }) ∧ c ≠ plain .uncorrectable)) →
      idle (.lineReadCompletion d c)) ∧
    (((∀ l data k w r, op ≠ some (.lineWrite l data k w r)) ∨ ¬ write) → idle (.lineWriteCompletion d c)) ∧
    (((∀ l m data k w r, op ≠ some (.maskedWrite l m data k w r)) ∨ ¬ write) → idle (.maskedWriteCompletion d c)) ∧
    (((∀ w, op ≠ some (.refresh w)) ∨ ¬ control) → idle (.refreshCompletion d c)) ∧
    (((∀ w, op ≠ some (.shortRecal w)) ∨ ¬ control) → idle (.shortRecalCompletion d c)) ∧
    (((∀ w, op ≠ some (.longRecal w)) ∨ ¬ control) → idle (.longRecalCompletion d c)) ∧
    ((op ≠ some .tempRead ∨ ∀ b, c ≠ { outcome := .done, data := none, band := some b }) →
      idle (.tempReadCompletion d c)) ∧
    (((∀ i v, op ≠ some (.set i v)) ∨ ¬ control) → idle (.setCompletion d c)) ∧
    ((op ≠ some .dieReset ∨ ¬ control) → idle (.dieResetCompletion d c)) ∧
    (((∀ w, op ≠ some (.parkEnter w)) ∨ ¬ control) → idle (.parkEnterCompletion d c)) ∧
    (((∀ m w, op ≠ some (.parkExit m w)) ∨ ¬ control) → idle (.parkExitCompletion d c))

/-! ### Maintenance -/

/-- REFRESH DONE raises the balance by one, to +8 at most; SHORT RECAL DONE clears both recal flags; TEMP READ DONE
clears its pending flag, takes the band and, at CRITICAL, writes a record and sets the latch (R96, R100, R103, R104). In
QUIESCE a REFRESH DONE that leaves the balance at 0 or more has the die's PARK ENTER granted (R125). -/
def Obligations.MaintenanceCompletionsUpdateDie : Prop :=
  ∀ (s : State) (d : DieId) (cl : Claimant) (ln : Option LineAddr),
    (∀ w, (s.port d).slot = some ⟨.refresh w, cl, ln⟩ → (s.care d).balance ≤ 8 →
      ∃ t, exec (.refreshCompletion d (plain .done)) s = .next t ∧
        Internal ((s.vacated d).setCare d { s.care d with balance := min ((s.care d).balance + 1) 8 }) t ∧
        (s.present d = true → ParkEnterKept t d ∧
          (s.chan.partState = .switching → s.chan.phase = some .quiesce → (s.port d).state = .busy →
            -1 ≤ (s.care d).balance → ChannelOperates t d (.parkEnter (s.activeField 12))))) ∧
    (∀ w, (s.port d).slot = some ⟨.shortRecal w, cl, ln⟩ →
      CompletesAs (.shortRecalCompletion d (plain .done)) s
        ((s.vacated d).setCare d { s.care d with recalPending := false, recalForced := false })) ∧
    (∀ band, (s.port d).slot = some ⟨.tempRead, cl, ln⟩ →
      CompletesAs (.tempReadCompletion d { outcome := .done, data := none, band := some band }) s
        { (s.vacated d).setCare d { s.care d with tempPending := false, band := band } with
          errs :=
            if band = .critical then
              ((s.logNote { kind := .thermalCritical, die := some d }).latch .thermalCritical).errs
            else s.errs })

/-- A refresh due event restarts its timer with the interval of R97, lowers the balance by one in every band but COOL
with the toggle set, and at -8 writes a REFRESH_OVERRUN record instead; the toggle alternates in COOL and is cleared in
every other band (R96 to R98). A die whose condition follows its port keeps that toggle, and the restarted timer while it
stays ACTIVE. The condition of R95; a die that becomes ACTIVE starts both due timers with the toggle clear, one that leaves
it stops them; the refresh claim of R99. In QUIESCE the die's PARK ENTER claim follows the balance, so a due event that
takes it below 0 withdraws the claim (R125). An expiry of a stopped timer changes nothing (log 4). -/
def Obligations.RefreshDueEventDebitsDie : Prop :=
  ∀ (s : State) (d : DieId),
    let c := s.care d
    let p := s.port d
    let counted : Prop := c.band ≠ .cool ∨ c.coolSkip = false
    let full := s.activeField 4 / s.chan.settings.granularity
    let interval := if c.band = .hot ∨ c.band = .critical then full / 2 else full
    let toggle : Bool := decide (c.band = .cool ∧ c.coolSkip = false)
    let moving : Prop := ∃ op cl ln, p.slot = some ⟨op, cl, ln⟩ ∧ ((∃ n, op = .parkEnter n) ∨ ∃ m n, op = .parkExit m n)
    let suspended : Prop := p.state = .parked ∨ moving ∨
      (s.chan.partState = .switching ∧ s.chan.phase ∈ [some Phase.clock, some .wake, some .recal, some .apply])
    let refreshing : Prop := ∃ n cl ln, p.slot = some ⟨.refresh n, cl, ln⟩
    (∀ n, c.refreshDue = some n →
      ∃ t, exec (.refreshDueEvent d) s = .next t ∧
        Internal
          { s.setCare d
              { c with
                balance := if counted ∧ -8 < c.balance then c.balance - 1 else c.balance
                coolSkip := toggle, refreshDue := some interval } with
            errs :=
              if counted ∧ c.balance ≤ -8 then (s.logNote { kind := .refreshOverrun, die := some d }).errs
              else s.errs } t ∧
        (s.present d = true → ParkEnterKept t d) ∧
        (CareFollows s d →
          (t.care d).coolSkip = toggle ∧
            (c.condition = .active →
              (t.care d).refreshDue = if (t.care d).condition = .active then some interval else none))) ∧
    (c.refreshDue = none → exec (.refreshDueEvent d) s = .next s) ∧
    (p.state ∈ [PortState.off, .init, .failed] → s.conditionOf d = .stopped) ∧
    (p.state ∉ [PortState.off, .init, .failed] →
      (suspended → s.conditionOf d = .suspended) ∧ (¬ suspended → s.conditionOf d = .active)) ∧
    (s.conditionOf d = c.condition → s.retest d = s) ∧
    (s.conditionOf d ≠ c.condition →
      s.retest d =
        s.setCare d
          (if s.conditionOf d = .active then
            { c with
              condition := .active, refreshDue := some interval, recalDue := some (s.activeField 10 * 1000000)
              coolSkip := false }
          else { c with condition := s.conditionOf d, refreshDue := none, recalDue := none })) ∧
    (s.wantsRefresh d = true ↔ c.condition = .active ∧ ¬ refreshing ∧
      (c.balance < 0 ∨ (s.chan.settings.pullIn = 1 ∧ c.balance < 8)))

/-- A recal due event restarts its timer with the recal period, which a die whose condition follows its port keeps while it
stays ACTIVE, and sets recal pending, or recal forced when pending was set (R95, R104). A thermal poll restarts its timer
with TEMP_POLL and sets TEMP READ pending on every ACTIVE die (R102). The recal and TEMP READ claims of an ACTIVE die stand
while their flags are set and the operation is not in flight (R103, R104). Expiries of stopped timers change nothing
(log 4). -/
def Obligations.RecalDueAndPollSetPendingFlags : Prop :=
  ∀ s : State,
    let period := s.activeField 10 * 1000000
    (∀ d n, (s.care d).recalDue = some n →
      ∃ t, exec (.recalDueEvent d) s = .next t ∧
        Internal
          (s.setCare d
            { s.care d with
              recalDue := some period, recalPending := true
              recalForced := (s.care d).recalForced || (s.care d).recalPending }) t ∧
        (CareFollows s d → (s.care d).condition = .active →
          (t.care d).recalDue = if (t.care d).condition = .active then some period else none)) ∧
    (∀ d, (s.care d).recalDue = none → exec (.recalDueEvent d) s = .next s) ∧
    (∀ n, s.maint.pollTimer = some n →
      CompletesAs .thermalPollExpiry s
        { s with
          maint :=
            { dies := Vector.ofFn fun d =>
                if (s.care d).condition = .active then { s.care d with tempPending := true } else s.care d
              pollTimer := some (s.chan.settings.tempPoll * 1000000) } }) ∧
    (s.maint.pollTimer = none → exec .thermalPollExpiry s = .next s) ∧
    ∀ d,
      (s.wantsRecal d = true ↔ (s.care d).condition = .active ∧ (s.care d).recalPending = true ∧
        ∀ n cl ln, (s.port d).slot ≠ some ⟨.shortRecal n, cl, ln⟩) ∧
      (s.wantsTemp d = true ↔ (s.care d).condition = .active ∧ (s.care d).tempPending = true ∧
        ∀ cl ln, (s.port d).slot ≠ some ⟨.tempRead, cl, ln⟩)

/-! ### Bring-up, parking and the rate switch at a port -/

/-- DIE RESET DONE in bring-up is followed by LONG RECAL, granted in the same event; after a failure of another die it
goes on to the end of the failed START (R74, R82, R117, R118). SET DONE starts the settle timer with the active profile's
settle time; outside bring-up the port is SETTLING; the setting is not yet in the shadow (R74, R77, R143). -/
def Obligations.DieResetAndSetDoneGoOn : Prop :=
  ∀ (s : State) (d : DieId) (cl : Claimant) (ln : Option LineAddr),
    ((s.port d).slot = some ⟨.dieReset, cl, ln⟩ →
      (s.startFailed = 0 →
        ∃ t, exec (.dieResetCompletion d (plain .done)) s = .next t ∧ Internal (s.vacated d) t ∧
          (s.chan.partState = .bringup → s.present d = true → (s.port d).state = .init → (s.port d).settle = none →
            ChannelOperates t d (.longRecal (s.activeField 9)))) ∧
      (s.startFailed ≠ 0 → CompletesAs (.dieResetCompletion d (plain .done)) s (s.vacated d).abortBringup)) ∧
    ∀ index value, (s.port d).slot = some ⟨.set index value, cl, ln⟩ →
      CompletesAs (.setCompletion d (plain .done)) s
        (s.setPort d
          { s.port d with
            slot := none, opLimit := none
            state := if (s.port d).state = .init then .init else .settling
            settle := some (s.activeField 11), settling := some (index, value) })

/-- LONG RECAL DONE clears both recal flags and the clock recal owed flag. In bring-up the SET of die setting 0 with the
read latency follows; in phase RECAL, when no present die owes a recal any more, phase APPLY begins with that SET at
every IDLE port (R74, R105, R117, R127, R132). -/
def Obligations.LongRecalDoneClearsFlagsAndGoesOn : Prop :=
  ∀ (s : State) (d : DieId) (w : Nat) (cl : Claimant) (ln : Option LineAddr),
    (s.port d).slot = some ⟨.longRecal w, cl, ln⟩ →
    let cleared : State :=
      { (s.vacated d).setCare d { s.care d with recalPending := false, recalForced := false } with
        chan := { s.chan with recalOwed := s.chan.recalOwed.set d false } }
    let lastOfPhase : Prop := s.chan.partState = .switching ∧ s.chan.phase = some .recal ∧
      ∀ e : DieId, s.present e = true → e = d ∨ s.chan.recalOwed[e] = false
    let setZero : Operation := .set 0 ((s.chan.profile s.chan.active).fields[1])
    let command : Instr := .longRecalCompletion d (plain .done)
    (s.chan.partState = .bringup → s.startFailed = 0 →
      ∃ t, exec command s = .next t ∧ Internal cleared t ∧
        (s.present d = true → (s.port d).state = .init → (s.port d).settle = none → ChannelOperates t d setZero)) ∧
    (s.chan.partState = .bringup → s.startFailed ≠ 0 → CompletesAs command s cleared.abortBringup) ∧
    (lastOfPhase →
      ∃ t, exec command s = .next t ∧
        Internal { cleared with chan := { cleared.chan with phase := some .apply } } t ∧
        ∀ e, s.present e = true → ((cleared.port e).state = .idle ∧ (cleared.port e).slot = none) →
          ChannelOperates t e setZero) ∧
    (s.chan.partState ≠ .bringup → ¬ lastOfPhase → CompletesAs command s cleared)

/-- PARK ENTER DONE: the port is PARKED with balance 0. The last present port ends PARKING in PARKED, and QUIESCE in
CLOCK: every present die's clock changes to the target's period and owes a recal, the pointer moves, and the relock timer
starts (R78, R107, R121, R125, R126). In WAKING and STOPPED the die's PARK EXIT is granted in the same event (R108, R122,
R132). -/
def Obligations.ParkEnterDoneParksPortAndPart : Prop :=
  ∀ (s : State) (d : DieId) (w : Nat) (cl : Claimant) (ln : Option LineAddr),
    (s.port d).slot = some ⟨.parkEnter w, cl, ln⟩ →
    let parked : State :=
      (s.setPort d { s.port d with slot := none, opLimit := none, state := .parked }).setCare d
        { s.care d with balance := 0 }
    let last : Prop := ∀ e, s.present e = true → e = d ∨ (s.port e).state = .parked
    let command : Instr := .parkEnterCompletion d (plain .done)
    (last → s.chan.partState = .parking →
      CompletesAs command s { parked with chan := { s.chan with partState := .parked, phase := none } }) ∧
    (∀ target tag sup, last → s.chan.partState = .switching → s.chan.phase = some .quiesce →
      s.chan.procedure = some ⟨.rateSwitch target, tag, sup⟩ →
      CompletesAs command s
        { parked with
          ports := Vector.ofFn fun e =>
            if s.present e then { parked.port e with clock := some ((s.chan.profile target).field 0) }
            else parked.port e
          chan :=
            { s.chan with
              phase := some .clock, active := target, relock := some ((s.chan.profile target).field 15 * 1000)
              recalOwed := Vector.ofFn fun e => s.present e || s.chan.recalOwed[e] } }) ∧
    (¬ last ∨ (s.chan.partState ≠ .parking ∧ ¬ (s.chan.partState = .switching ∧ s.chan.phase = some .quiesce)) →
      CompletesAs command s parked) ∧
    (s.chan.partState = .waking ∨ s.chan.partState = .stopped → s.present d = true →
      ∃ t, exec command s = .next t ∧ ChannelOperates t d s.wakeExit)

/-- PARK EXIT DONE: the port is IDLE with balance 0 after a NORMAL and -1 after a QUICK exit. The last wakes the part:
WAKING ends in RUNNING with the park-delay timer restarted, phase WAKE in RECAL (R78, R108, R119, R123, R127). In WAKING a
forward that the die still needs has its SET granted in the same event (R145), and in STOPPED a die that owes a clock recal
its LONG RECAL (R132). -/
def Obligations.ParkExitDoneWakesPortAndPart : Prop :=
  ∀ (s : State) (d : DieId) (mode : WakeMode) (w : Nat) (cl : Claimant) (ln : Option LineAddr),
    (s.port d).slot = some ⟨.parkExit mode w, cl, ln⟩ → (s.port d).state = .busy → (s.port d).channelClaim = none →
    let woken : State :=
      (s.vacated d).setCare d
        { s.care d with
          balance := match mode with
            | .normal => 0
            | .quick => -1 }
    let wakeEnds : Prop := s.chan.partState = .waking ∧
      ∀ e, s.present e = true → e = d ∨ ((s.port e).state ≠ .parked ∧ (s.port e).moving = false)
    let phaseEnds : Prop := s.chan.partState = .switching ∧ s.chan.phase = some .wake ∧
      ∀ e, s.present e = true → e = d ∨ (s.port e).state = .idle
    let command : Instr := .parkExitCompletion d (plain .done)
    (wakeEnds →
      CompletesAs command s
        { woken with
          chan :=
            { s.chan with partState := .running, phase := none, parkDelay := usTimer s.chan.settings.parkDelay } }) ∧
    (phaseEnds →
      ∃ t, exec command s = .next t ∧ Internal { woken with chan := { s.chan with phase := some .recal } } t ∧
        ∀ e, s.present e = true → (woken.port e).slot = none →
          ChannelOperates t e (.longRecal (s.activeField 9))) ∧
    (¬ wakeEnds → ¬ phaseEnds → CompletesAs command s woken) ∧
    (∀ mask index value done tag sup,
      s.chan.procedure = some ⟨.dieSetting mask index value done, tag, sup⟩ → s.chan.partState = .waking →
      s.present d = true → mask.getLsbD d.val = true → done.getLsbD d.val = false →
      ∃ t, exec command s = .next t ∧ ChannelOperates t d (.set index value)) ∧
    (s.chan.partState = .stopped → s.present d = true → s.chan.recalOwed[d] = true →
      ∃ t, exec command s = .next t ∧ ChannelOperates t d (.longRecal (s.activeField 9)))

/-- The expiry of a settle timer: the port becomes IDLE, or stays INIT in bring-up, the shadow records the settled value
as known, and Channel Control goes on (R74, R77, R117, R127, R143, R146). The model's own choices are: an expiry of a
stopped timer changes nothing (log 4), a forward takes the SET of its index and value for its own (log 17), and a die's
bring-up ends even after another die has failed (log 19). -/
def Obligations.SettleExpiryRecordsShadowAndGoesOn : Prop :=
  ∀ (s : State) (d : DieId),
    let rested : State :=
      s.setPort d
        { s.port d with
          state := if (s.port d).state = .settling then .idle else (s.port d).state
          settle := none, settling := none }
    let recorded (index : BitVec 4) (value : BitVec 16) : State :=
      { rested with
        chan :=
          { s.chan with
            shadow :=
              s.chan.shadow.set d ((s.chan.shadow[d]).set index.toFin { value := value, known := true }) } }
    let nextValue (index : BitVec 4) : BitVec 16 :=
      if index = 0 then (s.chan.profile s.chan.active).fields[2]
      else if index = 1 then (s.chan.profile s.chan.active).fields[3]
      else BitVec.ofNat 16 s.chan.settings.granularity
    ((s.port d).settle = none → exec (.settleTimerExpiry d) s = .next s) ∧
    ∀ n, (s.port d).settle = some n →
      ((s.port d).settling = none → CompletesAs (.settleTimerExpiry d) s rested) ∧
      ∀ index value, (s.port d).settling = some (index, value) →
        (s.chan.partState = .bringup → index.toNat < 3 → s.startFailed = 0 →
          ∃ t, exec (.settleTimerExpiry d) s = .next t ∧ Internal (recorded index value) t ∧
            (s.present d = true → (s.port d).state = .init → (s.port d).slot = none →
              ChannelOperates t d (.set (index + 1) (nextValue index)))) ∧
        (s.chan.partState = .bringup → index.toNat < 3 → s.startFailed ≠ 0 →
          CompletesAs (.settleTimerExpiry d) s (recorded index value).abortBringup) ∧
        (s.chan.partState = .bringup → 3 ≤ index.toNat →
          CompletesAs (.settleTimerExpiry d) s ((recorded index value).endBringup d).abortBringup) ∧
        (s.chan.partState = .switching → index.toNat < 3 →
          ∃ t, exec (.settleTimerExpiry d) s = .next t ∧ Internal (recorded index value) t ∧
            (s.present d = true → s.chan.phase = some .apply → (s.port d).state = .settling → (s.port d).slot = none →
              ChannelOperates t d (.set (index + 1) (nextValue index)))) ∧
        (s.chan.partState = .switching → 3 ≤ index.toNat →
          CompletesAs (.settleTimerExpiry d) s (recorded index value).endSwitch) ∧
        (s.chan.partState ≠ .bringup → s.chan.partState ≠ .switching →
          CompletesAs (.settleTimerExpiry d) s ((recorded index value).forwardSettled d index value))

/-- How procedures end. A die's bring-up ends IDLE with balance 0 and no recal owed, and the last one makes the part
RUNNING, answers START OK and starts the thermal poll and park-delay timers (R106, R117). A failed START ends, once every
slot is empty and every settle timer stopped, with every present port OFF, the shadow unknown, the part in CONFIG and
the answer FAILED with the failed dies (R86, R118). A switch ends in RUNNING with every present balance 0 (R128). A
forward ends with its last die (R146). A suppressed procedure ends without its answer (R115). That a failed START keeps
the alternation flags, and that a forward knows its SET by index and value, are the model's readings (logs 19, 17). With no
START in progress there is none to fail; a settled SET of no forward, or one that the forward does not need at this die,
ends none. -/
def Obligations.ProceduresEndWithTheirAnswers : Prop :=
  (∀ s : State, (∀ failed tag sup, s.chan.procedure ≠ some ⟨.start failed, tag, sup⟩) → s.abortBringup = s) ∧
  (∀ (s : State) (d : DieId) (index : BitVec 4) (value : BitVec 16),
    (∀ mask done tag sup, s.chan.procedure = some ⟨.dieSetting mask index value done, tag, sup⟩ →
      mask.getLsbD d.val = false ∨ done.getLsbD d.val = true) →
    s.forwardSettled d index value = s) ∧
  ∀ (s : State) (d : DieId) (kind : ProcedureKind) (tag : Tag) (suppressed : Bool),
    s.chan.procedure = some ⟨kind, tag, suppressed⟩ →
    let ended (status : Status) (detail : BitVec 32) : Link :=
      if suppressed then s.link
      else
        { s.link with
          tags := s.link.tags.filter fun x => x != tag
          answers := s.link.answers ++ [Answer.plain tag status detail] }
    let brought : State :=
      { (s.setPort d { s.port d with state := .idle }).setCare d
          { s.care d with balance := 0, recalPending := false, recalForced := false } with
        chan := { s.chan with recalOwed := s.chan.recalOwed.set d false } }
    let lastDie : Prop := ∀ e, s.present e = true → e = d ∨ (s.port e).state = .idle
    let quiet : Prop := ∀ e, s.present e = true → (s.port e).slot = none ∧ (s.port e).settle = none
    let switched : Prop := ∀ e, s.present e = true → (s.port e).state = .idle ∧ (s.port e).channelClaim = none
    (lastDie → s.endBringup d =
      { brought with
        chan :=
          { brought.chan with
            partState := .running, phase := none, parkDelay := usTimer s.chan.settings.parkDelay, procedure := none }
        link := ended .ok 0
        maint := { brought.maint with pollTimer := some (s.chan.settings.tempPoll * 1000000) } }) ∧
    (¬ lastDie → s.endBringup d = brought) ∧
    (∀ failed, kind = .start failed → s.chan.partState = .bringup → failed ≠ 0 → quiet →
      s.abortBringup =
        { s with
          ports := Vector.ofFn fun e =>
            if s.present e then
              { Port.atReset (some (s.activeField 0)) with alternation := (s.port e).alternation }
            else s.port e
          chan :=
            { s.chan with
              partState := .config, phase := none, procedure := none, recalOwed := Vector.replicate 4 false
              shadow := Vector.ofFn fun e =>
                if s.present e then Vector.replicate 16 { value := 0, known := false } else s.chan.shadow[e] }
          link := ended .failed (failed.setWidth 32) }) ∧
    (∀ failed, kind = .start failed → (s.chan.partState ≠ .bringup ∨ failed = 0 ∨ ¬ quiet) → s.abortBringup = s) ∧
    (switched → s.endSwitch =
      { s with
        maint :=
          { s.maint with
            dies := Vector.ofFn fun e => if s.present e then { s.care e with balance := 0 } else s.care e }
        chan :=
          { s.chan with
            partState := .running, phase := none, parkDelay := usTimer s.chan.settings.parkDelay, procedure := none }
        link := ended .ok 0 }) ∧
    (¬ switched → s.endSwitch = s) ∧
    (∀ mask index value done, kind = .dieSetting mask index value done →
      mask.getLsbD d.val = true → done.getLsbD d.val = false →
      s.forwardSettled d index value =
        (if mask &&& ~~~(done ||| BitVec.twoPow 4 d.val) = 0 then
          { s with chan := { s.chan with procedure := none }, link := ended .ok 0 }
        else
          { s with
            chan :=
              { s.chan with
                procedure :=
                  some ⟨.dieSetting mask index value (done ||| BitVec.twoPow 4 d.val), tag, suppressed⟩ } }))

/-! ### The part's timers -/

/-- The idle-drain timer's expiry sets the idle flag, and the level follows it; the relock timer's expiry begins phase
WAKE with a PARK EXIT of mode NORMAL at every present PARKED port (R22, R24, R126, R127). That the expired timers are then
stopped is the model's reading (log 16); expiries of stopped timers change nothing (log 4). A rise from NONE selects on
every die, a fall to NONE withdraws the selection claims (R25); the entries eligible (R26); the selection claim names the
oldest of the die, if it has no DRAINING entry (R27). Where the idle flag raises the level from NONE, that entry's claim
is then pending or granted at each present die. -/
def Obligations.IdleDrainAndRelockExpiries : Prop :=
  ∀ s : State,
    let draining (d : DieId) : Prop := ∃ i, (s.entry i).state = .draining ∧ s.entryDie i = some d
    let continuing (d : DieId) : Option DrainClaim := (s.port d).drainClaim.filter DrainClaim.continuation
    (s.drain.idleTimer = none → exec .idleDrainTimerExpiry s = .next s) ∧
    (∀ n, s.drain.idleTimer = some n →
      ∃ t, exec .idleDrainTimerExpiry s = .next t ∧
        t.drain.pressure =
          levelOf (occupancy s.table) s.flushes.length s.drain.hysteresis true ∧
        Internal { s with drain := { s.drain with idleTimer := none, idleFlag := true } } t) ∧
    (s.chan.relock = none → exec .relockTimerExpiry s = .next s) ∧
    (∀ n, s.chan.relock = some n →
      ∃ t, exec .relockTimerExpiry s = .next t ∧
        Internal { s with chan := { s.chan with relock := none, partState := .switching, phase := some .wake } } t ∧
        ∀ d, s.present d = true → (s.port d).state = .parked → (s.port d).slot = none →
          ChannelOperates t d (.parkExit .normal (s.activeField 13))) ∧
    (∀ n, s.drain.idleTimer = some n → LevelKept s → s.drain.pressure = .none →
      ∃ t, exec .idleDrainTimerExpiry s = .next t ∧
        ∀ d i, s.present d = true → ¬ draining d → OldestEligible s d i → SelectionHeld t d i) ∧
    (∀ i, s.eligible i = true ↔
      (s.entry i).state = .opened ∧ (s.entry i).gen = .first ∧
        ∃ line, (s.entry i).line = some line ∧ (∀ r ∈ s.reads.list, r.line ≠ line) ∧
          ((s.port (s.dieIndex line)).state = .idle ∨ (s.port (s.dieIndex line)).state = .busy) ∧
          (s.chan.partState = .running ∨ s.chan.partState = .stopped)) ∧
    (∀ d,
      let claimed (c : Option DrainClaim) : Prop := s.select d = s.setPort d { s.port d with drainClaim := c }
      (draining d → claimed (continuing d)) ∧
        (¬ draining d →
          (s.drain.pressure = .none → claimed none) ∧
            (s.drain.pressure ≠ .none →
              (∀ i, OldestEligible s d i → claimed (some { entry := i, continuation := false })) ∧
                ((∀ i, s.eligible i = true → s.entryDie i ≠ some d) → claimed none)))) ∧
    let leveled : State := { s with drain := { s.drain with pressure := s.level } }
    s.takeLevel = { leveled with ports := s.takeLevel.ports } ∧
      ∀ d, s.takeLevel.port d =
        if s.present d = true ∧ s.drain.pressure ≠ .none ∧ s.level = .none then
          { s.port d with drainClaim := continuing d }
        else if s.present d = true ∧ s.drain.pressure = .none ∧ s.level ≠ .none then (leveled.select d).port d
        else s.port d

/-- The park-delay timer's expiry starts parking when the park conditions hold: PARKING, with a PARK ENTER granted at
every present port. Otherwise the timer restarts and nothing else changes (R107, R119, R120). That the expired timer is
then stopped is the model's reading (log 16). An expiry of a stopped timer changes nothing (log 4). -/
def Obligations.ParkDelayExpiryParksOrRestarts : Prop :=
  ∀ s : State,
    let parks : Prop :=
      s.chan.partState = .running ∧ (∀ i, (s.entry i).state = .free) ∧ s.reads.list = [] ∧ s.flushes = [] ∧
        s.chan.procedure = none ∧ ∀ d, s.present d = true → (s.port d).state = .idle ∧ 0 ≤ (s.care d).balance
    (s.chan.parkDelay = none → exec .parkDelayTimerExpiry s = .next s) ∧
    ∀ n, s.chan.parkDelay = some n →
      (parks →
        ∃ t, exec .parkDelayTimerExpiry s = .next t ∧
          Internal { s with chan := { s.chan with partState := .parking, phase := none, parkDelay := none } } t ∧
          ∀ d, s.present d = true → (s.port d).slot = none →
            ChannelOperates t d (.parkEnter (s.activeField 12))) ∧
      (¬ parks →
        exec .parkDelayTimerExpiry s =
          .next { s with chan := { s.chan with parkDelay := usTimer s.chan.settings.parkDelay } })

/-! ### The Die Arbiter -/

/-- The grant order at an IDLE port with an empty slot in RUNNING and WAKING, which permit every class: the Channel
Control claim, a forced refresh, a forced recal, reads and urgent drains in alternation, an owed refresh, a recal, a TEMP
READ, another drain, a pull-in refresh (R88 to R91). A selection claim whose entry fails the test of R28 is passed over.
The classes that each part state permits (R91), the grant order with them, and the decisions at OFF, INIT and PARKED (R73,
R74, R78). What a grant does: slot, op-limit timer, port state, the operation with the active profile's values, the drain
step and data check, the AT_DIE record, the DRAINING entry, the alternation flag (R14, R28, R29, R46, R75, R81, R82, R90,
R108). The arbiter of a present port grants its decision, and the die's condition and claims follow (R88, R95). -/
def Obligations.ArbiterFollowsGrantOrder : Prop :=
  ∀ (s : State) (d : DieId),
    let p := s.port d
    let f := s.activeField
    let balance := (s.care d).balance
    let place3 (read drain : Option Pick) : Option Pick :=
      if s.drain.pressure = .urgent then
        match p.alternation with
        | .read => if drain.isSome then drain else read
        | .drain => if read.isSome then read else drain
      else read
    let read := (s.readClaimant d).map Pick.read
    let drain (urgent : Bool) := (s.drainClaimant d).map fun c => Pick.drain c urgent
    let permitted (c : ClaimClass) (claim : Option Pick) : Option Pick := if s.permits c = true then claim else none
    let channel : Option Pick := p.channelClaim.bind fun op => permitted (.channel op) (some (.channel op))
    let refresh (c : ClaimClass) (low high : Int) : Option Pick :=
      if p.refreshClaim = true ∧ low ≤ balance ∧ balance ≤ high then permitted c (some .refresh) else none
    let recal (forced : Bool) : Option Pick :=
      if p.recalClaim = true ∧ (s.care d).recalForced = forced then permitted .recal (some .recal) else none
    let die (line : LineAddr) : Nat := line.toNat / s.chan.settings.dieCount
    let filled (op : Operation) (claimant : Claimant) (line : Option LineAddr) (q : Port) : State :=
      s.setPort d
        { q with
          slot := some ⟨op, claimant, line⟩, opLimit := some (s.chan.settings.dieOpLimit * 1000)
          state := if p.state = .off ∨ p.state = .init then .init else .busy }
    ((s.chan.partState = .running ∨ s.chan.partState = .waking) → p.state = .idle → p.slot = none →
      s.decision d =
        (match p.channelClaim with
          | some op => some (.channel op)
          | none =>
            if p.refreshClaim = true ∧ balance ≤ -7 then some .refresh
            else if p.recalClaim = true ∧ (s.care d).recalForced = true then some .recal
            else if (place3 read (drain true)).isSome then place3 read (drain true)
            else if p.refreshClaim = true ∧ balance < 0 then some .refresh
            else if p.recalClaim = true then some .recal
            else if p.tempClaim = true then some .temp
            else if s.drain.pressure ≠ .urgent ∧ (drain false).isSome then drain false
            else if p.refreshClaim = true then some .refresh
            else none)) ∧
    (∀ c, s.permits c = true ↔
      match s.chan.partState with
      | .config | .parked => False
      | .bringup => c = .channel .dieReset ∨ c = .channel .longRecal ∨ ∃ i v, c = .channel (.set i v)
      | .running | .waking => True
      | .parking => ∃ op, c = .channel op
      | .switching =>
        (s.chan.phase = some .quiesce ∧ (c = .forcedRefresh ∨ c = .owedRefresh ∨ ∃ op, c = .channel op)) ∨
          (s.chan.phase ∈ [some Phase.wake, some .recal, some .apply] ∧ ∃ op, c = .channel op)
      | .stopped =>
        c ∈ [ClaimClass.channel .parkExit, .channel .longRecal, .forcedRefresh, .owedRefresh, .pullIn, .recal, .temp,
          .drain]) ∧
    (p.slot.isSome = true ∨ p.state ∈ [PortState.busy, .settling, .failed] → s.decision d = none) ∧
    (p.slot = none →
      (p.state = .off → s.decision d = if p.channelClaim = some .dieReset then channel else none) ∧
        (p.state = .init → s.decision d = if p.settle = none then channel else none) ∧
        (p.state = .parked → s.decision d = if p.channelClaim = some .parkExit then channel else none) ∧
        (p.state = .idle → -8 ≤ balance → balance ≤ 8 →
          s.decision d =
            [channel, refresh .forcedRefresh (-8) (-7), recal true,
              place3 (permitted .read read) (permitted .drain (drain true)), refresh .owedRefresh (-6) (-1), recal false,
              if p.tempClaim = true then permitted .temp (some .temp) else none,
              if s.drain.pressure = .urgent then none else permitted .drain (drain false),
              refresh .pullIn 0 8].findSome? id)) ∧
    (p.readClaims = [] → s.readClaimant d = none) ∧
    (∀ r rest, p.readClaims = r.claim :: rest → r ∈ s.reads.list → (s.reads.list.map ReadRecord.claim).Nodup →
      s.readClaimant d = some r) ∧
    (∀ c, s.drainClaimant d = some c ↔
      p.drainClaim = some c ∧ (c.continuation = true ∨ s.eligible c.entry = true)) ∧
    (∀ op, s.grant d (.channel op) =
      filled
        (match op with
          | .dieReset => .dieReset
          | .longRecal => .longRecal (f 9)
          | .set i v => .set i v
          | .parkEnter => .parkEnter (f 12)
          | .parkExit => if s.chan.partState = .switching then .parkExit .normal (f 13) else s.wakeExit)
        .channel none { p with channelClaim := none }) ∧
    (s.grant d .refresh =
      filled
        (.refresh
          (if s.chan.settings.granularity = 1 then f 5 else if s.chan.settings.granularity = 2 then f 6 else f 7))
        .maintenance none { p with refreshClaim := false }) ∧
    s.grant d .recal = filled (.shortRecal (f 8)) .maintenance none { p with recalClaim := false } ∧
    s.grant d .temp = filled .tempRead .maintenance none { p with tempClaim := false } ∧
    (∀ r, s.grant d (.read r) =
      { filled (.lineRead (die r.line) (f 1)) (.reads r.claim) (some r.line)
          { p with readClaims := p.readClaims.filter fun c => c != r.claim, alternation := .read } with
        reads :=
          { s.reads with
            list := s.reads.list.map fun x => if x.claim = r.claim then { x with state := .atDie } else x } }) ∧
    (∀ c contested line step, (s.entry c.entry).line = some line →
      let e := s.entry c.entry
      (c.continuation = true → e.step = some step) →
      (c.continuation = false →
        step =
          if e.mask = BitVec.allOnes 64 then .fullWrite
          else if s.chan.settings.maskedWrites = 1 then .maskedWrite
          else .rmwRead) →
      s.grant d (.drain c contested) =
        (filled
          (match step with
            | .fullWrite | .rmwWrite => .lineWrite (die line) e.data (dataCheck e.data.toList) (f 2) (f 3)
            | .maskedWrite =>
              .maskedWrite (die line) e.mask e.data (dataCheck (maskBytes e.mask ++ e.data.toList)) (f 2) (f 3)
            | .rmwRead => .lineRead (die line) (f 1))
          (.drain c.entry) (some line)
          { p with drainClaim := none, alternation := if contested = true then .drain else p.alternation }).setEntry
          c.entry (if c.continuation = true then e else { e with state := .draining, step := some step, attempts := 0 })) ∧
    (s.present d = false ∨ s.decision d = none → s.arbitrate d = s) ∧
    ∀ pick, s.present d = true → s.decision d = some pick →
      let granted := s.grant d pick
      let t := s.arbitrate d
      t = { granted with ports := t.ports, maint := { granted.maint with dies := t.maint.dies } } ∧
        CareFollows t d ∧ CareKept (granted.care d) (t.care d) ∧
        (∀ e, e ≠ d → t.port e = granted.port e ∧ t.care e = granted.care e) ∧
        t.port d =
          { granted.port d with
            refreshClaim := (t.port d).refreshClaim, recalClaim := (t.port d).recalClaim
            tempClaim := (t.port d).tempClaim, drainClaim := (t.port d).drainClaim }

/-! ### Setup actions -/

/-- START in CONFIG with a valid active profile makes its procedure, enters BRINGUP and has DIE RESET granted at every
present OFF port; otherwise it is refused BAD_STATE (R74, R116). -/
def Obligations.StartBeginsBringup : Prop :=
  ∀ (s : State) (h : Header) (r : Request),
    requestOf (.start h) = some r → LevelKept s → Accepted s r →
    let ready : Prop := s.chan.partState = .config ∧ (s.chan.profile s.chan.active).valid = true
    (ready →
      ∃ t, exec (.start h) s = .next t ∧
        Internal
          { s.outstanding h.tag with
            chan :=
              { s.arrived.chan with
                procedure := some ⟨.start 0, h.tag, false⟩, partState := .bringup, phase := none } } t ∧
        ∀ d, s.present d = true → (s.port d).state = .off → (s.port d).slot = none →
          ChannelOperates t d .dieReset ∧ (t.port d).state = .init) ∧
    (¬ ready → CompletesAs (.start h) s (s.answered (Answer.plain h.tag .badState 0)))

/-- RATE_SWITCH is checked for its target, then the part state, then a forward in progress; accepted from RUNNING it
enters QUIESCE, from PARKED it enters CLOCK at once (R124, R126). In QUIESCE a PARK ENTER is granted at each IDLE die with a
balance of 0 or more, is pending at each other such die, and is not at a die that owes refresh (R125). -/
def Obligations.RateSwitchBeginsAtQuiesceOrClock : Prop :=
  ∀ (s : State) (h : Header) (r : Request),
    requestOf (.rateSwitch h) = some r → LevelKept s → Accepted s r →
    let refused (st : Status) : Prop := CompletesAs (.rateSwitch h) s (s.answered (Answer.plain h.tag st 0))
    let target : ProfileId := if h.value = 0 then .a else .b
    if 1 < h.value.toNat ∨ (s.chan.profile target).valid = false ∨ target = s.chan.active then refused .badSetting
    else if s.chan.partState ≠ .running ∧ s.chan.partState ≠ .parked then refused .badState
    else if ∃ mask index value done tag sup,
        s.chan.procedure = some ⟨.dieSetting mask index value done, tag, sup⟩ then
      refused .retry
    else if s.chan.partState = .running then
      ∃ t, exec (.rateSwitch h) s = .next t ∧
        Internal
          { s.outstanding h.tag with
            chan :=
              { s.arrived.chan with
                procedure := some ⟨.rateSwitch target, h.tag, false⟩, partState := .switching
                phase := some .quiesce } } t ∧
        ∀ d, s.present d = true → ParkEnterKept t d ∧
          ((s.port d).state = .idle → (s.port d).slot = none → 0 ≤ (s.care d).balance →
            ChannelOperates t d (.parkEnter (s.activeField 12)))
    else
      CompletesAs (.rateSwitch h) s
        { s.outstanding h.tag with
          ports := Vector.ofFn fun e =>
            if s.present e then { s.port e with clock := some ((s.chan.profile target).field 0) } else s.port e
          chan :=
            { s.arrived.chan with
              procedure := some ⟨.rateSwitch target, h.tag, false⟩, partState := .switching, phase := some .clock
              active := target, relock := some ((s.chan.profile target).field 15 * 1000)
              recalOwed := Vector.ofFn fun e => s.present e || s.chan.recalOwed[e] } }

/-- DIE_SETTING is checked for its index and die mask, then the part state, then another forward; accepted it makes its
procedure, wakes the part in PARKING and PARKED with a PARK EXIT granted at every PARKED port, has its SET granted at each
selected IDLE port, and leaves the claim pending at each selected BUSY or SETTLING one that is not parking or waking (R108,
R122, R144, R145). -/
def Obligations.DieSettingBeginsForward : Prop :=
  ∀ (s : State) (h : Header) (r : Request),
    requestOf (.dieSetting h) = some r → LevelKept s → Accepted s r →
    let refused (st : Status) : Prop := CompletesAs (.dieSetting h) s (s.answered (Answer.plain h.tag st 0))
    let index := (h.value.extractLsb' 16 8).toNat
    let value := h.value.extractLsb' 0 16
    if index < 4 ∨ 15 < index ∨ h.dieMask = 0 ∨ (∃ d : DieId, h.dieMask.getLsbD d.val = true ∧ s.present d = false) then
      refused .badSetting
    else if s.chan.partState ∈ [PartState.config, .bringup, .switching, .stopped] then refused .badState
    else if ∃ mask index value done tag sup,
        s.chan.procedure = some ⟨.dieSetting mask index value done, tag, sup⟩ then
      refused .retry
    else
      ∃ t, exec (.dieSetting h) s = .next t ∧
        Internal
          { s.outstanding h.tag with
            chan :=
              ({ s.arrived.chan with
                  procedure :=
                    some ⟨.dieSetting h.dieMask (BitVec.ofNat 4 index) value 0, h.tag, false⟩ } : Channel).woken } t ∧
        (∀ d : DieId, h.dieMask.getLsbD d.val = true → (s.port d).state = .idle → (s.port d).slot = none →
          (s.port d).moving = false → ChannelOperates t d (.set (BitVec.ofNat 4 index) value)) ∧
        (∀ d : DieId, h.dieMask.getLsbD d.val = true → (s.port d).state = .busy ∨ (s.port d).state = .settling →
          (s.port d).moving = false → (t.port d).channelClaim = some (.set (BitVec.ofNat 4 index) value)) ∧
        Wakes (.dieSetting h) s

/-- RESTART in CONFIG, and in STOPPED with no operation in flight on a present port, returns every block to its power-on
value but for the settings, the profiles, the Response Queue, the latches and the Log, which takes a record with the
discard count; the timers of its own arrival run; the claim numbers start again too (the model's choice, log 13). In
STOPPED with an operation in flight it is answered RETRY, in any other state BAD_STATE (R21, R93, R111, R133, R168). -/
def Obligations.RestartReturnsPartToConfig : Prop :=
  ∀ (s : State) (h : Header) (r : Request),
    requestOf (.restart h) = some r → LevelKept s → Accepted s r →
    let operating : Prop := ∃ d, s.present d = true ∧ (s.port d).slot ≠ none
    (s.chan.partState = .config ∨ (s.chan.partState = .stopped ∧ ¬ operating) →
      ∃ t, exec (.restart h) s = .next t ∧
        t =
          { State.reset with
            pending := s.pending
            link := { s.link with tags := [], answers := s.link.answers ++ [Answer.plain h.tag .ok 0] }
            drain := { State.reset.drain with idleTimer := usTimer s.chan.settings.idleDrainTime }
            ports := Vector.ofFn fun d =>
              Port.atReset (if s.present d then some (s.chan.profileA.field 0) else none)
            chan :=
              { State.reset.chan with
                settings := s.chan.settings, profileA := s.chan.profileA, profileB := s.chan.profileB
                parkDelay := usTimer s.chan.settings.parkDelay }
            errs := { (s.logNote { kind := .restart, detail := occupancy s.table }).errs with poison := [] } }) ∧
    (s.chan.partState = .stopped → operating →
      CompletesAs (.restart h) s (s.answered (Answer.plain h.tag .retry 0))) ∧
    (s.chan.partState ≠ .config → s.chan.partState ≠ .stopped →
      CompletesAs (.restart h) s (s.answered (Answer.plain h.tag .badState 0)))

/-- CLEAR_ERRORS clears each latch its mask names but DIE_FAILED and POISON_FULL, re-evaluates ALERT and the halted
condition, and is answered OK in every part state, halted or not; the Log, the overwrite flag and the Poison List stay.
A mask that names a position with no latch is answered MALFORMED (R161). -/
def Obligations.ClearErrorsKeepsStickyLatches : Prop :=
  ∀ (s : State) (h : Header) (r : Request),
    requestOf (.clearErrors h) = some r → LevelKept s → Taken s r →
    (255 < h.value.toNat → CompletesAs (.clearErrors h) s (s.answered (Answer.plain h.tag .malformed 0))) ∧
    (r.malformed = false → h.tag ∉ s.link.tags →
      ∃ t, exec (.clearErrors h) s = .next t ∧
        Internal { s.answered (Answer.plain h.tag .ok 0) with errs := t.errs } t ∧
        (∀ k, t.errs.latches.getLsbD k =
          (s.errs.latches.getLsbD k && (!h.value.getLsbD k || decide (k = 5) || decide (k = 6)))) ∧
        t.errs.alert = (t.errs.latches != 0) ∧
        t.halted = (decide (s.chan.settings.checkPolicy = 1) && t.errs.latches.getLsbD 0) ∧
        t.errs.log = s.errs.log ∧ t.errs.nextRecord = s.errs.nextRecord ∧ t.errs.overwrite = s.errs.overwrite ∧
        t.errs.poison = s.errs.poison)

/-! ### Settings and profiles -/

/-- An accepted SETUP of a part setting that is read where it is used writes it and is answered OK; MASKED_WRITES and
DIE_LINES_LOG2 in CONFIG only (R135, R137). -/
def Obligations.AcceptedSettingsAreWritten : Prop :=
  ∀ (s : State) (h : Header),
    LevelKept s →
    let v := h.value.toNat
    let c := s.chan.settings
    let written (code : Byte) (command : Header → Instr) (inRange : Prop) (settings : Settings) : Prop :=
      Accepted s (Request.setup code anyValue h) → inRange →
        CompletesAs (command h) s
          { s.answered (Answer.plain h.tag .ok 0) with chan := { s.arrived.chan with settings := settings } }
    written 0x01 .setupCheckPolicy (v ≤ 1) { c with checkPolicy := v } ∧
    written 0x05 .setupReadWaitLimit (1 ≤ v ∧ v ≤ 1000) { c with readWaitLimit := v } ∧
    written 0x07 .setupWakeMode (v ≤ 1) { c with wakeMode := v } ∧
    written 0x08 .setupPullIn (v ≤ 1) { c with pullIn := v } ∧
    written 0x09 .setupMaskedWrites (v ≤ 1 ∧ s.chan.partState = .config) { c with maskedWrites := v } ∧
    written 0x0B .setupDieLinesLog2 ((20 ≤ v ∧ v ≤ 28) ∧ s.chan.partState = .config) { c with dieLinesLog2 := v } ∧
    written 0x0E .setupDrainRetry (v ≤ 7) { c with drainRetry := v } ∧
    written 0x0F .setupDieOpLimit (10 ≤ v ∧ v ≤ 1000) { c with dieOpLimit := v }

/-- An accepted SETUP of a part setting that acts at once: the marks re-test the hysteresis flag, IDLE_DRAIN_TIME and
PARK_DELAY restart or stop their timers, TEMP_POLL restarts a running poll timer, DIE_COUNT sets the present ports' die
clocks, GRANULARITY may clear the other profile's flag (R23, R24, R72, R102, R119, R137, R138). -/
def Obligations.AcceptedSettingsActAtOnce : Prop :=
  ∀ (s : State) (h : Header),
    LevelKept s →
    let v := h.value.toNat
    let c := s.chan.settings
    let accepted (code : Byte) : Prop := Accepted s (Request.setup code anyValue h)
    let ok : State := s.answered (Answer.plain h.tag .ok 0)
    let wrote (settings : Settings) : State := { ok with chan := { s.arrived.chan with settings := settings } }
    let other : ProfileId := match s.chan.active with
      | .a => .b
      | .b => .a
    (accepted 0x02 → 1 ≤ v → v ≤ 32 → c.lowMark < v →
      ∃ t, exec (.setupHighMark h) s = .next t ∧ Internal (wrote { c with highMark := v }) t ∧
        t.drain.hysteresis =
          (if v ≤ occupancy s.table then true
            else if occupancy s.table ≤ c.lowMark then false else s.drain.hysteresis)) ∧
    (accepted 0x03 → v ≤ 31 → v < c.highMark →
      ∃ t, exec (.setupLowMark h) s = .next t ∧ Internal (wrote { c with lowMark := v }) t ∧
        t.drain.hysteresis =
          (if c.highMark ≤ occupancy s.table then true
            else if occupancy s.table ≤ v then false else s.drain.hysteresis)) ∧
    (accepted 0x04 → v ≤ 1000 →
      CompletesAs (.setupIdleDrainTime h) s
        { wrote { c with idleDrainTime := v } with
          drain := { ok.drain with idleTimer := if v = 0 then none else some (v * 1000) } }) ∧
    (accepted 0x06 → v ≤ 65535 →
      CompletesAs (.setupParkDelay h) s
        { ok with
          chan :=
            { s.arrived.chan with
              settings := { c with parkDelay := v }, parkDelay := if v = 0 then none else some (v * 1000) } }) ∧
    (accepted 0x0D → 1 ≤ v → v ≤ 1000 →
      CompletesAs (.setupTempPoll h) s
        { wrote { c with tempPoll := v } with
          maint := { s.maint with pollTimer := s.maint.pollTimer.map fun _ => v * 1000000 } }) ∧
    (accepted 0x0A → v = 1 ∨ v = 2 ∨ v = 4 → s.chan.partState = .config →
      CompletesAs (.setupDieCount h) s
        { wrote { c with dieCount := v } with
          ports := Vector.ofFn fun d =>
            { s.port d with clock := if d.val < v then some (s.activeField 0) else none } }) ∧
    (accepted 0x0C → v = 1 ∨ v = 2 ∨ v = 4 → s.chan.partState = .config →
      ((s.chan.profile s.chan.active).valid = true → (s.chan.profile s.chan.active).refreshRule v = true) →
      CompletesAs (.setupGranularity h) s
        { ok with
          chan :=
            ({ s.arrived.chan with settings := { c with granularity := v } } : Channel).setProfile other
              { s.chan.profile other with
                valid := (s.chan.profile other).valid && (s.chan.profile other).refreshRule v } })

/-- A SETUP of a part setting outside its range is refused BAD_SETTING, and one of the four settings taken in CONFIG only
is refused BAD_STATE elsewhere; HIGH_MARK stays above LOW_MARK, and GRANULARITY keeps the refresh rule of a valid active
profile (R135, R136, R138). -/
def Obligations.RefusedSettingsChangeNothing : Prop :=
  ∀ (s : State) (h : Header),
    LevelKept s →
    let v := h.value.toNat
    let c := s.chan.settings
    let refused (code : Byte) (command : Header → Instr) (bad : Prop) (st : Status) : Prop :=
      Accepted s (Request.setup code anyValue h) → bad →
        CompletesAs (command h) s (s.answered (Answer.plain h.tag st 0))
    let notOneTwoFour : Prop := v ≠ 1 ∧ v ≠ 2 ∧ v ≠ 4
    let breaksRule : Prop :=
      (s.chan.profile s.chan.active).valid = true ∧ (s.chan.profile s.chan.active).refreshRule v = false
    let outsideConfig : Prop := s.chan.partState ≠ .config
    refused 0x01 .setupCheckPolicy (1 < v) .badSetting ∧
    refused 0x02 .setupHighMark (v < 1 ∨ 32 < v ∨ v ≤ c.lowMark) .badSetting ∧
    refused 0x03 .setupLowMark (31 < v ∨ c.highMark ≤ v) .badSetting ∧
    refused 0x04 .setupIdleDrainTime (1000 < v) .badSetting ∧
    refused 0x05 .setupReadWaitLimit (v < 1 ∨ 1000 < v) .badSetting ∧
    refused 0x06 .setupParkDelay (65535 < v) .badSetting ∧
    refused 0x07 .setupWakeMode (1 < v) .badSetting ∧
    refused 0x08 .setupPullIn (1 < v) .badSetting ∧
    refused 0x09 .setupMaskedWrites (1 < v) .badSetting ∧
    refused 0x0A .setupDieCount notOneTwoFour .badSetting ∧
    refused 0x0B .setupDieLinesLog2 (v < 20 ∨ 28 < v) .badSetting ∧
    refused 0x0C .setupGranularity (notOneTwoFour ∨ breaksRule) .badSetting ∧
    refused 0x0D .setupTempPoll (v < 1 ∨ 1000 < v) .badSetting ∧
    refused 0x0E .setupDrainRetry (7 < v) .badSetting ∧
    refused 0x0F .setupDieOpLimit (v < 10 ∨ 1000 < v) .badSetting ∧
    refused 0x09 .setupMaskedWrites (v ≤ 1 ∧ outsideConfig) .badState ∧
    refused 0x0A .setupDieCount (¬ notOneTwoFour ∧ outsideConfig) .badState ∧
    refused 0x0B .setupDieLinesLog2 ((20 ≤ v ∧ v ≤ 28) ∧ outsideConfig) .badState ∧
    refused 0x0C .setupGranularity (¬ notOneTwoFour ∧ ¬ breaksRule ∧ outsideConfig) .badState

/-- A write of a profile's field: BAD_SETTING above 65535; BAD_STATE in SWITCHING, and outside CONFIG for the active
profile; otherwise the field takes the value, the profile's flag is cleared and, for field 0 of the active profile, the
present die clocks follow (R140, R141). -/
def Obligations.ProfileFieldWriteClearsValidFlag : Prop :=
  ∀ (s : State) (p : ProfileId) (n : Fin 16) (h : Header),
    LevelKept s → Accepted s (Request.setup (fieldCode p n) anyValue h) →
    let refused (st : Status) : Prop :=
      CompletesAs (.profileFieldWrite p n h) s (s.answered (Answer.plain h.tag st 0))
    if 65535 < h.value.toNat then refused .badSetting
    else if s.chan.partState = .switching ∨ (p = s.chan.active ∧ s.chan.partState ≠ .config) then refused .badState
    else
      CompletesAs (.profileFieldWrite p n h) s
        { s.answered (Answer.plain h.tag .ok 0) with
          chan :=
            s.arrived.chan.setProfile p
              { fields := (s.chan.profile p).fields.set n (h.value.setWidth 16), valid := false }
          ports := Vector.ofFn fun d =>
            if p = s.chan.active ∧ n = 0 then
              { s.port d with clock := if s.present d then some h.value.toNat else none }
            else s.port d }

/-- PROFILE_COMMIT sets the flag of a profile whose fields lie in their ranges, whose latencies and wake times are in
order and which keeps the refresh rule under the GRANULARITY in force; another profile is refused BAD_SETTING, as is a
value other than 0 and 1; in SWITCHING it is refused BAD_STATE (R142). -/
def Obligations.ProfileCommitTestsProfile : Prop :=
  ∀ (s : State) (h : Header),
    LevelKept s → Accepted s (Request.setup 0x10 anyValue h) →
    let refused (st : Status) : Prop := CompletesAs (.profileCommit h) s (s.answered (Answer.plain h.tag st 0))
    let p : ProfileId := if h.value = 0 then .a else .b
    let f (n : Fin 16) : Nat := ((s.chan.profile p).fields[n]).toNat
    let g := s.chan.settings.granularity
    let window := if g = 1 then f 5 else if g = 2 then f 6 else f 7
    let passes : Prop :=
      (625 ≤ f 0 ∧ f 0 ≤ 2500) ∧ (8 ≤ f 1 ∧ f 1 ≤ 32) ∧ (6 ≤ f 2 ∧ f 2 ≤ 24) ∧ (8 ≤ f 3 ∧ f 3 ≤ 32) ∧
        (1000 ≤ f 4 ∧ f 4 ≤ 15600) ∧ (50 ≤ f 5 ∧ f 5 ≤ 1000) ∧ (50 ≤ f 6 ∧ f 6 ≤ 1000) ∧
        (50 ≤ f 7 ∧ f 7 ≤ 1000) ∧ (50 ≤ f 8 ∧ f 8 ≤ 1000) ∧ (100 ≤ f 9 ∧ f 9 ≤ 10000) ∧
        (1 ≤ f 10 ∧ f 10 ≤ 1024) ∧ (10 ≤ f 11 ∧ f 11 ≤ 1000) ∧ (50 ≤ f 12 ∧ f 12 ≤ 2000) ∧
        (100 ≤ f 13 ∧ f 13 ≤ 5000) ∧ (50 ≤ f 14 ∧ f 14 ≤ 5000) ∧ (1 ≤ f 15 ∧ f 15 ≤ 100) ∧
        f 2 ≤ f 1 ∧ f 14 ≤ f 13 ∧
        4 * window ≤ f 4 / g / 2 ∧ 4 * f 8 ≤ f 4 / g / 2 ∧ 4 * f 11 ≤ f 4 / g / 2 ∧ 4 * f 12 ≤ f 4 / g / 2
    if 1 < h.value.toNat then refused .badSetting
    else if s.chan.partState = .switching then refused .badState
    else if passes then
      CompletesAs (.profileCommit h) s
        { s.answered (Answer.plain h.tag .ok 0) with
          chan := s.arrived.chan.setProfile p { s.chan.profile p with valid := true } }
    else refused .badSetting

/-! ### Queries, answers and the link -/

/-- Each QUERY is answered at once with DATA and changes nothing but its arrival's timers; LOG takes the oldest records,
up to 4, out of the Log and clears the overwrite flag (R155, R156, R164, R167). STATUS reports the state after its own
arrival (log 8). The payloads have the lengths and the layouts of section 11.3, with the codes of section 11.4; an absent
die's STATUS bytes are 0, the model's choice (log 9). An answer's header is laid out as R170 gives. -/
def Obligations.QueriesReportState : Prop :=
  ∀ (s : State) (h : Header),
    LevelKept s →
    let answer (payload : List Byte) : Answer :=
      { data := true, poison := false, tag := h.tag, status := .ok, beats := [], payload := payload, detail := 0 }
    let reports (code : Byte) (limit : Nat) (command : Header → Instr) (payload : State → List Byte) (length : Nat) : Prop :=
      Accepted s (Request.query code limit h) →
        ∃ t, exec (command h) s = .next t ∧ Internal (s.answered (answer (payload t))) t ∧
          (payload t).length = length
    reports 0 0 .queryStatus State.statusBytes 36 ∧
    reports 2 31 .queryEntry (fun t => entryBytes h.value.toNat (t.entry (Fin.ofNat 32 h.value.toNat))) 28 ∧
    reports 3 0 .queryPoison (fun t => poisonBytes t.errs.poison) (4 + 8 * s.errs.poison.length) ∧
    reports 4 1 .queryProfile (fun t => t.profileBytes (if h.value = 0 then .a else .b)) 36 ∧
    reports 5 3 .queryShadow (fun t => t.shadowBytes (Fin.ofNat 4 h.value.toNat)) 36 ∧
    reports 6 0 .querySettings (fun t => t.chan.settings.bytes) 60 ∧
    (Accepted s (Request.query 1 0 h) →
      CompletesAs (.queryLog h) s
        { s.answered (answer (logBytes (s.errs.log.take 4) s.errs.overwrite)) with
          errs := { s.errs with log := s.errs.log.drop 4, overwrite := false } }) ∧
    (logBytes (s.errs.log.take 4) s.errs.overwrite).length = 4 + 16 * min 4 s.errs.log.length ∧
    let c := s.chan.settings
    let byte (n : Nat) : Byte := BitVec.ofNat 8 n
    let bit (b : Bool) : Nat := if b = true then 1 else 0
    let half (w : BitVec 16) : List Byte := [w.extractLsb' 0 8, w.extractLsb' 8 8]
    let word (w : BitVec 32) : List Byte :=
      [w.extractLsb' 0 8, w.extractLsb' 8 8, w.extractLsb' 16 8, w.extractLsb' 24 8]
    let line (l : Option LineAddr) : List Byte := word ((l.getD 0).setWidth 32)
    let partCode (x : PartState) : Nat :=
      [PartState.config, .bringup, .running, .parking, .parked, .waking, .switching, .stopped].idxOf x
    let die (d : DieId) : List Byte :=
      if d.val < s.chan.settings.dieCount then
        [byte ([PortState.off, .init, .idle, .busy, .settling, .parked, .failed].idxOf (s.port d).state),
          byte ([Condition.stopped, .active, .suspended].idxOf (s.care d).condition), BitVec.ofInt 8 (s.care d).balance,
          byte ([Band.cool, .normal, .hot, .critical].idxOf (s.care d).band + 4 * bit (s.care d).recalPending +
            8 * bit (s.care d).recalForced)]
      else [0, 0, 0, 0]
    let procedure : Nat := match s.chan.procedure with
      | none => 0
      | some ⟨.start _, _, _⟩ => 1
      | some ⟨.rateSwitch _, _, _⟩ => 2
      | some ⟨.dieSetting _ _ _ _, _, _⟩ => 3
    s.statusBytes =
        [byte (partCode s.chan.partState),
          byte ([none, some Phase.quiesce, some .clock, some .wake, some .recal, some .apply].idxOf s.chan.phase),
          byte procedure,
          byte ([ProfileId.a, .b].idxOf s.chan.active +
            2 * [none, some StopCause.dieFailed, some .poisonFull].idxOf s.chan.stopCause),
          s.errs.latches, byte (bit s.halted + 2 * bit s.errs.overwrite), byte s.errs.log.length,
          byte s.errs.poison.length, byte (occupancy s.table),
          byte ([Pressure.none, .idle, .active, .urgent].idxOf s.drain.pressure + 4 * bit s.drain.hysteresis),
          byte s.reads.list.length, byte s.flushes.length, byte s.link.tags.length, 0, 0, 0] ++
          word s.table.nextWsn ++ die 0 ++ die 1 ++ die 2 ++ die 3 ∧
      (∀ (i : Fin 32) (e : Entry), entryBytes i.val e =
        [byte i.val, byte ([EntryState.free, .opened, .draining].idxOf e.state),
          byte ([Generation.first, .second].idxOf e.gen +
            2 * [none, some DrainStep.maskedWrite, some .rmwRead, some .rmwWrite, some .fullWrite].idxOf e.step),
          byte e.attempts] ++
          line e.line ++ ((List.range 8).map fun j => e.mask.extractLsb' (8 * j) 8) ++ word e.firstWsn ++
          word e.lastWsn ++ half (BitVec.ofNat 16 e.merges) ++ [0, 0]) ∧
      (∀ (records : List LogRecord) (overwrite : Bool), logBytes records overwrite =
        [byte records.length, byte (bit overwrite), 0, 0] ++
          records.flatMap fun r =>
            [r.number,
              byte ([LogKind.headerCheck, .dataCheck, .writeLost, .readUncorrectable, .readTimeout, .refreshOverrun,
                .thermalCritical, .dieFailed, .poisonFull, .restart].idxOf r.kind + 1),
              byte (partCode r.part),
              byte (bit r.die.isSome + 2 * bit r.line.isSome + 4 * bit r.tag.isSome + 8 * bit r.wsn.isSome),
              byte ((r.die.map Fin.val).getD 0), (r.tag.getD 0).setWidth 8] ++
              line r.line ++ word (r.wsn.getD 0) ++ half r.detail) ∧
      (∀ lines : List (LineAddr × DieId), poisonBytes lines =
        [byte lines.length, 0, 0, 0] ++ lines.flatMap fun x => line (some x.1) ++ [byte x.2.val, 0, 0, 0]) ∧
      (∀ p : ProfileId, s.profileBytes p =
        [byte ([ProfileId.a, .b].idxOf p), byte (bit (s.chan.profile p).valid + 2 * bit (decide (p = s.chan.active))), 0,
          0] ++
          (List.finRange 16).flatMap fun n => half (s.chan.profile p).fields[n]) ∧
      (∀ d : DieId, ∃ known : BitVec 16,
        (∀ i : Fin 16, known.getLsbD i.val = (s.chan.shadow[d][i]).known) ∧
          s.shadowBytes d =
            [byte d.val, 0] ++ half known ++ (List.finRange 16).flatMap fun i => half (s.chan.shadow[d][i]).value) ∧
      (c.bytes =
        [c.checkPolicy, c.highMark, c.lowMark, c.idleDrainTime, c.readWaitLimit, c.parkDelay, c.wakeMode, c.pullIn,
          c.maskedWrites, c.dieCount, c.dieLinesLog2, c.granularity, c.tempPoll, c.drainRetry, c.dieOpLimit].flatMap
          fun n => word (BitVec.ofNat 32 n)) ∧
      ∀ a : Answer, a.header =
        [byte (bit a.data + 2 * bit a.poison), a.tag.setWidth 8,
          byte ([Status.ok, .posted, .retry, .notReady, .range, .malformed, .dataCheck, .tagInUse, .timeout, .halted,
            .stopped, .badSetting, .badState, .failed, .loss].idxOf a.status),
          byte a.beats.length] ++
          half (BitVec.ofNat 16 a.payload.length) ++ word a.detail ++ [0, 0, 0, 0, 0]

/-- A link reset empties the Response Queue, the Tag Set, the Read Wait List with its claims and the Flush List, loses
what the link held, and suppresses the answer of the procedure in progress; everything else stays, but for what the end
of the holds and flushes lets the claims do (R60, R70, R115, R157). -/
def Obligations.LinkResetEmptiesLinkState : Prop :=
  ∀ s : State,
    ∃ t, exec .linkReset s = .next t ∧
      Internal
        { s with
          link := { tags := [], answers := [], held := [] }
          reads := { s.reads with list := [] }
          flushes := []
          chan := { s.chan with procedure := s.chan.procedure.map fun p => { p with suppressed := true } } } t ∧
      ∀ d, (t.port d).readClaims = []

/-- The sending of the oldest answer takes it out of the queue; the Intake then takes the message that the link held, as
it would have been taken on its arrival, if there is a place (R154; log 5). With no answer queued nothing changes
(log 4). -/
def Obligations.AnswerSentFreesPlaceAndTakesHeld : Prop :=
  ∀ s : State,
    (s.link.answers = [] → exec .answerSent s = .next s) ∧
    ∀ a rest, s.link.answers = a :: rest →
      let sent : State := { s with link := { s.link with answers := rest } }
      ((s.link.held = [] ∨ 24 ≤ rest.length + s.link.tags.length) → exec .answerSent s = .next sent) ∧
      (∀ c r, s.link.held = [c] → c.wf = true → requestOf c = some r → rest.length + s.link.tags.length < 24 →
        exec .answerSent s = exec c { sent with link := { sent.link with held := [] } }) ∧
      exec .answerSent s = .next (takeAllHeld s.link.held sent)

/-! ### Invariants that every step keeps -/

/-- ALERT follows the latches, the balances stay between -8 and +8, and no list outgrows its capacity or the Poison List
holds a line twice (R45, R62, R96, R160, R163, R165). -/
def Obligations.StepKeepsListsBalancesAndAlert : Prop :=
  ∀ s t : State, step s = .next t →
    AlertFollows s ∧ BalancesBounded s ∧ ListsBounded s → AlertFollows t ∧ BalancesBounded t ∧ ListsBounded t

/-- Every part setting stays in its range, HIGH_MARK above LOW_MARK, and no profile is valid under a GRANULARITY that
breaks its refresh rule (R135, R136, R138). -/
def Obligations.StepKeepsSettingsAndProfilesSound : Prop :=
  ∀ s t : State, step s = .next t →
    SettingsInRange s.chan.settings ∧ ProfilesSound s → SettingsInRange t.chan.settings ∧ ProfilesSound t

/-- The pressure level is the one that the table, the Flush List and the two flags give (R22). The hysteresis flag is set
at HIGH_MARK and above and clear at LOW_MARK and below; between the marks it stays as it was, in every step but one that
takes several held messages (R23). The scheduler's claims follow: while the level is above NONE, a die without a DRAINING
entry has its oldest eligible entry claimed, or granted so that the die has one; no other selection claim stands (R25 to
R28); a DRAINING entry, one at most on a die, has its operation in flight or its continuation claim pending (R27, R34). -/
def Obligations.StepKeepsPressureLevel : Prop :=
  ∀ s t : State, step s = .next t →
    (LevelKept s → LevelKept t) ∧
    (HysteresisFollows s → HysteresisFollows t) ∧
    ((s.pending.head? = some .answerSent → s.link.held.length ≤ 1) →
      t.chan.settings.lowMark < occupancy t.table → occupancy t.table < t.chan.settings.highMark →
      t.drain.hysteresis = s.drain.hysteresis) ∧
    (TagsHeld s ∧ SettingsInRange s.chan.settings ∧ ReadsClaimed s ∧ DrainsClaimed s → DrainsClaimed t)

/-- Every port's slot, state and settle timer fit together (R73, R77). -/
def Obligations.StepKeepsPortsOrdered : Prop :=
  ∀ s t : State, step s = .next t → PortsOrdered s → PortsOrdered t

/-- The table's entries of each line stay as R1, R3 and R4 have them, and every live entry's first WSN precedes the
counter (R6, R63). -/
def Obligations.StepKeepsTableSound : Prop :=
  ∀ s t : State, step s = .next t → (TableSound s → TableSound t) ∧ (WsnsOrdered s → WsnsOrdered t)

/-- The Tag Set holds, each once, the tags of the outstanding requests, and the Response Queue keeps a place for each
(R153, R154). Read claims are numbered apart (log 13), and the procedure fits the part state (R115). The read claims of a
port are those of its die's WAITING records, in list order, and an AT_DIE record's LINE READ is in its die's slot (R44, R46,
R53). -/
def Obligations.StepKeepsTagsHeld : Prop :=
  ∀ s t : State, step s = .next t → TagsHeld s → TagsHeld t ∧ (ReadsClaimed s → ReadsClaimed t)

/-- Each present die's maintenance condition and claims follow R95, R99, R103 and R104; DIE_COUNT, which changes in CONFIG
only, is left aside. Both due timers of a die run exactly while its condition is ACTIVE (R95). In QUIESCE the PARK ENTER
claim of each present die follows its balance (R125). -/
def Obligations.StepKeepsCareFollowing : Prop :=
  ∀ s t : State, step s = .next t →
    (t.chan.settings.dieCount = s.chan.settings.dieCount →
      (∀ d, s.present d = true → CareFollows s d) → ∀ d, t.present d = true → CareFollows t d) ∧
    (∀ d, DueTimersFollow s d → DueTimersFollow t d) ∧
    ((∀ d, s.present d = true → ParkEnterKept s d) → ∀ d, t.present d = true → ParkEnterKept t d)
end

