-- ==== Sys2Proof/Laws/State.lean ====
section
/-! SUPPORT. One lemma per field for each update of the state, so that no proof unfolds a record update. -/

namespace Sys2Proof.Machine

/-! `setLink` -/
@[simp] theorem State.setLink_pending (s : State) (l : Link) : (s.setLink l).pending = s.pending := rfl
@[simp] theorem State.setLink_link (s : State) (l : Link) : (s.setLink l).link = l := rfl
@[simp] theorem State.setLink_table (s : State) (l : Link) : (s.setLink l).table = s.table := rfl
@[simp] theorem State.setLink_drain (s : State) (l : Link) : (s.setLink l).drain = s.drain := rfl
@[simp] theorem State.setLink_reads (s : State) (l : Link) : (s.setLink l).reads = s.reads := rfl
@[simp] theorem State.setLink_flushes (s : State) (l : Link) : (s.setLink l).flushes = s.flushes := rfl
@[simp] theorem State.setLink_ports (s : State) (l : Link) : (s.setLink l).ports = s.ports := rfl
@[simp] theorem State.setLink_maint (s : State) (l : Link) : (s.setLink l).maint = s.maint := rfl
@[simp] theorem State.setLink_chan (s : State) (l : Link) : (s.setLink l).chan = s.chan := rfl
@[simp] theorem State.setLink_errs (s : State) (l : Link) : (s.setLink l).errs = s.errs := rfl

/-! `setTable` -/
@[simp] theorem State.setTable_pending (s : State) (x : Table) : (s.setTable x).pending = s.pending := rfl
@[simp] theorem State.setTable_link (s : State) (x : Table) : (s.setTable x).link = s.link := rfl
@[simp] theorem State.setTable_table (s : State) (x : Table) : (s.setTable x).table = x := rfl
@[simp] theorem State.setTable_drain (s : State) (x : Table) : (s.setTable x).drain = s.drain := rfl
@[simp] theorem State.setTable_reads (s : State) (x : Table) : (s.setTable x).reads = s.reads := rfl
@[simp] theorem State.setTable_flushes (s : State) (x : Table) : (s.setTable x).flushes = s.flushes := rfl
@[simp] theorem State.setTable_ports (s : State) (x : Table) : (s.setTable x).ports = s.ports := rfl
@[simp] theorem State.setTable_maint (s : State) (x : Table) : (s.setTable x).maint = s.maint := rfl
@[simp] theorem State.setTable_chan (s : State) (x : Table) : (s.setTable x).chan = s.chan := rfl
@[simp] theorem State.setTable_errs (s : State) (x : Table) : (s.setTable x).errs = s.errs := rfl

/-! `setDrain` -/
@[simp] theorem State.setDrain_pending (s : State) (x : Drain) : (s.setDrain x).pending = s.pending := rfl
@[simp] theorem State.setDrain_link (s : State) (x : Drain) : (s.setDrain x).link = s.link := rfl
@[simp] theorem State.setDrain_table (s : State) (x : Drain) : (s.setDrain x).table = s.table := rfl
@[simp] theorem State.setDrain_drain (s : State) (x : Drain) : (s.setDrain x).drain = x := rfl
@[simp] theorem State.setDrain_reads (s : State) (x : Drain) : (s.setDrain x).reads = s.reads := rfl
@[simp] theorem State.setDrain_flushes (s : State) (x : Drain) : (s.setDrain x).flushes = s.flushes := rfl
@[simp] theorem State.setDrain_ports (s : State) (x : Drain) : (s.setDrain x).ports = s.ports := rfl
@[simp] theorem State.setDrain_maint (s : State) (x : Drain) : (s.setDrain x).maint = s.maint := rfl
@[simp] theorem State.setDrain_chan (s : State) (x : Drain) : (s.setDrain x).chan = s.chan := rfl
@[simp] theorem State.setDrain_errs (s : State) (x : Drain) : (s.setDrain x).errs = s.errs := rfl

/-! `setReads` -/
@[simp] theorem State.setReads_pending (s : State) (x : Reads) : (s.setReads x).pending = s.pending := rfl
@[simp] theorem State.setReads_link (s : State) (x : Reads) : (s.setReads x).link = s.link := rfl
@[simp] theorem State.setReads_table (s : State) (x : Reads) : (s.setReads x).table = s.table := rfl
@[simp] theorem State.setReads_drain (s : State) (x : Reads) : (s.setReads x).drain = s.drain := rfl
@[simp] theorem State.setReads_reads (s : State) (x : Reads) : (s.setReads x).reads = x := rfl
@[simp] theorem State.setReads_flushes (s : State) (x : Reads) : (s.setReads x).flushes = s.flushes := rfl
@[simp] theorem State.setReads_ports (s : State) (x : Reads) : (s.setReads x).ports = s.ports := rfl
@[simp] theorem State.setReads_maint (s : State) (x : Reads) : (s.setReads x).maint = s.maint := rfl
@[simp] theorem State.setReads_chan (s : State) (x : Reads) : (s.setReads x).chan = s.chan := rfl
@[simp] theorem State.setReads_errs (s : State) (x : Reads) : (s.setReads x).errs = s.errs := rfl

/-! `setFlushes` -/
@[simp] theorem State.setFlushes_pending (s : State) (x : List FlushRecord) : (s.setFlushes x).pending = s.pending := rfl
@[simp] theorem State.setFlushes_link (s : State) (x : List FlushRecord) : (s.setFlushes x).link = s.link := rfl
@[simp] theorem State.setFlushes_table (s : State) (x : List FlushRecord) : (s.setFlushes x).table = s.table := rfl
@[simp] theorem State.setFlushes_drain (s : State) (x : List FlushRecord) : (s.setFlushes x).drain = s.drain := rfl
@[simp] theorem State.setFlushes_reads (s : State) (x : List FlushRecord) : (s.setFlushes x).reads = s.reads := rfl
@[simp] theorem State.setFlushes_flushes (s : State) (x : List FlushRecord) : (s.setFlushes x).flushes = x := rfl
@[simp] theorem State.setFlushes_ports (s : State) (x : List FlushRecord) : (s.setFlushes x).ports = s.ports := rfl
@[simp] theorem State.setFlushes_maint (s : State) (x : List FlushRecord) : (s.setFlushes x).maint = s.maint := rfl
@[simp] theorem State.setFlushes_chan (s : State) (x : List FlushRecord) : (s.setFlushes x).chan = s.chan := rfl
@[simp] theorem State.setFlushes_errs (s : State) (x : List FlushRecord) : (s.setFlushes x).errs = s.errs := rfl

/-! `setMaint` -/
@[simp] theorem State.setMaint_pending (s : State) (x : Maint) : (s.setMaint x).pending = s.pending := rfl
@[simp] theorem State.setMaint_link (s : State) (x : Maint) : (s.setMaint x).link = s.link := rfl
@[simp] theorem State.setMaint_table (s : State) (x : Maint) : (s.setMaint x).table = s.table := rfl
@[simp] theorem State.setMaint_drain (s : State) (x : Maint) : (s.setMaint x).drain = s.drain := rfl
@[simp] theorem State.setMaint_reads (s : State) (x : Maint) : (s.setMaint x).reads = s.reads := rfl
@[simp] theorem State.setMaint_flushes (s : State) (x : Maint) : (s.setMaint x).flushes = s.flushes := rfl
@[simp] theorem State.setMaint_ports (s : State) (x : Maint) : (s.setMaint x).ports = s.ports := rfl
@[simp] theorem State.setMaint_maint (s : State) (x : Maint) : (s.setMaint x).maint = x := rfl
@[simp] theorem State.setMaint_chan (s : State) (x : Maint) : (s.setMaint x).chan = s.chan := rfl
@[simp] theorem State.setMaint_errs (s : State) (x : Maint) : (s.setMaint x).errs = s.errs := rfl

/-! `setChan` -/
@[simp] theorem State.setChan_pending (s : State) (x : Channel) : (s.setChan x).pending = s.pending := rfl
@[simp] theorem State.setChan_link (s : State) (x : Channel) : (s.setChan x).link = s.link := rfl
@[simp] theorem State.setChan_table (s : State) (x : Channel) : (s.setChan x).table = s.table := rfl
@[simp] theorem State.setChan_drain (s : State) (x : Channel) : (s.setChan x).drain = s.drain := rfl
@[simp] theorem State.setChan_reads (s : State) (x : Channel) : (s.setChan x).reads = s.reads := rfl
@[simp] theorem State.setChan_flushes (s : State) (x : Channel) : (s.setChan x).flushes = s.flushes := rfl
@[simp] theorem State.setChan_ports (s : State) (x : Channel) : (s.setChan x).ports = s.ports := rfl
@[simp] theorem State.setChan_maint (s : State) (x : Channel) : (s.setChan x).maint = s.maint := rfl
@[simp] theorem State.setChan_chan (s : State) (x : Channel) : (s.setChan x).chan = x := rfl
@[simp] theorem State.setChan_errs (s : State) (x : Channel) : (s.setChan x).errs = s.errs := rfl

/-! `setErrs` -/
@[simp] theorem State.setErrs_pending (s : State) (x : Errors) : (s.setErrs x).pending = s.pending := rfl
@[simp] theorem State.setErrs_link (s : State) (x : Errors) : (s.setErrs x).link = s.link := rfl
@[simp] theorem State.setErrs_table (s : State) (x : Errors) : (s.setErrs x).table = s.table := rfl
@[simp] theorem State.setErrs_drain (s : State) (x : Errors) : (s.setErrs x).drain = s.drain := rfl
@[simp] theorem State.setErrs_reads (s : State) (x : Errors) : (s.setErrs x).reads = s.reads := rfl
@[simp] theorem State.setErrs_flushes (s : State) (x : Errors) : (s.setErrs x).flushes = s.flushes := rfl
@[simp] theorem State.setErrs_ports (s : State) (x : Errors) : (s.setErrs x).ports = s.ports := rfl
@[simp] theorem State.setErrs_maint (s : State) (x : Errors) : (s.setErrs x).maint = s.maint := rfl
@[simp] theorem State.setErrs_chan (s : State) (x : Errors) : (s.setErrs x).chan = s.chan := rfl
@[simp] theorem State.setErrs_errs (s : State) (x : Errors) : (s.setErrs x).errs = x := rfl

/-! `setEntry` -/
@[simp] theorem State.setEntry_pending (s : State) (i : Fin 32) (e : Entry) : (s.setEntry i e).pending = s.pending := rfl
@[simp] theorem State.setEntry_link (s : State) (i : Fin 32) (e : Entry) : (s.setEntry i e).link = s.link := rfl
@[simp] theorem State.setEntry_drain (s : State) (i : Fin 32) (e : Entry) : (s.setEntry i e).drain = s.drain := rfl
@[simp] theorem State.setEntry_reads (s : State) (i : Fin 32) (e : Entry) : (s.setEntry i e).reads = s.reads := rfl
@[simp] theorem State.setEntry_flushes (s : State) (i : Fin 32) (e : Entry) : (s.setEntry i e).flushes = s.flushes := rfl
@[simp] theorem State.setEntry_ports (s : State) (i : Fin 32) (e : Entry) : (s.setEntry i e).ports = s.ports := rfl
@[simp] theorem State.setEntry_maint (s : State) (i : Fin 32) (e : Entry) : (s.setEntry i e).maint = s.maint := rfl
@[simp] theorem State.setEntry_chan (s : State) (i : Fin 32) (e : Entry) : (s.setEntry i e).chan = s.chan := rfl
@[simp] theorem State.setEntry_errs (s : State) (i : Fin 32) (e : Entry) : (s.setEntry i e).errs = s.errs := rfl

/-! `setPort` -/
@[simp] theorem State.setPort_pending (s : State) (d : DieId) (p : Port) : (s.setPort d p).pending = s.pending := rfl
@[simp] theorem State.setPort_link (s : State) (d : DieId) (p : Port) : (s.setPort d p).link = s.link := rfl
@[simp] theorem State.setPort_table (s : State) (d : DieId) (p : Port) : (s.setPort d p).table = s.table := rfl
@[simp] theorem State.setPort_drain (s : State) (d : DieId) (p : Port) : (s.setPort d p).drain = s.drain := rfl
@[simp] theorem State.setPort_reads (s : State) (d : DieId) (p : Port) : (s.setPort d p).reads = s.reads := rfl
@[simp] theorem State.setPort_flushes (s : State) (d : DieId) (p : Port) : (s.setPort d p).flushes = s.flushes := rfl
@[simp] theorem State.setPort_maint (s : State) (d : DieId) (p : Port) : (s.setPort d p).maint = s.maint := rfl
@[simp] theorem State.setPort_chan (s : State) (d : DieId) (p : Port) : (s.setPort d p).chan = s.chan := rfl
@[simp] theorem State.setPort_errs (s : State) (d : DieId) (p : Port) : (s.setPort d p).errs = s.errs := rfl

/-! `setCare` -/
@[simp] theorem State.setCare_pending (s : State) (d : DieId) (c : DieCare) : (s.setCare d c).pending = s.pending := rfl
@[simp] theorem State.setCare_link (s : State) (d : DieId) (c : DieCare) : (s.setCare d c).link = s.link := rfl
@[simp] theorem State.setCare_table (s : State) (d : DieId) (c : DieCare) : (s.setCare d c).table = s.table := rfl
@[simp] theorem State.setCare_drain (s : State) (d : DieId) (c : DieCare) : (s.setCare d c).drain = s.drain := rfl
@[simp] theorem State.setCare_reads (s : State) (d : DieId) (c : DieCare) : (s.setCare d c).reads = s.reads := rfl
@[simp] theorem State.setCare_flushes (s : State) (d : DieId) (c : DieCare) : (s.setCare d c).flushes = s.flushes := rfl
@[simp] theorem State.setCare_ports (s : State) (d : DieId) (c : DieCare) : (s.setCare d c).ports = s.ports := rfl
@[simp] theorem State.setCare_chan (s : State) (d : DieId) (c : DieCare) : (s.setCare d c).chan = s.chan := rfl
@[simp] theorem State.setCare_errs (s : State) (d : DieId) (c : DieCare) : (s.setCare d c).errs = s.errs := rfl

@[simp] theorem State.setEntry_nextWsn (s : State) (i : Fin 32) (e : Entry) :
    (s.setEntry i e).table.nextWsn = s.table.nextWsn := rfl
@[simp] theorem State.setCare_pollTimer (s : State) (d : DieId) (c : DieCare) :
    (s.setCare d c).maint.pollTimer = s.maint.pollTimer := rfl

/-! Reading one entry, port or die after an update. -/

theorem State.setEntry_entry (s : State) (i j : Fin 32) (e : Entry) :
    (s.setEntry i e).entry j = if i = j then e else s.entry j := by
  simp [State.setEntry, State.setTable, State.entry, Vector.getElem_set, Fin.ext_iff]

@[simp] theorem State.setEntry_entry_self (s : State) (i : Fin 32) (e : Entry) : (s.setEntry i e).entry i = e := by
  simp [State.setEntry_entry]

theorem State.setPort_port (s : State) (d c : DieId) (p : Port) :
    (s.setPort d p).port c = if d = c then p else s.port c := by
  simp [State.setPort, State.port, Vector.getElem_set, Fin.ext_iff]

@[simp] theorem State.setPort_port_self (s : State) (d : DieId) (p : Port) : (s.setPort d p).port d = p := by
  simp [State.setPort_port]

theorem State.setCare_care (s : State) (d e : DieId) (c : DieCare) :
    (s.setCare d c).care e = if d = e then c else s.care e := by
  simp [State.setCare, State.setMaint, State.care, Vector.getElem_set, Fin.ext_iff]

@[simp] theorem State.setCare_care_self (s : State) (d : DieId) (c : DieCare) : (s.setCare d c).care d = c := by
  simp [State.setCare_care]

@[simp] theorem State.setLink_entry (s : State) (l : Link) (i : Fin 32) : (s.setLink l).entry i = s.entry i := rfl
@[simp] theorem State.setLink_port (s : State) (l : Link) (d : DieId) : (s.setLink l).port d = s.port d := rfl
@[simp] theorem State.setLink_care (s : State) (l : Link) (d : DieId) : (s.setLink l).care d = s.care d := rfl
@[simp] theorem State.setTable_port (s : State) (x : Table) (d : DieId) : (s.setTable x).port d = s.port d := rfl
@[simp] theorem State.setTable_care (s : State) (x : Table) (d : DieId) : (s.setTable x).care d = s.care d := rfl
@[simp] theorem State.setDrain_entry (s : State) (x : Drain) (i : Fin 32) : (s.setDrain x).entry i = s.entry i := rfl
@[simp] theorem State.setDrain_port (s : State) (x : Drain) (d : DieId) : (s.setDrain x).port d = s.port d := rfl
@[simp] theorem State.setDrain_care (s : State) (x : Drain) (d : DieId) : (s.setDrain x).care d = s.care d := rfl
@[simp] theorem State.setReads_entry (s : State) (x : Reads) (i : Fin 32) : (s.setReads x).entry i = s.entry i := rfl
@[simp] theorem State.setReads_port (s : State) (x : Reads) (d : DieId) : (s.setReads x).port d = s.port d := rfl
@[simp] theorem State.setReads_care (s : State) (x : Reads) (d : DieId) : (s.setReads x).care d = s.care d := rfl
@[simp] theorem State.setFlushes_entry (s : State) (x : List FlushRecord) (i : Fin 32) : (s.setFlushes x).entry i = s.entry i := rfl
@[simp] theorem State.setFlushes_port (s : State) (x : List FlushRecord) (d : DieId) : (s.setFlushes x).port d = s.port d := rfl
@[simp] theorem State.setFlushes_care (s : State) (x : List FlushRecord) (d : DieId) : (s.setFlushes x).care d = s.care d := rfl
@[simp] theorem State.setMaint_entry (s : State) (x : Maint) (i : Fin 32) : (s.setMaint x).entry i = s.entry i := rfl
@[simp] theorem State.setMaint_port (s : State) (x : Maint) (d : DieId) : (s.setMaint x).port d = s.port d := rfl
@[simp] theorem State.setChan_entry (s : State) (x : Channel) (i : Fin 32) : (s.setChan x).entry i = s.entry i := rfl
@[simp] theorem State.setChan_port (s : State) (x : Channel) (d : DieId) : (s.setChan x).port d = s.port d := rfl
@[simp] theorem State.setChan_care (s : State) (x : Channel) (d : DieId) : (s.setChan x).care d = s.care d := rfl
@[simp] theorem State.setErrs_entry (s : State) (x : Errors) (i : Fin 32) : (s.setErrs x).entry i = s.entry i := rfl
@[simp] theorem State.setErrs_port (s : State) (x : Errors) (d : DieId) : (s.setErrs x).port d = s.port d := rfl
@[simp] theorem State.setErrs_care (s : State) (x : Errors) (d : DieId) : (s.setErrs x).care d = s.care d := rfl
@[simp] theorem State.setEntry_port (s : State) (i : Fin 32) (e : Entry) (j : DieId) : (s.setEntry i e).port j = s.port j := rfl
@[simp] theorem State.setEntry_care (s : State) (i : Fin 32) (e : Entry) (j : DieId) : (s.setEntry i e).care j = s.care j := rfl
@[simp] theorem State.setPort_entry (s : State) (d : DieId) (p : Port) (j : Fin 32) : (s.setPort d p).entry j = s.entry j := rfl
@[simp] theorem State.setPort_care (s : State) (d : DieId) (p : Port) (j : DieId) : (s.setPort d p).care j = s.care j := rfl
@[simp] theorem State.setCare_entry (s : State) (d : DieId) (c : DieCare) (j : Fin 32) : (s.setCare d c).entry j = s.entry j := rfl
@[simp] theorem State.setCare_port (s : State) (d : DieId) (c : DieCare) (j : DieId) : (s.setCare d c).port j = s.port j := rfl

/-! A die is present by the settings alone. -/

@[simp] theorem State.setLink_present (s : State) (l : Link) (c : DieId) : (s.setLink l).present c = s.present c := rfl
@[simp] theorem State.setTable_present (s : State) (x : Table) (c : DieId) : (s.setTable x).present c = s.present c := rfl
@[simp] theorem State.setDrain_present (s : State) (x : Drain) (c : DieId) : (s.setDrain x).present c = s.present c := rfl
@[simp] theorem State.setReads_present (s : State) (x : Reads) (c : DieId) : (s.setReads x).present c = s.present c := rfl
@[simp] theorem State.setFlushes_present (s : State) (x : List FlushRecord) (c : DieId) : (s.setFlushes x).present c = s.present c := rfl
@[simp] theorem State.setMaint_present (s : State) (x : Maint) (c : DieId) : (s.setMaint x).present c = s.present c := rfl
@[simp] theorem State.setErrs_present (s : State) (x : Errors) (c : DieId) : (s.setErrs x).present c = s.present c := rfl
@[simp] theorem State.setEntry_present (s : State) (i : Fin 32) (e : Entry) (c : DieId) : (s.setEntry i e).present c = s.present c := rfl
@[simp] theorem State.setPort_present (s : State) (d : DieId) (p : Port) (c : DieId) : (s.setPort d p).present c = s.present c := rfl
@[simp] theorem State.setCare_present (s : State) (d : DieId) (c : DieCare) (k : DieId) : (s.setCare d c).present k = s.present k := rfl

end Sys2Proof.Machine
end

