-- ==== Sys2Proof/Laws/Dies.lean ====
section
/-! SUPPORT. The same step at dies 0 to 3 in turn, as one update of the ports or of the dies' maintenance values. -/

namespace Sys2Proof.Machine

/-- Two steps that agree wherever a property holds, which both keep, give the same in turn. -/
theorem forDies_congr {P : State → Prop} (f g : DieId → State → State) {s : State} (h : P s)
    (k : ∀ d t, P t → f d t = g d t ∧ P (g d t)) : forDies f s = forDies g s := by
  unfold forDies
  have h0 := k 0 s h
  have h1 := k 1 _ h0.2
  have h2 := k 2 _ h1.2
  have h3 := k 3 _ h2.2
  rw [h0.1, h1.1, h2.1, h3.1]

theorem vector4_ext {α : Type} {v w : Vector α 4} (h : ∀ d : DieId, v[d] = w[d]) : v = w := by
  ext i hi
  exact h ⟨i, hi⟩

/-- One update of every port. -/
theorem forDies_setPort (g : DieId → Port → Port) (s : State) :
    forDies (fun d t => t.setPort d (g d (t.port d))) s = { s with ports := Vector.ofFn fun d => g d (s.port d) } := by
  have : (forDies (fun d t => t.setPort d (g d (t.port d))) s).ports = Vector.ofFn fun d => g d (s.port d) := by
    apply vector4_ext
    intro d
    show (forDies (fun d t => t.setPort d (g d (t.port d))) s).port d = _
    simp only [forDies, State.setPort_port]
    rcases d with ⟨n, hn⟩
    match n, hn with
    | 0, _ => simp
    | 1, _ => simp
    | 2, _ => simp
    | 3, _ => simp
  rw [← this]
  rfl

/-- One update of every die's maintenance values. -/
theorem forDies_setCare (g : DieId → DieCare → DieCare) (s : State) :
    forDies (fun d t => t.setCare d (g d (t.care d))) s =
      { s with maint := { s.maint with dies := Vector.ofFn fun d => g d (s.care d) } } := by
  have : (forDies (fun d t => t.setCare d (g d (t.care d))) s).maint.dies = Vector.ofFn fun d => g d (s.care d) := by
    apply vector4_ext
    intro d
    show (forDies (fun d t => t.setCare d (g d (t.care d))) s).care d = _
    simp only [forDies, State.setCare_care]
    rcases d with ⟨n, hn⟩
    match n, hn with
    | 0, _ => simp
    | 1, _ => simp
    | 2, _ => simp
    | 3, _ => simp
  rw [← this]
  rfl

theorem State.setPort_same (s : State) (d : DieId) : s.setPort d (s.port d) = s := by
  have : s.ports.set d (s.port d) = s.ports := by simp [State.port]
  show { s with ports := s.ports.set d (s.port d) } = s
  rw [this]

theorem State.setCare_same (s : State) (d : DieId) : s.setCare d (s.care d) = s := by
  have : s.maint.dies.set d (s.care d) = s.maint.dies := by simp [State.care]
  show { s with maint := { s.maint with dies := s.maint.dies.set d (s.care d) } } = s
  rw [this]

/-- One update of every present port. -/
theorem forPresent_setPort (g : DieId → Port → Port) (s : State) :
    s.forPresent (fun d t => t.setPort d (g d (t.port d))) =
      { s with ports := Vector.ofFn fun d => if s.present d then g d (s.port d) else s.port d } := by
  rw [← forDies_setPort (fun d p => if s.present d then g d p else p) s]
  refine forDies_congr (P := fun t => t.chan = s.chan) _ _ rfl fun d t ht => ?_
  have hp : t.present d = s.present d := by simp [State.present, ht]
  simp only [hp]
  split
  · exact ⟨rfl, ht⟩
  · rw [State.setPort_same]; exact ⟨rfl, ht⟩

/-- One update of every present die's maintenance values. -/
theorem forPresent_setCare (g : DieId → DieCare → DieCare) (s : State) :
    s.forPresent (fun d t => t.setCare d (g d (t.care d))) =
      { s with
        maint :=
          { s.maint with dies := Vector.ofFn fun d => if s.present d then g d (s.care d) else s.care d } } := by
  rw [← forDies_setCare (fun d p => if s.present d then g d p else p) s]
  refine forDies_congr (P := fun t => t.chan = s.chan) _ _ rfl fun d t ht => ?_
  have hp : t.present d = s.present d := by simp [State.present, ht]
  simp only [hp]
  split
  · exact ⟨rfl, ht⟩
  · rw [State.setCare_same]; exact ⟨rfl, ht⟩

/-- A property of every present die, as a proposition. -/
theorem allPresent_iff (s : State) (p : DieId → Bool) :
    s.allPresent p = true ↔ ∀ d, s.present d = true → p d = true := by
  simp only [State.allPresent, allDies, Bool.and_eq_true, Bool.or_eq_true, Bool.not_eq_true']
  constructor
  · rintro ⟨⟨⟨h0, h1⟩, h2⟩, h3⟩ ⟨n, hn⟩ hp
    match n, hn with
    | 0, _ => exact h0.resolve_left (by change s.present 0 = true at hp; simp [hp])
    | 1, _ => exact h1.resolve_left (by change s.present 1 = true at hp; simp [hp])
    | 2, _ => exact h2.resolve_left (by change s.present 2 = true at hp; simp [hp])
    | 3, _ => exact h3.resolve_left (by change s.present 3 = true at hp; simp [hp])
  · intro h
    have g (d : DieId) : s.present d = false ∨ p d = true := by
      cases hp : s.present d
      · exact .inl rfl
      · exact .inr (h d hp)
    exact ⟨⟨⟨g 0, g 1⟩, g 2⟩, g 3⟩

theorem portsAll_iff (s : State) (p : Port → Bool) :
    s.portsAll p = true ↔ ∀ d, s.present d = true → p (s.port d) = true := allPresent_iff s _

end Sys2Proof.Machine
end

