-- ==== Sys2Proof/Laws/Internal.lean ====
section
/-! SUPPORT. What the claims and grants that close an event can do, said once: each operation of the scheduler, the
Maintenance Unit, Channel Control's kept claims and the arbiter leaves a state `Internal` to the one it found. -/

namespace Sys2Proof.Machine

theorem PortKept.refl (n : Nat) (p : Port) : PortKept n p p := ⟨rfl, rfl, rfl, .inl ⟨rfl, rfl, rfl, rfl⟩⟩

theorem PortKept.trans {n : Nat} {p q r : Port} (h : PortKept n p q) (k : PortKept n q r) : PortKept n p r := by
  obtain ⟨h1, h2, h3, h4⟩ := h
  obtain ⟨k1, k2, k3, k4⟩ := k
  refine ⟨k1.trans h1, k2.trans h2, k3.trans h3, ?_⟩
  rcases h4 with ⟨a1, a2, a3, a4⟩ | ⟨a1, a2, a3, a4, a5⟩ <;> rcases k4 with ⟨b1, b2, b3, b4⟩ | ⟨b1, b2, b3, b4, b5⟩
  · exact .inl ⟨b1.trans a1, b2.trans a2, b3.trans a3, b4.trans a4⟩
  · rw [a2, h1] at b5; rw [a2] at b4; rw [a1] at b1
    exact .inr ⟨b1, b2, b3, b4, b5⟩
  · exact .inr ⟨a1, by rw [b1]; exact a2, b3.trans a3, b2.trans a4, a5⟩
  · rw [b1] at a2; simp at a2

theorem EntryKept.refl (e : Entry) : EntryKept e e := .inl rfl

theorem EntryKept.trans {e f g : Entry} (h : EntryKept e f) (k : EntryKept f g) : EntryKept e g := by
  rcases h with rfl | ⟨h1, h2, st, rfl⟩
  · exact k
  · rcases k with rfl | ⟨k1, _, _, _⟩
    · exact .inr ⟨h1, h2, st, rfl⟩
    · simp at k1

theorem ReadKept.refl (r : ReadRecord) : ReadKept r r := .inl rfl

theorem ReadKept.trans {r q p : ReadRecord} (h : ReadKept r q) (k : ReadKept q p) : ReadKept r p := by
  rcases h with rfl | rfl
  · exact k
  · rcases k with rfl | rfl <;> exact .inr rfl

theorem CareKept.refl (c : DieCare) : CareKept c c := ⟨rfl, rfl, rfl, rfl, rfl⟩

theorem CareKept.trans {c e f : DieCare} (h : CareKept c e) (k : CareKept e f) : CareKept c f :=
  ⟨k.1.trans h.1, k.2.1.trans h.2.1, k.2.2.1.trans h.2.2.1, k.2.2.2.1.trans h.2.2.2.1, k.2.2.2.2.trans h.2.2.2.2⟩

theorem readsKept_refl (l : List ReadRecord) : List.Forall₂ ReadKept l l := by
  induction l with
  | nil => exact .nil
  | cons r l ih => exact .cons (.refl r) ih

theorem readsKept_trans {l m n : List ReadRecord} (h : List.Forall₂ ReadKept l m) (k : List.Forall₂ ReadKept m n) :
    List.Forall₂ ReadKept l n := by
  induction h generalizing n with
  | nil => exact k
  | cons hr _ ih =>
    cases k with
    | cons kr kt => exact .cons (hr.trans kr) (ih kt)

theorem Internal.refl (s : State) : Internal s s :=
  { pending := rfl, link := rfl, nextWsn := rfl, entries := fun _ => .refl _, idleTimer := rfl, idleFlag := rfl
    reads := readsKept_refl _, nextClaim := rfl, flushes := rfl, ports := fun _ => .refl _ _, care := fun _ => .refl _
    pollTimer := rfl, chan := rfl, errs := rfl }

theorem Internal.trans {s t u : State} (h : Internal s t) (k : Internal t u) : Internal s u :=
  { pending := k.pending.trans h.pending
    link := k.link.trans h.link
    nextWsn := k.nextWsn.trans h.nextWsn
    entries := fun i => (h.entries i).trans (k.entries i)
    idleTimer := k.idleTimer.trans h.idleTimer
    idleFlag := k.idleFlag.trans h.idleFlag
    reads := readsKept_trans h.reads k.reads
    nextClaim := k.nextClaim.trans h.nextClaim
    flushes := k.flushes.trans h.flushes
    ports := fun d => (h.ports d).trans (by have := k.ports d; rwa [h.chan] at this)
    care := fun d => (h.care d).trans (k.care d)
    pollTimer := k.pollTimer.trans h.pollTimer
    chan := k.chan.trans h.chan
    errs := k.errs.trans h.errs }

theorem Internal.present {s t : State} (h : Internal s t) (d : DieId) : t.present d = s.present d := by
  simp [State.present, h.chan]

/-! ### Single updates -/

theorem Internal.setPort (s : State) (d : DieId) (p : Port)
    (h : PortKept (s.chan.settings.dieOpLimit * 1000) (s.port d) p) : Internal s (s.setPort d p) :=
  { Internal.refl s with
    ports := fun c => by
      rw [State.setPort_port]
      split
      · next e => subst e; exact h
      · exact .refl _ _ }

theorem Internal.setCare (s : State) (d : DieId) (c : DieCare) (h : CareKept (s.care d) c) :
    Internal s (s.setCare d c) :=
  { Internal.refl s with
    care := fun e => by
      rw [State.setCare_care]
      split
      · next k => subst k; exact h
      · exact .refl _ }

theorem Internal.setEntry (s : State) (i : Fin 32) (e : Entry) (h : EntryKept (s.entry i) e) :
    Internal s (s.setEntry i e) :=
  { Internal.refl s with
    entries := fun j => by
      rw [State.setEntry_entry]
      split
      · next k => subst k; exact h
      · exact .refl _ }

theorem Internal.setDrain (s : State) (x : Drain) (h : x.idleTimer = s.drain.idleTimer)
    (k : x.idleFlag = s.drain.idleFlag) : Internal s (s.setDrain x) :=
  { Internal.refl s with idleTimer := h, idleFlag := k }

theorem Internal.setReads (s : State) (l : List ReadRecord) (h : List.Forall₂ ReadKept s.reads.list l) :
    Internal s (s.setReads { s.reads with list := l }) :=
  { Internal.refl s with reads := h }

/-- A port whose claims alone change is kept. -/
theorem PortKept.claims (n : Nat) (p : Port) (cc : Option ChannelOp) (rf rc tp : Bool) (rd : List Nat)
    (dc : Option DrainClaim) :
    PortKept n p
      { p with
        channelClaim := cc, refreshClaim := rf, recalClaim := rc, tempClaim := tp, readClaims := rd, drainClaim := dc } :=
  ⟨rfl, rfl, rfl, .inl ⟨rfl, rfl, rfl, rfl⟩⟩

/-! ### Repeated steps -/

theorem Internal.forDies (f : DieId → State → State) (h : ∀ d t, Internal t (f d t)) (s : State) :
    Internal s (forDies f s) :=
  (((h 0 s).trans (h 1 _)).trans (h 2 _)).trans (h 3 _)

theorem Internal.forPresent (s : State) (f : DieId → State → State) (h : ∀ d t, Internal t (f d t)) :
    Internal s (s.forPresent f) :=
  Internal.forDies _ (fun d t => by split <;> [exact h d t; exact .refl t]) s

/-! ### The operations -/

theorem setDrainClaim_internal (s : State) (d : DieId) (c : Option DrainClaim) : Internal s (s.setDrainClaim d c) :=
  Internal.setPort s d _ (PortKept.claims _ _ _ _ _ _ _ _)

theorem setChannelClaim_internal (s : State) (d : DieId) (c : Option ChannelOp) :
    Internal s (s.setChannelClaim d c) :=
  Internal.setPort s d _ (PortKept.claims _ _ _ _ _ _ _ _)

theorem keepCareClaims_internal (s : State) (d : DieId) : Internal s (s.keepCareClaims d) :=
  Internal.setPort s d _ (PortKept.claims _ _ _ _ _ _ _ _)

theorem withdrawSelection_internal (s : State) (d : DieId) : Internal s (s.withdrawSelection d) := by
  unfold State.withdrawSelection
  split
  · split
    · exact .refl s
    · exact setDrainClaim_internal s d none
  · exact .refl s

theorem select_internal (s : State) (d : DieId) : Internal s (s.select d) := by
  unfold State.select
  split
  · exact withdrawSelection_internal s d
  · split <;> exact setDrainClaim_internal s d _

theorem testHysteresis_internal (s : State) : Internal s s.testHysteresis := Internal.setDrain s _ rfl rfl

theorem takeLevel_internal (s : State) : Internal s s.takeLevel := by
  unfold State.takeLevel
  dsimp only
  split
  · exact .refl s
  · refine (Internal.setDrain s { s.drain with pressure := s.level } rfl rfl).trans
      (Internal.forPresent _ _ fun d t => ?_)
    split
    · exact withdrawSelection_internal t d
    · split
      · exact select_internal t d
      · exact .refl t

theorem retest_internal (s : State) (d : DieId) : Internal s (s.retest d) := by
  unfold State.retest
  dsimp only
  split
  · exact .refl s
  · split <;> exact Internal.setCare s d _ ⟨rfl, rfl, rfl, rfl, rfl⟩

theorem keepChannelClaim_internal (s : State) (d : DieId) : Internal s (s.keepChannelClaim d) := by
  unfold State.keepChannelClaim
  dsimp only
  split
  · split <;> [exact setChannelClaim_internal s d _; exact .refl s]
  · split
    · exact setChannelClaim_internal s d _
    · split <;> [exact setChannelClaim_internal s d _; exact .refl s]
  · split <;> [exact setChannelClaim_internal s d _; exact .refl s]
  all_goals exact .refl s

/-- The port states from which a grant is made (R74, R78, R88). -/
def Port.grantable (p : Port) : Prop :=
  p.slot = none ∧ (p.state = .off ∨ p.state = .idle ∨ p.state = .parked ∨ (p.state = .init ∧ p.settle = none))

theorem decision_grantable {s : State} {d : DieId} {pick : Pick} (h : s.decision d = some pick) :
    (s.port d).grantable := by
  unfold State.decision at h
  dsimp only at h
  split at h
  · cases h
  · next hs =>
    refine ⟨by simpa using hs, ?_⟩
    split at h
    · next e => exact .inl e
    · next e =>
      split at h
      · cases h
      · next hset => exact .inr (.inr (.inr ⟨e, by simpa using hset⟩))
    · next e => exact .inr (.inr (.inl e))
    · next e => exact .inr (.inl e)
    all_goals cases h

/-- A drain claim that passes the test of R28 names an OPEN FIRST entry, or continues a drain. -/
theorem drainClaimant_test {s : State} {d : DieId} {c : DrainClaim} (h : s.drainClaimant d = some c) :
    c.continuation = true ∨ s.eligible c.entry = true := by
  unfold State.drainClaimant at h
  have := (Option.filter_eq_some_iff.mp h).2
  simpa using this

theorem eligible_open {s : State} {i : Fin 32} (h : s.eligible i = true) :
    (s.entry i).state = .opened ∧ (s.entry i).gen = .first := by
  unfold State.eligible at h
  simp only [Bool.and_eq_true, beq_iff_eq] at h
  exact h.1

theorem placeThree_drain {s : State} {d : DieId} {c : DrainClaim} {b : Bool}
    (h : s.placeThree d = some (.drain c b)) : s.drainClaimant d = some c := by
  unfold State.placeThree at h
  dsimp only at h
  split at h <;>
    · simp only [Option.orElse_eq_orElse, Option.orElse_eq_or, Option.or_eq_some_iff, Option.map_eq_some_iff,
        Pick.drain.injEq, reduceCtorEq, and_false, exists_false, false_or, or_false] at h
      aesop

theorem firstInOrder_drain {s : State} {d : DieId} {c : DrainClaim} {b : Bool}
    (h : s.firstInOrder d = some (.drain c b)) : s.drainClaimant d = some c := by
  unfold State.firstInOrder at h
  dsimp only at h
  simp only [Option.orElse_eq_orElse, Option.orElse_eq_or, Option.or_eq_some_iff, Option.map_eq_some_iff,
    Option.bind_eq_some_iff, Option.ite_none_right_eq_some, Option.some.injEq, reduceCtorEq, and_false, exists_false,
    false_or, or_false, Pick.drain.injEq] at h
  obtain ⟨-, -, -, h⟩ := h
  rcases h with h | ⟨-, -, -, -, a, ⟨-, ha⟩, rfl, -⟩
  · exact placeThree_drain h
  · exact ha

theorem decision_drain {s : State} {d : DieId} {c : DrainClaim} {b : Bool}
    (h : s.decision d = some (.drain c b)) : s.drainClaimant d = some c := by
  unfold State.decision at h
  dsimp only at h
  split at h
  · cases h
  · split at h
    · split at h <;> cases h
    · split at h
      · cases h
      · rw [Option.bind_eq_some_iff] at h
        obtain ⟨op, -, h⟩ := h
        split at h <;> cases h
    · split at h <;> cases h
    · exact firstInOrder_drain h
    all_goals cases h

/-- A filled slot at a port from which a grant is made is a kept port. -/
theorem PortKept.filled {n : Nat} {p q : Port} (hp : p.grantable) (hs : q.settle = p.settle)
    (hv : q.settling = p.settling) (hc : q.clock = p.clock) (slot : Slot) :
    PortKept n p { q with slot := some slot, opLimit := some n, state := p.state.granted } :=
  ⟨hs, hv, hc, .inr ⟨hp.1, rfl, rfl, rfl, hp.2⟩⟩

/-- A read record marked AT_DIE by its claim is kept. -/
theorem readsKept_atDie (l : List ReadRecord) (n : Nat) :
    List.Forall₂ ReadKept l (l.map fun x => if x.claim = n then { x with state := .atDie } else x) := by
  induction l with
  | nil => exact .nil
  | cons r l ih =>
    refine .cons ?_ ih
    dsimp only
    split
    · exact .inr rfl
    · exact .inl rfl

theorem fillSlot_internal {s : State} {d : DieId} (h : (s.port d).grantable) (slot : Slot) (p : Port)
    (hst : p.state = (s.port d).state) (hs : p.settle = (s.port d).settle) (hv : p.settling = (s.port d).settling)
    (hc : p.clock = (s.port d).clock) : Internal s (s.fillSlot d slot p) := by
  unfold State.fillSlot
  rw [hst]
  exact Internal.setPort s d _ (PortKept.filled h hs hv hc slot)

/-- A grant of the decision's claim leaves an Internal state (R75). -/
theorem grant_internal {s : State} {d : DieId} {pick : Pick} (h : s.decision d = some pick) :
    Internal s (s.grant d pick) := by
  have hg := decision_grantable h
  cases pick with
  | channel op => exact fillSlot_internal hg _ _ rfl rfl rfl rfl
  | refresh => exact fillSlot_internal hg _ _ rfl rfl rfl rfl
  | recal => exact fillSlot_internal hg _ _ rfl rfl rfl rfl
  | temp => exact fillSlot_internal hg _ _ rfl rfl rfl rfl
  | read r =>
    unfold State.grant
    dsimp only
    refine Internal.trans ?_ (Internal.setReads _ _ ?_)
    · exact fillSlot_internal hg _ _ rfl rfl rfl rfl
    · exact readsKept_atDie _ _
  | drain c place3 =>
    unfold State.grant
    dsimp only
    refine Internal.trans ?_ (Internal.setEntry _ _ _ ?_)
    · exact fillSlot_internal hg _ _ rfl rfl rfl rfl
    have ht := drainClaimant_test (decision_drain h)
    show EntryKept (s.entry c.entry) _
    split
    · exact .refl _
    · next hc =>
      rcases ht with ht | ht
      · exact absurd ht hc
      · obtain ⟨h1, h2⟩ := eligible_open ht
        exact .inr ⟨h1, h2, _, rfl⟩

theorem arbitrate_internal (s : State) (d : DieId) : Internal s (s.arbitrate d) := by
  unfold State.arbitrate
  split
  · split
    · exact .refl s
    · next h =>
      exact (((grant_internal h).trans (retest_internal _ d)).trans (keepCareClaims_internal _ d)).trans
        (select_internal _ d)
  · exact .refl s

theorem prepare_internal (s : State) (d : DieId) : Internal s (s.prepare d) := by
  unfold State.prepare
  split
  · exact (((retest_internal s d).trans (keepCareClaims_internal _ d)).trans (keepChannelClaim_internal _ d)).trans
      (select_internal _ d)
  · exact .refl s

theorem relevel_internal (s : State) : Internal s s.relevel := by
  unfold State.relevel
  dsimp only
  split
  · exact (takeLevel_internal s).trans (Internal.forDies _ (fun d t => arbitrate_internal t d) _)
  · exact takeLevel_internal s

/-- Closing an event leaves a state Internal to the event's own effect. -/
theorem finish_internal (s before : State) (touched : DieId → Bool) : Internal s (s.finish before touched) := by
  unfold State.finish
  dsimp only
  refine (((testHysteresis_internal s).trans (takeLevel_internal _)).trans
    (Internal.forDies _ (fun d t => ?_) _)).trans (Internal.forDies _ (fun d t => ?_) _)
  · split <;> [exact prepare_internal t d; exact .refl t]
  · split <;> [exact arbitrate_internal t d; exact .refl t]

theorem finishAt_internal (s before : State) (d : DieId) : Internal s (s.finishAt before d) :=
  finish_internal s before _

end Sys2Proof.Machine
end

