-- ==== Sys2Proof/Laws/Level.lean ====
section
/-! SUPPORT. The pressure level when an event closes, and what a request arrival makes of a state whose level is kept. -/

namespace Sys2Proof.Machine

/-! ### What the claims and grants leave of the scheduler's own state -/

/-- The part of a state that the level is read from, and the level held. -/
structure SameLevel (s t : State) : Prop where
  drain : t.drain = s.drain
  flushes : t.flushes = s.flushes
  settings : t.chan = s.chan

theorem SameLevel.refl (s : State) : SameLevel s s := ⟨rfl, rfl, rfl⟩

theorem SameLevel.trans {s t u : State} (h : SameLevel s t) (k : SameLevel t u) : SameLevel s u :=
  ⟨k.1.trans h.1, k.2.trans h.2, k.3.trans h.3⟩

theorem SameLevel.forDies (f : DieId → State → State) (h : ∀ d t, SameLevel t (f d t)) (s : State) :
    SameLevel s (forDies f s) :=
  (((h 0 s).trans (h 1 _)).trans (h 2 _)).trans (h 3 _)

theorem SameLevel.forPresent (s : State) (f : DieId → State → State) (h : ∀ d t, SameLevel t (f d t)) :
    SameLevel s (s.forPresent f) :=
  SameLevel.forDies _ (fun d t => by split <;> [exact h d t; exact .refl t]) s

theorem setDrainClaim_sameLevel (s : State) (d : DieId) (c : Option DrainClaim) : SameLevel s (s.setDrainClaim d c) :=
  ⟨rfl, rfl, rfl⟩

theorem setChannelClaim_sameLevel (s : State) (d : DieId) (c : Option ChannelOp) :
    SameLevel s (s.setChannelClaim d c) := ⟨rfl, rfl, rfl⟩

theorem keepCareClaims_sameLevel (s : State) (d : DieId) : SameLevel s (s.keepCareClaims d) := ⟨rfl, rfl, rfl⟩

theorem withdrawSelection_sameLevel (s : State) (d : DieId) : SameLevel s (s.withdrawSelection d) := by
  unfold State.withdrawSelection
  split
  · split <;> [exact .refl s; exact setDrainClaim_sameLevel s d none]
  · exact .refl s

theorem select_sameLevel (s : State) (d : DieId) : SameLevel s (s.select d) := by
  unfold State.select
  split
  · exact withdrawSelection_sameLevel s d
  · split <;> exact setDrainClaim_sameLevel s d _

theorem retest_sameLevel (s : State) (d : DieId) : SameLevel s (s.retest d) := by
  unfold State.retest
  dsimp only
  split
  · exact .refl s
  · split <;> exact ⟨rfl, rfl, rfl⟩

theorem keepChannelClaim_sameLevel (s : State) (d : DieId) : SameLevel s (s.keepChannelClaim d) := by
  unfold State.keepChannelClaim
  dsimp only
  split
  · split <;> [exact setChannelClaim_sameLevel s d _; exact .refl s]
  · split
    · exact setChannelClaim_sameLevel s d _
    · split <;> [exact setChannelClaim_sameLevel s d _; exact .refl s]
  · split <;> [exact setChannelClaim_sameLevel s d _; exact .refl s]
  all_goals exact .refl s

theorem grant_sameLevel (s : State) (d : DieId) (pick : Pick) : SameLevel s (s.grant d pick) := by
  cases pick <;> exact ⟨rfl, rfl, rfl⟩

theorem arbitrate_sameLevel (s : State) (d : DieId) : SameLevel s (s.arbitrate d) := by
  unfold State.arbitrate
  split
  · split
    · exact .refl s
    · exact (((grant_sameLevel s d _).trans (retest_sameLevel _ d)).trans (keepCareClaims_sameLevel _ d)).trans
        (select_sameLevel _ d)
  · exact .refl s

theorem prepare_sameLevel (s : State) (d : DieId) : SameLevel s (s.prepare d) := by
  unfold State.prepare
  split
  · exact (((retest_sameLevel s d).trans (keepCareClaims_sameLevel _ d)).trans (keepChannelClaim_sameLevel _ d)).trans
      (select_sameLevel _ d)
  · exact .refl s

/-! ### The level -/

theorem EntryKept.live {e f : Entry} (h : EntryKept e f) : f.live = e.live := by
  rcases h with rfl | ⟨h1, -, st, rfl⟩
  · rfl
  · simp [Entry.live, h1]; decide

/-- Occupancy is not changed by claims and grants (R3). -/
theorem Internal.occupancy {s t : State} (h : Internal s t) : occupancy t.table = occupancy s.table := by
  have hl : t.table.entries.toList.map Entry.live = s.table.entries.toList.map Entry.live := by
    apply List.ext_getElem
    · simp
    · intro i h1 h2
      simp only [List.length_map, Vector.length_toList] at h1
      have := (h.entries ⟨i, h1⟩).live
      simpa [State.entry] using this
  have e (l : List Entry) : l.countP Entry.live = (l.map Entry.live).countP id := by
    rw [List.countP_map]; rfl
  unfold Machine.occupancy
  rw [e, e, hl]

theorem level_eq {s t : State} (h : SameLevel s t) (k : Internal s t) : t.level = s.level := by
  unfold State.level
  rw [h.drain, h.flushes, k.occupancy]

theorem LevelKept.keep {s t : State} (hl : LevelKept s) (h : SameLevel s t) (k : Internal s t) : LevelKept t := by
  unfold LevelKept
  rw [level_eq h k, h.drain]
  exact hl

theorem takeLevel_level (s : State) : LevelKept s.takeLevel := by
  unfold State.takeLevel
  dsimp only
  split
  · next h => exact h.symm
  · refine LevelKept.keep (s := s.setDrain { s.drain with pressure := s.level }) rfl
      (SameLevel.forPresent _ _ fun d t => ?_) (Internal.forPresent _ _ fun d t => ?_)
    · split
      · exact withdrawSelection_sameLevel t d
      · split <;> [exact select_sameLevel t d; exact .refl t]
    · split
      · exact withdrawSelection_internal t d
      · split <;> [exact select_internal t d; exact .refl t]

theorem relevel_level (s : State) : LevelKept s.relevel := by
  unfold State.relevel
  dsimp only
  split
  · exact (takeLevel_level s).keep (SameLevel.forDies _ (fun d t => arbitrate_sameLevel t d) _)
      (Internal.forDies _ (fun d t => arbitrate_internal t d) _)
  · exact takeLevel_level s

/-- A closed event leaves the level that the state gives (R22). -/
theorem finish_level (s before : State) (touched : DieId → Bool) : LevelKept (s.finish before touched) := by
  unfold State.finish
  dsimp only
  refine ((takeLevel_level _).keep (SameLevel.forDies _ (fun d t => ?_) _) (Internal.forDies _ (fun d t => ?_) _)).keep
    (SameLevel.forDies _ (fun d t => ?_) _) (Internal.forDies _ (fun d t => ?_) _)
  · split <;> [exact prepare_sameLevel t d; exact .refl t]
  · split <;> [exact prepare_internal t d; exact .refl t]
  · split <;> [exact arbitrate_sameLevel t d; exact .refl t]
  · split <;> [exact arbitrate_internal t d; exact .refl t]

theorem finishAt_level (s before : State) (d : DieId) : LevelKept (s.finishAt before d) := finish_level s before _

/-- The hysteresis flag of a closed event is the one tested on its occupancy (R23). -/
theorem finish_hysteresis (s before : State) (touched : DieId → Bool) :
    (s.finish before touched).drain.hysteresis =
      hysteresisAfter s.chan.settings (occupancy s.table) s.drain.hysteresis := by
  have key (x : State) : x.takeLevel.drain.hysteresis = x.drain.hysteresis := by
    unfold State.takeLevel
    dsimp only
    split
    · rfl
    · refine (congrArg Drain.hysteresis (SameLevel.forPresent _ _ fun d t => ?_).drain).trans rfl
      split
      · exact withdrawSelection_sameLevel t d
      · split <;> [exact select_sameLevel t d; exact .refl t]
  unfold State.finish
  dsimp only
  refine (congrArg Drain.hysteresis ((SameLevel.forDies _ (fun d t => ?_) _).trans
    (SameLevel.forDies _ (fun d t => ?_) _)).drain).trans (key s.testHysteresis)
  · split <;> [exact prepare_sameLevel t d; exact .refl t]
  · split <;> [exact arbitrate_sameLevel t d; exact .refl t]

/-! ### A request arrival -/

theorem arrive_internal (s : State) : Internal s.arrived s.arrive := relevel_internal _

theorem arrive_level (s : State) : LevelKept s.arrive := relevel_level _

/-- Two states whose ports differ at most in withdrawn selection claims. -/
def Withdrawn (p q : Port) : Prop :=
  q = p ∨ ((∃ c, p.drainClaim = some c ∧ c.continuation = false) ∧ q = { p with drainClaim := none })

theorem Withdrawn.trans {p q r : Port} (h : Withdrawn p q) (k : Withdrawn q r) : Withdrawn p r := by
  rcases h with rfl | ⟨h1, rfl⟩
  · exact k
  · rcases k with rfl | ⟨⟨c, hc, -⟩, -⟩
    · exact .inr ⟨h1, rfl⟩
    · cases hc

/-- A state but for withdrawn selection claims. -/
def Same (s t : State) : Prop :=
  (∃ v, t = { s with ports := v }) ∧ ∀ d, Withdrawn (s.port d) (t.port d)

theorem Same.refl (s : State) : Same s s := ⟨⟨s.ports, rfl⟩, fun _ => .inl rfl⟩

theorem Same.trans {s t u : State} (h : Same s t) (k : Same t u) : Same s u := by
  obtain ⟨⟨v, rfl⟩, h2⟩ := h
  obtain ⟨⟨w, rfl⟩, k2⟩ := k
  exact ⟨⟨w, rfl⟩, fun d => (h2 d).trans (k2 d)⟩

theorem withdrawSelection_same (s : State) (d : DieId) : Same s (s.withdrawSelection d) := by
  unfold State.withdrawSelection
  split
  · next c hc =>
    split
    · exact .refl s
    · next hn =>
      refine ⟨⟨_, rfl⟩, fun e => ?_⟩
      simp only [State.setDrainClaim, State.setPort_port]
      split
      · next he => subst he; exact .inr ⟨⟨c, hc, by simpa using hn⟩, rfl⟩
      · exact .inl rfl
  · exact .refl s

theorem Same.forPresent (s : State) (f : DieId → State → State) (h : ∀ d t, Same t (f d t)) : Same s (s.forPresent f) := by
  have g (d : DieId) (t : State) : Same t (if t.present d then f d t else t) := by
    split <;> [exact h d t; exact .refl t]
  exact (((g 0 s).trans (g 1 _)).trans (g 2 _)).trans (g 3 _)

/-- Clearing the idle flag changes the level at most from IDLE to NONE (R22). -/
theorem levelOf_silence (occ flushes : Nat) (hysteresis idle : Bool) :
    levelOf occ flushes hysteresis false = levelOf occ flushes hysteresis idle ∨
      (levelOf occ flushes hysteresis false = .none ∧ levelOf occ flushes hysteresis idle = .idle) := by
  unfold levelOf
  split
  · exact .inl rfl
  · cases hysteresis
    · by_cases h : idle = true ∧ 0 < occ
      · right; simp [h]
      · left; simp [h]
    · exact .inl rfl

/-- A request arrival at a state whose level is kept (R22, R24, R25, R119). -/
theorem arrive_arrival {s : State} (h : LevelKept s) : Arrival s s.arrive := by
  have hs : s.arrived.level = levelOf (occupancy s.table) s.flushes.length s.drain.hysteresis false := rfl
  have ho : s.arrived.drain.pressure =
      levelOf (occupancy s.table) s.flushes.length s.drain.hysteresis s.drain.idleFlag := h
  show Arrival s s.arrived.relevel
  unfold State.relevel State.takeLevel
  dsimp only
  rcases levelOf_silence (occupancy s.table) s.flushes.length s.drain.hysteresis s.drain.idleFlag with e | ⟨e1, e2⟩
  · have e' : s.arrived.level = s.arrived.drain.pressure := by rw [hs, ho, e]
    rw [e']
    have hst : levelStirs s.arrived.drain.pressure s.arrived.drain.pressure = false := by simp [levelStirs]
    rw [hst]
    simp only [if_true, Bool.false_eq_true, if_false]
    refine ⟨rfl, rfl, rfl, rfl, rfl, rfl, rfl, rfl, ?_, fun d => .inl rfl⟩
    rw [← hs, e']
    rfl
  · rw [hs, ho, e1, e2]
    have hst : levelStirs .idle .none = false := rfl
    rw [hst]
    simp only [reduceCtorEq, if_false, if_true, Bool.false_eq_true]
    obtain ⟨⟨v, hv⟩, hw⟩ := Same.forPresent (s.arrived.setDrain { s.arrived.drain with pressure := .none })
      (fun d t => t.withdrawSelection d) fun d t => withdrawSelection_same t d
    rw [hv] at hw ⊢
    exact ⟨rfl, rfl, rfl, rfl, rfl, rfl, rfl, rfl, by rw [e1]; rfl, hw⟩

/-- A level and withdrawn selection claims are within what closing an event may change. -/
theorem internal_withdrawn (u : State) (P : Pressure) (V : Vector Port 4) (h : ∀ d : DieId, Withdrawn (u.port d) V[d]) :
    Internal u { u with drain := { u.drain with pressure := P }, ports := V } :=
  { Internal.refl u with
    ports := fun d => by
      show PortKept _ (u.port d) V[d]
      rcases h d with e | ⟨-, e⟩
      · rw [e]; exact .refl _ _
      · rw [e]; exact ⟨rfl, rfl, rfl, .inl ⟨rfl, rfl, rfl, rfl⟩⟩ }

/-- The arrived state as one record update: a level, and ports but for withdrawn selection claims. -/
theorem arrive_form {s : State} (h : LevelKept s) :
    ∃ P V, s.arrive = { s.arrived with drain := { s.arrived.drain with pressure := P }, ports := V } ∧
      ∀ d : DieId, Withdrawn (s.port d) V[d] := by
  obtain ⟨h1, h2, h3, h4, h5, h6, h7, h8, h9, h10⟩ := arrive_arrival h
  refine ⟨s.arrive.drain.pressure, s.arrive.ports, ?_, h10⟩
  generalize s.arrive = t at *
  obtain ⟨tp, tl, tt, td, tr, tf, tpo, tm, tc, te⟩ := t
  simp only at h1 h2 h3 h4 h5 h6 h7 h8 h9 ⊢
  subst h1 h2 h3 h4 h5 h6 h7 h8 h9
  rfl

/-! ### The Intake -/

theorem refusal_congr {s t : State} (r : Request) (hl : t.link = s.link) (he : t.errs = s.errs)
    (hp : t.chan.partState = s.chan.partState) (hc : t.chan.settings = s.chan.settings) :
    t.refusal r = s.refusal r := by
  have h1 : t.halted = s.halted := by simp only [State.halted, he, hc]
  have h2 : t.stateRefusal = s.stateRefusal := by simp only [State.stateRefusal, hp]
  have h3 : t.outOfRange r.line = s.outOfRange r.line := by
    have h4 : t.capacity = s.capacity := by simp only [State.capacity, hc]
    unfold State.outOfRange
    split <;> simp [h4]
  simp only [State.refusal, h1, h2, h3, hl]

/-- The checks 2 to 7 give the same before and after the arrival (R151). -/
theorem refusal_arrive (s : State) (r : Request) : s.arrive.refusal r = s.refusal r := by
  have h := arrive_internal s
  exact refusal_congr r h.link h.errs (by rw [h.chan]; rfl) (by rw [h.chan]; rfl)

/-- An accepted message is handed to its block after its arrival (R151 step 8). -/
theorem accepted_deliver {s : State} {r : Request} (c : Instr) (serve : State → State) (h : Accepted s r) :
    s.deliver c (fun t => t.intake r serve) = serve s.arrive := by
  obtain ⟨h1, h2, h3, h4⟩ := h
  simp only [State.deliver, h1, h2, and_self, if_true, State.intake, h3, refusal_arrive, h4]

/-! ### The same update on both sides -/

theorem Internal.setLink_congr {s t : State} (h : Internal s t) (l : Link) : Internal (s.setLink l) (t.setLink l) :=
  ⟨h.pending, rfl, h.nextWsn, h.entries, h.idleTimer, h.idleFlag, h.reads, h.nextClaim, h.flushes, h.ports, h.care,
    h.pollTimer, h.chan, h.errs⟩

theorem Internal.setErrs_congr {s t : State} (h : Internal s t) (e : Errors) : Internal (s.setErrs e) (t.setErrs e) :=
  ⟨h.pending, h.link, h.nextWsn, h.entries, h.idleTimer, h.idleFlag, h.reads, h.nextClaim, h.flushes, h.ports, h.care,
    h.pollTimer, h.chan, rfl⟩

theorem Internal.setFlushes_congr {s t : State} (h : Internal s t) (l : List FlushRecord) :
    Internal (s.setFlushes l) (t.setFlushes l) :=
  ⟨h.pending, h.link, h.nextWsn, h.entries, h.idleTimer, h.idleFlag, h.reads, h.nextClaim, rfl, h.ports, h.care,
    h.pollTimer, h.chan, h.errs⟩

theorem Internal.setTable_congr {s t : State} (h : Internal s t) (x : Table) : Internal (s.setTable x) (t.setTable x) :=
  ⟨h.pending, h.link, rfl, fun _ => .refl _, h.idleTimer, h.idleFlag, h.reads, h.nextClaim, h.flushes, h.ports, h.care,
    h.pollTimer, h.chan, h.errs⟩

theorem Internal.setReads_congr {s t : State} (h : Internal s t) (x : Reads) : Internal (s.setReads x) (t.setReads x) :=
  ⟨h.pending, h.link, h.nextWsn, h.entries, h.idleTimer, h.idleFlag, readsKept_refl _, rfl, h.flushes, h.ports, h.care,
    h.pollTimer, h.chan, h.errs⟩

/-- A change of Channel Control's state that leaves DIE_OP_LIMIT. -/
theorem Internal.setChan_congr {s t : State} (h : Internal s t) (c : Channel)
    (hc : c.settings.dieOpLimit = s.chan.settings.dieOpLimit) : Internal (s.setChan c) (t.setChan c) :=
  ⟨h.pending, h.link, h.nextWsn, h.entries, h.idleTimer, h.idleFlag, h.reads, h.nextClaim, h.flushes,
    fun d => by
      show PortKept (c.settings.dieOpLimit * 1000) _ _
      rw [hc]
      exact h.ports d,
    h.care, h.pollTimer, rfl, h.errs⟩

/-- Where no claim was granted, Internal holds whatever follows: the arrival of a message at a state whose level is
kept leaves every field but the pressure level and selection claims. -/
theorem Arrival.internal {s t : State} (h : Arrival s t) : Internal s.arrived t := by
  obtain ⟨h1, h2, h3, h4, h5, h6, h7, h8, h9, h10⟩ := h
  refine ⟨h1, h2, by rw [h3]; rfl, fun i => .inl ?_, by rw [h9]; rfl, by rw [h9]; rfl, ?_, by rw [h4]; rfl, h5,
    fun d => ?_, fun d => ?_, by rw [h6]; rfl, h8, h7⟩
  · simp only [State.entry, h3]; rfl
  · rw [h4]; exact readsKept_refl _
  · rcases h10 d with e | ⟨-, e⟩
    · rw [e]; exact .refl _ _
    · rw [e]; exact ⟨rfl, rfl, rfl, .inl ⟨rfl, rfl, rfl, rfl⟩⟩
  · have : t.care d = s.care d := by simp only [State.care, h6]
    rw [this]; exact .refl _

end Sys2Proof.Machine
end

