-- ==== Sys2Proof/Laws/Offers.lean ====
section
/-! SUPPORT. A Channel Control claim that the part state permits is granted as its event closes (R74, R78, R88, R89). -/

namespace Sys2Proof.Machine

/-- The claim that Channel Control keeps at a port leaves this claim as it is (R122, R125, R132). -/
def ClaimStays (s : State) (d : DieId) (op : ChannelOp) : Prop :=
  match s.chan.partState with
  | .waking => (s.port d).state = .parked → op = .parkExit
  | .stopped =>
    ((s.port d).state = .parked → op = .parkExit) ∧
      ((s.port d).state = .idle ∧ s.chan.recalOwed[d] = true → op = .longRecal)
  | .switching =>
    s.chan.phase = some .quiesce → op = .parkEnter ∧ (s.port d).state ≠ .parked ∧ 0 ≤ (s.care d).balance
  | .config | .bringup | .running | .parking | .parked => True

/-- Die d has a Channel Control claim that its arbiter grants: its slot is empty, and the port state and the part state
permit the claim. -/
structure Offers (s : State) (d : DieId) (op : ChannelOp) : Prop where
  present : s.present d = true
  claim : (s.port d).channelClaim = some op
  slot : (s.port d).slot = none
  permits : s.permits (.channel op) = true
  stays : ClaimStays s d op
  state : ((s.port d).state = .off ∧ op = .dieReset) ∨ ((s.port d).state = .init ∧ (s.port d).settle = none) ∨
    ((s.port d).state = .parked ∧ op = .parkExit) ∨ (s.port d).state = .idle

/-- Two states that agree in what an offer reads. -/
theorem Offers.congr {s t : State} {d : DieId} {op : ChannelOp} (h : Offers s d op) (hc : t.chan = s.chan)
    (h1 : (t.port d).channelClaim = (s.port d).channelClaim) (h2 : (t.port d).slot = (s.port d).slot)
    (h3 : (t.port d).state = (s.port d).state) (h4 : (t.port d).settle = (s.port d).settle)
    (h5 : (t.care d).balance = (s.care d).balance) : Offers t d op := by
  refine ⟨?_, by rw [h1]; exact h.claim, by rw [h2]; exact h.slot, ?_, ?_, by rw [h3, h4]; exact h.state⟩
  · have := h.present; simp only [State.present, hc] at this ⊢; exact this
  · have := h.permits; unfold State.permits at this ⊢; rw [hc]; exact this
  · have := h.stays; simp only [ClaimStays, hc, h3, h5] at this ⊢; exact this

theorem Offers.decision {s : State} {d : DieId} {op : ChannelOp} (h : Offers s d op) :
    s.decision d = some (.channel op) := by
  have hp := h.permits
  unfold State.decision
  simp only [h.slot, Option.isSome_none, Bool.false_eq_true, if_false]
  rcases h.state with ⟨hs, rfl⟩ | ⟨hs, hn⟩ | ⟨hs, rfl⟩ | hs
  · simp [hs, h.claim, hp]
  · simp [hs, hn, h.claim, hp]
  · simp [hs, h.claim, hp]
  · simp [hs, State.firstInOrder, h.claim, hp]

/-- An update of another port, or of the claims of this one but Channel Control's, keeps an offer. -/
theorem Offers.setPort {s : State} {d : DieId} {op : ChannelOp} (h : Offers s d op) (e : DieId) (p : Port)
    (hp : e = d → p.channelClaim = (s.port e).channelClaim ∧ p.slot = (s.port e).slot ∧
      p.state = (s.port e).state ∧ p.settle = (s.port e).settle) : Offers (s.setPort e p) d op := by
  refine h.congr rfl ?_ ?_ ?_ ?_ rfl <;> rw [State.setPort_port] <;> split
  · next x => rw [(hp x).1, x]
  · rfl
  · next x => rw [(hp x).2.1, x]
  · rfl
  · next x => rw [(hp x).2.2.1, x]
  · rfl
  · next x => rw [(hp x).2.2.2, x]
  · rfl

theorem Offers.setDrainClaim {s : State} {d : DieId} {op : ChannelOp} (h : Offers s d op) (e : DieId)
    (c : Option DrainClaim) : Offers (s.setDrainClaim e c) d op :=
  h.setPort e _ fun _ => ⟨rfl, rfl, rfl, rfl⟩

theorem Offers.keepCareClaims {s : State} {d : DieId} {op : ChannelOp} (h : Offers s d op) (e : DieId) :
    Offers (s.keepCareClaims e) d op :=
  h.setPort e _ fun _ => ⟨rfl, rfl, rfl, rfl⟩

theorem Offers.withdrawSelection {s : State} {d : DieId} {op : ChannelOp} (h : Offers s d op) (e : DieId) :
    Offers (s.withdrawSelection e) d op := by
  unfold State.withdrawSelection
  split
  · split <;> [exact h; exact h.setDrainClaim e none]
  · exact h

theorem Offers.select {s : State} {d : DieId} {op : ChannelOp} (h : Offers s d op) (e : DieId) :
    Offers (s.select e) d op := by
  unfold State.select
  split
  · exact h.withdrawSelection e
  · split <;> exact h.setDrainClaim e _

theorem Offers.retest {s : State} {d : DieId} {op : ChannelOp} (h : Offers s d op) (e : DieId) :
    Offers (s.retest e) d op := by
  have hc : (s.retest e).chan = s.chan := (retest_internal s e).chan
  have hp : (s.retest e).ports = s.ports := by
    unfold State.retest; dsimp only
    split
    · rfl
    · split <;> rfl
  refine h.congr hc ?_ ?_ ?_ ?_ ((retest_internal s e).care d).1 <;> simp only [State.port, hp]

theorem Offers.keepChannelClaim {s : State} {d : DieId} {op : ChannelOp} (h : Offers s d op) (e : DieId) :
    Offers (s.keepChannelClaim e) d op := by
  have other (c : Option ChannelOp) (he : e ≠ d) : Offers (s.setChannelClaim e c) d op :=
    h.setPort e _ fun x => absurd x he
  by_cases he : e = d
  · subst he
    have hk := h.stays
    unfold State.keepChannelClaim ClaimStays at *
    dsimp only
    cases hp : s.chan.partState <;> simp only [hp] at hk ⊢ <;> try exact h
    · split
      · next hs => exact h.setPort e _ fun _ => ⟨by rw [h.claim, hk hs], rfl, rfl, rfl⟩
      · exact h
    · split
      · next hs =>
        have he : (s.port e).entering = false := by unfold Port.entering; rw [h.slot]
        obtain ⟨rfl, h1, h2⟩ := hk hs
        rw [if_pos ⟨h1, by simp [he], h2⟩]
        exact h.setPort e _ fun _ => ⟨h.claim.symm, rfl, rfl, rfl⟩
      · exact h
    · split
      · next hs => exact h.setPort e _ fun _ => ⟨by rw [h.claim, hk.1 hs], rfl, rfl, rfl⟩
      · split
        · next hs => exact h.setPort e _ fun _ => ⟨by rw [h.claim, hk.2 hs], rfl, rfl, rfl⟩
        · exact h
  · unfold State.keepChannelClaim
    dsimp only
    split <;> try exact h
    · split <;> [exact other _ he; exact h]
    · split
      · exact other _ he
      · split <;> [exact other _ he; exact h]
    · split <;> [exact other _ he; exact h]

theorem Offers.prepare {s : State} {d : DieId} {op : ChannelOp} (h : Offers s d op) (e : DieId) :
    Offers (s.prepare e) d op := by
  unfold State.prepare
  split
  · exact (((h.retest e).keepCareClaims e).keepChannelClaim e).select e
  · exact h

/-- The arbitration of another die keeps an offer. -/
theorem Offers.arbitrate {s : State} {d : DieId} {op : ChannelOp} (h : Offers s d op) {e : DieId} (he : e ≠ d) :
    Offers (s.arbitrate e) d op := by
  unfold State.arbitrate
  split
  · split
    · exact h
    · next pick hp =>
      have hg : Offers (s.grant e pick) d op := by
        refine h.congr (grant_internal hp).chan ?_ ?_ ?_ ?_ ((grant_internal hp).care d).1 <;> cases pick <;>
          simp [State.grant, State.fillSlot, State.setPort_port, he]
      exact ((hg.retest e).keepCareClaims e).select e
  · exact h

/-- A filled slot stays while an event closes. -/
theorem ChannelOperates.keep {s t : State} {d : DieId} {op : Operation} (h : ChannelOperates s d op)
    (k : Internal s t) : ChannelOperates t d op := by
  obtain ⟨-, -, -, ⟨k1, -⟩ | ⟨k1, -⟩⟩ := k.ports d
  · exact k1.trans h
  · rw [h] at k1; cases k1

/-- The die's own arbitration grants it. -/
theorem Offers.granted {s : State} {d : DieId} {op : ChannelOp} (h : Offers s d op) :
    ChannelOperates (s.arbitrate d) d (s.channelOperation op) := by
  unfold State.arbitrate
  simp only [h.present, if_true, h.decision]
  refine ChannelOperates.keep ?_ (select_internal _ d)
  have hr : ((s.grant d (.channel op)).retest d).ports = (s.grant d (.channel op)).ports := by
    unfold State.retest; dsimp only
    split
    · rfl
    · split <;> rfl
  simp only [ChannelOperates, State.keepCareClaims, State.setPort_port_self]
  simp only [State.port, hr]
  simp [State.grant, State.fillSlot, State.setPort]

theorem channelOperation_congr {s t : State} (h : t.chan = s.chan) (op : ChannelOp) :
    t.channelOperation op = s.channelOperation op := by
  simp only [State.channelOperation, State.activeField, State.exitMode, h]

theorem Offers.takeLevel {s : State} {d : DieId} {op : ChannelOp} (h : Offers s d op) : Offers s.takeLevel d op := by
  unfold State.takeLevel
  dsimp only
  split
  · exact h
  · have step (e : DieId) (t : State) (ht : Offers t d op) :
        Offers (if t.present e then (if s.level = .none then t.withdrawSelection e
          else if s.drain.pressure = .none then t.select e else t) else t) d op := by
      split
      · split
        · exact ht.withdrawSelection e
        · split <;> [exact ht.select e; exact ht]
      · exact ht
    exact step 3 _ (step 2 _ (step 1 _ (step 0 _ (h.congr rfl rfl rfl rfl rfl rfl))))

/-- Four dies in turn: what holds up to die d, and after it. -/
theorem forDies_turn {P Q : State → Prop} (f : DieId → State → State) (d : DieId) (s : State) (h : P s)
    (before : ∀ e x, e ≠ d → P x → P (f e x)) (own : ∀ x, P x → Q (f d x)) (after : ∀ e x, e ≠ d → Q x → Q (f e x)) :
    Q (forDies f s) := by
  unfold forDies
  obtain ⟨n, hn⟩ := d
  have ne (a b : Fin 4) (h : a.val ≠ b.val) : a ≠ b := fun e => h (congrArg Fin.val e)
  match n, hn with
  | 0, _ =>
    exact after 3 _ (ne _ _ (by simp)) (after 2 _ (ne _ _ (by simp)) (after 1 _ (ne _ _ (by simp)) (own _ h)))
  | 1, _ =>
    exact after 3 _ (ne _ _ (by simp)) (after 2 _ (ne _ _ (by simp)) (own _ (before 0 _ (ne _ _ (by simp)) h)))
  | 2, _ =>
    exact after 3 _ (ne _ _ (by simp)) (own _ (before 1 _ (ne _ _ (by simp)) (before 0 _ (ne _ _ (by simp)) h)))
  | 3, _ =>
    exact own _ (before 2 _ (ne _ _ (by simp)) (before 1 _ (ne _ _ (by simp)) (before 0 _ (ne _ _ (by simp)) h)))

theorem Offers.forDies {s : State} {d : DieId} {op : ChannelOp} (h : Offers s d op) (f : DieId → State → State)
    (hf : ∀ e x, Offers x d op → Offers (f e x) d op) : Offers (forDies f s) d op :=
  hf 3 _ (hf 2 _ (hf 1 _ (hf 0 _ h)))

/-- A claim that die d offers once the blocks have placed their claims is granted as the event closes, if the event
touches d or changes part state or phase. -/
theorem finish_turn {K : State → Prop} {s : State} {d : DieId} {op : ChannelOp} (before : State)
    (touched : DieId → Bool)
    (ht : touched d = true ∨ s.chan.partState ≠ before.chan.partState ∨ s.chan.phase ≠ before.chan.phase)
    (hk : K s.testHysteresis.takeLevel) (other : ∀ e x, e ≠ d → K x → K (x.prepare e))
    (own : ∀ x, K x → Offers (x.prepare d) d op) :
    ChannelOperates (s.finish before touched) d (s.channelOperation op) := by
  have hm : ((s.chan.partState != before.chan.partState || s.chan.phase != before.chan.phase) || touched d) = true := by
    rcases ht with ht | ht | ht <;> simp_all
  unfold State.finish
  simp only []
  generalize (s.chan.partState != before.chan.partState || s.chan.phase != before.chan.phase) = m at hm ⊢
  generalize levelStirs s.testHysteresis.drain.pressure s.testHysteresis.level = l
  have hc : s.testHysteresis.takeLevel.chan = s.chan := (takeLevel_internal _).chan
  generalize s.testHysteresis.takeLevel = x at hk hc ⊢
  refine forDies_turn (P := fun y => Offers y d op ∧ y.chan = s.chan)
    (Q := fun y => ChannelOperates y d (s.channelOperation op)) _ d _ ⟨?_, ?_⟩ ?_ ?_ ?_
  · refine forDies_turn (P := K) (Q := fun y => Offers y d op) _ d x hk ?_ ?_ ?_
    · intro e y he hy
      split <;> [exact other e y he hy; exact hy]
    · intro y hy
      rw [if_pos hm]
      exact own y hy
    · intro e y _ hy
      split <;> [exact hy.prepare e; exact hy]
  · refine Eq.trans (Internal.forDies _ (fun e y => ?_) x).chan hc
    split <;> [exact prepare_internal y e; exact .refl y]
  · intro e y he hy
    split
    · exact ⟨hy.1.arbitrate he, (arbitrate_internal y e).chan.trans hy.2⟩
    · exact hy
  · intro y hy
    rw [if_pos (by cases m <;> cases l <;> simp_all), ← channelOperation_congr hy.2]
    exact hy.1.granted
  · intro e y _ hy
    split <;> [exact hy.keep (arbitrate_internal y e); exact hy]

/-- A claim that die d offers is granted as the event closes, if the event touches d or changes part state or phase. -/
theorem finish_grants {s : State} {d : DieId} {op : ChannelOp} (h : Offers s d op) (before : State)
    (touched : DieId → Bool)
    (ht : touched d = true ∨ s.chan.partState ≠ before.chan.partState ∨ s.chan.phase ≠ before.chan.phase) :
    ChannelOperates (s.finish before touched) d (s.channelOperation op) :=
  finish_turn (K := fun x => Offers x d op) before touched ht (Offers.takeLevel (h.congr rfl rfl rfl rfl rfl rfl))
    (fun e _ _ hx => hx.prepare e) fun _ hx => hx.prepare d

end Sys2Proof.Machine
end

