-- ==== Sys2Proof/Laws/Carry.lean ====
section
/-! SUPPORT. The claims that Channel Control keeps in WAKING and STOPPED, PARK EXIT at a PARKED port and LONG RECAL at an
IDLE port that owes one, are granted as an event closes (R122, R132). -/

namespace Sys2Proof.Machine

/-- Channel Control keeps this claim at die d, whose slot is empty. -/
structure Carried (s : State) (d : DieId) (op : ChannelOp) : Prop where
  present : s.present d = true
  slot : (s.port d).slot = none
  wants : ((s.chan.partState = .waking ∨ s.chan.partState = .stopped) ∧ (s.port d).state = .parked ∧ op = .parkExit) ∨
    (s.chan.partState = .stopped ∧ (s.port d).state = .idle ∧ s.chan.recalOwed[d] = true ∧ op = .longRecal)

theorem Carried.congr {s t : State} {d : DieId} {op : ChannelOp} (h : Carried s d op) (hc : t.chan = s.chan)
    (h1 : (t.port d).slot = (s.port d).slot) (h2 : (t.port d).state = (s.port d).state) : Carried t d op := by
  refine ⟨?_, by rw [h1]; exact h.slot, by rw [hc, h2]; exact h.wants⟩
  have := h.present; simp only [State.present, hc] at this ⊢; exact this

theorem retest_ports (s : State) (d : DieId) : (s.retest d).ports = s.ports := by
  unfold State.retest; dsimp only
  split
  · rfl
  · split <;> rfl

theorem setDrainClaim_same (s : State) (d : DieId) : s.setDrainClaim d (s.port d).drainClaim = s := s.setPort_same d

/-- A selection changes one drain claim. -/
theorem select_form (s : State) (d : DieId) : ∃ c, s.select d = s.setDrainClaim d c := by
  unfold State.select State.withdrawSelection
  split
  · split
    · split
      · exact ⟨_, (setDrainClaim_same s d).symm⟩
      · exact ⟨_, rfl⟩
    · exact ⟨_, (setDrainClaim_same s d).symm⟩
  · split <;> exact ⟨_, rfl⟩

theorem withdrawSelection_form (s : State) (d : DieId) : ∃ c, s.withdrawSelection d = s.setDrainClaim d c := by
  unfold State.withdrawSelection
  split
  · split
    · exact ⟨_, (setDrainClaim_same s d).symm⟩
    · exact ⟨_, rfl⟩
  · exact ⟨_, (setDrainClaim_same s d).symm⟩

theorem Carried.setDrainClaim {s : State} {d : DieId} {op : ChannelOp} (h : Carried s d op) (e : DieId)
    (c : Option DrainClaim) : Carried (s.setDrainClaim e c) d op := by
  refine h.congr rfl ?_ ?_ <;> simp only [State.setDrainClaim, State.setPort_port] <;> split <;> simp_all

theorem Carried.select {s : State} {d : DieId} {op : ChannelOp} (h : Carried s d op) (e : DieId) :
    Carried (s.select e) d op := by
  obtain ⟨c, hc⟩ := select_form s e
  rw [hc]; exact h.setDrainClaim e c

theorem Carried.withdrawSelection {s : State} {d : DieId} {op : ChannelOp} (h : Carried s d op) (e : DieId) :
    Carried (s.withdrawSelection e) d op := by
  obtain ⟨c, hc⟩ := withdrawSelection_form s e
  rw [hc]; exact h.setDrainClaim e c

theorem Carried.retest {s : State} {d : DieId} {op : ChannelOp} (h : Carried s d op) (e : DieId) :
    Carried (s.retest e) d op := by
  refine h.congr (retest_internal s e).chan ?_ ?_ <;> simp only [State.port, retest_ports]

theorem Carried.keepCareClaims {s : State} {d : DieId} {op : ChannelOp} (h : Carried s d op) (e : DieId) :
    Carried (s.keepCareClaims e) d op := by
  refine h.congr rfl ?_ ?_ <;> simp only [State.keepCareClaims, State.setPort_port] <;> split <;> simp_all

theorem keepChannelClaim_port (s : State) {d e : DieId} (he : e ≠ d) : (s.keepChannelClaim e).port d = s.port d := by
  have other (c : Option ChannelOp) : (s.setChannelClaim e c).port d = s.port d := by
    simp only [State.setChannelClaim, State.setPort_port, he, if_false]
  unfold State.keepChannelClaim
  dsimp only
  split <;> try rfl
  · split <;> [exact other _; rfl]
  · split
    · exact other _
    · split <;> [exact other _; rfl]
  · split <;> [exact other _; rfl]

/-- The preparation of another die keeps it. -/
theorem Carried.prepare {s : State} {d : DieId} {op : ChannelOp} (h : Carried s d op) {e : DieId} (he : e ≠ d) :
    Carried (s.prepare e) d op := by
  unfold State.prepare
  split
  · refine Carried.select ?_ e
    have hk := (h.retest e).keepCareClaims e
    refine hk.congr (keepChannelClaim_internal _ e).chan ?_ ?_ <;> rw [keepChannelClaim_port _ he]
  · exact h

/-- The die's own preparation places the claim. -/
theorem Carried.offers {s : State} {d : DieId} {op : ChannelOp} (h : Carried s d op) : Offers (s.prepare d) d op := by
  unfold State.prepare
  rw [if_pos h.present]
  refine Offers.select ?_ d
  have hk := (h.retest d).keepCareClaims d
  generalize (s.retest d).keepCareClaims d = x at hk ⊢
  have placed (hx : x.keepChannelClaim d = x.setChannelClaim d (some op)) : Offers (x.keepChannelClaim d) d op := by
    rw [hx]
    have hc : (x.setChannelClaim d (some op)).chan = x.chan := rfl
    have hp : (x.setChannelClaim d (some op)).port d = { x.port d with channelClaim := some op } :=
      State.setPort_port_self x d _
    refine ⟨hk.present, by rw [hp], by rw [hp]; exact hk.slot, ?_, ?_, ?_⟩
    · unfold State.permits
      rw [hc]
      rcases hk.wants with ⟨h1 | h1, -, rfl⟩ | ⟨h1, -, -, rfl⟩ <;> simp [h1]
    · unfold ClaimStays
      rw [hc, hp]
      rcases hk.wants with ⟨h1 | h1, h2, rfl⟩ | ⟨h1, h2, -, rfl⟩ <;> simp [h1, h2]
    · rw [hp]
      rcases hk.wants with ⟨-, h2, rfl⟩ | ⟨-, h2, -, rfl⟩ <;> simp [h2]
  refine placed ?_
  unfold State.keepChannelClaim
  dsimp only
  rcases hk.wants with ⟨h1 | h1, h2, rfl⟩ | ⟨h1, h2, h3, rfl⟩ <;> simp [h1, h2]
  intro h4; simp_all

theorem Carried.takeLevel {s : State} {d : DieId} {op : ChannelOp} (h : Carried s d op) : Carried s.takeLevel d op := by
  unfold State.takeLevel
  dsimp only
  split
  · exact h
  · have step (e : DieId) (t : State) (ht : Carried t d op) :
        Carried (if t.present e then (if s.level = .none then t.withdrawSelection e
          else if s.drain.pressure = .none then t.select e else t) else t) d op := by
      split
      · split
        · exact ht.withdrawSelection e
        · split <;> [exact ht.select e; exact ht]
      · exact ht
    exact step 3 _ (step 2 _ (step 1 _ (step 0 _ (h.congr rfl rfl rfl))))

/-- The claim is granted as the event closes, if the event touches d or changes part state or phase. -/
theorem finish_carries {s : State} {d : DieId} {op : ChannelOp} (h : Carried s d op) (before : State)
    (touched : DieId → Bool)
    (ht : touched d = true ∨ s.chan.partState ≠ before.chan.partState ∨ s.chan.phase ≠ before.chan.phase) :
    ChannelOperates (s.finish before touched) d (s.channelOperation op) :=
  finish_turn (K := fun x => Carried x d op) before touched ht (Carried.takeLevel (h.congr rfl rfl rfl))
    (fun _ _ he hx => hx.prepare he) fun _ hx => hx.offers

/-- Outside a rate switch a PARK EXIT takes its mode from WAKE_MODE (R108). -/
theorem channelOperation_parkExit {s : State} (h : s.chan.partState ≠ .switching) :
    s.channelOperation .parkExit = s.wakeExit := by
  unfold State.channelOperation State.wakeExit State.exitMode
  by_cases hw : s.chan.settings.wakeMode = 1 <;> simp [h, hw]

/-- A command whose effect turns the part to WAKING and leaves port states and slots alone. -/
theorem wakes_of {c : Instr} {s u b : State} {touched : DieId → Bool} (hx : exec c s = .next (u.finish b touched))
    (hb : b.chan.partState = s.chan.partState)
    (hp : s.chan.partState = .parking ∨ s.chan.partState = .parked → u.chan.partState = .waking)
    (hn : ∀ d, u.present d = s.present d) (hw : u.wakeExit = s.wakeExit)
    (hs : ∀ d, (u.port d).state = (s.port d).state ∧ (u.port d).slot = (s.port d).slot) : Wakes c s := by
  intro h
  have hu := hp h
  have hm : u.chan.partState ≠ b.chan.partState := by
    rw [hu, hb]
    rcases h with h | h <;> rw [h] <;> exact fun x => PartState.noConfusion x
  refine ⟨_, hx, (congrArg Channel.partState (finish_internal _ _ _).chan).trans hu, fun d h1 h2 h3 => ?_⟩
  have hc : Carried u d .parkExit := ⟨(hn d).trans h1, (hs d).2.trans h3, .inl ⟨.inl hu, (hs d).1.trans h2, rfl⟩⟩
  have := finish_carries hc b touched (.inr (.inl hm))
  rw [channelOperation_parkExit (by rw [hu]; exact fun x => PartState.noConfusion x), hw] at this
  exact this

/-- An event that stops the part carries back every die whose port state and slot it leaves alone. -/
theorem finish_carriesBack {s u : State} {d : DieId} (touched : DieId → Bool) (hp : u.chan.partState = .stopped)
    (hb : s.chan.partState ≠ .stopped) (hn : ∀ e, u.present e = s.present e) (hw : u.wakeExit = s.wakeExit)
    (ho : u.chan.recalOwed = s.chan.recalOwed) (hf : u.activeField 9 = s.activeField 9)
    (hs : ∀ e, e ≠ d → (u.port e).state = (s.port e).state ∧ (u.port e).slot = (s.port e).slot) :
    OthersCarriedBack s (u.finish s touched) d := by
  have hm : u.chan.partState ≠ s.chan.partState := by rw [hp]; exact hb.symm
  intro e he h1 h2
  refine ⟨fun h3 => ?_, fun h3 h4 => ?_⟩
  · have hc : Carried u e .parkExit :=
      ⟨(hn e).trans h1, (hs e he).2.trans h2, .inl ⟨.inr hp, (hs e he).1.trans h3, rfl⟩⟩
    have := finish_carries hc s touched (.inr (.inl hm))
    rw [channelOperation_parkExit (by rw [hp]; exact fun x => PartState.noConfusion x), hw] at this
    exact this
  · have hc : Carried u e .longRecal :=
      ⟨(hn e).trans h1, (hs e he).2.trans h2, .inr ⟨hp, (hs e he).1.trans h3, by rw [ho]; exact h4, rfl⟩⟩
    have := finish_carries hc s touched (.inr (.inl hm))
    rw [← hf]
    exact this

/-- A Channel Control claim waits at a BUSY or SETTLING port while the part runs or wakes (R145). -/
structure Waits (s : State) (d : DieId) (op : ChannelOp) : Prop where
  state : (s.port d).state = .busy ∨ (s.port d).state = .settling
  claim : (s.port d).channelClaim = some op
  runs : s.chan.partState = .running ∨ s.chan.partState = .waking

theorem Waits.congr {s t : State} {d : DieId} {op : ChannelOp} (h : Waits s d op) (hc : t.chan = s.chan)
    (h1 : (t.port d).state = (s.port d).state) (h2 : (t.port d).channelClaim = (s.port d).channelClaim) :
    Waits t d op :=
  ⟨by rw [h1]; exact h.state, by rw [h2]; exact h.claim, by rw [hc]; exact h.runs⟩

theorem Waits.setPort {s : State} {d : DieId} {op : ChannelOp} (h : Waits s d op) (e : DieId) (p : Port)
    (hp : e = d → p.state = (s.port e).state ∧ p.channelClaim = (s.port e).channelClaim) : Waits (s.setPort e p) d op := by
  refine h.congr rfl ?_ ?_ <;> rw [State.setPort_port] <;> split
  · next x => rw [(hp x).1, x]
  · rfl
  · next x => rw [(hp x).2, x]
  · rfl

theorem Waits.select {s : State} {d : DieId} {op : ChannelOp} (h : Waits s d op) (e : DieId) :
    Waits (s.select e) d op := by
  obtain ⟨c, hc⟩ := select_form s e
  rw [hc]; exact h.setPort e _ fun _ => ⟨rfl, rfl⟩

theorem Waits.withdrawSelection {s : State} {d : DieId} {op : ChannelOp} (h : Waits s d op) (e : DieId) :
    Waits (s.withdrawSelection e) d op := by
  obtain ⟨c, hc⟩ := withdrawSelection_form s e
  rw [hc]; exact h.setPort e _ fun _ => ⟨rfl, rfl⟩

theorem Waits.retest {s : State} {d : DieId} {op : ChannelOp} (h : Waits s d op) (e : DieId) :
    Waits (s.retest e) d op := by
  refine h.congr (retest_internal s e).chan ?_ ?_ <;> simp only [State.port, retest_ports]

theorem Waits.keepCareClaims {s : State} {d : DieId} {op : ChannelOp} (h : Waits s d op) (e : DieId) :
    Waits (s.keepCareClaims e) d op := h.setPort e _ fun _ => ⟨rfl, rfl⟩

theorem Waits.keepChannelClaim {s : State} {d : DieId} {op : ChannelOp} (h : Waits s d op) (e : DieId) :
    Waits (s.keepChannelClaim e) d op := by
  by_cases he : e = d
  · subst he
    have : s.keepChannelClaim e = s := by
      unfold State.keepChannelClaim
      dsimp only
      rcases h.runs with h1 | h1 <;> rcases h.state with h2 | h2 <;> simp [h1, h2]
    rw [this]; exact h
  · exact h.congr (keepChannelClaim_internal s e).chan (by rw [keepChannelClaim_port s he])
      (by rw [keepChannelClaim_port s he])

theorem Waits.prepare {s : State} {d : DieId} {op : ChannelOp} (h : Waits s d op) (e : DieId) :
    Waits (s.prepare e) d op := by
  unfold State.prepare
  split
  · exact (((h.retest e).keepCareClaims e).keepChannelClaim e).select e
  · exact h

theorem Waits.arbitrate {s : State} {d : DieId} {op : ChannelOp} (h : Waits s d op) (e : DieId) :
    Waits (s.arbitrate e) d op := by
  unfold State.arbitrate
  split
  · split
    · exact h
    · next pick hp =>
      have he : e ≠ d := by
        rintro rfl
        have := (decision_grantable hp).2
        rcases h.state with h1 | h1 <;> rw [h1] at this <;> simp at this
      have hg : Waits (s.grant e pick) d op := by
        refine h.congr (grant_internal hp).chan ?_ ?_ <;> cases pick <;>
          simp [State.grant, State.fillSlot, State.setPort_port, he]
      exact ((hg.retest e).keepCareClaims e).select e
  · exact h

theorem Waits.takeLevel {s : State} {d : DieId} {op : ChannelOp} (h : Waits s d op) : Waits s.takeLevel d op := by
  unfold State.takeLevel
  dsimp only
  split
  · exact h
  · have step (e : DieId) (t : State) (ht : Waits t d op) :
        Waits (if t.present e then (if s.level = .none then t.withdrawSelection e
          else if s.drain.pressure = .none then t.select e else t) else t) d op := by
      split
      · split
        · exact ht.withdrawSelection e
        · split <;> [exact ht.select e; exact ht]
      · exact ht
    exact step 3 _ (step 2 _ (step 1 _ (step 0 _ (h.congr rfl rfl rfl))))

/-- A claim that waits still waits when the event has closed. -/
theorem finish_waits {s : State} {d : DieId} {op : ChannelOp} (h : Waits s d op) (before : State)
    (touched : DieId → Bool) : Waits (s.finish before touched) d op := by
  have hk (f : DieId → State → State) (hf : ∀ e x, Waits x d op → Waits (f e x) d op) (x : State)
      (hx : Waits x d op) : Waits (forDies f x) d op := hf 3 _ (hf 2 _ (hf 1 _ (hf 0 _ hx)))
  unfold State.finish
  refine hk _ (fun e x hx => ?_) _
    (hk _ (fun e x hx => ?_) _ (Waits.takeLevel (s := s.testHysteresis) (h.congr rfl rfl rfl)))
  · split <;> [exact hx.arbitrate e; exact hx]
  · split <;> [exact hx.prepare e; exact hx]

end Sys2Proof.Machine
end

