-- ==== Sys2Proof/Laws/Care.lean ====
section
/-! SUPPORT. What closing an event does to a die's maintenance values: the due timers run exactly while the die is ACTIVE,
and a die whose condition follows its port keeps its toggle and, while ACTIVE, its timers (R95, R97, R98). -/

namespace Sys2Proof.Machine

/-- A die keeps its maintenance values, or leaves ACTIVE with its due timers stopped (R95). -/
def CareEnds (c e : DieCare) : Prop :=
  e = c ∨ (e.condition ≠ .active ∧ e = { c with condition := e.condition, refreshDue := none, recalDue := none })

theorem CareEnds.trans {c e f : DieCare} (h : CareEnds c e) (k : CareEnds e f) : CareEnds c f := by
  rcases h with rfl | ⟨h1, h2⟩
  · exact k
  · rcases k with rfl | ⟨k1, k2⟩
    · exact .inr ⟨h1, h2⟩
    · exact .inr ⟨k1, by rw [h2] at k2; exact k2⟩

/-- Die d's condition is the one that R95 gives, and since c it has kept its values or left ACTIVE. -/
structure Follows (c : DieCare) (s : State) (d : DieId) : Prop where
  condition : (s.care d).condition = s.conditionOf d
  ends : CareEnds c (s.care d)

theorem conditionOf_congr {s t : State} {d : DieId} (hc : t.chan = s.chan) (h1 : (t.port d).state = (s.port d).state)
    (h2 : (t.port d).slot = (s.port d).slot) : t.conditionOf d = s.conditionOf d := by
  have k1 : (t.port d).parkSuspended = (s.port d).parkSuspended := by unfold Port.parkSuspended; rw [h1, h2]
  have k2 : t.phaseSuspends = s.phaseSuspends := by unfold State.phaseSuspends; rw [hc]
  unfold State.conditionOf
  dsimp only
  rw [h1, k1, k2]

theorem Follows.congr {c : DieCare} {s t : State} {d : DieId} (h : Follows c s d) (hc : t.chan = s.chan)
    (h1 : (t.port d).state = (s.port d).state) (h2 : (t.port d).slot = (s.port d).slot)
    (h3 : t.care d = s.care d) : Follows c t d :=
  ⟨by rw [h3, conditionOf_congr hc h1 h2]; exact h.condition, by rw [h3]; exact h.ends⟩

theorem Follows.setPort {c : DieCare} {s : State} {d : DieId} (h : Follows c s d) (e : DieId) (p : Port)
    (hp : e = d → p.state = (s.port e).state ∧ p.slot = (s.port e).slot) : Follows c (s.setPort e p) d := by
  refine h.congr rfl ?_ ?_ rfl <;> rw [State.setPort_port] <;> split
  · next x => rw [(hp x).1, x]
  · rfl
  · next x => rw [(hp x).2, x]
  · rfl

theorem Follows.select {c : DieCare} {s : State} {d : DieId} (h : Follows c s d) (e : DieId) :
    Follows c (s.select e) d := by
  obtain ⟨x, hx⟩ := select_form s e
  rw [hx]; exact h.setPort e _ fun _ => ⟨rfl, rfl⟩

theorem Follows.withdrawSelection {c : DieCare} {s : State} {d : DieId} (h : Follows c s d) (e : DieId) :
    Follows c (s.withdrawSelection e) d := by
  obtain ⟨x, hx⟩ := withdrawSelection_form s e
  rw [hx]; exact h.setPort e _ fun _ => ⟨rfl, rfl⟩

theorem Follows.keepCareClaims {c : DieCare} {s : State} {d : DieId} (h : Follows c s d) (e : DieId) :
    Follows c (s.keepCareClaims e) d := h.setPort e _ fun _ => ⟨rfl, rfl⟩

theorem Follows.setChannelClaim {c : DieCare} {s : State} {d : DieId} (h : Follows c s d) (e : DieId)
    (x : Option ChannelOp) : Follows c (s.setChannelClaim e x) d := h.setPort e _ fun _ => ⟨rfl, rfl⟩

theorem Follows.keepChannelClaim {c : DieCare} {s : State} {d : DieId} (h : Follows c s d) (e : DieId) :
    Follows c (s.keepChannelClaim e) d := by
  unfold State.keepChannelClaim
  dsimp only
  split <;> try exact h
  · split <;> [exact h.setChannelClaim e _; exact h]
  · split
    · exact h.setChannelClaim e _
    · split <;> [exact h.setChannelClaim e _; exact h]
  · split <;> [exact h.setChannelClaim e _; exact h]

/-- What a re-test of a die does (R95). -/
theorem retest_cases (s : State) (d : DieId) :
    (s.conditionOf d = (s.care d).condition ∧ s.retest d = s) ∨
      (s.conditionOf d ≠ (s.care d).condition ∧ s.conditionOf d = .active ∧
        s.retest d =
          s.setCare d
            { s.care d with
              condition := .active, refreshDue := some (s.dueInterval d), recalDue := some s.recalPeriod
              coolSkip := false }) ∨
      (s.conditionOf d ≠ (s.care d).condition ∧ s.conditionOf d ≠ .active ∧
        s.retest d = s.setCare d { s.care d with condition := s.conditionOf d, refreshDue := none, recalDue := none }) := by
  unfold State.retest
  dsimp only
  by_cases h : s.conditionOf d = (s.care d).condition
  · exact .inl ⟨h, by rw [if_pos h]⟩
  · by_cases k : s.conditionOf d = .active
    · exact .inr (.inl ⟨h, k, by rw [if_neg h, if_pos k, k]⟩)
    · exact .inr (.inr ⟨h, k, by rw [if_neg h, if_neg k]⟩)

theorem retest_care_other (s : State) {d e : DieId} (h : e ≠ d) : (s.retest e).care d = s.care d := by
  rcases retest_cases s e with ⟨-, k⟩ | ⟨-, -, k⟩ | ⟨-, -, k⟩ <;> rw [k]
  all_goals rw [State.setCare_care, if_neg h]

theorem Follows.retest {c : DieCare} {s : State} {d : DieId} (h : Follows c s d) (e : DieId) :
    Follows c (s.retest e) d := by
  by_cases he : e = d
  · subst he
    rcases retest_cases s e with ⟨-, k⟩ | ⟨k, -⟩ | ⟨k, -⟩
    · rw [k]; exact h
    · exact absurd h.condition.symm k
    · exact absurd h.condition.symm k
  · exact h.congr (retest_internal s e).chan (by simp only [State.port, retest_ports])
      (by simp only [State.port, retest_ports]) (retest_care_other s he)

theorem Follows.prepare {c : DieCare} {s : State} {d : DieId} (h : Follows c s d) (e : DieId) :
    Follows c (s.prepare e) d := by
  unfold State.prepare
  split
  · exact (((h.retest e).keepCareClaims e).keepChannelClaim e).select e
  · exact h

/-- A PARKED port grants a PARK EXIT alone (R78). -/
theorem decision_parked {s : State} {d : DieId} {pick : Pick} (h : s.decision d = some pick)
    (hp : (s.port d).state = .parked) : pick = .channel .parkExit := by
  unfold State.decision at h
  simp only [hp] at h
  split at h
  · cases h
  · split at h
    · exact (Option.some.inj h).symm
    · cases h

/-- A grant leaves the die's condition, or suspends the die (R95). -/
theorem grant_condition {s : State} {d : DieId} {pick : Pick} (h : s.decision d = some pick) :
    (s.grant d pick).conditionOf d = s.conditionOf d ∨ (s.grant d pick).conditionOf d = .suspended := by
  have hg := decision_grantable h
  have hc := (grant_internal h).chan
  have k2 : (s.grant d pick).phaseSuspends = s.phaseSuspends := by unfold State.phaseSuspends; rw [hc]
  have hp : ((s.grant d pick).port d).state = (s.port d).state.granted := by
    cases pick <;> simp [State.grant, State.fillSlot]
  unfold State.conditionOf
  simp only [hp, k2]
  rcases hg.2 with e | e | e | e
  · left; rw [e]; rfl
  · have k : (s.port d).parkSuspended = false := by simp [Port.parkSuspended, e, hg.1]
    rw [e, k]
    simp only [PortState.granted]
    cases ((s.grant d pick).port d).parkSuspended
    · exact .inl rfl
    · exact .inr rfl
  · right
    have := decision_parked h e
    subst this
    have hs : ((s.grant d (.channel .parkExit)).port d).parkSuspended = true := by
      unfold Port.parkSuspended
      simp only [State.grant, State.fillSlot, State.setPort_port_self, State.channelOperation]
      cases s.exitMode <;> simp
    rw [e, hs]; rfl
  · left; rw [e.1]; rfl

theorem grant_care (s : State) (d : DieId) (pick : Pick) (e : DieId) : (s.grant d pick).care e = s.care e := by
  cases pick <;> rfl

theorem Follows.arbitrate {c : DieCare} {s : State} {d : DieId} (h : Follows c s d) (e : DieId) :
    Follows c (s.arbitrate e) d := by
  unfold State.arbitrate
  split
  · split
    · exact h
    · next pick hp =>
      refine Follows.select (Follows.keepCareClaims ?_ e) e
      by_cases he : e = d
      · subst he
        have hcare := grant_care s e pick e
        have hret : ∀ t : State, (t.retest e).conditionOf e = t.conditionOf e := fun t =>
          conditionOf_congr (retest_internal t e).chan (by simp only [State.port, retest_ports])
            (by simp only [State.port, retest_ports])
        rcases retest_cases (s.grant e pick) e with ⟨k1, k2⟩ | ⟨k1, k2, -⟩ | ⟨k1, k2, k3⟩
        · rw [k2]
          exact ⟨k1.symm, by rw [hcare]; exact h.ends⟩
        · rcases grant_condition hp with g | g
          · rw [hcare, h.condition, g] at k1; exact absurd rfl k1
          · rw [g] at k2; exact Condition.noConfusion k2
        · have hcr : ((s.grant e pick).retest e).care e =
              { s.care e with condition := (s.grant e pick).conditionOf e, refreshDue := none, recalDue := none } := by
            rw [k3, State.setCare_care, if_pos rfl, hcare]
          refine ⟨by rw [hret, hcr], h.ends.trans (.inr ?_)⟩
          rw [hcr]
          exact ⟨k2, rfl⟩
      · have hp1 : (s.grant e pick).port d = s.port d := by
          cases pick <;> simp [State.grant, State.fillSlot, State.setPort_port, he]
        exact (h.congr (grant_internal hp).chan (by rw [hp1]) (by rw [hp1]) (grant_care s e pick d)).retest e
  · exact h

theorem Follows.takeLevel {c : DieCare} {s : State} {d : DieId} (h : Follows c s d) : Follows c s.takeLevel d := by
  unfold State.takeLevel
  dsimp only
  split
  · exact h
  · have step (e : DieId) (t : State) (ht : Follows c t d) :
        Follows c (if t.present e then (if s.level = .none then t.withdrawSelection e
          else if s.drain.pressure = .none then t.select e else t) else t) d := by
      split
      · split
        · exact ht.withdrawSelection e
        · split <;> [exact ht.select e; exact ht]
      · exact ht
    exact step 3 _ (step 2 _ (step 1 _ (step 0 _ (h.congr rfl rfl rfl rfl))))

/-- A die whose condition follows its port keeps its values as an event closes, or leaves ACTIVE with its due timers
stopped; its condition follows its port still. -/
theorem finish_follows {s : State} {d : DieId} (h : (s.care d).condition = s.conditionOf d) (before : State)
    (touched : DieId → Bool) : Follows (s.care d) (s.finish before touched) d := by
  have hk (f : DieId → State → State) (hf : ∀ e x, Follows (s.care d) x d → Follows (s.care d) (f e x) d) (x : State)
      (hx : Follows (s.care d) x d) : Follows (s.care d) (forDies f x) d := hf 3 _ (hf 2 _ (hf 1 _ (hf 0 _ hx)))
  have h0 : Follows (s.care d) s d := ⟨h, .inl rfl⟩
  unfold State.finish
  refine hk _ (fun e x hx => ?_) _
    (hk _ (fun e x hx => ?_) _ (Follows.takeLevel (s := s.testHysteresis) (h0.congr rfl rfl rfl rfl)))
  · split <;> [exact hx.arbitrate e; exact hx]
  · split <;> [exact hx.prepare e; exact hx]

/-! ### Due timers -/

theorem DueTimersFollow.congr {s t : State} {d : DieId} (h : DueTimersFollow s d) (k : t.care d = s.care d) :
    DueTimersFollow t d := by
  unfold DueTimersFollow
  rw [k]; exact h

/-- A re-test starts and stops both due timers with the condition (R95). -/
theorem DueTimersFollow.retest {s : State} {d : DieId} (h : DueTimersFollow s d) (e : DieId) :
    DueTimersFollow (s.retest e) d := by
  by_cases he : e = d
  · subst he
    rcases retest_cases s e with ⟨-, k⟩ | ⟨-, -, k⟩ | ⟨-, k1, k⟩ <;> rw [k]
    · exact h
    · unfold DueTimersFollow
      rw [State.setCare_care, if_pos rfl]
      simp
    · unfold DueTimersFollow
      rw [State.setCare_care, if_pos rfl]
      simp [k1]
  · exact h.congr (retest_care_other s he)

theorem setPort_care (s : State) (e : DieId) (p : Port) (d : DieId) : (s.setPort e p).care d = s.care d := rfl

theorem select_care (s : State) (e d : DieId) : (s.select e).care d = s.care d := by
  obtain ⟨x, hx⟩ := select_form s e
  rw [hx]; rfl

theorem withdrawSelection_care (s : State) (e d : DieId) : (s.withdrawSelection e).care d = s.care d := by
  obtain ⟨x, hx⟩ := withdrawSelection_form s e
  rw [hx]; rfl

theorem keepChannelClaim_care (s : State) (e d : DieId) : (s.keepChannelClaim e).care d = s.care d := by
  unfold State.keepChannelClaim
  dsimp only
  split <;> try rfl
  · split <;> rfl
  · split
    · rfl
    · split <;> rfl
  · split <;> rfl

theorem takeLevel_care (s : State) (d : DieId) : s.takeLevel.care d = s.care d := by
  unfold State.takeLevel
  dsimp only
  split
  · rfl
  · have step (e : DieId) (t : State) :
        (if t.present e then (if s.level = .none then t.withdrawSelection e
          else if s.drain.pressure = .none then t.select e else t) else t).care d = t.care d := by
      split
      · split
        · exact withdrawSelection_care t e d
        · split <;> [exact select_care t e d; rfl]
      · rfl
    exact (((step 3 _).trans (step 2 _)).trans (step 1 _)).trans (step 0 _)

theorem DueTimersFollow.prepare {s : State} {d : DieId} (h : DueTimersFollow s d) (e : DieId) :
    DueTimersFollow (s.prepare e) d := by
  unfold State.prepare
  split
  · refine (h.retest e).congr ?_
    rw [select_care, keepChannelClaim_care]; rfl
  · exact h

theorem DueTimersFollow.arbitrate {s : State} {d : DieId} (h : DueTimersFollow s d) (e : DieId) :
    DueTimersFollow (s.arbitrate e) d := by
  unfold State.arbitrate
  split
  · split
    · exact h
    · next pick _ =>
      refine ((h.congr (grant_care s e pick d)).retest e).congr ?_
      rw [select_care]; rfl
  · exact h

/-- Closing an event keeps the due timers with the condition. -/
theorem finish_dueTimers {s : State} {d : DieId} (h : DueTimersFollow s d) (before : State) (touched : DieId → Bool) :
    DueTimersFollow (s.finish before touched) d := by
  have hk (f : DieId → State → State) (hf : ∀ e x, DueTimersFollow x d → DueTimersFollow (f e x) d) (x : State)
      (hx : DueTimersFollow x d) : DueTimersFollow (forDies f x) d := hf 3 _ (hf 2 _ (hf 1 _ (hf 0 _ hx)))
  unfold State.finish
  refine hk _ (fun e x hx => ?_) _
    (hk _ (fun e x hx => ?_) _ (DueTimersFollow.congr h (takeLevel_care s.testHysteresis d)))
  · split <;> [exact hx.arbitrate e; exact hx]
  · split <;> [exact hx.prepare e; exact hx]

end Sys2Proof.Machine
end

