-- ==== Sys2Proof/Laws/Continuation.lean ====
section
/-! SUPPORT. A continuation claim of a DRAINING entry stays pending or is granted while an event closes (R25, R27, R34). -/

namespace Sys2Proof.Machine

/-- Entry i is DRAINING on die d and its continuation claim is pending or granted there. -/
structure Continues (s : State) (d : DieId) (i : Fin 32) : Prop where
  draining : (s.entry i).state = .draining
  die : s.entryDie i = some d
  held : ContinuationHeld s d i

theorem Continues.of_internal {s t : State} {d : DieId} {i : Fin 32} (h : Continues s d i) (k : Internal s t)
    (held : ContinuationHeld t d i) : Continues t d i := by
  have e : t.entry i = s.entry i := by
    rcases k.entries i with e | ⟨e, -⟩
    · exact e
    · rw [h.draining] at e; cases e
  refine ⟨by rw [e]; exact h.draining, ?_, held⟩
  have hd := h.die
  unfold State.entryDie at hd ⊢
  rw [e]
  have : t.dieIndex = s.dieIndex := by funext l; simp only [State.dieIndex, k.chan]
  rw [this]; exact hd

/-- Two ports that agree in slot and drain claim. -/
theorem Continues.of_port {s t : State} {d : DieId} {i : Fin 32} (h : Continues s d i) (k : Internal s t)
    (hs : (t.port d).slot = (s.port d).slot) (hd : (t.port d).drainClaim = (s.port d).drainClaim) :
    Continues t d i :=
  h.of_internal k (by unfold ContinuationHeld; rw [hs, hd]; exact h.held)

theorem Continues.setPort {s : State} {d : DieId} {i : Fin 32} (h : Continues s d i) (e : DieId) (p : Port)
    (k : Internal s (s.setPort e p)) (hs : p.slot = (s.port e).slot) (hd : p.drainClaim = (s.port e).drainClaim) :
    Continues (s.setPort e p) d i := by
  refine h.of_port k ?_ ?_ <;> rw [State.setPort_port] <;> split
  · next x => subst x; exact hs
  · rfl
  · next x => subst x; exact hd
  · rfl

theorem Continues.dieDraining {s : State} {d : DieId} {i : Fin 32} (h : Continues s d i) : s.dieDraining d = true := by
  unfold State.dieDraining
  rw [List.any_eq_true]
  exact ⟨i, List.mem_finRange i, by simp [h.draining, h.die]⟩

theorem Continues.withdrawSelection {s : State} {d : DieId} {i : Fin 32} (h : Continues s d i) (e : DieId) :
    Continues (s.withdrawSelection e) d i := by
  have k := withdrawSelection_internal s e
  unfold State.withdrawSelection at k ⊢
  split
  · next c hc =>
    split
    · exact h
    · next hn =>
      simp only [hc, hn, Bool.false_eq_true, if_false] at k
      by_cases he : e = d
      · subst he
        refine h.of_internal k ?_
        rcases h.held with hh | hh
        · rw [hc] at hh; cases hh; exact absurd rfl hn
        · right
          simp only [State.setDrainClaim, State.setPort_port, if_true]
          exact hh
      · refine h.of_port k ?_ ?_ <;> simp only [State.setDrainClaim, State.setPort_port, he, if_false]
  · exact h

theorem Continues.select {s : State} {d : DieId} {i : Fin 32} (h : Continues s d i) (e : DieId) :
    Continues (s.select e) d i := by
  by_cases he : e = d
  · subst he
    unfold State.select
    rw [if_pos h.dieDraining]
    exact h.withdrawSelection e
  · have k := select_internal s e
    unfold State.select at k ⊢
    split
    · exact h.withdrawSelection e
    · next hd =>
      simp only [hd, Bool.false_eq_true, if_false] at k
      split
      · next hp =>
        simp only [hp, if_true] at k
        refine h.of_port k ?_ ?_ <;> simp only [State.setDrainClaim, State.setPort_port, he, if_false]
      · next hp =>
        simp only [hp, if_false] at k
        refine h.of_port k ?_ ?_ <;> simp only [State.setDrainClaim, State.setPort_port, he, if_false]

theorem Continues.retest {s : State} {d : DieId} {i : Fin 32} (h : Continues s d i) (e : DieId) :
    Continues (s.retest e) d i := by
  have k := retest_internal s e
  have : (s.retest e).ports = s.ports := by
    unfold State.retest; dsimp only
    split
    · rfl
    · split <;> rfl
  refine h.of_port k ?_ ?_ <;> simp only [State.port, this]

theorem Continues.keepCareClaims {s : State} {d : DieId} {i : Fin 32} (h : Continues s d i) (e : DieId) :
    Continues (s.keepCareClaims e) d i :=
  h.setPort e _ (keepCareClaims_internal s e) rfl rfl

theorem Continues.setChannelClaim {s : State} {d : DieId} {i : Fin 32} (h : Continues s d i) (e : DieId)
    (c : Option ChannelOp) : Continues (s.setChannelClaim e c) d i :=
  h.setPort e _ (setChannelClaim_internal s e c) rfl rfl

theorem Continues.keepChannelClaim {s : State} {d : DieId} {i : Fin 32} (h : Continues s d i) (e : DieId) :
    Continues (s.keepChannelClaim e) d i := by
  unfold State.keepChannelClaim
  dsimp only
  split
  · split <;> [exact h.setChannelClaim e _; exact h]
  · split
    · exact h.setChannelClaim e _
    · split <;> [exact h.setChannelClaim e _; exact h]
  · split <;> [exact h.setChannelClaim e _; exact h]
  all_goals exact h

/-- A grant at die d of another claim leaves the continuation claim; its own grant fills the slot for it. -/
theorem Continues.grant {s : State} {d : DieId} {i : Fin 32} (h : Continues s d i) {e : DieId} {pick : Pick}
    (hp : s.decision e = some pick) : Continues (s.grant e pick) d i := by
  have k := grant_internal hp
  by_cases he : e = d
  · subst he
    refine h.of_internal k ?_
    have hs := (decision_grantable hp).1
    have hc : (s.port e).drainClaim = some { entry := i, continuation := true } := by
      rcases h.held with hh | hh
      · exact hh
      · rw [hs] at hh; cases hh
    cases pick with
    | drain c b =>
      have := decision_drain hp
      unfold State.drainClaimant at this
      rw [hc] at this
      have hcc : c = { entry := i, continuation := true } := by
        have := (Option.filter_eq_some_iff.mp this).1
        cases this; rfl
      right
      simp [State.grant, State.fillSlot, hcc]
    | channel op => left; simp [State.grant, State.fillSlot, hc]
    | refresh => left; simp [State.grant, State.fillSlot, hc]
    | recal => left; simp [State.grant, State.fillSlot, hc]
    | temp => left; simp [State.grant, State.fillSlot, hc]
    | read r => left; simp [State.grant, State.fillSlot, hc]
  · refine h.of_port k ?_ ?_ <;> cases pick <;> simp [State.grant, State.fillSlot, State.setPort_port, he]

theorem Continues.arbitrate {s : State} {d : DieId} {i : Fin 32} (h : Continues s d i) (e : DieId) :
    Continues (s.arbitrate e) d i := by
  unfold State.arbitrate
  split
  · split
    · exact h
    · next hp => exact (((h.grant hp).retest e).keepCareClaims e).select e
  · exact h

theorem Continues.prepare {s : State} {d : DieId} {i : Fin 32} (h : Continues s d i) (e : DieId) :
    Continues (s.prepare e) d i := by
  unfold State.prepare
  split
  · exact (((h.retest e).keepCareClaims e).keepChannelClaim e).select e
  · exact h

theorem Continues.forDies {s : State} {d : DieId} {i : Fin 32} (h : Continues s d i) (f : DieId → State → State)
    (hf : ∀ e t, Continues t d i → Continues (f e t) d i) : Continues (forDies f s) d i :=
  hf 3 _ (hf 2 _ (hf 1 _ (hf 0 _ h)))

theorem Continues.takeLevel {s : State} {d : DieId} {i : Fin 32} (h : Continues s d i) : Continues s.takeLevel d i := by
  unfold State.takeLevel
  dsimp only
  split
  · exact h
  · refine Continues.forDies (s := s.setDrain { s.drain with pressure := s.level }) ⟨h.draining, h.die, h.held⟩ _
      fun e t ht => ?_
    split
    · split
      · exact ht.withdrawSelection e
      · split <;> [exact ht.select e; exact ht]
    · exact ht

/-- The closing of an event keeps a continuation claim, pending or granted. -/
theorem Continues.finish {s : State} {d : DieId} {i : Fin 32} (h : Continues s d i) (before : State)
    (touched : DieId → Bool) : Continues (s.finish before touched) d i := by
  unfold State.finish
  dsimp only
  refine ((Continues.takeLevel (s := s.testHysteresis) ⟨h.draining, h.die, h.held⟩).forDies _ fun e t ht => ?_).forDies
    _ fun e t ht => ?_
  · split <;> [exact ht.prepare e; exact ht]
  · split <;> [exact ht.arbitrate e; exact ht]

end Sys2Proof.Machine
end

