-- ==== Sys2Proof/Laws/Control.lean ====
section
/-! SUPPORT. What the shared operations of Channel Control, the table and the link do, each said once. -/

namespace Sys2Proof.Machine

/-! ### Completions -/

theorem State.vacated_port (s : State) (d : DieId) :
    (s.vacated d).port d =
      { s.port d with
        slot := none, opLimit := none, state := if (s.port d).state = .init then .init else .idle } := by
  simp [State.vacated]

theorem controlCompletion_done (s : State) (d : DieId) (f : State → State) :
    s.controlCompletion d (plain .done) f = (f (s.vacated d)).finishAt s d := by
  unfold State.controlCompletion
  rw [if_pos (by decide)]; rfl

theorem controlCompletion_fail (s : State) (d : DieId) (f : State → State) :
    s.controlCompletion d (plain .fail) f = s.completeFail d := by
  unfold State.controlCompletion
  rw [if_neg (by decide), if_pos (by decide)]

/-! ### Steps at every present die -/

/-- What one step at a die keeps, the step at every present die keeps. -/
theorem forPresent_keeps {P : State → Prop} (f : DieId → State → State) {s : State} (h : P s)
    (k : ∀ d t, P t → P (f d t)) : P (s.forPresent f) := by
  have g (d : DieId) (t : State) (ht : P t) : P (if t.present d then f d t else t) := by
    split <;> [exact k d t ht; exact ht]
  exact g 3 _ (g 2 _ (g 1 _ (g 0 _ h)))

/-- What one die sees of a step at every present die, when the step at a die leaves what the others see. -/
theorem forPresent_view {α : Type} (v : State → α) (K : State → Prop) (f : DieId → State → State) (d : DieId)
    (g : α → α) (s : State) (h : K s) (keep : ∀ e t, K t → K (f e t)) (hp : ∀ t, K t → t.present d = s.present d)
    (own : ∀ t, K t → v (f d t) = g (v t)) (other : ∀ e t, e ≠ d → v (f e t) = v t) :
    v (s.forPresent f) = if s.present d then g (v s) else v s := by
  unfold State.forPresent
  refine forDies_turn (P := fun t => K t ∧ v t = v s)
    (Q := fun t => v t = if s.present d then g (v s) else v s) _ d s ⟨h, rfl⟩ ?_ ?_ ?_
  · intro e t he ht
    split
    · exact ⟨keep e t ht.1, (other e t he).trans ht.2⟩
    · exact ht
  · intro t ht
    rw [hp t ht.1]
    split
    · rw [own t ht.1, ht.2]
    · exact ht.2
  · intro e t he ht
    split
    · exact (other e t he).trans ht
    · exact ht

/-- A Channel Control claim placed at every present die. -/
theorem claimAll_eq (s : State) (op : State → ChannelOp) (op0 : ChannelOp)
    (h : ∀ t : State, t.chan = s.chan → op t = op0) :
    s.forPresent (fun d t => t.setChannelClaim d (some (op t))) =
      { s with
        ports := Vector.ofFn fun d =>
          if s.present d then { s.port d with channelClaim := some op0 } else s.port d } := by
  obtain ⟨g, hg⟩ : ∃ g : DieId → Port → Port, g = fun _ p => { p with channelClaim := some op0 } := ⟨_, rfl⟩
  have h2 := forPresent_setPort g s
  have h1 : s.forPresent (fun d t => t.setChannelClaim d (some (op t))) =
      s.forPresent (fun d t => t.setPort d (g d (t.port d))) := by
    unfold State.forPresent
    refine forDies_congr (P := fun t => t.chan = s.chan) _ _ rfl fun d t ht => ?_
    dsimp only
    rw [h t ht, hg]
    split <;> exact ⟨rfl, ht⟩
  rw [h1, h2, hg]

/-- A phase begins with one claim at every present die (R127). -/
theorem beginPhase_eq (s : State) (phase : Phase) (op : State → ChannelOp) (op0 : ChannelOp)
    (h : ∀ t : State, t.chan = (s.setPartState .switching (some phase)).chan → op t = op0) :
    s.beginPhase phase op =
      { s.setPartState .switching (some phase) with
        ports := Vector.ofFn fun d =>
          if s.present d then { s.port d with channelClaim := some op0 } else s.port d } :=
  claimAll_eq _ op op0 h

/-- The claims of phases WAKE, RECAL and APPLY are granted as their event closes. -/
theorem beginPhase_offers (s : State) (phase : Phase) (op : State → ChannelOp) (op0 : ChannelOp)
    (h : ∀ t : State, t.chan = (s.setPartState .switching (some phase)).chan → op t = op0)
    (hp : phase = .wake ∨ phase = .recal ∨ phase = .apply) (d : DieId) (hd : s.present d = true)
    (hs : (s.port d).slot = none) (hi : (s.port d).state = .idle ∨ ((s.port d).state = .parked ∧ op0 = .parkExit)) :
    Offers (s.beginPhase phase op) d op0 := by
  have hq : (s.beginPhase phase op).port d = { s.port d with channelClaim := some op0 } := by
    rw [beginPhase_eq s phase op op0 h]; simp [State.port, hd]
  have hc : (s.beginPhase phase op).chan = (s.setPartState .switching (some phase)).chan := by
    rw [beginPhase_eq s phase op op0 h]
  refine ⟨?_, by rw [hq], by rw [hq]; exact hs, ?_, ?_, ?_⟩
  · have := hd
    simp only [State.present, hc] at this ⊢; exact this
  · unfold State.permits
    rw [hc]
    rcases hp with rfl | rfl | rfl <;> rfl
  · unfold ClaimStays
    rw [hc]
    show some phase = some Phase.quiesce → _
    rcases hp with rfl | rfl | rfl <;> simp
  · rw [hq]
    rcases hi with h | h
    · exact .inr (.inr (.inr h))
    · exact .inr (.inr (.inl h))

/-- Entry to phase CLOCK (R126). -/
theorem enterClock_eq (s : State) (target : ProfileId) (tag : Tag) (suppressed : Bool)
    (h : s.chan.procedure = some ⟨.rateSwitch target, tag, suppressed⟩) :
    s.enterClock =
      { s with
        ports := Vector.ofFn fun d =>
          if s.present d then { s.port d with clock := some ((s.chan.profile target).field 0) } else s.port d
        chan :=
          { s.chan with
            phase := some .clock, active := target, relock := some ((s.chan.profile target).field 15 * 1000)
            recalOwed := Vector.ofFn fun d => s.present d || s.chan.recalOwed[d] } } := by
  unfold State.enterClock
  rw [h]
  dsimp only
  generalize hclk : (s.chan.profile target).field 0 = clk
  obtain ⟨x, hx⟩ : ∃ x, x = s.forPresent fun d t =>
      (t.setPort d { t.port d with clock := some clk }).setRecalOwed d true := ⟨_, rfl⟩
  have form : x = { s with ports := x.ports, chan := { s.chan with recalOwed := x.chan.recalOwed } } := by
    rw [hx]
    refine forPresent_keeps (P := fun x => x = { s with ports := x.ports, chan := { s.chan with recalOwed := x.chan.recalOwed } })
      _ rfl fun d t ht => ?_
    rw [ht]; rfl
  have key (d : DieId) :
      x.port d = (if s.present d then { s.port d with clock := some clk } else s.port d) ∧
        x.chan.recalOwed[d] = (s.present d || s.chan.recalOwed[d]) := by
    have other (t : State) (e : DieId) (he : e ≠ d) :
        ((t.setPort e { t.port e with clock := some clk }).setRecalOwed e true).port d = t.port d := by
      show (State.setPort _ _ _).port d = _
      rw [State.setPort_port, if_neg he]
    have owed (t : State) (e : DieId) (he : e.val ≠ d.val) :
        ((t.setPort e { t.port e with clock := some clk }).setRecalOwed e true).chan.recalOwed[d] =
          t.chan.recalOwed[d] := by
      show (t.chan.recalOwed.set e true)[d] = _
      simp only [Fin.getElem_fin, Vector.getElem_set_ne (h := he)]
    rw [hx]
    unfold State.forPresent
    refine (forDies_turn
      (P := fun t => t.chan.settings = s.chan.settings ∧ t.port d = s.port d ∧ t.chan.recalOwed[d] = s.chan.recalOwed[d])
      (Q := fun t => t.port d = (if s.present d then { s.port d with clock := some clk } else s.port d) ∧
        t.chan.recalOwed[d] = (s.present d || s.chan.recalOwed[d])) _ d s ⟨rfl, rfl, rfl⟩ ?_ ?_ ?_)
    · intro e t he ht
      have hne : e.val ≠ d.val := fun x => he (Fin.ext x)
      split
      · exact ⟨ht.1, by rw [other t e he]; exact ht.2.1, by rw [owed t e hne]; exact ht.2.2⟩
      · exact ht
    · intro t ht
      have hp : t.present d = s.present d := by simp [State.present, ht.1]
      rw [hp]
      split
      · next hd => exact ⟨by show (State.setPort _ _ _).port d = _; rw [State.setPort_port_self, ht.2.1], by simp [State.setRecalOwed, hd]⟩
      · next hn => exact ⟨ht.2.1, by simp [ht.2.2, hn]⟩
    · intro e t he ht
      have hne : e.val ≠ d.val := fun x => he (Fin.ext x)
      split
      · exact ⟨by rw [other t e he]; exact ht.1, by rw [owed t e hne]; exact ht.2⟩
      · exact ht
  have k1 : x.ports = Vector.ofFn fun d => if s.present d then { s.port d with clock := some clk } else s.port d :=
    vector4_ext fun d => by rw [show x.ports[d] = x.port d from rfl, (key d).1]; simp
  have k2 : x.chan.recalOwed = Vector.ofFn fun d => s.present d || s.chan.recalOwed[d] :=
    vector4_ext fun d => by rw [(key d).2]; simp
  rw [← hx, form, k1, k2]
  rfl

/-- The present dies' clocks are set, the others' held low (R72). -/
theorem setClocks_eq (s : State) (period : Nat) :
    s.setClocks period =
      { s with
        ports := Vector.ofFn fun d =>
          { s.port d with clock := if s.present d then some period else none } } := by
  refine Eq.trans (forDies_congr (P := fun t => t.chan = s.chan) _ _ rfl fun d t ht => ?_)
    (forDies_setPort (fun d p => { p with clock := if s.present d then some period else none }) s)
  have hp : t.present d = s.present d := by simp [State.present, ht]
  rw [hp]
  exact ⟨rfl, ht⟩

/-- The present ports return to OFF and their shadows are unknown (R86, R118). -/
theorem toOffAll_eq (s : State) :
    (s.forPresent fun d t =>
        (t.setPort d ((t.port d).toOff t.activePeriod)).setChan
          { t.chan with shadow := t.chan.shadow.set d shadowUnknown }) =
      { s with
        ports := Vector.ofFn fun d => if s.present d then (s.port d).toOff s.activePeriod else s.port d
        chan :=
          { s.chan with
            shadow := Vector.ofFn fun d => if s.present d then shadowUnknown else s.chan.shadow[d] } } := by
  obtain ⟨f, hf⟩ : ∃ f : DieId → State → State, f = fun d t =>
      (t.setPort d ((t.port d).toOff t.activePeriod)).setChan
        { t.chan with shadow := t.chan.shadow.set d shadowUnknown } := ⟨_, rfl⟩
  rw [← hf]
  have keep : ∀ e t, t = { s with ports := t.ports, chan := { s.chan with shadow := t.chan.shadow } } →
      f e t = { s with ports := (f e t).ports, chan := { s.chan with shadow := (f e t).chan.shadow } } := by
    intro e t ht; rw [hf, ht]; rfl
  have form := forPresent_keeps
    (P := fun t => t = { s with ports := t.ports, chan := { s.chan with shadow := t.chan.shadow } }) f (s := s) rfl keep
  have ports (d : DieId) :=
    forPresent_view (fun t => t.port d) (fun t => t = { s with ports := t.ports, chan := { s.chan with shadow := t.chan.shadow } })
      f d (fun p => p.toOff s.activePeriod) s rfl keep (fun t ht => by rw [ht]; rfl)
      (fun t ht => by
        have : t.activePeriod = s.activePeriod := by rw [ht]; rfl
        rw [← this, hf]
        show (State.setPort _ _ _).port d = _
        rw [State.setPort_port_self])
      (fun e t he => by
        rw [hf]
        show (State.setPort _ _ _).port d = _
        rw [State.setPort_port, if_neg he])
  have shadows (d : DieId) :=
    forPresent_view (fun t => t.chan.shadow[d])
      (fun t => t = { s with ports := t.ports, chan := { s.chan with shadow := t.chan.shadow } })
      f d (fun _ => shadowUnknown) s rfl keep (fun t ht => by rw [ht]; rfl)
      (fun t ht => by rw [hf]; show (t.chan.shadow.set d shadowUnknown)[d] = _; simp)
      (fun e t he => by
        have hne : e.val ≠ d.val := fun x => he (Fin.ext x)
        rw [hf]
        show (t.chan.shadow.set e shadowUnknown)[d] = _
        simp only [Fin.getElem_fin, Vector.getElem_set_ne (h := hne)])
  have k1 : (s.forPresent f).ports =
      Vector.ofFn fun d => if s.present d then (s.port d).toOff s.activePeriod else s.port d :=
    vector4_ext fun d => by rw [show (s.forPresent f).ports[d] = (s.forPresent f).port d from rfl, ports d]; simp
  have k2 : (s.forPresent f).chan.shadow =
      Vector.ofFn fun d => if s.present d then shadowUnknown else s.chan.shadow[d] :=
    vector4_ext fun d => by rw [shadows d]; simp
  rw [form, k1, k2]

/-! ### Answers -/

/-- Answers of outstanding requests, queued in order: their tags leave the Tag Set. -/
theorem closeAll_eq (l : List Answer) (s : State) :
    s.closeAll l =
      s.setLink
        { s.link with
          tags := s.link.tags.filter fun x => !(l.map Answer.tag).contains x
          answers := s.link.answers ++ l } := by
  induction l generalizing s with
  | nil => show s = _; simp [State.setLink]
  | cons a l ih =>
    show (s.close a).closeAll l = _
    rw [ih]
    simp only [State.close, State.setLink]
    congr 1
    congr 1
    · rw [List.filter_filter]
      congr 1; funext x
      by_cases h : x = a.tag <;> simp [h]
    · simp

/-- The end of the procedure in progress (R115). -/
theorem endProcedure_eq (s : State) (status : Status) (detail : BitVec 32) (kind : ProcedureKind) (tag : Tag)
    (suppressed : Bool) (h : s.chan.procedure = some ⟨kind, tag, suppressed⟩) :
    s.endProcedure status detail =
      { s with
        chan := { s.chan with procedure := none }
        link :=
          if suppressed then s.link
          else
            { s.link with
              tags := s.link.tags.filter fun x => x != tag
              answers := s.link.answers ++ [Answer.plain tag status detail] } } := by
  unfold State.endProcedure
  rw [h]
  cases suppressed <;> rfl

/-! ### Look-ups in the table -/

theorem findEntry_unique {s : State} {p : Entry → Bool} {i : Fin 32} (hi : p (s.entry i) = true)
    (hu : ∀ j, p (s.entry j) = true → j = i) : s.findEntry p = some i := by
  unfold State.findEntry
  have : ((List.finRange 32).find? fun i => p (s.entry i)).isSome = true := by
    rw [List.find?_isSome]; exact ⟨i, List.mem_finRange i, hi⟩
  obtain ⟨j, hj⟩ := Option.isSome_iff_exists.mp this
  rw [hj]
  have := List.find?_some hj
  rw [hu j this]

theorem findEntry_none {s : State} {p : Entry → Bool} (h : ∀ j, p (s.entry j) = false) : s.findEntry p = none := by
  unfold State.findEntry
  rw [List.find?_eq_none]
  intro j _; simp [h j]

theorem findEntry_isSome {s : State} {p : Entry → Bool} :
    (s.findEntry p).isSome = true ↔ ∃ j, p (s.entry j) = true := by
  unfold State.findEntry
  rw [List.find?_isSome]
  simp

theorem findEntry_some {s : State} {p : Entry → Bool} {i : Fin 32} (h : s.findEntry p = some i) :
    p (s.entry i) = true := by
  unfold State.findEntry at h
  exact List.find?_some (p := fun i => p (s.entry i)) h

theorem findEntry_lowest {s : State} {p : Entry → Bool} {i : Fin 32} (hi : p (s.entry i) = true)
    (hl : ∀ j, j < i → p (s.entry j) = false) : s.findEntry p = some i := by
  unfold State.findEntry
  rw [List.find?_eq_some_iff_getElem]
  refine ⟨hi, i.val, by simp, by simp, ?_⟩
  intro j hj
  simp [hl ⟨j, by omega⟩ (by exact hj)]

end Sys2Proof.Machine
end

