-- ==== Sys2Proof/Laws/Selection.lean ====
section
/-! SUPPORT. The Drain Scheduler's selection: its claim at a die names the oldest eligible entry, follows the level, and
stays pending or is granted while an event closes (R25 to R28). -/

namespace Sys2Proof.Machine

/-! ### Order and eligibility -/

theorem precedes_asymm {a b : Wsn} (h : precedes a b = true) : precedes b a = false := by
  unfold precedes at h ⊢
  simp only [Bool.and_eq_true, decide_eq_true_eq, bne_iff_ne, ne_eq] at h
  rw [Bool.and_eq_false_iff]
  left
  rw [decide_eq_false_iff_not]
  have hne : a.toNat ≠ b.toNat := fun e => h.2 (BitVec.eq_of_toNat_eq e)
  have h1 := h.1
  have := a.isLt
  have := b.isLt
  rw [BitVec.toNat_sub] at h1 ⊢
  omega

/-- The entry whose first WSN precedes the others' is the oldest (R27). -/
theorem oldest_eq {s : State} {p : Fin 32 → Bool} {i : Fin 32} (hi : p i = true)
    (h : ∀ j, j ≠ i → p j = true → precedes (s.entry i).firstWsn (s.entry j).firstWsn = true) : s.oldest p = some i := by
  unfold State.oldest
  generalize hf : (fun (best : Option (Fin 32)) i => if p i then
      (match best with
        | none => some i
        | some j => if precedes (s.entry i).firstWsn (s.entry j).firstWsn then some i else some j)
      else best) = f
  have stay (l : List (Fin 32)) : l.foldl f (some i) = some i := by
    induction l with
    | nil => rfl
    | cons j l ih =>
      rw [List.foldl_cons]
      have : f (some i) j = some i := by
        rw [← hf]
        dsimp only
        by_cases hj : j = i
        · subst hj
          rw [if_pos hi]
          split <;> rfl
        · by_cases hp : p j = true
          · rw [if_pos hp, precedes_asymm (h j hj hp)]; rfl
          · rw [if_neg hp]
      rw [this, ih]
  have reach (l : List (Fin 32)) (b : Option (Fin 32)) (hb : ∀ j, b = some j → p j = true) (hl : i ∈ l) :
      l.foldl f b = some i := by
    induction l generalizing b with
    | nil => cases hl
    | cons j l ih =>
      rw [List.foldl_cons]
      by_cases hj : j = i
      · subst hj
        have : f b j = some j := by
          rw [← hf]
          dsimp only
          rw [if_pos hi]
          cases b with
          | none => rfl
          | some k =>
            dsimp only
            by_cases hk : k = j
            · subst hk; split <;> rfl
            · rw [if_pos (h k hk (hb k rfl))]
        rw [this, stay]
      · refine ih _ ?_ ((List.mem_cons.mp hl).resolve_left (Ne.symm hj))
        intro k hk
        rw [← hf] at hk
        dsimp only at hk
        split at hk
        · next hp =>
          cases b with
          | none => cases hk; exact hp
          | some m =>
            dsimp only at hk
            split at hk
            · cases hk; exact hp
            · exact hb k hk
        · exact hb k hk
  exact reach _ none (fun j e => by cases e) (List.mem_finRange i)

theorem oldest_none {s : State} {p : Fin 32 → Bool} (h : ∀ j, p j = false) : s.oldest p = none := by
  unfold State.oldest
  generalize List.finRange 32 = l
  induction l with
  | nil => rfl
  | cons j l ih =>
    rw [List.foldl_cons]
    simp only [h j, Bool.false_eq_true, if_false]
    exact ih

/-- What makes an entry eligible (R26). -/
theorem eligible_iff (s : State) (i : Fin 32) :
    s.eligible i = true ↔
      (s.entry i).state = .opened ∧ (s.entry i).gen = .first ∧
        ∃ line, (s.entry i).line = some line ∧ (∀ r ∈ s.reads.list, r.line ≠ line) ∧
          ((s.port (s.dieIndex line)).state = .idle ∨ (s.port (s.dieIndex line)).state = .busy) ∧
          (s.chan.partState = .running ∨ s.chan.partState = .stopped) := by
  unfold State.eligible
  simp only [Bool.and_eq_true, beq_iff_eq, and_assoc]
  refine and_congr Iff.rfl (and_congr Iff.rfl ?_)
  cases hl : (s.entry i).line with
  | none => simp
  | some line =>
    simp only [Bool.and_eq_true, Bool.or_eq_true, Bool.not_eq_true', beq_iff_eq, bne_iff_ne, and_assoc,
      Option.some.injEq, exists_eq_left']
    have hh : s.lineHeld line = false ↔ ∀ r ∈ s.reads.list, r.line ≠ line := by
      unfold State.lineHeld
      rw [List.any_eq_false]
      refine forall_congr' fun r => forall_congr' fun _ => ?_
      simp
    rw [hh]
    refine and_congr Iff.rfl ⟨fun ⟨h1, h2⟩ => ⟨h1, h2.imp id And.left⟩, fun ⟨h1, h2⟩ => ⟨h1, h2.imp id fun h => ⟨h, ?_⟩⟩⟩
    rcases h1 with e | e <;> rw [e] <;> exact fun x => PortState.noConfusion x

theorem dieDraining_iff (s : State) (d : DieId) :
    s.dieDraining d = true ↔ ∃ i, (s.entry i).state = .draining ∧ s.entryDie i = some d := by
  simp [State.dieDraining, List.any_eq_true, List.mem_finRange]

/-! ### Selection -/

/-- The drain claim that a selection leaves at a die (R25, R27). -/
def selectedClaim (s : State) (d : DieId) (old : Option DrainClaim) : Option DrainClaim :=
  if s.dieDraining d then old.filter DrainClaim.continuation
  else if s.drain.pressure = .none then none
  else (s.oldest fun i => s.eligible i && s.entryDie i == some d).map fun i => { entry := i, continuation := false }

theorem withdrawSelection_eq (s : State) (d : DieId) :
    s.withdrawSelection d = s.setDrainClaim d ((s.port d).drainClaim.filter DrainClaim.continuation) := by
  have same (c : Option DrainClaim) (h : (s.port d).drainClaim = c) : s = s.setDrainClaim d c := by
    rw [← h]; exact (setDrainClaim_same s d).symm
  unfold State.withdrawSelection
  split
  · next c h =>
    rw [h, Option.filter_some]
    by_cases hc : c.continuation = true
    · rw [if_pos hc, if_pos hc]; exact same _ h
    · rw [if_neg hc, if_neg hc]
  · next h => rw [h]; exact same _ h

theorem select_eq (s : State) (d : DieId) : s.select d = s.setDrainClaim d (selectedClaim s d (s.port d).drainClaim) := by
  unfold State.select selectedClaim
  split
  · exact withdrawSelection_eq s d
  · split <;> rfl

/-- The selection names the oldest eligible entry of a die without a DRAINING one (R27). -/
theorem selectedClaim_oldest {s : State} {d : DieId} {i : Fin 32} (old : Option DrainClaim)
    (hd : s.dieDraining d = false) (hp : s.drain.pressure ≠ .none) (h : OldestEligible s d i) :
    selectedClaim s d old = some { entry := i, continuation := false } := by
  unfold selectedClaim
  rw [hd, if_neg Bool.false_ne_true, if_neg hp, oldest_eq (i := i)]
  · rfl
  · simp [h.1, h.2.1]
  · intro j hj hp
    simp only [Bool.and_eq_true, beq_iff_eq] at hp
    exact h.2.2 j hj hp.1 hp.2

theorem selectedClaim_empty {s : State} {d : DieId} (old : Option DrainClaim) (hd : s.dieDraining d = false)
    (h : ∀ i, s.eligible i = true → s.entryDie i ≠ some d) : selectedClaim s d old = none := by
  unfold selectedClaim
  rw [hd, if_neg Bool.false_ne_true]
  split
  · rfl
  · rw [oldest_none]
    · rfl
    · intro i
      by_cases he : s.eligible i = true
      · have := h i he
        simp [this]
      · simp [he]

/-- The entry that `oldest` names has the property. -/
theorem oldest_mem {s : State} {p : Fin 32 → Bool} {i : Fin 32} (h : s.oldest p = some i) : p i = true := by
  have mem (l : List (Fin 32)) (b : Option (Fin 32)) (hb : ∀ j, b = some j → p j = true) :
      ∀ j, l.foldl (fun best i => if p i then
        (match best with
          | none => some i
          | some j => if precedes (s.entry i).firstWsn (s.entry j).firstWsn then some i else some j)
        else best) b = some j → p j = true := by
    induction l generalizing b with
    | nil => exact hb
    | cons k l ih =>
      intro j hj
      rw [List.foldl_cons] at hj
      refine ih _ ?_ j hj
      intro m hm
      split at hm
      · next hp =>
        cases b with
        | none => cases hm; exact hp
        | some n =>
          dsimp only at hm
          split at hm
          · cases hm; exact hp
          · exact hb m hm
      · exact hb m hm
  exact mem _ none (fun j e => by cases e) i h

/-- A selection claim that a selection leaves is of an entry of the die. -/
theorem selectedClaim_die {s : State} {d : DieId} {old : Option DrainClaim} {c : DrainClaim}
    (h : selectedClaim s d old = some c) (hc : c.continuation = false) : s.entryDie c.entry = some d := by
  unfold selectedClaim at h
  split at h
  · rw [Option.filter_eq_some_iff] at h
    rw [h.2] at hc; cases hc
  · split at h
    · cases h
    · obtain ⟨i, hi, rfl⟩ := Option.map_eq_some_iff.mp h
      have := oldest_mem hi
      simp only [Bool.and_eq_true, beq_iff_eq] at this
      exact this.2

theorem entry_congr {s t : State} (h : t.table.entries = s.table.entries) (i : Fin 32) : t.entry i = s.entry i := by
  simp only [State.entry, h]

theorem entryDie_congr {s t : State} (h : t.table.entries = s.table.entries)
    (hc : t.chan.settings = s.chan.settings) (i : Fin 32) : t.entryDie i = s.entryDie i := by
  unfold State.entryDie
  rw [entry_congr h]
  have : t.dieIndex = s.dieIndex := by funext l; simp only [State.dieIndex, hc]
  rw [this]

/-- What the eligibility of an entry on die d reads (R26). -/
theorem eligible_congr {s t : State} {d : DieId} {i : Fin 32} (he : t.entry i = s.entry i)
    (hc : t.chan = s.chan) (hr : t.reads.list.map ReadRecord.line = s.reads.list.map ReadRecord.line)
    (hp : ((t.port d).state = .idle ∨ (t.port d).state = .busy) ↔ ((s.port d).state = .idle ∨ (s.port d).state = .busy))
    (hd : s.entryDie i = some d) : t.eligible i = s.eligible i := by
  rw [Bool.eq_iff_iff, eligible_iff, eligible_iff, he, hc]
  refine and_congr Iff.rfl (and_congr Iff.rfl (exists_congr fun line => ?_))
  refine and_congr_right fun hl => ?_
  have hdi : s.dieIndex line = d := by
    unfold State.entryDie at hd
    rw [hl] at hd
    exact Option.some.inj hd
  have hdt : t.dieIndex line = d := by rw [← hdi]; simp only [State.dieIndex, hc]
  rw [hdi, hdt, hp]
  refine and_congr ?_ Iff.rfl
  have all (l : List ReadRecord) : (∀ r ∈ l, r.line ≠ line) ↔ ∀ x ∈ l.map ReadRecord.line, x ≠ line := by simp
  rw [all, all, hr]

/-- Two states that agree in what the selection on die d reads. -/
structure SameSelection (s t : State) (d : DieId) : Prop where
  chan : t.chan = s.chan
  reads : t.reads.list.map ReadRecord.line = s.reads.list.map ReadRecord.line
  port : ((t.port d).state = .idle ∨ (t.port d).state = .busy) ↔ ((s.port d).state = .idle ∨ (s.port d).state = .busy)
  dies : ∀ j, t.entryDie j = s.entryDie j
  entries : ∀ j, s.entryDie j = some d → t.entry j = s.entry j

theorem SameSelection.eligible {s t : State} {d : DieId} (h : SameSelection s t d) {i : Fin 32}
    (hd : s.entryDie i = some d) : t.eligible i = s.eligible i :=
  eligible_congr (h.entries i hd) h.chan h.reads h.port hd

theorem SameSelection.oldest {s t : State} {d : DieId} {i : Fin 32} (h : SameSelection s t d)
    (k : OldestEligible s d i) : OldestEligible t d i := by
  refine ⟨(h.eligible k.2.1).trans k.1, (h.dies i).trans k.2.1, fun j hj he hd => ?_⟩
  rw [h.dies] at hd
  rw [h.entries i k.2.1, h.entries j hd]
  exact k.2.2 j hj ((h.eligible hd).symm.trans he) hd

theorem SameSelection.dieDraining {s t : State} {d : DieId} (h : SameSelection s t d) :
    t.dieDraining d = s.dieDraining d := by
  rw [Bool.eq_iff_iff, dieDraining_iff, dieDraining_iff]
  refine exists_congr fun i => ?_
  rw [h.dies]
  refine and_congr_left fun hd => ?_
  rw [h.entries i hd]

theorem dieDraining_congr {s t : State} {d : DieId} (ht : t.table.entries = s.table.entries)
    (hc : t.chan.settings = s.chan.settings) : t.dieDraining d = s.dieDraining d := by
  unfold State.dieDraining
  congr 1
  funext i
  rw [entry_congr ht, entryDie_congr ht hc]

/-- A selection reads entries, reads, settings, part state, pressure and port states, but no claim. -/
theorem selectedClaim_congr {s t : State} {d : DieId} (ht : t.table.entries = s.table.entries) (hc : t.chan = s.chan)
    (hr : t.reads = s.reads) (hp : ∀ e, (t.port e).state = (s.port e).state)
    (hd : t.drain.pressure = s.drain.pressure) (old : Option DrainClaim) : selectedClaim t d old = selectedClaim s d old := by
  have hs : t.chan.settings = s.chan.settings := by rw [hc]
  unfold selectedClaim
  rw [dieDraining_congr ht hs, hd]
  have hold : t.oldest = s.oldest := by
    funext p; unfold State.oldest; simp only [entry_congr ht]
  have hel (i : Fin 32) : (t.eligible i && t.entryDie i == some d) = (s.eligible i && s.entryDie i == some d) := by
    rw [entryDie_congr ht hs]
    by_cases he : s.entryDie i = some d
    · rw [eligible_congr (entry_congr ht i) hc (by rw [hr]) (by rw [hp d]) he]
    · rw [beq_eq_false_iff_ne.mpr he, Bool.and_false, Bool.and_false]
  rw [hold, funext hel]

/-! ### The level -/

/-- What a change of level does to a present die's drain claim (R25). -/
def leveledClaim (s : State) (d : DieId) (old : Option DrainClaim) : Option DrainClaim :=
  if s.present d = true ∧ s.drain.pressure ≠ .none ∧ s.level = .none then old.filter DrainClaim.continuation
  else if s.present d = true ∧ s.drain.pressure = .none ∧ s.level ≠ .none then
    selectedClaim { s with drain := { s.drain with pressure := s.level } } d old
  else old

/-- The level takes its value, and acts on the drain claims of the present dies alone (R22, R25). -/
theorem takeLevel_eq (s : State) :
    s.takeLevel =
      { s with
        drain := { s.drain with pressure := s.level }
        ports := Vector.ofFn fun d => { s.port d with drainClaim := leveledClaim s d (s.port d).drainClaim } } := by
  unfold State.takeLevel
  dsimp only
  by_cases he : s.level = s.drain.pressure
  · rw [if_pos he]
    have hl (d : DieId) : leveledClaim s d (s.port d).drainClaim = (s.port d).drainClaim := by
      unfold leveledClaim
      rw [he, if_neg (fun h => h.2.1 h.2.2), if_neg (fun h => h.2.2 h.2.1)]
    have hp : (Vector.ofFn fun d => { s.port d with drainClaim := leveledClaim s d (s.port d).drainClaim }) = s.ports :=
      vector4_ext fun d => by
        rw [Fin.getElem_fin, Vector.getElem_ofFn]
        simp only [Fin.eta]
        rw [hl]
        rfl
    rw [hp, he]
  · rw [if_neg he]
    generalize hx : s.setDrain { s.drain with pressure := s.level } = x
    have hxd : x = { s with drain := { s.drain with pressure := s.level } } := hx.symm
    have step := forDies_congr
      (P := fun t : State => t.table.entries = x.table.entries ∧ t.chan = x.chan ∧ t.reads = x.reads ∧
        t.drain.pressure = x.drain.pressure ∧ ∀ e, (t.port e).state = (x.port e).state)
      (fun d t => if t.present d then
          (if s.level = .none then t.withdrawSelection d else if s.drain.pressure = .none then t.select d else t) else t)
      (fun d t => t.setPort d { t.port d with drainClaim := leveledClaim s d (t.port d).drainClaim })
      (s := x) ⟨rfl, rfl, rfl, rfl, fun _ => rfl⟩ fun d t ht => by
        obtain ⟨h1, h2, h3, h4, h5⟩ := ht
        have hpr : t.present d = s.present d := by simp only [State.present, h2, hxd]
        refine ⟨?_, h1, h2, h3, h4, fun e => ?_⟩
        · unfold leveledClaim
          rw [hpr]
          by_cases k1 : s.present d = true
          · rw [if_pos k1]
            by_cases k2 : s.level = .none
            · rw [if_pos k2, if_pos ⟨k1, fun h => he (k2.trans h.symm), k2⟩]
              exact withdrawSelection_eq t d
            · rw [if_neg k2]
              by_cases k3 : s.drain.pressure = .none
              · rw [if_pos k3, if_neg (fun h => k2 h.2.2), if_pos ⟨k1, k3, k2⟩, select_eq,
                  selectedClaim_congr h1 h2 h3 h5 h4, hxd]
                rfl
              · rw [if_neg k3, if_neg (fun h => k2 h.2.2), if_neg (fun h => k3 h.2.1)]; exact (t.setPort_same d).symm
          · rw [if_neg k1, if_neg (fun h => k1 h.1), if_neg (fun h => k1 h.1)]; exact (t.setPort_same d).symm
        · rw [State.setPort_port]
          split
          · next k => subst k; exact h5 d
          · exact h5 e
    refine step.trans ?_
    rw [forDies_setPort (fun d p => { p with drainClaim := leveledClaim s d p.drainClaim }) x, hxd]
    rfl

theorem takeLevel_port (s : State) (d : DieId) :
    s.takeLevel.port d = { s.port d with drainClaim := leveledClaim s d (s.port d).drainClaim } := by
  rw [takeLevel_eq]
  simp [State.port]

/-! ### Grants -/

/-- What a grant makes of the entries (R14, R28). -/
theorem grant_entries (s : State) (d : DieId) (pick : Pick) :
    (s.grant d pick).table.entries = s.table.entries ∨
      ∃ c b, pick = .drain c b ∧ c.continuation = false ∧
        ∀ j, j ≠ c.entry → (s.grant d pick).entry j = s.entry j := by
  have same (i : Fin 32) : s.table.entries.set i (s.entry i) = s.table.entries := by
    ext k hk
    rw [Vector.getElem_set]
    split
    · next h => subst h; rfl
    · rfl
  cases pick with
  | drain c b =>
    by_cases hc : c.continuation = true
    · left
      simp only [State.grant, hc, if_true]
      exact same c.entry
    · right
      refine ⟨c, b, rfl, by simpa using hc, fun j hj => ?_⟩
      simp only [State.grant, hc, Bool.false_eq_true, if_false]
      rw [State.setEntry_entry, if_neg (Ne.symm hj)]
      rfl
  | channel op => exact .inl rfl
  | refresh => exact .inl rfl
  | recal => exact .inl rfl
  | temp => exact .inl rfl
  | read r => exact .inl rfl

theorem grant_reads (s : State) (d : DieId) (pick : Pick) :
    (s.grant d pick).reads.list.map ReadRecord.line = s.reads.list.map ReadRecord.line := by
  cases pick with
  | read r =>
    simp only [State.grant, State.setReads, List.map_map]
    congr 1
    funext x
    simp only [Function.comp_apply]
    split <;> rfl
  | _ => rfl

theorem grant_entryDie (s : State) (d : DieId) (pick : Pick) (h : (s.grant d pick).chan = s.chan) (j : Fin 32) :
    (s.grant d pick).entryDie j = s.entryDie j := by
  have hl : ((s.grant d pick).entry j).line = (s.entry j).line := by
    cases pick with
    | drain c b =>
      simp only [State.grant]
      rw [State.setEntry_entry]
      split
      · next k => subst k; split <;> rfl
      · rfl
    | _ => rfl
  unfold State.entryDie
  have : (s.grant d pick).dieIndex = s.dieIndex := by funext l; simp only [State.dieIndex, h]
  rw [this, hl]

theorem grant_drain (s : State) (d : DieId) (pick : Pick) : (s.grant d pick).drain = s.drain := by
  cases pick <;> rfl

theorem grant_port_other (s : State) {d e : DieId} (pick : Pick) (h : e ≠ d) : (s.grant e pick).port d = s.port d := by
  cases pick <;> simp [State.grant, State.fillSlot, State.setPort_port, h]

theorem retest_shape (s : State) (d : DieId) : s.retest d = s ∨ ∃ c, s.retest d = s.setCare d c := by
  unfold State.retest
  dsimp only
  split
  · exact .inl rfl
  · split <;> exact .inr ⟨_, rfl⟩

/-- What follows a grant at its die: the re-test, the unit's claims and a selection (R26, R27, R95). -/
theorem after_grant (s : State) (e : DieId) :
    ((s.retest e).keepCareClaims e).select e =
      { s with
        maint := (s.retest e).maint
        ports := s.ports.set e
          { s.port e with
            refreshClaim := (s.retest e).wantsRefresh e, recalClaim := (s.retest e).wantsRecal e
            tempClaim := (s.retest e).wantsTemp e, drainClaim := selectedClaim s e (s.port e).drainClaim } } := by
  have hm : s.retest e = { s with maint := (s.retest e).maint } := by
    rcases retest_shape s e with k | ⟨c, k⟩
    · rw [k]
    · rw [k]; rfl
  have hp : (s.retest e).ports = s.ports := retest_ports s e
  have hpe : (s.retest e).port e = s.port e := by simp only [State.port, hp]
  have hsel (old : Option DrainClaim) : selectedClaim ((s.retest e).keepCareClaims e) e old = selectedClaim s e old := by
    have hc : (s.retest e).chan = s.chan := (retest_internal s e).chan
    have ht : (s.retest e).table = s.table := by rw [hm]
    have hr : (s.retest e).reads = s.reads := by rw [hm]
    have hd : (s.retest e).drain = s.drain := by rw [hm]
    generalize s.retest e = x at hp hpe hc ht hr hd
    have k1 : (x.keepCareClaims e).table.entries = s.table.entries := by rw [← ht]; rfl
    have k2 : (x.keepCareClaims e).chan = s.chan := by rw [← hc]; rfl
    have k3 : (x.keepCareClaims e).reads = s.reads := by rw [← hr]; rfl
    have k4 : (x.keepCareClaims e).drain.pressure = s.drain.pressure := by rw [← hd]; rfl
    have k5 (d : DieId) : ((x.keepCareClaims e).port d).state = (s.port d).state := by
      unfold State.keepCareClaims
      rw [State.setPort_port]
      split
      · next k => subst k; rw [hpe]
      · simp only [State.port, hp]
    exact selectedClaim_congr k1 k2 k3 k5 k4 old
  rw [select_eq, hsel]
  simp only [State.setDrainClaim, State.keepCareClaims, State.setPort_port_self, hpe]
  generalize (s.retest e).wantsRefresh e = f
  generalize (s.retest e).wantsRecal e = g
  generalize (s.retest e).wantsTemp e = h
  rw [hm]
  simp only [State.setPort, Vector.set_set]

/-- The arbiter of a present port with a decision (R88). -/
theorem arbitrate_grants {s : State} {e : DieId} {pick : Pick} (hp : s.present e = true)
    (hd : s.decision e = some pick) :
    s.arbitrate e = (((s.grant e pick).retest e).keepCareClaims e).select e := by
  unfold State.arbitrate
  rw [if_pos hp, hd]

theorem arbitrate_rests {s : State} {e : DieId} (h : s.present e = false ∨ s.decision e = none) :
    s.arbitrate e = s := by
  unfold State.arbitrate
  rcases h with h | h
  · rw [h]; rfl
  · split
    · rw [h]
    · rfl

/-- A selection claim that is granted is that of the drain claimant (R28). -/
theorem decision_claim {s : State} {e : DieId} {c : DrainClaim} {b : Bool} (h : s.decision e = some (.drain c b)) :
    (s.port e).drainClaim = some c := by
  have := decision_drain h
  unfold State.drainClaimant at this
  exact (Option.filter_eq_some_iff.mp this).1

/-- Another die's arbitration leaves what the selection on die d reads. -/
theorem arbitrate_sameSelection {s : State} {d e : DieId} (he : e ≠ d)
    (own : ∀ c, s.present e = true → (s.port e).drainClaim = some c → c.continuation = false →
      s.entryDie c.entry = some e) :
    SameSelection s (s.arbitrate e) d ∧ (s.arbitrate e).drain = s.drain ∧ (s.arbitrate e).port d = s.port d := by
  by_cases hp : s.present e = true
  · cases hd : s.decision e with
    | none => rw [arbitrate_rests (.inr hd)]; exact ⟨⟨rfl, rfl, Iff.rfl, fun _ => rfl, fun _ _ => rfl⟩, rfl, rfl⟩
    | some pick =>
      have hc := (grant_internal hd).chan
      rw [arbitrate_grants hp hd, after_grant]
      have hport : ∀ (q : Port) (m : Maint), ({ s.grant e pick with maint := m, ports := (s.grant e pick).ports.set e q } : State).port d =
          s.port d := fun q m => by
        show ((s.grant e pick).setPort e q).port d = _
        rw [State.setPort_port, if_neg he, grant_port_other s pick he]
      refine ⟨⟨hc, grant_reads s e pick, by rw [hport], fun j => grant_entryDie s e pick hc j, fun j hj => ?_⟩,
        grant_drain s e pick, hport _ _⟩
      show (s.grant e pick).entry j = _
      rcases grant_entries s e pick with k | ⟨c, b, rfl, k1, k2⟩
      · exact entry_congr k j
      · refine k2 j fun x => ?_
        subst x
        rw [own c hp (decision_claim hd) k1] at hj
        exact he (Option.some.inj hj)
  · rw [arbitrate_rests (.inl (by simpa using hp))]
    exact ⟨⟨rfl, rfl, Iff.rfl, fun _ => rfl, fun _ _ => rfl⟩, rfl, rfl⟩

/-- Every present die's selection claim is of an entry of its own (R27). -/
def ClaimsOwn (s : State) : Prop :=
  ∀ e c, s.present e = true → (s.port e).drainClaim = some c → c.continuation = false → s.entryDie c.entry = some e

theorem ClaimsOwn.arbitrate {s : State} (h : ClaimsOwn s) (e : DieId) : ClaimsOwn (s.arbitrate e) := by
  by_cases hp : s.present e = true
  · cases hd : s.decision e with
    | none => rw [arbitrate_rests (.inr hd)]; exact h
    | some pick =>
      have hc := (grant_internal hd).chan
      rw [arbitrate_grants hp hd, after_grant]
      intro d c hpd hcl hcc
      have hpr : s.present d = true := by
        have : (s.grant e pick).present d = s.present d := by simp only [State.present, hc]
        rw [← this]; exact hpd
      show (s.grant e pick).entryDie c.entry = some d
      replace hcl : (((s.grant e pick).setPort e _).port d).drainClaim = some c := hcl
      rw [State.setPort_port] at hcl
      by_cases k : e = d
      · subst k
        rw [if_pos rfl] at hcl
        exact selectedClaim_die hcl hcc
      · rw [if_neg k, grant_port_other s pick k] at hcl
        rw [grant_entryDie s e pick hc]
        exact h d c hpr hcl hcc
  · rw [arbitrate_rests (.inl (by simpa using hp))]; exact h

/-- Die d has a pending selection claim of its oldest eligible entry. -/
structure Selects (s : State) (d : DieId) (i : Fin 32) : Prop where
  own : ClaimsOwn s
  pressure : s.drain.pressure ≠ .none
  calm : s.dieDraining d = false
  oldest : OldestEligible s d i
  claim : (s.port d).drainClaim = some { entry := i, continuation := false }

theorem Selects.arbitrate {s : State} {d : DieId} {i : Fin 32} (h : Selects s d i) {e : DieId} (he : e ≠ d) :
    Selects (s.arbitrate e) d i := by
  obtain ⟨k1, k2, k3⟩ := arbitrate_sameSelection he (h.own e)
  exact ⟨h.own.arbitrate e, by rw [k2]; exact h.pressure, k1.dieDraining.trans h.calm, k1.oldest h.oldest,
    by rw [k3]; exact h.claim⟩

theorem SelectionHeld.keep {s : State} {d : DieId} {i : Fin 32} (h : SelectionHeld s d i) {e : DieId} (he : e ≠ d)
    (own : ClaimsOwn s) : SelectionHeld (s.arbitrate e) d i := by
  obtain ⟨-, -, k3⟩ := arbitrate_sameSelection he (own e)
  unfold SelectionHeld
  rw [k3]
  exact h

/-- The die's own arbitration grants the claim or leaves it pending (R27, R28). -/
theorem Selects.granted {s : State} {d : DieId} {i : Fin 32} (h : Selects s d i) : SelectionHeld (s.arbitrate d) d i := by
  by_cases hp : s.present d = true
  · cases hd : s.decision d with
    | none => rw [arbitrate_rests (.inr hd)]; exact .inl h.claim
    | some pick =>
      have hg := decision_grantable hd
      have hc := (grant_internal hd).chan
      rw [arbitrate_grants hp hd, after_grant]
      have hport (q : Port) (m : Maint) :
          ({ s.grant d pick with maint := m, ports := (s.grant d pick).ports.set d q } : State).port d = q := by
        show ((s.grant d pick).setPort d q).port d = q
        rw [State.setPort_port_self]
      unfold SelectionHeld
      rw [hport]
      dsimp only
      rcases grant_entries s d pick with k | ⟨c, b, rfl, k1, k2⟩
      · left
        refine selectedClaim_oldest _ ?_ (by rw [grant_drain]; exact h.pressure) ?_
        · exact (dieDraining_congr k (by rw [hc])).trans h.calm
        · have hidle : (s.port d).state = .idle ∨ (s.port d).state = .busy := by
            obtain ⟨-, -, line, hl, -, hs, -⟩ := (eligible_iff s i).mp h.oldest.1
            have hdi := h.oldest.2.1
            unfold State.entryDie at hdi
            rw [hl] at hdi
            have : s.dieIndex line = d := Option.some.inj hdi
            rw [this] at hs
            exact hs
          have hst : ((s.grant d pick).port d).state = (s.port d).state.granted := by
            cases pick <;> simp [State.grant, State.fillSlot]
          refine SameSelection.oldest ⟨hc, grant_reads s d pick, ?_, grant_entryDie s d pick hc,
            fun j _ => entry_congr k j⟩ h.oldest
          rw [hst]
          rcases hidle with e | e <;> rw [e] <;> simp [PortState.granted]
      · right
        have hcl := decision_claim hd
        rw [h.claim] at hcl
        cases hcl
        simp [State.grant, State.fillSlot]
  · rw [arbitrate_rests (.inl (by simpa using hp))]; exact .inl h.claim

/-- The arbiters of all dies in turn. -/
theorem arbitrateAll_selects {s : State} {d : DieId} {i : Fin 32} (h : Selects s d i) :
    SelectionHeld (forDies (fun e x => x.arbitrate e) s) d i :=
  (forDies_turn (P := fun x => Selects x d i) (Q := fun x => SelectionHeld x d i ∧ ClaimsOwn x)
    (fun e x => x.arbitrate e) d s h (fun _ _ he hx => hx.arbitrate he)
    (fun _ hx => ⟨hx.granted, hx.own.arbitrate d⟩) fun e _ he hx => ⟨hx.1.keep he hx.2, hx.2.arbitrate e⟩).1

/-- A rise of the level from NONE selects, and the arbiters decide (R25, R27). -/
theorem relevel_selects {s : State} {d : DieId} {i : Fin 32} (ho : s.drain.pressure = .none) (hn : s.level ≠ .none)
    (hp : s.present d = true) (hd : s.dieDraining d = false) (h : OldestEligible s d i) :
    SelectionHeld s.relevel d i := by
  unfold State.relevel
  have hl : levelStirs s.drain.pressure s.level = true := by
    unfold levelStirs
    rw [ho]
    cases hx : s.level
    · exact absurd hx hn
    all_goals rfl
  simp only [hl, if_true]
  refine arbitrateAll_selects ?_
  have hlev (e : DieId) (he : s.present e = true) (old : Option DrainClaim) :
      leveledClaim s e old = selectedClaim { s with drain := { s.drain with pressure := s.level } } e old := by
    unfold leveledClaim
    rw [if_neg (fun k => k.2.1 ho), if_pos ⟨he, ho, hn⟩]
  have same : SameSelection s s.takeLevel d := by
    have hps : (s.takeLevel.port d).state = (s.port d).state := by rw [takeLevel_port]
    rw [takeLevel_eq] at hps ⊢
    exact ⟨rfl, rfl, by rw [hps], fun _ => rfl, fun _ _ => rfl⟩
  refine ⟨fun e c he hc hcc => ?_, ?_, same.dieDraining.trans hd, same.oldest h, ?_⟩
  · have he' : s.present e = true := by
      have : s.takeLevel.chan = s.chan := (takeLevel_internal s).chan
      have k : s.takeLevel.present e = s.present e := by simp only [State.present, this]
      rw [← k]; exact he
    rw [takeLevel_port] at hc
    dsimp only at hc
    rw [hlev e he'] at hc
    have := selectedClaim_die hc hcc
    rw [takeLevel_eq]
    exact this
  · rw [takeLevel_eq]; exact hn
  · rw [takeLevel_port]
    dsimp only
    rw [hlev d hp]
    exact selectedClaim_oldest _ hd hn h

end Sys2Proof.Machine
end

