-- ==== Sys2Proof/Laws/Reads.lean ====
section
/-! SUPPORT. The read claims while an event closes: only the grant of a read claim moves one, from its port's list to its
slot (R44, R46). -/

namespace Sys2Proof.Machine

/-- Two states that agree in the Read Wait List, Channel Control, the slots and the read claims. -/
structure SameReads (s t : State) : Prop where
  reads : t.reads = s.reads
  chan : t.chan = s.chan
  slot : ∀ d, (t.port d).slot = (s.port d).slot
  claims : ∀ d, (t.port d).readClaims = (s.port d).readClaims

theorem SameReads.refl (s : State) : SameReads s s := ⟨rfl, rfl, fun _ => rfl, fun _ => rfl⟩

theorem SameReads.trans {s t u : State} (h : SameReads s t) (k : SameReads t u) : SameReads s u :=
  ⟨k.reads.trans h.reads, k.chan.trans h.chan, fun d => (k.slot d).trans (h.slot d),
    fun d => (k.claims d).trans (h.claims d)⟩

theorem SameReads.setPort (s : State) (d : DieId) (p : Port) (hs : p.slot = (s.port d).slot)
    (hc : p.readClaims = (s.port d).readClaims) : SameReads s (s.setPort d p) := by
  refine ⟨rfl, rfl, fun e => ?_, fun e => ?_⟩ <;> rw [State.setPort_port] <;> split
  · next k => subst k; exact hs
  · rfl
  · next k => subst k; exact hc
  · rfl

theorem select_sameReads (s : State) (d : DieId) : SameReads s (s.select d) := by
  rw [select_eq]
  exact .setPort s d _ rfl rfl

theorem retest_sameReads (s : State) (d : DieId) : SameReads s (s.retest d) := by
  rcases retest_shape s d with h | ⟨c, h⟩ <;> rw [h]
  · exact .refl s
  · exact ⟨rfl, rfl, fun _ => rfl, fun _ => rfl⟩

theorem keepCareClaims_sameReads (s : State) (d : DieId) : SameReads s (s.keepCareClaims d) := .setPort s d _ rfl rfl

theorem keepChannelClaim_sameReads (s : State) (d : DieId) : SameReads s (s.keepChannelClaim d) := by
  have set (c : Option ChannelOp) : SameReads s (s.setChannelClaim d c) := .setPort s d _ rfl rfl
  unfold State.keepChannelClaim
  dsimp only
  split <;> try exact .refl s
  · split <;> [exact set _; exact .refl s]
  · split
    · exact set _
    · split <;> [exact set _; exact .refl s]
  · split <;> [exact set _; exact .refl s]

theorem prepare_sameReads (s : State) (d : DieId) : SameReads s (s.prepare d) := by
  unfold State.prepare
  split
  · exact (((retest_sameReads s d).trans (keepCareClaims_sameReads _ d)).trans (keepChannelClaim_sameReads _ d)).trans
      (select_sameReads _ d)
  · exact .refl s

theorem takeLevel_sameReads (s : State) : SameReads s s.takeLevel :=
  ⟨by rw [takeLevel_eq], by rw [takeLevel_eq], fun d => by rw [takeLevel_port], fun d => by rw [takeLevel_port]⟩

/-- After a grant the blocks re-place their own claims only. -/
theorem arbitrate_sameReads {s : State} {d : DieId} {pick : Pick} (hp : s.present d = true)
    (hd : s.decision d = some pick) : SameReads (s.grant d pick) (s.arbitrate d) := by
  rw [arbitrate_grants hp hd]
  exact ((retest_sameReads _ d).trans (keepCareClaims_sameReads _ d)).trans (select_sameReads _ d)

section
variable {P : State → Prop} (same : ∀ s t, SameReads s t → P s → P t)
  (grant : ∀ s d pick, s.present d = true → s.decision d = some pick → P s → P (s.grant d pick))
include same grant

theorem arbitrate_keeps (s : State) (d : DieId) (h : P s) : P (s.arbitrate d) := by
  by_cases hp : s.present d = true
  · cases hd : s.decision d with
    | none => rw [arbitrate_rests (.inr hd)]; exact h
    | some pick => exact same _ _ (arbitrate_sameReads hp hd) (grant s d pick hp hd h)
  · rw [arbitrate_rests (.inl (by simpa using hp))]; exact h

/-- A property of reads, slots and read claims that grants keep holds after the closing of an event. -/
theorem finish_keeps {s : State} (h : P s) (before : State) (touched : DieId → Bool) : P (s.finish before touched) := by
  unfold State.finish
  dsimp only
  have four (f : DieId → State → State) (hf : ∀ d x, P x → P (f d x)) (x : State) (hx : P x) : P (forDies f x) :=
    hf 3 _ (hf 2 _ (hf 1 _ (hf 0 _ hx)))
  refine four _ (fun d x hx => ?_) _ (four _ (fun d x hx => ?_) _ (same _ _ (takeLevel_sameReads _)
    (same s _ ⟨rfl, rfl, fun _ => rfl, fun _ => rfl⟩ h)))
  · split <;> [exact arbitrate_keeps same grant x d hx; exact hx]
  · split <;> [exact same _ _ (prepare_sameReads x d) hx; exact hx]

/-- A change of level keeps it as well. -/
theorem relevel_keeps {s : State} (h : P s) : P s.relevel := by
  have ht := same _ _ (takeLevel_sameReads s) h
  unfold State.relevel
  dsimp only
  split
  · have step := arbitrate_keeps same grant
    exact step _ 3 (step _ 2 (step _ 1 (step _ 0 ht)))
  · exact ht

end

/-! ### Grants -/

theorem grant_readClaims (s : State) (d : DieId) (pick : Pick) (e : DieId) :
    ((s.grant d pick).port e).readClaims =
      match pick with
      | .read r => if d = e then (s.port e).readClaims.filter (· != r.claim) else (s.port e).readClaims
      | _ => (s.port e).readClaims := by
  cases pick <;> simp only [State.grant, State.fillSlot, State.setReads_port, State.setEntry_port, State.setPort_port] <;>
    split <;> simp_all

/-- The claimant of a granted operation. -/
def Pick.claimant : Pick → Claimant
  | .channel _ => .channel
  | .refresh | .recal | .temp => .maintenance
  | .read r => .reads r.claim
  | .drain c _ => .drain c.entry

theorem grant_slot (s : State) (d : DieId) (pick : Pick) :
    ∃ x, ((s.grant d pick).port d).slot = some x ∧ x.claimant = pick.claimant ∧
      ∀ r, pick = .read r → x.serves r = true := by
  cases pick with
  | read r =>
    refine ⟨_, by simp [State.grant, State.fillSlot]; rfl, rfl, fun q hq => ?_⟩
    cases hq
    simp [Slot.serves]
  | _ => exact ⟨_, by simp [State.grant, State.fillSlot]; rfl, rfl, fun _ h => by cases h⟩

theorem grant_slot_other (s : State) {d e : DieId} (pick : Pick) (h : d ≠ e) :
    ((s.grant d pick).port e).slot = (s.port e).slot := by rw [grant_port_other s pick h]

/-- A granted read claim is that of the read claimant. -/
theorem decision_read {s : State} {d : DieId} {r : ReadRecord} (h : s.decision d = some (.read r)) :
    s.readClaimant d = some r := by
  unfold State.decision at h
  dsimp only at h
  split at h
  · cases h
  · split at h
    · split at h <;> cases h
    · split at h
      · cases h
      · rw [Option.bind_eq_some_iff] at h
        obtain ⟨op, -, h⟩ := h
        split at h <;> cases h
    · split at h <;> cases h
    · unfold State.firstInOrder at h
      dsimp only at h
      simp only [Option.orElse_eq_orElse, Option.orElse_eq_or, Option.or_eq_some_iff, Option.map_eq_some_iff,
        Option.bind_eq_some_iff, Option.ite_none_right_eq_some, Option.some.injEq, reduceCtorEq, and_false, exists_false,
        false_or, or_false] at h
      replace h := h.2.2.2
      unfold State.placeThree at h
      dsimp only at h
      split at h <;>
        · simp only [Option.orElse_eq_orElse, Option.orElse_eq_or, Option.or_eq_some_iff, Option.map_eq_some_iff,
            Pick.read.injEq, reduceCtorEq, and_false, exists_false, false_or, or_false] at h
          aesop
    all_goals cases h

theorem readClaimant_listed {s : State} {d : DieId} {r : ReadRecord} (h : s.readClaimant d = some r) :
    r ∈ s.reads.list ∧ r.claim ∈ (s.port d).readClaims := by
  unfold State.readClaimant at h
  obtain ⟨c, hc, hr⟩ := List.exists_of_findSome?_eq_some h
  have h1 := List.mem_of_find?_eq_some hr
  have h2 := List.find?_some hr
  exact ⟨h1, by rw [beq_iff_eq.mp h2]; exact hc⟩

/-! ### What the closing of an event does to one claim -/

/-- No read claim appears. -/
theorem finish_noClaim {s : State} {d : DieId} {claim : Nat} (h : claim ∉ (s.port d).readClaims) (before : State)
    (touched : DieId → Bool) : claim ∉ ((s.finish before touched).port d).readClaims :=
  finish_keeps (P := fun x => claim ∉ (x.port d).readClaims) (fun _ _ k hx => by rw [k.claims]; exact hx)
    (fun x e pick _ _ hx => by
      rw [grant_readClaims]
      cases pick <;> try exact hx
      dsimp only
      split <;> [exact fun m => hx (List.mem_filter.mp m).1; exact hx]) h before touched

/-- A claim stays pending or is granted. -/
theorem finish_readHeld {s : State} {d : DieId} {claim : Nat} (h : ReadHeld s d claim) (before : State)
    (touched : DieId → Bool) : ReadHeld (s.finish before touched) d claim :=
  finish_keeps (P := fun x => ReadHeld x d claim)
    (fun _ _ k hx => by unfold ReadHeld; rw [k.claims, k.slot]; exact hx)
    (fun x e pick _ hd hx => by
      unfold ReadHeld at hx ⊢
      by_cases he : e = d
      · subst he
        obtain ⟨slot, hs, hc, -⟩ := grant_slot x e pick
        rw [grant_readClaims, hs]
        have hn := (decision_grantable hd).1
        rw [hn] at hx
        replace hx := hx.resolve_right (by simp)
        cases pick <;> try exact .inl hx
        rename_i r
        dsimp only
        rw [if_pos rfl]
        by_cases hr : claim = r.claim
        · right; rw [hr, Option.map_some, hc]; rfl
        · left; exact List.mem_filter.mpr ⟨hx, by simpa using hr⟩
      · rw [grant_port_other x pick he]; exact hx) h before touched

/-! ### The invariant -/

/-- Read claims are numbered apart and from below the next number (log 13). -/
def ClaimsNumbered (s : State) : Prop :=
  (s.reads.list.map ReadRecord.claim).Nodup ∧ ∀ r ∈ s.reads.list, r.claim < s.reads.nextClaim

theorem ReadsClaimed.congr {s t : State} (h : ReadsClaimed s) (k : SameReads s t) : ReadsClaimed t := by
  obtain ⟨h1, h2, h3, h4, h5, h6⟩ := h
  refine ⟨fun d => ?_, fun r hr ha => ?_, fun d x hx r hr hc => ?_, fun r hr => ?_, fun d x hx => ?_, ?_⟩
  · rw [k.claims, k.reads]; exact h1 d
  · rw [k.slot]; exact h2 r (k.reads ▸ hr) ha
  · exact h3 d x (k.slot d ▸ hx) r (k.reads ▸ hr) hc
  · rw [k.reads] at hr
    rw [h4 r hr]; simp only [State.dieIndex, k.chan]
  · rw [k.reads]; exact h5 d x (k.slot d ▸ hx)
  · rw [k.reads, k.chan]; exact h6

theorem claim_unique {l : List ReadRecord} (h : (l.map ReadRecord.claim).Nodup) {r q : ReadRecord} (hr : r ∈ l)
    (hq : q ∈ l) (hc : r.claim = q.claim) : r = q := List.inj_on_of_nodup_map h hr hq hc

theorem grant_list (s : State) (d : DieId) (pick : Pick) :
    (s.grant d pick).reads =
      match pick with
      | .read r =>
        { s.reads with list := s.reads.list.map fun x => if x.claim = r.claim then { x with state := .atDie } else x }
      | _ => s.reads := by cases pick <;> rfl

theorem ReadsClaimed.grant {s : State} {d : DieId} {pick : Pick} (hn : ClaimsNumbered s) (h : ReadsClaimed s)
    (hd : s.decision d = some pick) : ReadsClaimed (s.grant d pick) := by
  have hnone := (decision_grantable hd).1
  have hchan := (grant_internal hd).chan
  obtain ⟨slot, hs, hcl, hsv⟩ := grant_slot s d pick
  obtain ⟨h1, h2, h3, h4, h5, h6⟩ := h
  have away (r : ReadRecord) (hr : r ∈ s.reads.list) (ha : r.state = .atDie) : d ≠ r.die := fun e => by
    have := h2 r hr ha
    rw [← e, hnone] at this
    cases this
  have hdie (line : LineAddr) : (s.grant d pick).dieIndex line = s.dieIndex line := by simp only [State.dieIndex, hchan]
  by_cases hread : ∃ r, pick = .read r
  · obtain ⟨r, rfl⟩ := hread
    obtain ⟨hr, hrc⟩ := readClaimant_listed (decision_read hd)
    rw [h1, List.mem_map] at hrc
    obtain ⟨q, hq, hqc⟩ := hrc
    rw [List.mem_filter] at hq
    have hqr : q = r := claim_unique hn.1 hq.1 hr hqc
    subst hqr
    have hdw : q.die = d ∧ q.state = .waiting := by simpa using hq.2
    have only (x : ReadRecord) (hx : x ∈ s.reads.list) : x.claim = q.claim ↔ x = q :=
      ⟨fun e => claim_unique hn.1 hx hr e, fun e => by rw [e]⟩
    have hl := grant_list s d (.read q)
    dsimp only at hl
    refine ⟨fun e => ?_, fun x hx ha => ?_, fun e x hx y hy hc => ?_, fun x hx => ?_, fun e x hx => ?_, ?_⟩
    · rw [grant_readClaims, hl]
      dsimp only
      rw [List.filter_map, List.map_map]
      have hmap : ReadRecord.claim ∘ (fun x : ReadRecord => if x.claim = q.claim then { x with state := .atDie } else x) =
          ReadRecord.claim := by funext x; simp only [Function.comp_apply]; split <;> rfl
      rw [hmap, h1]
      by_cases he : d = e
      · subst he
        rw [if_pos rfl, List.filter_map, List.filter_filter]
        congr 1
        refine List.filter_congr fun x hx => ?_
        simp only [Function.comp_apply]
        by_cases hxq : x.claim = q.claim <;> simp [hxq]
      · rw [if_neg he]
        congr 1
        refine List.filter_congr fun x hx => ?_
        simp only [Function.comp_apply]
        by_cases hxq : x.claim = q.claim
        · rw [if_pos hxq]
          have := (only x hx).mp hxq
          subst this
          have hne : (x.die == e) = false := by rw [hdw.1]; simpa using he
          simp [hne]
        · rw [if_neg hxq]
    · rw [hl] at hx
      obtain ⟨y, hy, rfl⟩ := List.mem_map.mp hx
      by_cases hyq : y.claim = q.claim
      · have := (only y hy).mp hyq
        subst this
        rw [if_pos rfl]
        show ((Machine.State.grant s d (.read y)).port y.die).slot.any _ = true
        rw [hdw.1, hs]
        exact hsv y rfl
      · rw [if_neg hyq] at ha ⊢
        rw [grant_slot_other s _ (away y hy ha)]
        exact h2 y hy ha
    · rw [hl] at hy
      obtain ⟨z, hz, rfl⟩ := List.mem_map.mp hy
      by_cases he : d = e
      · subst he
        rw [hs] at hx
        cases hx
        rw [hcl] at hc
        have hzq : z.claim = q.claim := by
          simp only [Pick.claimant, Claimant.reads.injEq] at hc
          rw [hc]; split <;> rfl
        have := (only z hz).mp hzq
        subst this
        rw [if_pos rfl]
        exact ⟨hdw.1, rfl⟩
      · rw [grant_slot_other s _ he] at hx
        have := h3 e x hx z hz (by rw [hc]; split <;> rfl)
        split
        · exact ⟨this.1, rfl⟩
        · exact this
    · rw [hl] at hx
      obtain ⟨y, hy, rfl⟩ := List.mem_map.mp hx
      rw [hdie]
      split <;> exact h4 y hy
    · rw [hl]
      by_cases he : d = e
      · subst he
        rw [hs] at hx
        cases hx
        rw [hcl]
        exact decide_eq_true (hn.2 q hr)
      · rw [grant_slot_other s _ he] at hx
        exact h5 e x hx
    · intro _
      rw [hchan]
      exact h6 fun e => by rw [e] at hr; cases hr
  · have hl : (s.grant d pick).reads = s.reads := by
      rw [grant_list]; cases pick <;> first | rfl | exact absurd ⟨_, rfl⟩ hread
    have hc1 (e : DieId) : ((s.grant d pick).port e).readClaims = (s.port e).readClaims := by
      rw [grant_readClaims]; cases pick <;> first | rfl | exact absurd ⟨_, rfl⟩ hread
    have hc2 (n : Nat) : slot.claimant ≠ .reads n := by
      rw [hcl]
      cases pick <;> first | exact absurd ⟨_, rfl⟩ hread | exact fun e => by cases e
    refine ⟨fun e => ?_, fun x hx ha => ?_, fun e x hx y hy hc => ?_, fun x hx => ?_, fun e x hx => ?_, ?_⟩
    · rw [hc1, hl]; exact h1 e
    · rw [hl] at hx
      rw [grant_slot_other s _ (away x hx ha)]
      exact h2 x hx ha
    · rw [hl] at hy
      by_cases he : d = e
      · subst he
        rw [hs] at hx
        cases hx
        exact absurd hc (hc2 _)
      · rw [grant_slot_other s _ he] at hx
        exact h3 e x hx y hy hc
    · rw [hdie]; exact h4 x (hl ▸ hx)
    · rw [hl]
      by_cases he : d = e
      · subst he
        rw [hs] at hx
        cases hx
        cases hk : slot.claimant <;> first | rfl | exact absurd hk (hc2 _)
      · rw [grant_slot_other s _ he] at hx
        exact h5 e x hx
    · rw [hl, hchan]; exact h6

theorem ClaimsNumbered.congr {s t : State} (h : ClaimsNumbered s) (hr : t.reads = s.reads) : ClaimsNumbered t := by
  unfold ClaimsNumbered
  rw [hr]
  exact h

theorem ClaimsNumbered.grant {s : State} (h : ClaimsNumbered s) (d : DieId) (pick : Pick) :
    ClaimsNumbered (s.grant d pick) := by
  cases pick with
  | read r =>
    have hm : (ReadRecord.claim ∘ fun x : ReadRecord => if x.claim = r.claim then { x with state := .atDie } else x) =
        ReadRecord.claim := by funext x; simp only [Function.comp_apply]; split <;> rfl
    refine ⟨?_, fun x hx => ?_⟩
    · rw [grant_list]
      dsimp only
      rw [List.map_map, hm]
      exact h.1
    · rw [grant_list] at hx ⊢
      obtain ⟨y, hy, rfl⟩ := List.mem_map.mp hx
      split <;> exact h.2 y hy
  | _ => exact h

/-- The read claims that an event's own effect leaves in order are in order once it has closed. -/
theorem ReadsClaimed.finish {s : State} (hn : ClaimsNumbered s) (h : ReadsClaimed s) (before : State)
    (touched : DieId → Bool) : ReadsClaimed (s.finish before touched) :=
  (finish_keeps (P := fun x => ClaimsNumbered x ∧ ReadsClaimed x) (fun _ _ k hx => ⟨hx.1.congr k.reads, hx.2.congr k⟩)
    (fun _ d pick _ hd hx => ⟨hx.1.grant d pick, hx.2.grant hx.1 hd⟩) ⟨hn, h⟩ before touched).2

theorem ReadsClaimed.relevel {s : State} (hn : ClaimsNumbered s) (h : ReadsClaimed s) : ReadsClaimed s.relevel :=
  (relevel_keeps (P := fun x => ClaimsNumbered x ∧ ReadsClaimed x) (fun _ _ k hx => ⟨hx.1.congr k.reads, hx.2.congr k⟩)
    (fun _ d pick _ hd hx => ⟨hx.1.grant d pick, hx.2.grant hx.1 hd⟩) ⟨hn, h⟩).2

end Sys2Proof.Machine
end

