-- ==== Sys2Proof/Laws/Drains.lean ====
section
/-! SUPPORT. The Drain Scheduler's claims while an event closes: what the event's own effect may leave out of order at the
dies that it touches is in order once the event has closed (R25 to R28, R34). -/

namespace Sys2Proof.Machine

/-- What holds of drains at every moment: one DRAINING entry at most on a die, in flight or with its continuation claim
pending; slots and continuation claims name DRAINING entries of their die; no entry in CONFIG and BRINGUP. -/
structure DrainsPlaced (s : State) : Prop where
  one : ∀ i j, (s.entry i).state = .draining → (s.entry j).state = .draining → s.entryDie i = s.entryDie j → i = j
  held : ∀ d i, (s.entry i).state = .draining → s.entryDie i = some d → ContinuationHeld s d i
  slots : ∀ d, ∀ x ∈ (s.port d).slot, ∀ i, x.claimant = .drain i →
    x.op.drains = true ∧ (s.entry i).state = .draining ∧ s.entryDie i = some d
  continues : ∀ d, ∀ c ∈ (s.port d).drainClaim, c.continuation = true →
    s.entryDie c.entry = some d ∧ (s.entry c.entry).state = .draining
  rest : s.chan.partState = .config ∨ s.chan.partState = .bringup → ∀ i, (s.entry i).state = .free

/-- A selection claim of the die is of an eligible entry of it, while it has no DRAINING one and the level is above NONE;
and then its oldest eligible entry has the claim (R25, R27). -/
structure SelectionRight (s : State) (d : DieId) : Prop where
  claim : ∀ c ∈ (s.port d).drainClaim, c.continuation = false →
    s.entryDie c.entry = some d ∧ s.eligible c.entry = true ∧ s.drain.pressure ≠ .none ∧ ¬ Drains s d
  oldest : ∀ i, s.drain.pressure ≠ .none → ¬ Drains s d → OldestEligible s d i →
    (s.port d).drainClaim = some { entry := i, continuation := false }

theorem drainsClaimed_iff (s : State) : DrainsClaimed s ↔ DrainsPlaced s ∧ ∀ d, SelectionRight s d := by
  constructor
  · rintro ⟨h1, h2, h3, h4, h5, h6⟩
    refine ⟨⟨h1, h2, h3, fun d c hc hk => ?_, h6⟩, fun d => ⟨fun c hc hk => ?_, h5 d⟩⟩
    · have := h4 d c hc
      rw [if_pos hk] at this
      exact this
    · have := h4 d c hc
      rw [if_neg (by simp [hk])] at this
      exact this
  · rintro ⟨h, k⟩
    refine ⟨h.one, h.held, h.slots, fun d c hc => ?_, fun d => (k d).oldest, h.rest⟩
    by_cases hk : c.continuation = true
    · rw [if_pos hk]; exact h.continues d c hc hk
    · rw [if_neg hk]
      exact (k d).claim c hc (by simpa using hk)

theorem drains_iff (s : State) (d : DieId) : Drains s d ↔ s.dieDraining d = true := (dieDraining_iff s d).symm

theorem not_drains_iff (s : State) (d : DieId) : ¬ Drains s d ↔ s.dieDraining d = false := by
  rw [drains_iff, Bool.not_eq_true]

/-! ### States that agree in what the scheduler reads -/

/-- Two states that agree in everything that drains, selections and drain claims read. -/
structure SameDrains (s t : State) : Prop where
  table : t.table.entries = s.table.entries
  reads : t.reads = s.reads
  chan : t.chan = s.chan
  pressure : t.drain.pressure = s.drain.pressure
  state : ∀ d, (t.port d).state = (s.port d).state
  slot : ∀ d, (t.port d).slot = (s.port d).slot
  claim : ∀ d, (t.port d).drainClaim = (s.port d).drainClaim

theorem SameDrains.refl (s : State) : SameDrains s s :=
  ⟨rfl, rfl, rfl, rfl, fun _ => rfl, fun _ => rfl, fun _ => rfl⟩

theorem SameDrains.trans {s t u : State} (h : SameDrains s t) (k : SameDrains t u) : SameDrains s u :=
  ⟨k.table.trans h.table, k.reads.trans h.reads, k.chan.trans h.chan, k.pressure.trans h.pressure,
    fun d => (k.state d).trans (h.state d), fun d => (k.slot d).trans (h.slot d),
    fun d => (k.claim d).trans (h.claim d)⟩

theorem SameDrains.entry {s t : State} (h : SameDrains s t) (i : Fin 32) : t.entry i = s.entry i := entry_congr h.table i

theorem SameDrains.die {s t : State} (h : SameDrains s t) (i : Fin 32) : t.entryDie i = s.entryDie i :=
  entryDie_congr h.table (by rw [h.chan]) i

theorem SameDrains.drains {s t : State} (h : SameDrains s t) (d : DieId) : Drains t d ↔ Drains s d := by
  simp only [Drains, h.entry, h.die]

theorem SameDrains.selection {s t : State} (h : SameDrains s t) (d : DieId) : SameSelection s t d :=
  ⟨h.chan, by rw [h.reads], by rw [h.state], h.die, fun j _ => h.entry j⟩

theorem SameDrains.symm {s t : State} (h : SameDrains s t) : SameDrains t s :=
  ⟨h.table.symm, h.reads.symm, h.chan.symm, h.pressure.symm, fun d => (h.state d).symm, fun d => (h.slot d).symm,
    fun d => (h.claim d).symm⟩

theorem DrainsPlaced.congr {s t : State} (h : DrainsPlaced s) (k : SameDrains s t) : DrainsPlaced t := by
  constructor
  · simp only [k.entry, k.die]; exact h.one
  · simp only [k.entry, k.die, ContinuationHeld, k.slot, k.claim]; exact h.held
  · simp only [k.entry, k.die, k.slot]; exact h.slots
  · simp only [k.entry, k.die, k.claim]; exact h.continues
  · simp only [k.entry, k.chan]; exact h.rest

theorem SelectionRight.congr {s t : State} {d : DieId} (h : SelectionRight s d) (k : SameDrains s t) :
    SelectionRight t d := by
  refine ⟨fun c hc hk => ?_, fun i hp hd ho => ?_⟩
  · rw [k.claim] at hc
    obtain ⟨h1, h2, h3, h4⟩ := h.claim c hc hk
    exact ⟨(k.die _).trans h1, ((k.selection d).eligible h1).trans h2, by rw [k.pressure]; exact h3,
      fun x => h4 ((k.drains d).mp x)⟩
  · rw [k.claim]
    exact h.oldest i (k.pressure ▸ hp) (fun x => hd ((k.drains d).mpr x)) ((k.symm.selection d).oldest ho)

theorem SameDrains.setPort (s : State) (d : DieId) (p : Port) (h1 : p.state = (s.port d).state)
    (h2 : p.slot = (s.port d).slot) (h3 : p.drainClaim = (s.port d).drainClaim) : SameDrains s (s.setPort d p) := by
  refine ⟨rfl, rfl, rfl, rfl, fun e => ?_, fun e => ?_, fun e => ?_⟩ <;> rw [State.setPort_port] <;> split
  · next k => subst k; exact h1
  · rfl
  · next k => subst k; exact h2
  · rfl
  · next k => subst k; exact h3
  · rfl

theorem retest_sameDrains (s : State) (d : DieId) : SameDrains s (s.retest d) := by
  rcases retest_shape s d with h | ⟨c, h⟩ <;> rw [h]
  · exact .refl s
  · exact ⟨rfl, rfl, rfl, rfl, fun _ => rfl, fun _ => rfl, fun _ => rfl⟩

theorem keepCareClaims_sameDrains (s : State) (d : DieId) : SameDrains s (s.keepCareClaims d) := .setPort s d _ rfl rfl rfl

theorem keepChannelClaim_sameDrains (s : State) (d : DieId) : SameDrains s (s.keepChannelClaim d) := by
  have set (c : Option ChannelOp) : SameDrains s (s.setChannelClaim d c) := .setPort s d _ rfl rfl rfl
  unfold State.keepChannelClaim
  dsimp only
  split <;> try exact .refl s
  · split <;> [exact set _; exact .refl s]
  · split
    · exact set _
    · split <;> [exact set _; exact .refl s]
  · split <;> [exact set _; exact .refl s]

/-! ### A selection -/

/-- What a selection leaves: a continuation claim of a die that drains, or the claim of an eligible entry of a die that does
not, above NONE. -/
theorem selectedClaim_some {s : State} {d : DieId} {old : Option DrainClaim} {c : DrainClaim}
    (h : selectedClaim s d old = some c) :
    (s.dieDraining d = true ∧ c.continuation = true ∧ old = some c) ∨
      (s.dieDraining d = false ∧ c.continuation = false ∧ s.drain.pressure ≠ .none ∧ s.eligible c.entry = true ∧
        s.entryDie c.entry = some d) := by
  unfold selectedClaim at h
  split at h
  · next hd =>
    rw [Option.filter_eq_some_iff] at h
    exact .inl ⟨hd, h.2, h.1⟩
  · next hd =>
    split at h
    · cases h
    · next hp =>
      obtain ⟨i, hi, rfl⟩ := Option.map_eq_some_iff.mp h
      have := oldest_mem hi
      simp only [Bool.and_eq_true, beq_iff_eq] at this
      exact .inr ⟨by simpa using hd, rfl, hp, this.1, this.2⟩

/-- A selection keeps the continuation claim of a die that drains. -/
theorem selectedClaim_continues {s : State} {d : DieId} {c : DrainClaim} (hd : s.dieDraining d = true)
    (hc : c.continuation = true) : selectedClaim s d (some c) = some c := by
  unfold selectedClaim
  rw [if_pos hd, Option.filter_some, if_pos hc]

/-- A change of the drain claims alone. -/
theorem setDrainClaims_congr {s t : State} (ht : t.table.entries = s.table.entries) (hr : t.reads = s.reads)
    (hc : t.chan = s.chan) (hs : ∀ d, (t.port d).state = (s.port d).state) :
    (∀ i, t.entry i = s.entry i) ∧ (∀ i, t.entryDie i = s.entryDie i) ∧ (∀ d, Drains t d ↔ Drains s d) ∧
      (∀ i, t.eligible i = s.eligible i) ∧ ∀ d i, OldestEligible t d i ↔ OldestEligible s d i := by
  have k1 := entry_congr ht
  have k2 := entryDie_congr ht (t := t) (by rw [hc])
  have k3 (i : Fin 32) : t.eligible i = s.eligible i := by
    unfold State.eligible State.lineHeld
    simp only [k1, hr, hc, hs, State.dieIndex]
  exact ⟨k1, k2, fun d => by simp only [Drains, k1, k2], k3, fun d i => by simp only [OldestEligible, k1, k2, k3]⟩

/-- Drain claims that keep every continuation claim, and place no other, keep drains placed. -/
theorem DrainsPlaced.claims {s t : State} (h : DrainsPlaced s) (ht : t.table.entries = s.table.entries)
    (hr : t.reads = s.reads) (hc : t.chan = s.chan) (hs : ∀ d, (t.port d).state = (s.port d).state)
    (hl : ∀ d, (t.port d).slot = (s.port d).slot)
    (keep : ∀ d i, Drains s d → (s.port d).drainClaim = some { entry := i, continuation := true } →
      (t.port d).drainClaim = some { entry := i, continuation := true })
    (less : ∀ d c, (t.port d).drainClaim = some c → c.continuation = true → (s.port d).drainClaim = some c) :
    DrainsPlaced t := by
  obtain ⟨k1, k2, -, -, -⟩ := setDrainClaims_congr ht hr hc hs
  constructor
  · simp only [k1, k2]; exact h.one
  · simp only [k1, k2]
    intro d i h1 h2
    unfold ContinuationHeld
    rw [hl]
    exact (h.held d i h1 h2).imp (keep d i ⟨i, h1, h2⟩) id
  · simp only [k1, k2, hl]; exact h.slots
  · simp only [k1, k2]
    exact fun d c hm hk => h.continues d c (less d c hm hk) hk
  · simp only [k1, hc]; exact h.rest

/-- A claim that a selection under some level leaves is right under it. -/
theorem SelectionRight.selected {s t : State} {d : DieId} (ht : t.table.entries = s.table.entries)
    (hr : t.reads = s.reads) (hc : t.chan = s.chan) (hs : ∀ e, (t.port e).state = (s.port e).state)
    (hp : t.drain.pressure = s.drain.pressure) {old : Option DrainClaim}
    (hd : (t.port d).drainClaim = selectedClaim s d old) : SelectionRight t d := by
  obtain ⟨k1, k2, k3, k4, k5⟩ := setDrainClaims_congr ht hr hc hs
  refine ⟨fun c hm hk => ?_, fun i h1 h2 h3 => ?_⟩
  · rcases selectedClaim_some (hd.symm.trans hm) with ⟨-, h2, -⟩ | ⟨h1, -, h3, h4, h5⟩
    · rw [hk] at h2; cases h2
    · rw [k2, k4, hp, k3]
      exact ⟨h5, h4, h3, (not_drains_iff s d).mpr h1⟩
  · rw [hd]
    rw [hp] at h1
    rw [k3] at h2
    exact selectedClaim_oldest _ ((not_drains_iff s d).mp h2) h1 ((k5 d i).mp h3)

theorem DrainsPlaced.select {s : State} (h : DrainsPlaced s) (d : DieId) : DrainsPlaced (s.select d) := by
  rw [select_eq]
  have port (e : DieId) : (s.setDrainClaim d (selectedClaim s d (s.port d).drainClaim)).port e =
      { s.port e with
        drainClaim := if d = e then selectedClaim s e (s.port e).drainClaim else (s.port e).drainClaim } := by
    unfold State.setDrainClaim
    rw [State.setPort_port]
    split
    · next k => subst k; rfl
    · rfl
  refine h.claims rfl rfl rfl (fun e => by rw [port]) (fun e => by rw [port]) (fun e i hd hc => ?_) fun e c hc hk => ?_
  · rw [port]
    dsimp only
    split
    · rw [hc]; exact selectedClaim_continues ((drains_iff s e).mp hd) rfl
    · exact hc
  · rw [port] at hc
    dsimp only at hc
    split at hc
    · rcases selectedClaim_some hc with ⟨-, -, h3⟩ | ⟨-, h2, -⟩
      · exact h3
      · rw [hk] at h2; cases h2
    · exact hc

theorem select_right (s : State) (d : DieId) : SelectionRight (s.select d) d := by
  rw [select_eq]
  refine .selected (s := s) (old := (s.port d).drainClaim) rfl rfl rfl (fun e => ?_) rfl (by simp [State.setDrainClaim])
  unfold State.setDrainClaim
  rw [State.setPort_port]
  split
  · next k => subst k; rfl
  · rfl

theorem SelectionRight.select {s : State} {d : DieId} (h : SelectionRight s d) (e : DieId) :
    SelectionRight (s.select e) d := by
  by_cases he : e = d
  · subst he; exact select_right s e
  rw [select_eq]
  have port (a : DieId) : ((s.setDrainClaim e (selectedClaim s e (s.port e).drainClaim)).port a).state =
      (s.port a).state := by
    unfold State.setDrainClaim
    rw [State.setPort_port]
    split
    · next k => subst k; rfl
    · rfl
  have own : (s.setDrainClaim e (selectedClaim s e (s.port e).drainClaim)).port d = s.port d := by
    unfold State.setDrainClaim
    rw [State.setPort_port, if_neg he]
  obtain ⟨k1, k2, k3, k4, k5⟩ := setDrainClaims_congr (s := s)
    (t := s.setDrainClaim e (selectedClaim s e (s.port e).drainClaim)) rfl rfl rfl port
  refine ⟨fun c hm hk => ?_, fun i h1 h2 h3 => ?_⟩
  · rw [own] at hm
    rw [k2, k4, k3]
    exact h.claim c hm hk
  · rw [own]
    exact h.oldest i h1 (fun x => h2 ((k3 d).mpr x)) ((k5 d i).mp h3)

/-! ### The level -/

/-- An entry's die is a present one. -/
theorem entryDie_present {s : State} (h : s.chan.settings.dieCount ∈ [1, 2, 4]) {i : Fin 32} {d : DieId}
    (hd : s.entryDie i = some d) : s.present d = true := by
  unfold State.entryDie at hd
  obtain ⟨line, -, rfl⟩ := Option.map_eq_some_iff.mp hd
  unfold State.present State.dieIndex
  rw [decide_eq_true_eq]
  simp only [Fin.ofNat]
  have : 0 < s.chan.settings.dieCount ∧ s.chan.settings.dieCount ≤ 4 := by
    simp only [List.mem_cons, List.not_mem_nil, or_false] at h
    omega
  have := Nat.mod_lt line.toNat this.1
  omega

/-- A change of level keeps drains placed and right claims right (R25). -/
theorem takeLevel_drains {s : State} (hn : s.chan.settings.dieCount ∈ [1, 2, 4]) (h : DrainsPlaced s) :
    DrainsPlaced s.takeLevel ∧ ∀ d, SelectionRight s d → SelectionRight s.takeLevel d := by
  have ports := takeLevel_port s
  have form := takeLevel_eq s
  have ht : s.takeLevel.table = s.table := by rw [form]
  have hr : s.takeLevel.reads = s.reads := by rw [form]
  have hc : s.takeLevel.chan = s.chan := by rw [form]
  have hp : s.takeLevel.drain.pressure = s.level := by rw [form]
  have hs (d : DieId) : (s.takeLevel.port d).state = (s.port d).state := by rw [ports]
  obtain ⟨k1, k2, k3, k4, k5⟩ := setDrainClaims_congr (s := s) (t := s.takeLevel) (by rw [ht]) hr hc hs
  let lev : State := { s with drain := { s.drain with pressure := s.level } }
  have hlev (d : DieId) : lev.dieDraining d = s.dieDraining d := rfl
  constructor
  · refine h.claims (by rw [ht]) hr hc hs (fun d => by rw [ports]) (fun d i hd hcl => ?_) fun d c hcl hk => ?_
    · rw [ports, hcl]
      dsimp only
      unfold leveledClaim
      split
      · rfl
      · split
        · exact selectedClaim_continues (s := lev) ((drains_iff s d).mp hd) rfl
        · rfl
    · rw [ports] at hcl
      dsimp only at hcl
      unfold leveledClaim at hcl
      split at hcl
      · exact (Option.filter_eq_some_iff.mp hcl).1
      · split at hcl
        · rcases selectedClaim_some hcl with ⟨-, -, h3⟩ | ⟨-, h2, -⟩
          · exact h3
          · rw [hk] at h2; cases h2
        · exact hcl
  · intro d hd
    have hport := ports d
    unfold leveledClaim at hport
    by_cases hpr : s.present d = true
    · by_cases hnew : s.level = .none
      · by_cases hold : s.drain.pressure = .none
        · rw [if_neg (fun x => x.2.1 hold), if_neg (fun x => x.2.2 hnew)] at hport
          refine ⟨fun c hm hk => ?_, fun i h1 => absurd (hp.trans hnew) h1⟩
          rw [hport] at hm
          exact absurd hold (hd.claim c hm hk).2.2.1
        · rw [if_pos ⟨hpr, hold, hnew⟩] at hport
          refine ⟨fun c hm hk => ?_, fun i h1 => absurd (hp.trans hnew) h1⟩
          rw [hport] at hm
          have := (Option.filter_eq_some_iff.mp hm).2
          rw [hk] at this; cases this
      · by_cases hold : s.drain.pressure = .none
        · rw [if_neg (fun x => x.2.1 hold), if_pos ⟨hpr, hold, hnew⟩] at hport
          exact .selected (s := lev) (old := (s.port d).drainClaim) (by rw [ht]) hr hc hs hp (by rw [hport])
        · rw [if_neg (fun x => hnew x.2.2), if_neg (fun x => hold x.2.1)] at hport
          refine ⟨fun c hm hk => ?_, fun i h1 h2 h3 => ?_⟩
          · rw [hport] at hm
            obtain ⟨a, b, -, e⟩ := hd.claim c hm hk
            rw [k2, k4, k3, hp]
            exact ⟨a, b, hnew, e⟩
          · rw [hport]
            exact hd.oldest i hold (fun x => h2 ((k3 d).mpr x)) ((k5 d i).mp h3)
    · rw [if_neg (fun x => hpr x.1), if_neg (fun x => hpr x.1)] at hport
      refine ⟨fun c hm hk => ?_, fun i _ _ h3 => ?_⟩
      · rw [hport] at hm
        exact absurd (entryDie_present hn (hd.claim c hm hk).1) hpr
      · exact absurd (entryDie_present hn ((k5 d i).mp h3).2.1) hpr

/-! ### Preparation and arbitration -/

theorem prepare_drains {s : State} (h : DrainsPlaced s) (d : DieId) :
    DrainsPlaced (s.prepare d) ∧ (s.present d = true → SelectionRight (s.prepare d) d) ∧
      ∀ e, SelectionRight s e → SelectionRight (s.prepare d) e := by
  unfold State.prepare
  split
  · have k := ((retest_sameDrains s d).trans (keepCareClaims_sameDrains _ d)).trans (keepChannelClaim_sameDrains _ d)
    exact ⟨(h.congr k).select d, fun _ => select_right _ d, fun e he => (he.congr k).select d⟩
  · next hp => exact ⟨h, fun k => absurd k hp, fun _ he => he⟩

theorem drainOperation_drains (s : State) (e : Entry) (step : DrainStep) : (s.drainOperation e step).drains = true := by
  cases step <;> rfl

/-- A grant keeps drains placed, and claims right at the other dies (R14, R28). -/
theorem grant_drains {s : State} {d : DieId} {pick : Pick} (h : DrainsPlaced s) (hr : ∀ e, SelectionRight s e)
    (hd : s.decision d = some pick) :
    DrainsPlaced (s.grant d pick) ∧ ∀ e, e ≠ d → SelectionRight (s.grant d pick) e := by
  have hc := (grant_internal hd).chan
  have hnone := (decision_grantable hd).1
  have die := grant_entryDie s d pick hc
  have other (e : DieId) (he : e ≠ d) := grant_port_other s pick (Ne.symm he)
  have hpress : (s.grant d pick).drain = s.drain := grant_drain s d pick
  -- a drain claim that is granted is the die's own, and its entry lies on the die
  have own {c : DrainClaim} {b : Bool} (hp : pick = .drain c b) : s.entryDie c.entry = some d ∧
      if c.continuation = true then (s.entry c.entry).state = .draining
      else s.eligible c.entry = true ∧ ¬ Drains s d := by
    subst hp
    have hcl := decision_claim hd
    by_cases hk : c.continuation = true
    · rw [if_pos hk]; exact h.continues d c hcl hk
    · rw [if_neg hk]
      obtain ⟨a, b, -, e⟩ := (hr d).claim c hcl (by simpa using hk)
      exact ⟨a, b, e⟩
  -- the entries of the other dies stay
  have away (e : DieId) (he : e ≠ d) (j : Fin 32) (hj : s.entryDie j = some e) :
      (s.grant d pick).entry j = s.entry j := by
    rcases grant_entries s d pick with k | ⟨c, b, hp, -, k2⟩
    · exact entry_congr k j
    · refine k2 j fun x => ?_
      subst x
      rw [(own hp).1] at hj
      exact he (Option.some.inj hj).symm
  have sel (e : DieId) (he : e ≠ d) : SameSelection s (s.grant d pick) e :=
    ⟨hc, grant_reads s d pick, by rw [other e he], die, away e he⟩
  -- an entry that is DRAINING after the grant was so before, or is the one granted
  have drained (j : Fin 32) (hj : ((s.grant d pick).entry j).state = .draining) :
      (s.entry j).state = .draining ∨ ∃ c b, pick = .drain c b ∧ c.continuation = false ∧ j = c.entry := by
    rcases grant_entries s d pick with k | ⟨c, b, hp, k1, k2⟩
    · rw [entry_congr k] at hj; exact .inl hj
    · by_cases hjc : j = c.entry
      · exact .inr ⟨c, b, hp, k1, hjc⟩
      · rw [k2 j hjc] at hj; exact .inl hj
  -- an entry that was DRAINING stays so
  have stays (j : Fin 32) (hj : (s.entry j).state = .draining) : ((s.grant d pick).entry j).state = .draining := by
    rcases (grant_internal hd).entries j with k | ⟨k, -⟩
    · rw [k]; exact hj
    · rw [hj] at k; cases k
  have began {c : DrainClaim} {b : Bool} (hp : pick = .drain c b) (hk : c.continuation = false) :
      ((s.grant d pick).entry c.entry).state = .draining := by
    subst hp
    simp [State.grant, hk]
  obtain ⟨slot, hs, hcl, -⟩ := grant_slot s d pick
  have hop (c : DrainClaim) (b : Bool) (hp : pick = .drain c b) : slot.op.drains = true := by
    subst hp
    simp only [State.grant, State.fillSlot, State.setEntry_port, State.setPort_port_self, Option.some.injEq] at hs
    rw [← hs]
    exact drainOperation_drains _ _ _
  refine ⟨⟨fun i j hi hj he => ?_, fun e i hi he => ?_, fun e x hx i hxi => ?_, fun e c hm hk => ?_, fun hp i => ?_⟩,
    fun e he => ⟨fun c hm hk => ?_, fun i h1 h2 h3 => ?_⟩⟩
  · rw [die, die] at he
    rcases drained i hi with hi | ⟨c, b, hp, hk, rfl⟩ <;> rcases drained j hj with hj | ⟨c', b', hp', hk', rfl⟩
    · exact h.one i j hi hj he
    · have k := own hp'
      rw [if_neg (by simp [hk'])] at k
      exact absurd ⟨i, hi, he.trans k.1⟩ k.2.2
    · have k := own hp
      rw [if_neg (by simp [hk])] at k
      exact absurd ⟨j, hj, he.symm.trans k.1⟩ k.2.2
    · rw [hp] at hp'; cases hp'; rfl
  · rw [die] at he
    unfold ContinuationHeld
    by_cases hed : e = d
    · subst hed
      rcases drained i hi with hi | ⟨c, b, hp, -, rfl⟩
      · have k := (h.held e i hi he).resolve_right (by rw [hnone]; simp)
        by_cases hp : ∃ c b, pick = .drain c b
        · obtain ⟨c, b, rfl⟩ := hp
          have := decision_claim hd
          rw [k] at this
          cases this
          right; rw [hs, Option.map_some, hcl]; rfl
        · left
          rw [← k]
          cases pick <;> first | exact absurd ⟨_, _, rfl⟩ hp | simp [State.grant, State.fillSlot]
      · right; rw [hs, Option.map_some, hcl, hp]; rfl
    · rw [other e hed]
      rcases drained i hi with hi | ⟨c, b, hp, -, rfl⟩
      · exact h.held e i hi he
      · rw [(own hp).1] at he; exact absurd (Option.some.inj he).symm hed
  · rw [die]
    by_cases hed : e = d
    · subst hed
      rw [hs] at hx
      cases hx
      rw [hcl] at hxi
      cases pick with
      | drain c b =>
        simp only [Pick.claimant, Claimant.drain.injEq] at hxi
        subst hxi
        refine ⟨hop c b rfl, ?_, (own rfl).1⟩
        by_cases hk : c.continuation = true
        · have := (own (c := c) (b := b) rfl).2
          rw [if_pos hk] at this
          exact stays _ this
        · exact began rfl (by simpa using hk)
      | _ => cases hxi
    · rw [other e hed] at hx
      obtain ⟨a, b, c⟩ := h.slots e x hx i hxi
      exact ⟨a, stays i b, c⟩
  · rw [die]
    by_cases hed : e = d
    · subst hed
      have hm' : (s.port e).drainClaim = some c := by
        cases pick <;> simp [State.grant, State.fillSlot] at hm <;> exact hm
      obtain ⟨a, b⟩ := h.continues e c hm' hk
      exact ⟨a, stays _ b⟩
    · rw [other e hed] at hm
      obtain ⟨a, b⟩ := h.continues e c hm hk
      exact ⟨a, stays _ b⟩
  · rw [hc] at hp
    rcases (grant_internal hd).entries i with k | ⟨k, -⟩
    · rw [k]; exact h.rest hp i
    · rw [h.rest hp i] at k; cases k
  · rw [other e he] at hm
    obtain ⟨a, b, c', f⟩ := (hr e).claim c hm hk
    refine ⟨(die _).trans a, ((sel e he).eligible a).trans b, by rw [hpress]; exact c', ?_⟩
    rw [not_drains_iff] at f ⊢
    exact (sel e he).dieDraining.trans f
  · rw [other e he]
    have back : SameSelection (s.grant d pick) s e :=
      ⟨hc.symm, (grant_reads s d pick).symm, by rw [other e he], fun j => (die j).symm,
        fun j hj => (away e he j ((die j).symm.trans hj)).symm⟩
    rw [hpress] at h1
    refine (hr e).oldest i h1 ?_ (back.oldest h3)
    rw [not_drains_iff] at h2 ⊢
    exact back.dieDraining.trans h2

theorem DrainsClaimed.arbitrate {s : State} (h : DrainsClaimed s) (d : DieId) : DrainsClaimed (s.arbitrate d) := by
  obtain ⟨h1, h2⟩ := (drainsClaimed_iff s).mp h
  by_cases hp : s.present d = true
  · cases hd : s.decision d with
    | none => rw [arbitrate_rests (.inr hd)]; exact h
    | some pick =>
      rw [arbitrate_grants hp hd]
      obtain ⟨k1, k2⟩ := grant_drains h1 h2 hd
      have k := (retest_sameDrains (s.grant d pick) d).trans (keepCareClaims_sameDrains _ d)
      refine (drainsClaimed_iff _).mpr ⟨(k1.congr k).select d, fun e => ?_⟩
      by_cases he : e = d
      · subst he; exact select_right _ e
      · exact ((k2 e he).congr k).select d
  · rw [arbitrate_rests (.inl (by simpa using hp))]; exact h

/-! ### The closing of an event -/

/-- An event whose own effect keeps drains placed, and the selection claims right but at present dies that it touches, or
anywhere when the part state or the phase changes, leaves the scheduler's claims in order. -/
theorem finish_drains {s : State} (before : State) (touched : DieId → Bool)
    (hn : s.chan.settings.dieCount ∈ [1, 2, 4]) (h : DrainsPlaced s)
    (hr : ∀ d, SelectionRight s d ∨ (s.present d = true ∧ (touched d = true ∨
      s.chan.partState ≠ before.chan.partState ∨ s.chan.phase ≠ before.chan.phase))) :
    DrainsClaimed (s.finish before touched) := by
  unfold State.finish
  dsimp only
  have hm (d : DieId) : SelectionRight s d ∨ (s.present d = true ∧
      ((s.chan.partState != before.chan.partState || s.chan.phase != before.chan.phase) || touched d) = true) :=
    (hr d).imp id fun ⟨h1, h2⟩ => ⟨h1, by rcases h2 with h2 | h2 | h2 <;> simp_all⟩
  have same : SameDrains s s.testHysteresis := ⟨rfl, rfl, rfl, rfl, fun _ => rfl, fun _ => rfl, fun _ => rfl⟩
  generalize (s.chan.partState != before.chan.partState || s.chan.phase != before.chan.phase) = m at hm ⊢
  generalize levelStirs s.testHysteresis.drain.pressure s.testHysteresis.level = stirs
  have hc : s.testHysteresis.takeLevel.chan = s.chan := (takeLevel_internal _).chan
  obtain ⟨l1, l2⟩ := takeLevel_drains (s := s.testHysteresis) hn (h.congr same)
  have start (d : DieId) : SelectionRight s.testHysteresis.takeLevel d ∨
      (s.present d = true ∧ (m || touched d) = true) := (hm d).imp (fun k => l2 d (k.congr same)) id
  generalize s.testHysteresis.takeLevel = x at hc l1 start ⊢
  have four (f : DieId → State → State) (hf : ∀ d y, DrainsClaimed y → DrainsClaimed (f d y)) (y : State)
      (hy : DrainsClaimed y) : DrainsClaimed (forDies f y) := hf 3 _ (hf 2 _ (hf 1 _ (hf 0 _ hy)))
  refine four _ (fun d y hy => ?_) _ ?_
  · split <;> [exact hy.arbitrate d; exact hy]
  refine (drainsClaimed_iff _).mpr ?_
  have step (d : DieId) (y : State) (hy : y.chan = s.chan ∧ DrainsPlaced y) :
      (if m || touched d then y.prepare d else y).chan = s.chan ∧
        DrainsPlaced (if m || touched d then y.prepare d else y) := by
    split
    · exact ⟨(prepare_internal y d).chan.trans hy.1, (prepare_drains hy.2 d).1⟩
    · exact hy
  refine ⟨(step 3 _ (step 2 _ (step 1 _ (step 0 _ ⟨hc, l1⟩)))).2, fun d => ?_⟩
  have keep (e : DieId) (y : State) (hy : DrainsPlaced y) (hd : SelectionRight y d) :
      SelectionRight (if m || touched e then y.prepare e else y) d := by
    split
    · exact (prepare_drains hy e).2.2 d hd
    · exact hd
  refine (forDies_turn
    (P := fun y => (y.chan = s.chan ∧ DrainsPlaced y) ∧
      (SelectionRight y d ∨ (s.present d = true ∧ (m || touched d) = true)))
    (Q := fun y => (y.chan = s.chan ∧ DrainsPlaced y) ∧ SelectionRight y d)
    _ d x ⟨⟨hc, l1⟩, start d⟩ (fun e y _ hy => ⟨step e y hy.1, hy.2.imp (keep e y hy.1.2) id⟩) (fun y hy => ?_)
    fun e y _ hy => ⟨step e y hy.1, keep e y hy.1.2 hy.2⟩).2
  refine ⟨step d y hy.1, ?_⟩
  rcases hy.2 with k | ⟨k1, k2⟩
  · exact keep d y hy.1.2 k
  · rw [if_pos k2]
    exact (prepare_drains hy.1.2 d).2.1 (by simpa only [State.present, hy.1.1] using k1)

/-- A change of level alone keeps the scheduler's claims in order. -/
theorem DrainsClaimed.relevel {s : State} (hn : s.chan.settings.dieCount ∈ [1, 2, 4]) (h : DrainsClaimed s) :
    DrainsClaimed s.relevel := by
  obtain ⟨h1, h2⟩ := (drainsClaimed_iff s).mp h
  obtain ⟨k1, k2⟩ := takeLevel_drains hn h1
  have ht : DrainsClaimed s.takeLevel := (drainsClaimed_iff _).mpr ⟨k1, fun d => k2 d (h2 d)⟩
  unfold State.relevel
  generalize s.takeLevel = x at ht ⊢
  generalize levelStirs s.drain.pressure s.level = stirs
  cases stirs
  · exact ht
  · exact DrainsClaimed.arbitrate (DrainsClaimed.arbitrate (DrainsClaimed.arbitrate (ht.arbitrate 0) 1) 2) 3

end Sys2Proof.Machine
end

