-- ==== Sys2Proof/Laws/PerInstr.lean ====
section
/-! SUPPORT. The family Wire: what the wire form of each command is, as syntax (section 11.1, R169, R171). -/

namespace Sys2Proof.Laws.Wire

/-- The bytes of a well-formed request message number 90 for a WRITE and 16 otherwise, and the Intake checks the kind
code, byte 7 and header that the message carries. A command that is no message has no bytes. -/
def Statement (i : Instr) : Prop :=
  i.wf = true →
    i.message? = (Machine.requestOf i).map (fun r => (r.kind, r.byte7, r.header)) ∧
      i.wireBytes.map List.length = (Machine.requestOf i).map (fun r => if r.kind = kindWrite then 90 else 16)

theorem read (byte7 : Byte) (h : Header) : Statement (.read byte7 h) := fun _ => ⟨rfl, rfl⟩
theorem write (byte7 : Byte) (h : Header) (p : WritePayload) : Statement (.write byte7 h p) := by
  intro _; refine ⟨rfl, ?_⟩
  simp [Instr.wireBytes, Instr.message?, Instr.payloadBytes, headerBytes, leBytes32, leBytes16, maskBytes,
    Machine.requestOf, Machine.Request.ofWrite]
theorem flush (byte7 : Byte) (h : Header) : Statement (.flush byte7 h) := fun _ => ⟨rfl, rfl⟩
theorem undefinedKind (kind : BitVec 3) (byte7 : Byte) (h : Header) : Statement (.undefinedKind kind byte7 h) := by
  intro w; refine ⟨rfl, ?_⟩
  have hk : kind ≠ kindWrite := by rintro rfl; simp [Instr.wf, kindCodeDefined, kindWrite] at w
  simp [Instr.wireBytes, Instr.message?, Instr.payloadBytes, headerBytes, leBytes32, leBytes16, Machine.requestOf, hk]
theorem setupCheckPolicy (h : Header) : Statement (.setupCheckPolicy h) := fun _ => ⟨rfl, rfl⟩
theorem setupHighMark (h : Header) : Statement (.setupHighMark h) := fun _ => ⟨rfl, rfl⟩
theorem setupLowMark (h : Header) : Statement (.setupLowMark h) := fun _ => ⟨rfl, rfl⟩
theorem setupIdleDrainTime (h : Header) : Statement (.setupIdleDrainTime h) := fun _ => ⟨rfl, rfl⟩
theorem setupReadWaitLimit (h : Header) : Statement (.setupReadWaitLimit h) := fun _ => ⟨rfl, rfl⟩
theorem setupParkDelay (h : Header) : Statement (.setupParkDelay h) := fun _ => ⟨rfl, rfl⟩
theorem setupWakeMode (h : Header) : Statement (.setupWakeMode h) := fun _ => ⟨rfl, rfl⟩
theorem setupPullIn (h : Header) : Statement (.setupPullIn h) := fun _ => ⟨rfl, rfl⟩
theorem setupMaskedWrites (h : Header) : Statement (.setupMaskedWrites h) := fun _ => ⟨rfl, rfl⟩
theorem setupDieCount (h : Header) : Statement (.setupDieCount h) := fun _ => ⟨rfl, rfl⟩
theorem setupDieLinesLog2 (h : Header) : Statement (.setupDieLinesLog2 h) := fun _ => ⟨rfl, rfl⟩
theorem setupGranularity (h : Header) : Statement (.setupGranularity h) := fun _ => ⟨rfl, rfl⟩
theorem setupTempPoll (h : Header) : Statement (.setupTempPoll h) := fun _ => ⟨rfl, rfl⟩
theorem setupDrainRetry (h : Header) : Statement (.setupDrainRetry h) := fun _ => ⟨rfl, rfl⟩
theorem setupDieOpLimit (h : Header) : Statement (.setupDieOpLimit h) := fun _ => ⟨rfl, rfl⟩
theorem profileFieldWrite (p : ProfileId) (n : Fin 16) (h : Header) : Statement (.profileFieldWrite p n h) := fun _ => ⟨rfl, rfl⟩
theorem profileCommit (h : Header) : Statement (.profileCommit h) := fun _ => ⟨rfl, rfl⟩
theorem start (h : Header) : Statement (.start h) := fun _ => ⟨rfl, rfl⟩
theorem rateSwitch (h : Header) : Statement (.rateSwitch h) := fun _ => ⟨rfl, rfl⟩
theorem clearErrors (h : Header) : Statement (.clearErrors h) := fun _ => ⟨rfl, rfl⟩
theorem restart (h : Header) : Statement (.restart h) := fun _ => ⟨rfl, rfl⟩
theorem dieSetting (h : Header) : Statement (.dieSetting h) := fun _ => ⟨rfl, rfl⟩
theorem queryStatus (h : Header) : Statement (.queryStatus h) := fun _ => ⟨rfl, rfl⟩
theorem queryLog (h : Header) : Statement (.queryLog h) := fun _ => ⟨rfl, rfl⟩
theorem queryEntry (h : Header) : Statement (.queryEntry h) := fun _ => ⟨rfl, rfl⟩
theorem queryPoison (h : Header) : Statement (.queryPoison h) := fun _ => ⟨rfl, rfl⟩
theorem queryProfile (h : Header) : Statement (.queryProfile h) := fun _ => ⟨rfl, rfl⟩
theorem queryShadow (h : Header) : Statement (.queryShadow h) := fun _ => ⟨rfl, rfl⟩
theorem querySettings (h : Header) : Statement (.querySettings h) := fun _ => ⟨rfl, rfl⟩
theorem powerOn : Statement .powerOn := fun _ => ⟨rfl, rfl⟩
theorem linkReset : Statement .linkReset := fun _ => ⟨rfl, rfl⟩
theorem answerSent : Statement .answerSent := fun _ => ⟨rfl, rfl⟩
theorem idleDrainTimerExpiry : Statement .idleDrainTimerExpiry := fun _ => ⟨rfl, rfl⟩
theorem parkDelayTimerExpiry : Statement .parkDelayTimerExpiry := fun _ => ⟨rfl, rfl⟩
theorem relockTimerExpiry : Statement .relockTimerExpiry := fun _ => ⟨rfl, rfl⟩
theorem settleTimerExpiry (d : DieId) : Statement (.settleTimerExpiry d) := fun _ => ⟨rfl, rfl⟩
theorem opLimitExpiry (d : DieId) : Statement (.opLimitExpiry d) := fun _ => ⟨rfl, rfl⟩
theorem deadlineExpiry (tag : Tag) : Statement (.deadlineExpiry tag) := fun _ => ⟨rfl, rfl⟩
theorem refreshDueEvent (d : DieId) : Statement (.refreshDueEvent d) := fun _ => ⟨rfl, rfl⟩
theorem recalDueEvent (d : DieId) : Statement (.recalDueEvent d) := fun _ => ⟨rfl, rfl⟩
theorem thermalPollExpiry : Statement .thermalPollExpiry := fun _ => ⟨rfl, rfl⟩
theorem lineReadCompletion (d : DieId) (c : Completion) : Statement (.lineReadCompletion d c) := fun _ => ⟨rfl, rfl⟩
theorem lineWriteCompletion (d : DieId) (c : Completion) : Statement (.lineWriteCompletion d c) := fun _ => ⟨rfl, rfl⟩
theorem maskedWriteCompletion (d : DieId) (c : Completion) : Statement (.maskedWriteCompletion d c) := fun _ => ⟨rfl, rfl⟩
theorem refreshCompletion (d : DieId) (c : Completion) : Statement (.refreshCompletion d c) := fun _ => ⟨rfl, rfl⟩
theorem shortRecalCompletion (d : DieId) (c : Completion) : Statement (.shortRecalCompletion d c) := fun _ => ⟨rfl, rfl⟩
theorem longRecalCompletion (d : DieId) (c : Completion) : Statement (.longRecalCompletion d c) := fun _ => ⟨rfl, rfl⟩
theorem tempReadCompletion (d : DieId) (c : Completion) : Statement (.tempReadCompletion d c) := fun _ => ⟨rfl, rfl⟩
theorem setCompletion (d : DieId) (c : Completion) : Statement (.setCompletion d c) := fun _ => ⟨rfl, rfl⟩
theorem dieResetCompletion (d : DieId) (c : Completion) : Statement (.dieResetCompletion d c) := fun _ => ⟨rfl, rfl⟩
theorem parkEnterCompletion (d : DieId) (c : Completion) : Statement (.parkEnterCompletion d c) := fun _ => ⟨rfl, rfl⟩
theorem parkExitCompletion (d : DieId) (c : Completion) : Statement (.parkExitCompletion d c) := fun _ => ⟨rfl, rfl⟩
theorem undefinedSettingCode (code : Byte) (h : Header) : Statement (.undefinedSettingCode code h) := fun _ => ⟨rfl, rfl⟩
theorem undefinedQueryCode (code : Byte) (h : Header) : Statement (.undefinedQueryCode code h) := fun _ => ⟨rfl, rfl⟩

end Sys2Proof.Laws.Wire
end

