-- ==== Sys2Proof/Laws/Quiesce.lean ====
section
/-! SUPPORT. The PARK ENTER claims of phase QUIESCE, and their grants, while an event closes (R125). -/

namespace Sys2Proof.Machine

/-- What the PARK ENTER claim at a die reads: Channel Control, the die's port state, slot and claim, and its balance. -/
structure SameEnter (s t : State) (d : DieId) : Prop where
  chan : t.chan = s.chan
  state : (t.port d).state = (s.port d).state
  slot : (t.port d).slot = (s.port d).slot
  claim : (t.port d).channelClaim = (s.port d).channelClaim
  balance : (t.care d).balance = (s.care d).balance

theorem entering_congr {p q : Port} (h : q.slot = p.slot) : q.entering = p.entering := by
  unfold Port.entering; rw [h]

theorem ParkEnterKept.congr {s t : State} {d : DieId} (h : ParkEnterKept s d) (k : SameEnter s t d) :
    ParkEnterKept t d := by
  unfold ParkEnterKept at *
  rw [k.chan, k.claim, k.state, entering_congr k.slot, k.balance]
  exact h

theorem SameEnter.trans {s t u : State} {d : DieId} (h : SameEnter s t d) (k : SameEnter t u d) : SameEnter s u d :=
  ⟨k.chan.trans h.chan, k.state.trans h.state, k.slot.trans h.slot, k.claim.trans h.claim, k.balance.trans h.balance⟩

theorem select_sameEnter (s : State) (e d : DieId) : SameEnter s (s.select e) d := by
  have hb : ((s.select e).care d).balance = (s.care d).balance := by rw [select_care]
  rw [select_eq] at hb ⊢
  refine ⟨rfl, ?_, ?_, ?_, hb⟩ <;> simp only [State.setDrainClaim, State.setPort_port] <;> split <;> simp_all

theorem retest_sameEnter (s : State) (e d : DieId) : SameEnter s (s.retest e) d :=
  ⟨(retest_internal s e).chan, by simp only [State.port, retest_ports], by simp only [State.port, retest_ports],
    by simp only [State.port, retest_ports], ((retest_internal s e).care d).1⟩

theorem keepCareClaims_sameEnter (s : State) (e d : DieId) : SameEnter s (s.keepCareClaims e) d := by
  refine ⟨rfl, ?_, ?_, ?_, rfl⟩ <;> simp only [State.keepCareClaims, State.setPort_port] <;> split <;> simp_all

theorem takeLevel_sameEnter (s : State) (d : DieId) : SameEnter s s.takeLevel d :=
  ⟨(takeLevel_internal s).chan, by rw [takeLevel_port], by rw [takeLevel_port], by rw [takeLevel_port],
    by rw [takeLevel_care]⟩

/-- Channel Control's own step places or withdraws the claim (R125). -/
theorem keepChannelClaim_parkEnter (s : State) (d : DieId) : ParkEnterKept (s.keepChannelClaim d) d := by
  have hc := (keepChannelClaim_internal s d).chan
  intro h1 h2
  rw [hc] at h1 h2
  have hk : s.keepChannelClaim d = s.setChannelClaim d
      (if (s.port d).state ≠ .parked ∧ ¬ (s.port d).entering ∧ 0 ≤ (s.care d).balance then some .parkEnter else none) := by
    unfold State.keepChannelClaim
    simp only [h1, h2, if_true]
  rw [hk]
  simp only [State.setChannelClaim, State.setPort_port_self, State.setPort_care, Bool.not_eq_true]
  rfl

theorem prepare_parkEnter {s : State} {d : DieId} (hp : s.present d = true) : ParkEnterKept (s.prepare d) d := by
  unfold State.prepare
  rw [if_pos hp]
  exact (keepChannelClaim_parkEnter _ d).congr (select_sameEnter _ d d)

theorem ParkEnterKept.prepare {s : State} {d : DieId} (h : ParkEnterKept s d) (e : DieId) :
    ParkEnterKept (s.prepare e) d := by
  by_cases hp : s.present e = true
  · by_cases he : e = d
    · subst he; exact prepare_parkEnter hp
    · unfold State.prepare
      rw [if_pos hp]
      have hk := (h.congr (retest_sameEnter s e d)).congr (keepCareClaims_sameEnter _ e d)
      refine ParkEnterKept.congr (hk.congr ?_) (select_sameEnter _ e d)
      refine ⟨(keepChannelClaim_internal _ e).chan, ?_, ?_, ?_, by rw [keepChannelClaim_care]⟩ <;>
        rw [keepChannelClaim_port _ he]
  · unfold State.prepare
    rw [if_neg hp]
    exact h

/-- A Channel Control claim that is granted is the pending one. -/
theorem decision_channel {s : State} {d : DieId} {op : ChannelOp} (h : s.decision d = some (.channel op)) :
    (s.port d).channelClaim = some op := by
  unfold State.decision at h
  dsimp only at h
  split at h
  · cases h
  · split at h
    · split at h
      · next k => cases h; exact k.1
      · cases h
    · split at h
      · cases h
      · rw [Option.bind_eq_some_iff] at h
        obtain ⟨o, ho, h⟩ := h
        split at h
        · cases h; exact ho
        · cases h
    · split at h
      · next k => cases h; exact k.1
      · cases h
    · unfold State.firstInOrder at h
      dsimp only at h
      simp only [Option.orElse_eq_orElse, Option.orElse_eq_or, Option.or_eq_some_iff, Option.map_eq_some_iff,
        Option.bind_eq_some_iff, Option.ite_none_right_eq_some, Option.some.injEq, reduceCtorEq, and_false, exists_false,
        false_or, or_false, Pick.channel.injEq] at h
      rcases h with ⟨o, ho, -, rfl⟩ | ⟨-, -, -, h⟩
      · exact ho
      · unfold State.placeThree at h
        dsimp only at h
        split at h <;>
          · simp only [Option.orElse_eq_orElse, Option.orElse_eq_or, Option.or_eq_some_iff, Option.map_eq_some_iff,
              reduceCtorEq, and_false, exists_false, or_false] at h
    all_goals cases h

/-- In QUIESCE only the PARK ENTER claim is granted of Channel Control's, and then none is pending (R125). -/
theorem ParkEnterKept.grant {s : State} {d : DieId} {pick : Pick} (h : ParkEnterKept s d)
    (hd : s.decision d = some pick) : ParkEnterKept (s.grant d pick) d := by
  have hc := (grant_internal hd).chan
  obtain ⟨hn, hst⟩ := decision_grantable hd
  intro h1 h2
  rw [hc] at h1 h2
  have hk := h h1 h2
  have hen : (s.port d).entering = false := by unfold Port.entering; rw [hn]
  rw [grant_care]
  by_cases hop : ∃ op, pick = .channel op
  · obtain ⟨op, rfl⟩ := hop
    have := decision_channel hd
    rw [this] at hk
    split at hk
    · cases hk
      have he : ((s.grant d (.channel .parkEnter)).port d).entering = true := by
        simp [State.grant, State.fillSlot, Port.entering, State.channelOperation]
      rw [he, if_neg (fun k => Bool.noConfusion k.2.1)]
      simp [State.grant, State.fillSlot]
    · cases hk
  · have hcl : ((s.grant d pick).port d).channelClaim = (s.port d).channelClaim := by
      cases pick <;> first | exact absurd ⟨_, rfl⟩ hop | simp [State.grant, State.fillSlot]
    have hpt : ((s.grant d pick).port d).state = (s.port d).state.granted := by
      cases pick <;> simp [State.grant, State.fillSlot]
    have he : ((s.grant d pick).port d).entering = false := by
      cases pick with
      | channel op => exact absurd ⟨_, rfl⟩ hop
      | drain c b =>
        simp only [State.grant, State.fillSlot, State.setEntry_port, State.setPort_port_self, Port.entering]
        unfold State.drainOperation
        dsimp only
        split <;> first | rfl | (next k => split at k <;> cases k)
      | _ => simp [State.grant, State.fillSlot, Port.entering]
    have hidle : (s.port d).state ≠ .parked := by
      intro k
      have := decision_parked hd k
      exact hop ⟨_, this⟩
    rw [hcl, hk, hpt, he, hen]
    have hg : (s.port d).state.granted ≠ .parked := by
      cases (s.port d).state <;> simp [PortState.granted]
    simp only [hidle, hg, ne_eq, not_false_eq_true, true_and]

theorem ParkEnterKept.arbitrate {s : State} {d : DieId} (h : ParkEnterKept s d) (e : DieId) :
    ParkEnterKept (s.arbitrate e) d := by
  by_cases hp : s.present e = true
  · cases hd : s.decision e with
    | none => rw [arbitrate_rests (.inr hd)]; exact h
    | some pick =>
      rw [arbitrate_grants hp hd]
      refine ParkEnterKept.congr ?_ (((retest_sameEnter _ e d).trans (keepCareClaims_sameEnter _ e d)).trans
        (select_sameEnter _ e d))
      by_cases he : e = d
      · subst he; exact h.grant hd
      · have hport := grant_port_other s pick he
        exact h.congr ⟨(grant_internal hd).chan, by rw [hport], by rw [hport], by rw [hport], by rw [grant_care]⟩
  · rw [arbitrate_rests (.inl (by simpa using hp))]; exact h

/-- The PARK ENTER claim of a die is kept once the event has closed: at a die that the event touches, and at each when the
part state or the phase changes, whatever it was before. -/
theorem finish_parkEnter {s : State} {d : DieId} (before : State) (touched : DieId → Bool)
    (h : ParkEnterKept s d ∨ (s.present d = true ∧ (touched d = true ∨ s.chan.partState ≠ before.chan.partState ∨
      s.chan.phase ≠ before.chan.phase))) : ParkEnterKept (s.finish before touched) d := by
  unfold State.finish
  dsimp only
  have hc : s.testHysteresis.takeLevel.chan = s.chan := (takeLevel_internal _).chan
  have h0 : SameEnter s s.testHysteresis d := ⟨rfl, rfl, rfl, rfl, rfl⟩
  have hl := h0.trans (takeLevel_sameEnter s.testHysteresis d)
  generalize levelStirs s.testHysteresis.drain.pressure s.testHysteresis.level = stirs
  generalize s.testHysteresis.takeLevel = x at hc hl ⊢
  refine forDies_turn (P := fun y => ParkEnterKept y d) (Q := fun y => ParkEnterKept y d) _ d _ ?_
    (fun e y _ hy => ?_) (fun y hy => ?_) fun e y _ hy => ?_
  rotate_left
  · split <;> [exact hy.arbitrate e; exact hy]
  · split <;> [exact hy.arbitrate d; exact hy]
  · split <;> [exact hy.arbitrate e; exact hy]
  rcases h with h | ⟨hp, ht⟩
  · refine forDies_turn (P := fun y => ParkEnterKept y d) (Q := fun y => ParkEnterKept y d) _ d _ (h.congr hl)
      (fun e y _ hy => ?_) (fun y hy => ?_) fun e y _ hy => ?_
    · split <;> [exact hy.prepare e; exact hy]
    · split <;> [exact hy.prepare d; exact hy]
    · split <;> [exact hy.prepare e; exact hy]
  · have hm : ((s.chan.partState != before.chan.partState || s.chan.phase != before.chan.phase) || touched d) = true := by
      rcases ht with ht | ht | ht <;> simp_all
    refine forDies_turn (P := fun y => y.chan = s.chan) (Q := fun y => ParkEnterKept y d) _ d _ hc
      (fun e y _ hy => ?_) (fun y hy => ?_) fun e y _ hy => ?_
    · split <;> [exact (prepare_internal y e).chan.trans hy; exact hy]
    · rw [if_pos hm]
      exact prepare_parkEnter (by simpa only [State.present, hy] using hp)
    · split <;> [exact hy.prepare e; exact hy]

/-- The blocks' placing of claims leaves every port's state and slot. -/
theorem prepare_rests (s : State) (e d : DieId) :
    ((s.prepare e).port d).state = (s.port d).state ∧ ((s.prepare e).port d).slot = (s.port d).slot := by
  unfold State.prepare
  split
  · have k := ((retest_sameDrains s e).trans (keepCareClaims_sameDrains _ e)).trans (keepChannelClaim_sameDrains _ e)
    have h := select_sameEnter (((s.retest e).keepCareClaims e).keepChannelClaim e) e d
    exact ⟨h.state.trans (k.state d), h.slot.trans (k.slot d)⟩
  · exact ⟨rfl, rfl⟩

/-- In QUIESCE the PARK ENTER of an IDLE die with its refresh paid up is granted as the event closes, if the event touches
the die or changes part state or phase (R89, R125). -/
theorem finish_parks {s : State} {d : DieId} (hp : s.present d = true) (h1 : s.chan.partState = .switching)
    (h2 : s.chan.phase = some .quiesce) (hi : (s.port d).state = .idle) (hs : (s.port d).slot = none)
    (hb : 0 ≤ (s.care d).balance) (before : State) (touched : DieId → Bool)
    (ht : touched d = true ∨ s.chan.partState ≠ before.chan.partState ∨ s.chan.phase ≠ before.chan.phase) :
    ChannelOperates (s.finish before touched) d (.parkEnter (s.activeField 12)) := by
  have keep (x : State) (e : DieId) (hx : x.chan = s.chan ∧ (x.port d).state = .idle ∧ (x.port d).slot = none ∧
      0 ≤ (x.care d).balance) : (x.prepare e).chan = s.chan ∧ ((x.prepare e).port d).state = .idle ∧
      ((x.prepare e).port d).slot = none ∧ 0 ≤ ((x.prepare e).care d).balance := by
    have hq := prepare_internal x e
    have hr := prepare_rests x e d
    exact ⟨hq.chan.trans hx.1, hr.1.trans hx.2.1, hr.2.trans hx.2.2.1, by rw [(hq.care d).1]; exact hx.2.2.2⟩
  have h0 := takeLevel_sameEnter s.testHysteresis d
  refine finish_turn (op := .parkEnter) before touched ht (K := fun x => x.chan = s.chan ∧ (x.port d).state = .idle ∧
    (x.port d).slot = none ∧ 0 ≤ (x.care d).balance)
    ⟨h0.chan, h0.state.trans hi, h0.slot.trans hs, by rw [h0.balance]; exact hb⟩ (fun e x _ hx => keep x e hx)
    fun x hx => ?_
  have hpx : x.present d = true := by simpa only [State.present, hx.1] using hp
  obtain ⟨k1, k2, k3, k4⟩ := keep x d hx
  have hk := prepare_parkEnter hpx (by rw [k1]; exact h1) (by rw [k1]; exact h2)
  have he : ((x.prepare d).port d).entering = false := by unfold Port.entering; rw [k3]
  rw [k2, he, if_pos ⟨by decide, rfl, k4⟩] at hk
  refine ⟨by simpa only [State.present, k1] using hp, hk, k3, ?_, ?_, .inr (.inr (.inr k2))⟩
  · unfold State.permits
    rw [k1, h1, h2]
  · unfold ClaimStays
    rw [k1, h1]
    exact fun _ => ⟨rfl, by rw [k2]; decide, k4⟩

theorem ParkEnterKept.relevel {s : State} {d : DieId} (h : ParkEnterKept s d) : ParkEnterKept s.relevel d := by
  have ht := h.congr (takeLevel_sameEnter s d)
  unfold State.relevel
  generalize s.takeLevel = x at ht ⊢
  generalize levelStirs s.drain.pressure s.level = stirs
  cases stirs
  · exact ht
  · exact ParkEnterKept.arbitrate (ParkEnterKept.arbitrate (ParkEnterKept.arbitrate (ht.arbitrate 0) 1) 2) 3

end Sys2Proof.Machine
end

