-- ==== Sys2Proof/Laws/Stop.lean ====
section
/-! SUPPORT. What the part's entry to STOPPED leaves of its settings and of the ports of the other dies, so that they are
carried back to IDLE (R131, R132). -/

namespace Sys2Proof.Machine

/-- Settings, profiles and owed clock recals stay, and so do the state and slot of every port but this one. -/
structure Steady (x : Option DieId) (s t : State) : Prop where
  settings : t.chan.settings = s.chan.settings
  active : t.chan.active = s.chan.active
  profileA : t.chan.profileA = s.chan.profileA
  profileB : t.chan.profileB = s.chan.profileB
  recalOwed : t.chan.recalOwed = s.chan.recalOwed
  ports : ∀ e, some e ≠ x → (t.port e).state = (s.port e).state ∧ (t.port e).slot = (s.port e).slot

theorem Steady.refl (x : Option DieId) (s : State) : Steady x s s := ⟨rfl, rfl, rfl, rfl, rfl, fun _ _ => ⟨rfl, rfl⟩⟩

theorem Steady.trans {x : Option DieId} {s t u : State} (h : Steady x s t) (k : Steady x t u) : Steady x s u :=
  ⟨k.settings.trans h.settings, k.active.trans h.active, k.profileA.trans h.profileA, k.profileB.trans h.profileB,
    k.recalOwed.trans h.recalOwed, fun e he =>
      ⟨(k.ports e he).1.trans (h.ports e he).1, (k.ports e he).2.trans (h.ports e he).2⟩⟩

/-- The ports all stay. -/
theorem Steady.of_ports {s t : State} (x : Option DieId) (h : t.ports = s.ports)
    (hs : t.chan.settings = s.chan.settings) (ha : t.chan.active = s.chan.active)
    (hA : t.chan.profileA = s.chan.profileA) (hB : t.chan.profileB = s.chan.profileB)
    (ho : t.chan.recalOwed = s.chan.recalOwed) : Steady x s t :=
  ⟨hs, ha, hA, hB, ho, fun e _ => by
    have : t.port e = s.port e := by simp only [State.port, h]
    rw [this]; exact ⟨rfl, rfl⟩⟩

theorem setReads_steady (x : Option DieId) (s : State) (r : Reads) : Steady x s (s.setReads r) :=
  .of_ports x rfl rfl rfl rfl rfl rfl

theorem setFlushes_steady (x : Option DieId) (s : State) (l : List FlushRecord) : Steady x s (s.setFlushes l) :=
  .of_ports x rfl rfl rfl rfl rfl rfl

theorem setTable_steady (x : Option DieId) (s : State) (t : Table) : Steady x s (s.setTable t) :=
  .of_ports x rfl rfl rfl rfl rfl rfl

theorem setErrs_steady (x : Option DieId) (s : State) (e : Errors) : Steady x s (s.setErrs e) :=
  .of_ports x rfl rfl rfl rfl rfl rfl

theorem Steady.setPort (x : Option DieId) (s : State) (d : DieId) (p : Port)
    (h : some d ≠ x → p.state = (s.port d).state ∧ p.slot = (s.port d).slot) : Steady x s (s.setPort d p) := by
  refine ⟨rfl, rfl, rfl, rfl, rfl, fun e he => ?_⟩
  rw [State.setPort_port]
  split
  · next k => subst k; exact h he
  · exact ⟨rfl, rfl⟩

theorem Steady.forDies {x : Option DieId} (f : DieId → State → State) (h : ∀ d t, Steady x t (f d t)) (s : State) :
    Steady x s (forDies f s) :=
  (((h 0 s).trans (h 1 _)).trans (h 2 _)).trans (h 3 _)

theorem Steady.present {x : Option DieId} {s t : State} (h : Steady x s t) (d : DieId) : t.present d = s.present d := by
  simp only [State.present, h.settings]

theorem Steady.activeField {x : Option DieId} {s t : State} (h : Steady x s t) (n : Fin 16) :
    t.activeField n = s.activeField n := by
  simp only [State.activeField, Channel.profile, h.active, h.profileA, h.profileB]

theorem Steady.wakeExit {x : Option DieId} {s t : State} (h : Steady x s t) : t.wakeExit = s.wakeExit := by
  simp only [State.wakeExit, h.settings, h.activeField]

theorem endProcedure_steady (x : Option DieId) (s : State) (st : Status) (detail : BitVec 32) :
    Steady x s (s.endProcedure st detail) := by
  unfold State.endProcedure
  split
  · exact .refl x s
  · dsimp only
    split <;> exact .of_ports x rfl rfl rfl rfl rfl rfl

theorem closeAll_steady (x : Option DieId) (s : State) (l : List Answer) : Steady x s (s.closeAll l) := by
  rw [closeAll_eq]; exact .of_ports x rfl rfl rfl rfl rfl rfl

/-- Entry to STOPPED leaves every port's state and slot. -/
theorem enterStopped_steady (x : Option DieId) (s : State) (cause : StopCause) : Steady x s (s.enterStopped cause) := by
  have reads (t : State) : Steady x t t.stopReads := by
    refine Steady.trans ?_ (closeAll_steady x _ _)
    refine Steady.trans ?_ (setReads_steady x _ _)
    refine Steady.forDies _ (fun d u => ?_) t
    exact .setPort x u d _ fun _ => ⟨rfl, rfl⟩
  have flushes (t : State) : Steady x t t.stopFlushes :=
    (setFlushes_steady x t []).trans (closeAll_steady x _ _)
  have claims (t : State) : Steady x t t.stopClaims :=
    Steady.forDies _ (fun d u => by split <;> [exact .refl x u; exact .setPort x u d _ fun _ => ⟨rfl, rfl⟩]) t
  unfold State.enterStopped
  split
  on_goal 5 => exact .refl x s
  on_goal 5 => exact .refl x s
  on_goal 5 => exact .refl x s
  on_goal 5 => exact .refl x s
  all_goals
    refine Steady.trans ?_ (claims _)
    refine Steady.trans ?_ (flushes _)
    refine Steady.trans ?_ (reads _)
    refine Steady.trans ?_ (endProcedure_steady x _ _ _)
    exact .of_ports x rfl rfl rfl rfl rfl rfl

theorem closeAll_chan (s : State) (l : List Answer) : (s.closeAll l).chan = s.chan := by rw [closeAll_eq]; rfl

theorem endProcedure_partState (s : State) (st : Status) (detail : BitVec 32) :
    (s.endProcedure st detail).chan.partState = s.chan.partState := by
  unfold State.endProcedure
  split
  · rfl
  · dsimp only
    split <;> rfl

/-- The part is in STOPPED after the entry (R131). -/
theorem enterStopped_stopped {s : State} (cause : StopCause)
    (h : s.chan.partState ∈ [PartState.running, .parking, .waking, .switching]) :
    (s.enterStopped cause).chan.partState = .stopped := by
  have reads (t : State) : t.stopReads.chan = t.chan := (closeAll_chan _ _).trans rfl
  have flushes (t : State) : t.stopFlushes.chan = t.chan := (closeAll_chan _ _).trans rfl
  have claims (t : State) : t.stopClaims.chan = t.chan :=
    (Internal.forDies _ (fun d u => by split <;> [exact .refl u; exact setChannelClaim_internal u d none]) t).chan
  unfold State.enterStopped
  split
  all_goals first
    | (rw [claims, flushes, reads, endProcedure_partState]; rfl)
    | (next e => rw [e] at h; simp at h)

/-- An event that stops the part carries back every die whose port the effect leaves alone. -/
theorem steady_carriesBack {s u : State} {d : DieId} (touched : DieId → Bool) (h : Steady (some d) s u)
    (hp : u.chan.partState = .stopped) (hb : s.chan.partState ≠ .stopped) :
    OthersCarriedBack s (u.finish s touched) d :=
  finish_carriesBack touched hp hb h.present h.wakeExit h.recalOwed (h.activeField 9)
    fun e he => h.ports e fun x => he (Option.some.inj x)

theorem logNote_steady (x : Option DieId) (s : State) (n : LogNote) : Steady x s (s.logNote n) := setErrs_steady x s _

theorem latch_steady (x : Option DieId) (s : State) (l : Latch) : Steady x s (s.latch l) := setErrs_steady x s _

theorem setEntry_steady (x : Option DieId) (s : State) (i : Fin 32) (e : Entry) : Steady x s (s.setEntry i e) :=
  setTable_steady x s _

theorem revert_chan (s : State) (i : Fin 32) : (s.revert i).chan = s.chan ∧ (s.revert i).ports = s.ports := by
  unfold State.revert
  dsimp only
  split <;> exact ⟨rfl, rfl⟩

/-- A revert concerns the table alone. -/
theorem revertDie_chan (s : State) (d : DieId) : (s.revertDie d).chan = s.chan ∧ (s.revertDie d).ports = s.ports := by
  unfold State.revertDie
  have (l : List (Fin 32)) (t : State) (h : t.chan = s.chan ∧ t.ports = s.ports) :
      (l.foldl (fun t i => if (t.entry i).state = .draining ∧ t.entryDie i = some d then t.revert i else t) t).chan =
          s.chan ∧
        (l.foldl (fun t i => if (t.entry i).state = .draining ∧ t.entryDie i = some d then t.revert i else t) t).ports =
          s.ports := by
    induction l generalizing t with
    | nil => exact h
    | cons i l ih =>
      refine ih _ ?_
      dsimp only
      split
      · exact ⟨(revert_chan t i).1.trans h.1, (revert_chan t i).2.trans h.2⟩
      · exact h
  exact this _ s ⟨rfl, rfl⟩

/-- A port's failure outside bring-up stops the part and leaves the other ports (R85, R131). -/
theorem failPort_steady {s : State} (d : DieId) (detail : Status)
    (h : s.chan.partState ∈ [PartState.running, .parking, .waking, .switching]) :
    Steady (some d) s (s.failPort d detail) ∧ (s.failPort d detail).chan.partState = .stopped := by
  unfold State.failPort
  dsimp only
  generalize ({ kind := .dieFailed, detail := detail.code, die := some d, line := (s.port d).slot.bind Slot.line
                tag := s.slotTag d } : LogNote) = n
  have k1 : Steady (some d) s ((s.logNote n).latch .dieFailed) := (logNote_steady _ s n).trans (latch_steady _ _ _)
  generalize hx : (s.logNote n).latch .dieFailed = x at k1
  have hc : x.chan = s.chan := by rw [← hx]; rfl
  have k2 : Steady (some d) s ((x.setPort d (x.port d).fail).revertDie d) := by
    refine (k1.trans (.setPort (some d) x d (x.port d).fail fun e => absurd rfl e)).trans ?_
    obtain ⟨c1, c2⟩ := revertDie_chan (x.setPort d (x.port d).fail) d
    exact .of_ports _ c2 (by rw [c1]) (by rw [c1]) (by rw [c1]) (by rw [c1]) (by rw [c1])
  have hp : ((x.setPort d (x.port d).fail).revertDie d).chan.partState = s.chan.partState := by
    rw [(revertDie_chan _ _).1, ← hc]; rfl
  generalize (x.setPort d (x.port d).fail).revertDie d = y at k2 hp
  rw [if_neg (by rw [hp]; intro e; rw [e] at h; simp at h)]
  exact ⟨k2.trans (enterStopped_steady _ _ _), enterStopped_stopped _ (by rw [hp]; exact h)⟩

theorem leave_chan (s : State) (i : Fin 32) (lost : Bool) :
    (s.leave i lost).chan = s.chan ∧ (s.leave i lost).ports = s.ports := by
  have notice (t : State) (b : Bool) (w : Wsn) : (t.notice b w).chan = t.chan ∧ (t.notice b w).ports = t.ports := by
    unfold State.notice
    rw [closeAll_eq]
    exact ⟨rfl, rfl⟩
  unfold State.leave
  dsimp only
  refine ⟨(notice _ _ _).1.trans ?_, (notice _ _ _).2.trans ?_⟩ <;> split <;> try rfl
  all_goals
    unfold State.promote
    split <;> rfl

/-- A loss at a full Poison List stops the part and leaves the ports (R131, R163). -/
theorem overflow_steady {s : State} (x : Option DieId) (line : LineAddr) (wsn : Wsn) (cause : LossCause)
    (hn : ∀ x ∈ s.errs.poison, x.1 ≠ line) (hf : 16 ≤ s.errs.poison.length)
    (h : s.chan.partState ∈ [PartState.running, .parking, .waking, .switching]) :
    Steady x s (s.reportLoss line wsn cause) ∧ (s.reportLoss line wsn cause).chan.partState = .stopped := by
  have hp : s.poisoned line = false := by simpa [State.poisoned] using fun a b hab e => hn (a, b) hab e
  have ho : decide (Config.poisonLines ≤ s.errs.poison.length) = true := decide_eq_true hf
  unfold State.reportLoss
  simp only [hp, ho, Bool.not_false, Bool.and_true, if_true, or_true]
  generalize ({ kind := .writeLost, detail := cause.code, die := some (s.dieIndex line), line := some line
                wsn := some wsn } : LogNote) = n
  generalize ({ kind := .poisonFull, detail := cause.code, die := some (s.dieIndex line), line := some line
                wsn := some wsn } : LogNote) = m
  have k : Steady x s (((((s.logNote n).latch .writeLost).markLost line).logNote m).latch .poisonFull) := by
    refine Steady.trans ?_ (latch_steady _ _ _)
    refine Steady.trans ?_ (logNote_steady _ _ _)
    refine Steady.trans ?_ (setReads_steady _ _ _)
    exact (logNote_steady _ s n).trans (latch_steady _ _ _)
  exact ⟨k.trans (enterStopped_steady _ _ _), enterStopped_stopped _ h⟩

end Sys2Proof.Machine
end

