-- ==== Sys2Proof/Tests/Slice0.lean ====
section
/-! SUPPORT. Small tests on fixed values: well-formedness, the two checks, beats, one step of some commands; and for each
statement with hypotheses a state and operands that meet them, clause by clause at its boundaries. -/

namespace Sys2Proof.Machine

-- One theorem at a time: each is evaluated by the kernel, and evaluating all at once takes too much memory.
set_option Elab.async false

/-! ### Builders -/

/-- A header with a tag, a line and a value; every other field 0. -/
def testHeader (tag : Tag) (line : LineAddr) (value : BitVec 32) : Header :=
  { kindRsvd := 0, tag := tag, tagRsvd := 0, line := line, lineRsvd := 0, startBeat := 0, half := false
    pairwise := false, beatRsvd := 0, value := value, dieMask := 0, dieMaskRsvd := 0, tailRsvd := 0, check := 0 }

/-- A header with the check that its kind and byte 7 need. -/
def testSeal (kind : BitVec 3) (byte7 : Byte) (h : Header) : Header :=
  { h with check := xorBytes (headerBytes kind byte7 h) }

/-- A SETUP header of a code with a value, tag 5. -/
def testSetup (code : Byte) (value : BitVec 32) : Header := testSeal kindSetup code (testHeader 5 0 value)

/-- A QUERY header of a code with an argument, tag 5. -/
def testQuery (code : Byte) (value : BitVec 32) : Header := testSeal kindQuery code (testHeader 5 0 value)

/-- A READ header for line 8, tag 5. -/
def testRead : Header := testSeal kindRead 0 (testHeader 5 8 0)

/-- A FLUSH header, tag 5. -/
def testFlush : Header := testSeal kindFlush 0 (testHeader 5 0 0)

/-- A WRITE header for line 8, tag 5. -/
def testWrite : Header := testSeal kindWrite 0 (testHeader 5 8 0)

/-- A WRITE's payload of zero bytes with its check. -/
def testPayload (m : Mask) : WritePayload := { mask := m, data := zeroLine, check := maskedCheck m zeroLine }

/-- A port in a state with nothing pending. -/
def testPort (p : PortState) : Port := { Port.atReset (some 2500) with state := p }

/-- A port in a state with an operation in its slot. -/
def testBusy (p : PortState) (op : Operation) (cl : Claimant) : Port :=
  { testPort p with slot := some ⟨op, cl, none⟩, opLimit := some 100000 }

/-- A one-die part in a part state, with port 0 as given. -/
def testPart (p : PartState) (port : Port) : State :=
  { State.reset with
    ports := State.reset.ports.set 0 port
    chan := { State.reset.chan with partState := p } }

/-- A one-die part, running, its port IDLE. -/
def testRunning : State := testPart .running (testPort .idle)

/-- An entry of line 8 with first WSN 0 and one byte. -/
def testEntry (st : EntryState) (gen : Generation) : Entry :=
  { Entry.freed with
    state := st, line := some 8, mask := 1, merges := 1, gen := gen
    step := if st = .draining then some .maskedWrite else none }

/-- A state with one entry at index 0 and the counter at 1. -/
def State.testWith (s : State) (e : Entry) : State :=
  s.setTable { entries := s.table.entries.set 0 e, nextWsn := 1 }

/-- A read record of line 8 with tag 3 and claim 0. -/
def testRecord : ReadRecord :=
  { claim := 0, tag := 3, line := 8, die := 0, startBeat := 0, half := false, pairwise := false, mask := 0
    data := zeroLine, state := .waiting, lost := false, deadline := 40000 }

/-- The pressure level brought to what the state gives. -/
def State.testLevel (s : State) : State := { s with drain := { s.drain with pressure := s.level } }

/-- A part with a procedure in progress under tag 9. -/
def State.testProcedure (s : State) (kind : ProcedureKind) : State :=
  { s with
    chan := { s.chan with procedure := some ⟨kind, 9, false⟩ }
    link := { s.link with tags := s.link.tags ++ [9] } }

/-- A part in a phase of a rate switch to profile B. -/
def testSwitching (phase : Phase) (port : Port) : State :=
  let s := (testPart .switching port).testProcedure (.rateSwitch .b)
  { s with chan := { s.chan with phase := some phase } }

/-! ### Well-formedness (the three checks of WellFormed) -/

theorem test_wf_refuses_defined_kind : (Instr.undefinedKind 4 0 testRead).wf = false := by decide
theorem test_wf_refuses_defined_setting_code : (Instr.undefinedSettingCode 0x15 testRead).wf = false := by decide
theorem test_wf_refuses_defined_query_code : (Instr.undefinedQueryCode 6 testRead).wf = false := by decide

theorem test_wf_admits_undefined_codes :
    (Instr.undefinedKind 5 0 testRead).wf = true ∧ (Instr.undefinedSettingCode 0x16 testRead).wf = true ∧
      (Instr.undefinedSettingCode 0x1F testRead).wf = true ∧ (Instr.undefinedSettingCode 0x30 testRead).wf = true ∧
      (Instr.undefinedSettingCode 0x50 testRead).wf = true ∧ (Instr.undefinedSettingCode 0 testRead).wf = true ∧
      (Instr.undefinedQueryCode 7 testRead).wf = true := by decide

theorem test_exec_refuses_ill_formed :
    exec (.undefinedKind 4 0 testRead) State.reset = .refused (.illFormed "UNDEFINED_KIND") ∧
      exec (.undefinedSettingCode 1 testRead) State.reset = .refused (.illFormed "UNDEFINED_SETTING_CODE") ∧
      exec (.undefinedQueryCode 0 testRead) State.reset = .refused (.illFormed "UNDEFINED_QUERY_CODE") :=
  ⟨rfl, rfl, rfl⟩

/-! ### The worked example of section 11.5, and message bytes -/

/-- The WRITE of section 11.5: tag 6, line 2097151, positions 0 to 15, byte 63 0x41. -/
def testExample : Header := testHeader 6 2097151 0
def testExampleData : LineData := zeroLine.set 63 0x41

theorem test_header_check_of_the_worked_example : xorBytes (headerBytes kindWrite 0 testExample) = 0x18 := by
  decide +kernel

theorem test_data_check_of_the_worked_example : maskedCheck 0xFFFF testExampleData = 0x58E5 := by decide +kernel

theorem test_bytes_of_the_worked_example :
    (headerBytes kindWrite 0 testExample) = [0x01, 0x06, 0xFF, 0xFF, 0x1F, 0, 0, 0, 0, 0, 0, 0, 0, 0, 0] := by
  decide +kernel

theorem test_message_bytes_read_back :
    parseMessage [0x03, 0x05, 0, 0, 0, 0, 0, 0x02, 30, 0, 0, 0, 0, 0, 0, 0x1A] =
      some (.setupHighMark { testHeader 5 0 30 with check := 0x1A }) := by decide +kernel

theorem test_no_table_word_spells_a_command : decodeTableWord 8 0 = none ∧ State.reset.withFetchWord 8 0 = State.reset :=
  ⟨rfl, rfl⟩

/-! ### Beats (R55) -/

theorem test_beats_full_linear : beatOrder 3 false false = [3, 4, 5, 6, 7, 0, 1, 2] := by decide
theorem test_beats_full_pairwise : beatOrder 3 false true = [3, 2, 1, 0, 7, 6, 5, 4] := by decide
theorem test_beats_half_linear : beatOrder 6 true false = [6, 7, 4, 5] := by decide
theorem test_beats_half_pairwise : beatOrder 6 true true = [6, 7, 4, 5] := by decide

/-! ### One step of some commands -/

/-- The one answer that a step from a state queues. -/
def testAnswers (c : Instr) (s : State) : Option (List Answer) :=
  match exec c s with
  | .next t => some t.link.answers
  | .fault _ => none
  | .refused _ => none

theorem test_write_is_posted :
    testAnswers (.write 0 testWrite (testPayload 1)) testRunning = some [Answer.plain 5 .posted 0] := by
  decide +kernel

theorem test_write_in_config_is_not_ready :
    testAnswers (.write 0 testWrite (testPayload 1)) State.reset = some [Answer.plain 5 .notReady 0] := by
  decide +kernel

theorem test_read_waits_for_its_die :
    (match exec (.read 0 testRead) testRunning with
      | .next t => decide ((t.port 0).slot = some ⟨.lineRead 8 10, .reads 0, some 8⟩) && t.link.tags == [5]
      | _ => false) = true := by decide +kernel

theorem test_flush_of_an_empty_table_is_ok :
    testAnswers (.flush 0 testFlush) testRunning = some [Answer.plain 5 .ok 0] := by decide +kernel

theorem test_start_has_die_reset_granted :
    (match exec (.start (testSetup 0x11 0)) State.reset with
      | .next t => decide ((t.port 0).slot = some ⟨.dieReset, .channel, none⟩) && t.chan.partState == .bringup
      | _ => false) = true := by decide +kernel

theorem test_status_has_36_bytes : State.reset.statusBytes.length = 36 := by decide +kernel

theorem test_idle_step : step State.reset = .next State.reset := rfl

/-! ### Witnesses: the machine, formats and the Intake -/

theorem test_witness_StepTakesFrontCommand : State.reset.pending = [] := rfl

theorem test_witness_EveryCommandCompletes :
    Instr.powerOn.wf = true ∧ (Instr.undefinedQueryCode 6 testRead).wf = false := by decide

theorem test_witness_RequestBytesRoundTrip :
    (Instr.write 0 testWrite (testPayload 1)).wf = true ∧
      ∃ bytes, (Instr.write 0 testWrite (testPayload 1)).wireBytes = some bytes := ⟨rfl, _, rfl⟩

theorem test_witness_HeaderFaultDropsMessage :
    let h := testHeader 5 8 0
    (Instr.read 0 h).wf = true ∧ requestOf (.read 0 h) = some (Request.ofRead 0 h) ∧ State.reset.link.held = [] ∧
      State.reset.hasPlace = true ∧ xorBytes (headerBytes kindRead 0 h) ≠ h.check :=
  ⟨rfl, rfl, rfl, rfl, by decide +kernel⟩

/-- A Response Queue with n answers. -/
def State.testFull (s : State) (n : Nat) : State :=
  { s with link := { s.link with answers := List.replicate n (Answer.plain 1 .ok 0) } }

theorem test_witness_MessageWaitsForPlace :
    (Instr.read 0 testRead).wf = true ∧ requestOf (.read 0 testRead) = some (Request.ofRead 0 testRead) ∧
      24 ≤ (State.reset.testFull 24).link.answers.length + (State.reset.testFull 24).link.tags.length ∧
      ({ State.reset with link := { State.reset.link with held := [.read 0 testRead] } } : State).link.held ≠ [] :=
  ⟨rfl, rfl, by decide, by decide⟩

/-- A part whose CHECK_POLICY is STOP and whose HEADER_CHECK latch is set. -/
def testHalted : State :=
  { testRunning with
    chan := { testRunning.chan with settings := { testRunning.chan.settings with checkPolicy := 1 } }
    errs := { testRunning.errs with latches := 1, alert := true } }

/-- A part with tag 5 in the Tag Set. -/
def testTagged : State := { testRunning with link := { testRunning.link with tags := [5] } }

theorem test_witness_RefusalsFollowIntakeOrder_message :
    (Instr.read 0 testRead).wf = true ∧ requestOf (.read 0 testRead) = some (Request.ofRead 0 testRead) := ⟨rfl, rfl⟩

theorem test_witness_RefusalsFollowIntakeOrder_malformed :
    let h := testSeal kindRead 1 (testHeader 5 8 0)
    Taken testRunning (Request.ofRead 1 h) ∧ (Request.ofRead 1 h).malformed = true := by decide +kernel

theorem test_witness_RefusalsFollowIntakeOrder_halted :
    let r := Request.ofRead 0 testRead
    Taken testHalted r ∧ r.malformed = false ∧ testHalted.chan.settings.checkPolicy = 1 ∧
      testHalted.errs.latches.getLsbD 0 = true ∧ r.exempt = false := by decide +kernel

theorem test_witness_RefusalsFollowIntakeOrder_tag_and_state :
    let r := Request.ofRead 0 testRead
    (Taken testTagged r ∧ r.malformed = false ∧ testTagged.chan.settings.checkPolicy = 0 ∧ r.header.tag ∈ testTagged.link.tags) ∧
      (Taken State.reset r ∧ r.memory = true ∧ State.reset.chan.partState = .config ∧ State.reset.link.tags = []) ∧
      Taken (testPart .stopped (testPort .idle)) r ∧ (testPart .stopped (testPort .idle)).link.tags = [] := by
  decide +kernel

theorem test_witness_RefusalsFollowIntakeOrder_range :
    let h (line : LineAddr) : Header := testSeal kindRead 0 (testHeader 5 line 0)
    Taken testRunning (Request.ofRead 0 (h 16777216)) ∧
      testRunning.chan.settings.dieCount * 2 ^ testRunning.chan.settings.dieLinesLog2 ≤ (16777216 : LineAddr).toNat ∧
      testRunning.refusal (Request.ofRead 0 (h 16777216)) = some .range ∧
      Accepted testRunning (Request.ofRead 0 (h 16777215)) := by decide +kernel

theorem test_witness_RefusalsFollowIntakeOrder_data_check :
    let p : WritePayload := { testPayload 1 with check := 0 }
    Taken testRunning (Request.ofWrite 0 testWrite p) ∧ (Request.ofWrite 0 testWrite p).dataOk = false ∧
      testRunning.refusal (Request.ofWrite 0 testWrite p) = some .dataCheck := by decide +kernel

theorem test_witness_MalformedFormsOfEachKind :
    requestOf (.start testRead) = some (Request.setup 0x11 0 testRead) ∧
      requestOf (.clearErrors testRead) = some { Request.setup 0x13 255 testRead with exempt := true } ∧
      requestOf (.dieSetting testRead) = some (Request.dieSetting testRead) ∧
      requestOf (.queryEntry testRead) = some (Request.query 2 31 testRead) ∧
      (Request.query 2 31 (testHeader 5 0 31)).malformed = false ∧
      (Request.query 2 31 (testHeader 5 0 32)).malformed = true :=
  ⟨rfl, rfl, rfl, rfl, by decide, by decide⟩

theorem test_witness_UndefinedCodesAnsweredMalformed :
    let k (code : BitVec 3) : Request :=
      { kind := code, byte7 := 0, header := testSeal code 0 testRead, malformed := true, exempt := false
        memory := false, line := none, dataOk := true }
    let st (code : Byte) : Request := { Request.setup code anyValue (testSetup code 0) with malformed := true }
    (Taken State.reset (k 5) ∧ Taken State.reset (k 7)) ∧
      (Taken State.reset (st 0) ∧ Taken State.reset (st 0x16) ∧ Taken State.reset (st 0x1F) ∧
        Taken State.reset (st 0x30) ∧ Taken State.reset (st 0x3F) ∧ Taken State.reset (st 0x50) ∧
        Taken State.reset (st 0xFF)) ∧
      Taken State.reset { Request.query 7 anyValue (testQuery 7 0) with malformed := true } := by decide +kernel

/-! ### Witnesses: WRITE, READ and FLUSH -/

/-- A running part with one OPEN entry of line 8. -/
def testOpen : State := (testRunning.testWith (testEntry .opened .first)).testLevel

/-- A running part with the DRAINING entry of line 8 in flight on port 0. -/
def testDraining (op : Operation) : State :=
  (testPart .running (testBusy .busy op (.drain 0))).testWith (testEntry .draining .first)

theorem test_witness_WriteMergesIntoOpenEntry :
    LevelKept testOpen ∧ TableSound testOpen ∧ Accepted testOpen (Request.ofWrite 0 testWrite (testPayload 1)) ∧
      (testPayload 1).mask ≠ 0 ∧
      (∀ j, (testOpen.entry j).state ≠ .free →
        (testOpen.table.nextWsn - (testOpen.entry j).firstWsn).toNat < 2 ^ 31 - 1) ∧
      (testOpen.entry 0).state = .opened ∧ (testOpen.entry 0).line = some testWrite.line := by
  set_option synthInstance.maxHeartbeats 200000 in
  set_option synthInstance.maxSize 1000 in
  decide +kernel

theorem test_witness_WriteAllocatesLowestFreeEntry :
    let s := (testDraining .tempRead).testLevel
    LevelKept s ∧ Accepted s (Request.ofWrite 0 testWrite (testPayload 1)) ∧ (testPayload 1).mask ≠ 0 ∧
      (∀ j, (s.entry j).state ≠ .free → (s.table.nextWsn - (s.entry j).firstWsn).toNat < 2 ^ 31 - 1) ∧
      (∀ j, ¬ ((s.entry j).state = .opened ∧ (s.entry j).line = some testWrite.line)) ∧
      (s.entry 1).state = .free ∧ (∀ j, j < (1 : Fin 32) → (s.entry j).state ≠ .free) ∧
      ∃ j, (s.entry j).state = .draining ∧ (s.entry j).line = some testWrite.line := by decide +kernel

/-- A state with 32 OPEN entries, none of line 8. -/
def State.testFilled (s : State) : State :=
  (s.setTable
    { entries := Vector.ofFn fun i => { testEntry .opened .first with line := some (BitVec.ofNat 30 (100 + i.val)) }
      nextWsn := 1 }).testLevel

/-- A running part with a full table. -/
def testFullTable : State := testRunning.testFilled

theorem test_witness_WriteLeavesTableUnchanged :
    (LevelKept testRunning ∧ Accepted testRunning (Request.ofWrite 0 testWrite (testPayload 0)) ∧
      (testPayload 0).mask = 0) ∧
      (LevelKept testFullTable ∧ Accepted testFullTable (Request.ofWrite 0 testWrite (testPayload 1)) ∧
        (∀ j, (testFullTable.entry j).state ≠ .free) ∧
        ∀ j, ¬ ((testFullTable.entry j).state = .opened ∧ (testFullTable.entry j).line = some testWrite.line)) ∧
      let s := testOpen.setTable { testOpen.table with nextWsn := 2147483647 }
      LevelKept s ∧ Accepted s (Request.ofWrite 0 testWrite (testPayload 1)) ∧ (s.entry 0).state ≠ .free ∧
        2 ^ 31 - 1 ≤ (s.table.nextWsn - (s.entry 0).firstWsn).toNat := by decide +kernel

/-- A sound table with a DRAINING and a SECOND entry of line 8. -/
def testPair : State :=
  let s := testDraining .tempRead
  s.setTable
    { entries := s.table.entries.set 1 { testEntry .opened .second with mask := 2, firstWsn := 1, lastWsn := 1 }, nextWsn := 2 }

theorem test_witness_CaptureTakesNewestHeldBytes : TableSound testPair := by
  set_option synthInstance.maxHeartbeats 200000 in
  set_option synthInstance.maxSize 1000 in
  decide +kernel

/-- A Poison List with n lines. -/
def State.testPoison (s : State) (n : Nat) : State :=
  { s with errs := { s.errs with poison := (List.range n).map fun i => (BitVec.ofNat 30 (8 + i), 0) } }

/-- A Read Wait List of n records of line 8. -/
def State.testReads (s : State) (n : Nat) : State :=
  { s with
    reads :=
      { list := (List.range n).map fun i => { testRecord with claim := i, tag := BitVec.ofNat 6 (10 + i) }
        nextClaim := n } }

theorem test_witness_ReadAnsweredAtArrivalOrListed :
    let r := Request.ofRead 0 testRead
    let full := (testRunning.testWith { testEntry .opened .first with mask := BitVec.allOnes 64 }).testLevel
    (LevelKept (testRunning.testPoison 1) ∧ Accepted (testRunning.testPoison 1) r ∧
      ∃ x ∈ (testRunning.testPoison 1).errs.poison, x.1 = testRead.line) ∧
      (LevelKept full ∧ Accepted full r ∧ full.errs.poison = [] ∧
        full.captureMask testRead.line = BitVec.allOnes 64) ∧
      (LevelKept (testOpen.testReads 16) ∧ Accepted (testOpen.testReads 16) r ∧
        (testOpen.testReads 16).captureMask testRead.line ≠ BitVec.allOnes 64 ∧
        16 ≤ (testOpen.testReads 16).reads.list.length) ∧
      LevelKept (testOpen.testReads 15) ∧ Accepted (testOpen.testReads 15) r ∧
        (testOpen.testReads 15).captureMask testRead.line ≠ BitVec.allOnes 64 ∧
        (testOpen.testReads 15).reads.list.length < 16 := by decide +kernel

/-- A Flush List of n records with boundary 1, and the level of it. -/
def State.testFlushes (s : State) (n : Nat) : State :=
  ({ s with
    flushes := (List.range n).map fun i => { tag := BitVec.ofNat 6 (20 + i), boundary := 1, loss := false } } : State).testLevel

theorem test_witness_FlushDecidedAtArrival :
    let r := Request.ofFlush 0 testFlush
    (LevelKept testRunning ∧ Accepted testRunning r ∧ ∀ i, (testRunning.entry i).state = .free) ∧
      (LevelKept (testOpen.testFlushes 4) ∧ Accepted (testOpen.testFlushes 4) r ∧
        ((testOpen.testFlushes 4).entry 0).state ≠ .free ∧
        precedes ((testOpen.testFlushes 4).entry 0).firstWsn (testOpen.testFlushes 4).table.nextWsn = true ∧
        4 ≤ (testOpen.testFlushes 4).flushes.length) ∧
      LevelKept (testOpen.testFlushes 3) ∧ Accepted (testOpen.testFlushes 3) r ∧
        precedes ((testOpen.testFlushes 3).entry 0).firstWsn (testOpen.testFlushes 3).table.nextWsn = true ∧
        (testOpen.testFlushes 3).flushes.length < 4 := by decide +kernel

/-- A running part with one listed read, its tag held. -/
def testReading : State :=
  { testRunning with
    reads := { list := [testRecord], nextClaim := 1 }, link := { testRunning.link with tags := [3] } }

theorem test_witness_DeadlineExpiryAnswersTimeout :
    (TagsHeld testReading ∧ testRecord ∈ testReading.reads.list) ∧
      ∀ r ∈ testReading.reads.list, r.tag ≠ 4 := by decide +kernel

/-! ### Witnesses: drains, reads at the die, failure -/

/-- The LINE WRITE, MASKED WRITE and LINE READ of tests. -/
def testLineWrite : Operation := .lineWrite 8 zeroLine 0 9 12
def testMaskedWrite : Operation := .maskedWrite 8 1 zeroLine 0 9 12
def testLineRead : Operation := .lineRead 8 10

/-- A masked drain in flight with n attempts behind it. -/
def testTried (n : Nat) : State :=
  (testDraining testMaskedWrite).setEntry 0 { testEntry .draining .first with attempts := n }

theorem test_witness_WriteStepRetiresRetriesOrLoses :
    ((testDraining testLineWrite).port 0).slot = some ⟨testLineWrite, .drain 0, none⟩ ∧
      ((testDraining testMaskedWrite).port 0).slot = some ⟨testMaskedWrite, .drain 0, none⟩ ∧
      (let s := testTried 2;
        (s.port 0).slot = some ⟨testMaskedWrite, .drain 0, none⟩ ∧
          (s.entry 0).attempts + 1 ≤ s.chan.settings.drainRetry ∧ (s.entry 0).state = .draining ∧
          s.entryDie 0 = some 0) ∧
      let s := testTried 3
      (s.port 0).slot = some ⟨testMaskedWrite, .drain 0, none⟩ ∧
        s.chan.settings.drainRetry < (s.entry 0).attempts + 1 ∧ (s.entry 0).line = some 8 := by decide +kernel

theorem test_witness_RmwReadFillsOrLoses :
    let s := testDraining testLineRead
    (s.port 0).slot = some ⟨testLineRead, .drain 0, none⟩ ∧ (s.entry 0).state = .draining ∧ s.entryDie 0 = some 0 ∧
      (s.entry 0).line = some 8 := by decide +kernel

theorem test_witness_LeavingEntryPromotesAndAnswersFlushes :
    TableSound testPair ∧ (testPair.entry 0).state = .draining ∧ (testPair.entry 1).gen = .second ∧
      (testPair.entry 1).line = (testPair.entry 0).line := by
  set_option synthInstance.maxHeartbeats 200000 in
  set_option synthInstance.maxSize 1000 in
  decide +kernel

theorem test_witness_LossPoisonsLineOrStopsPart :
    (8 : LineAddr) ∈ (testRunning.testPoison 16).errs.poison.map (·.1) ∧
      ((7 : LineAddr) ∉ (testRunning.testPoison 15).errs.poison.map (·.1) ∧
        (testRunning.testPoison 15).errs.poison.length < 16) ∧
      (7 : LineAddr) ∉ (testRunning.testPoison 16).errs.poison.map (·.1) ∧
        16 ≤ (testRunning.testPoison 16).errs.poison.length := by decide +kernel

/-- A running part with the LINE READ of claim 0 in flight. -/
def testReadAtDie : State :=
  { testPart .running (testBusy .busy testLineRead (.reads 0)) with
    reads := testReading.reads, link := testReading.link }

theorem test_witness_LineReadAnswersListedRecord :
    let gone := testReadAtDie.setReads { list := [], nextClaim := 1 }
    ((testReadAtDie.port 0).slot = some ⟨testLineRead, .reads 0, none⟩ ∧ testRecord ∈ testReadAtDie.reads.list ∧
      testRecord.claim = 0 ∧ (testReadAtDie.reads.list.map ReadRecord.claim).Nodup) ∧
      (gone.port 0).slot = some ⟨testLineRead, .reads 0, none⟩ ∧ ∀ r ∈ gone.reads.list, r.claim ≠ 0 := by
  decide +kernel

theorem test_witness_EnteringStoppedAnswersAllOutstanding :
    testReading.chan.partState ∈ [PartState.running, .parking, .waking, .switching] ∧ TagsHeld testReading ∧
      ¬ State.reset.chan.partState ∈ [PartState.running, .parking, .waking, .switching] := by decide +kernel

theorem test_witness_FailedPortRevertsEntriesAndStopsPart :
    TableSound testPair ∧
      ((testPair.entry 0).state = .draining ∧ testPair.entryDie 0 = some 0 ∧ (testPair.entry 1).gen = .second ∧
        (testPair.entry 1).line = (testPair.entry 0).line) ∧
      let s := testDraining testLineWrite
      TableSound s ∧ (s.entry 0).state = .draining ∧ s.entryDie 0 = some 0 ∧ ∀ j, (s.entry j).gen ≠ .second := by
  set_option synthInstance.maxHeartbeats 200000 in
  set_option synthInstance.maxSize 1000 in
  decide +kernel

/-- A running part with a control operation in flight on port 0. -/
def testControl (op : Operation) : State := testPart .running (testBusy .busy op .maintenance)

theorem test_witness_FailAndOpLimitFailPort :
    (∀ op ∈ [Operation.dieReset, .refresh 350, .shortRecal 128, .longRecal 1024, .set 0 10, .parkEnter 120,
        .parkExit .normal 600], ((testControl op).port 0).slot = some ⟨op, .maintenance, none⟩) ∧
      ((testControl .tempRead).port 0).opLimit = some 100000 ∧ (testRunning.port 0).opLimit = none := by
  decide +kernel

theorem test_witness_MismatchedCompletionChangesNothing :
    (testRunning.port 0).slot.map Slot.op = none ∧
      (plain .fail ≠ { outcome := .done, data := some zeroLine, band := none } ∧ plain .fail ≠ plain .uncorrectable) ∧
      ¬ (plain .uncorrectable = plain .done ∨ plain .uncorrectable = plain .checkFail) ∧
      ¬ (plain .checkFail = plain .done ∨ plain .checkFail = plain .fail) :=
  by decide +kernel

/-! ### Witnesses: maintenance and the ports -/

theorem test_witness_MaintenanceCompletionsUpdateDie :
    let s := (testControl (.refresh 350)).setCare 0 { DieCare.atReset with balance := 8 }
    (((s.port 0).slot = some ⟨.refresh 350, .maintenance, none⟩ ∧ (s.care 0).balance ≤ 8) ∧
      ((testControl (.refresh 350)).port 0).slot = some ⟨.refresh 350, .maintenance, none⟩ ∧
        ((testControl (.refresh 350)).care 0).balance ≤ 8) ∧
      ((testControl (.shortRecal 128)).port 0).slot = some ⟨.shortRecal 128, .maintenance, none⟩ ∧
      ((testControl .tempRead).port 0).slot = some ⟨.tempRead, .maintenance, none⟩ := by decide +kernel

/-- A running part whose die 0 is ACTIVE with a balance. -/
def testActive (balance : Int) : State :=
  testRunning.setCare 0
    { DieCare.atReset with condition := .active, balance := balance, refreshDue := some 7800, recalDue := some 128000000 }

theorem test_witness_RefreshDueEventDebitsDie :
    ((testActive (-7)).care 0).refreshDue = some 7800 ∧ ((testActive (-8)).care 0).refreshDue = some 7800 ∧
      (State.reset.care 0).refreshDue = none := by decide +kernel

theorem test_witness_RecalDueAndPollSetPendingFlags :
    ((testActive 0).care 0).recalDue = some 128000000 ∧ (State.reset.care 0).recalDue = none ∧
      ({ testActive 0 with maint := { (testActive 0).maint with pollTimer := some 32000000 } } : State).maint.pollTimer =
        some 32000000 ∧ State.reset.maint.pollTimer = none := by decide +kernel

/-- A part in bring-up with port 0 as given and these failed dies. -/
def testBringup (failed : BitVec 4) (port : Port) : State := (testPart .bringup port).testProcedure (.start failed)

theorem test_witness_DieResetAndSetDoneGoOn :
    let s (failed : BitVec 4) := testBringup failed (testBusy .init .dieReset .channel)
    (((s 0).port 0).slot = some ⟨.dieReset, .channel, none⟩ ∧ (s 0).startFailed = 0 ∧
      (s 0).chan.partState = .bringup ∧ (s 0).present 0 = true ∧ ((s 0).port 0).state = .init ∧
      ((s 0).port 0).settle = none) ∧
      (((s 2).port 0).slot = some ⟨.dieReset, .channel, none⟩ ∧ (s 2).startFailed ≠ 0) ∧
      ((testControl (.set 4 7)).port 0).slot = some ⟨.set 4 7, .maintenance, none⟩ := by decide +kernel

theorem test_witness_LongRecalDoneClearsFlagsAndGoesOn :
    let s (failed : BitVec 4) := testBringup failed (testBusy .init (.longRecal 1024) .channel)
    let w := testSwitching .recal (testBusy .busy (.longRecal 1024) .channel)
    (((s 0).port 0).slot = some ⟨.longRecal 1024, .channel, none⟩ ∧ (s 0).chan.partState = .bringup ∧
      (s 0).startFailed = 0 ∧ (s 0).present 0 = true ∧ ((s 0).port 0).state = .init ∧ ((s 0).port 0).settle = none) ∧
      ((s 2).chan.partState = .bringup ∧ (s 2).startFailed ≠ 0) ∧
      ((w.port 0).slot = some ⟨.longRecal 1024, .channel, none⟩ ∧ w.chan.partState = .switching ∧
        w.chan.phase = some .recal ∧ (∀ e, w.present e = true → e = 0) ∧ w.present 0 = true ∧
        ((w.vacated 0).port 0).state = .idle ∧ ((w.vacated 0).port 0).slot = none) ∧
      (testControl (.longRecal 1024)).chan.partState ≠ .bringup ∧
        (testControl (.longRecal 1024)).chan.partState ≠ .switching := by decide +kernel

/-- A two-die part with both ports as given. -/
def State.testTwo (s : State) (port : Port) : State :=
  { s with
    ports := s.ports.set 1 port, chan := { s.chan with settings := { s.chan.settings with dieCount := 2 } } }

theorem test_witness_ParkEnterDoneParksPortAndPart :
    let entering := testBusy .busy (.parkEnter 120) .channel
    let s := testPart .parking entering
    let w := testSwitching .quiesce entering
    let two := (testPart .parking entering).testTwo (testPort .idle)
    ((s.port 0).slot = some ⟨.parkEnter 120, .channel, none⟩ ∧ s.chan.partState = .parking ∧
      ∀ e, s.present e = true → e = 0) ∧
      ((w.port 0).slot = some ⟨.parkEnter 120, .channel, none⟩ ∧ (∀ e, w.present e = true → e = 0) ∧
        w.chan.partState = .switching ∧ w.chan.phase = some .quiesce ∧
        w.chan.procedure = some ⟨.rateSwitch .b, 9, false⟩) ∧
      (two.port 0).slot = some ⟨.parkEnter 120, .channel, none⟩ ∧
        ¬ ∀ e, two.present e = true → e = 0 ∨ (two.port e).state = .parked := by decide +kernel

theorem test_witness_ParkExitDoneWakesPortAndPart :
    let leaving := testBusy .busy (.parkExit .quick 200) .channel
    let s := testPart .waking leaving
    let w := testSwitching .wake leaving
    let two := (testPart .waking leaving).testTwo (testPort .parked)
    ((s.port 0).slot = some ⟨.parkExit .quick 200, .channel, none⟩ ∧ (s.port 0).state = .busy ∧
      (s.port 0).channelClaim = none ∧ s.chan.partState = .waking ∧ ∀ e, s.present e = true → e = 0) ∧
      ((w.port 0).state = .busy ∧ w.chan.partState = .switching ∧ w.chan.phase = some .wake ∧
        (∀ e, w.present e = true → e = 0) ∧ w.present 0 = true) ∧
      (two.port 0).slot = some ⟨.parkExit .quick 200, .channel, none⟩ ∧ two.chan.partState ≠ .switching ∧
        (two.present 1 = true ∧ (two.port 1).state = .parked) := by decide +kernel

/-- A port at which the SET of a die setting settles. -/
def testSettling (p : PortState) (index : BitVec 4) : Port :=
  { testPort p with settle := some 30, settling := some (index, 7) }

theorem test_witness_SettleExpiryRecordsShadowAndGoesOn :
    let b (failed : BitVec 4) (index : BitVec 4) := testBringup failed (testSettling .init index)
    let w (index : BitVec 4) := testSwitching .apply (testSettling .settling index)
    (testRunning.port 0).settle = none ∧
      ({ testSettling .idle 0 with settling := none } : Port).settle = some 30 ∧
      (((b 0 2).port 0).settling = some (2, 7) ∧ (b 0 2).chan.partState = .bringup ∧ (2 : BitVec 4).toNat < 3 ∧
        (b 0 2).startFailed = 0 ∧ (b 0 2).present 0 = true ∧ ((b 0 2).port 0).state = .init ∧
        ((b 0 2).port 0).slot = none) ∧
      (b 2 2).startFailed ≠ 0 ∧ ((b 0 3).chan.partState = .bringup ∧ 3 ≤ (3 : BitVec 4).toNat) ∧
      (((w 2).port 0).settling = some (2, 7) ∧ (w 2).chan.partState = .switching ∧ (w 2).chan.phase = some .apply ∧
        ((w 2).port 0).state = .settling ∧ ((w 2).port 0).slot = none) ∧
      ((w 3).port 0).settle = some 30 ∧
      ((testPart .running (testSettling .settling 4)).port 0).settling = some (4, 7) := by decide +kernel

theorem test_witness_ProceduresEndWithTheirAnswers :
    let b (failed : BitVec 4) := testBringup failed (testPort .init)
    let two := (b 0).testTwo (testPort .init)
    let w := testSwitching .apply (testPort .idle)
    let busy := testSwitching .apply (testPort .settling)
    let f := testRunning.testProcedure (.dieSetting 3 4 7 0)
    ((b 0).chan.procedure = some ⟨.start 0, 9, false⟩ ∧ ∀ e, (b 0).present e = true → e = 0) ∧
      (two.present 1 = true ∧ (two.port 1).state ≠ .idle) ∧
      ((b 2).chan.partState = .bringup ∧ (2 : BitVec 4) ≠ 0 ∧
        ∀ e, (b 2).present e = true → ((b 2).port e).slot = none ∧ ((b 2).port e).settle = none) ∧
      (w.chan.procedure = some ⟨.rateSwitch .b, 9, false⟩ ∧
        ∀ e, w.present e = true → (w.port e).state = .idle ∧ (w.port e).channelClaim = none) ∧
      (busy.present 0 = true ∧ (busy.port 0).state ≠ .idle) ∧
      (f.chan.procedure = some ⟨.dieSetting 3 4 7 0, 9, false⟩ ∧ (3 : BitVec 4).getLsbD 0 = true ∧
        (0 : BitVec 4).getLsbD 0 = false) := by decide +kernel

/-! ### Witnesses: the part's timers and the Die Arbiter -/

theorem test_witness_IdleDrainAndRelockExpiries :
    State.reset.drain.idleTimer = none ∧
      ({ State.reset with drain := { State.reset.drain with idleTimer := some 2000 } } : State).drain.idleTimer = some 2000 ∧
      State.reset.chan.relock = none ∧
      let w := testSwitching .clock (testPort .parked)
      ({ w with chan := { w.chan with relock := some 20000 } } : State).chan.relock = some 20000 ∧
        w.present 0 = true ∧ (w.port 0).state = .parked ∧ (w.port 0).slot = none := by decide +kernel

theorem test_witness_ParkDelayExpiryParksOrRestarts :
    let timed (s : State) : State := { s with chan := { s.chan with parkDelay := some 100000 } }
    State.reset.chan.parkDelay = none ∧
      ((timed testRunning).chan.parkDelay = some 100000 ∧ (timed testRunning).chan.partState = .running ∧
        (∀ i, ((timed testRunning).entry i).state = .free) ∧ (timed testRunning).reads.list = [] ∧
        (timed testRunning).flushes = [] ∧ (timed testRunning).chan.procedure = none ∧
        (∀ d, (timed testRunning).present d = true →
          ((timed testRunning).port d).state = .idle ∧ 0 ≤ ((timed testRunning).care d).balance) ∧
        (timed testRunning).present 0 = true ∧ ((timed testRunning).port 0).slot = none) ∧
      (timed testReading).chan.parkDelay = some 100000 ∧ (timed testReading).reads.list ≠ [] := by decide +kernel

theorem test_witness_ArbiterFollowsGrantOrder :
    (testRunning.chan.partState = .running ∧ (testRunning.port 0).state = .idle ∧ (testRunning.port 0).slot = none) ∧
      (testPart .waking (testPort .idle)).chan.partState = .waking ∧
      (testRunning.setPort 0 { testPort .idle with tempClaim := true, recalClaim := true }).decision 0 = some .recal ∧
      ((testActive (-7)).setPort 0 { testPort .idle with refreshClaim := true }).decision 0 = some .refresh := by
  decide +kernel

/-! ### Witnesses: setup actions -/

theorem test_witness_StartBeginsBringup :
    let r := Request.setup 0x11 0 (testSetup 0x11 0)
    requestOf (.start (testSetup 0x11 0)) = some r ∧ LevelKept State.reset ∧ Accepted State.reset r ∧
      (State.reset.chan.partState = .config ∧ (State.reset.chan.profile State.reset.chan.active).valid = true) ∧
      (State.reset.present 0 = true ∧ (State.reset.port 0).state = .off ∧ (State.reset.port 0).slot = none) ∧
      Accepted testRunning r ∧ testRunning.chan.partState ≠ .config :=
  ⟨rfl, by decide +kernel, by decide +kernel, by decide +kernel, by decide +kernel, by decide +kernel,
    by decide +kernel⟩

/-- A part in a part state whose profile B is valid. -/
def testValidB (p : PartState) (port : Port) : State :=
  let s := testPart p port
  { s with chan := { s.chan with profileB := Profile.resetA } }

theorem test_witness_RateSwitchBeginsAtQuiesceOrClock :
    let r (v : BitVec 32) := Request.setup 0x12 anyValue (testSetup 0x12 v)
    let forward := (testValidB .running (testPort .idle)).testProcedure (.dieSetting 1 4 7 0)
    (LevelKept State.reset ∧ Accepted State.reset (r 2) ∧ Accepted State.reset (r 1) ∧ Accepted State.reset (r 0) ∧
      1 < (2 : BitVec 32).toNat ∧ (State.reset.chan.profile .b).valid = false ∧ State.reset.chan.active = .a) ∧
      (Accepted (testValidB .parking (testPort .idle)) (r 1) ∧
        ((testValidB .parking (testPort .idle)).chan.profile .b).valid = true) ∧
      (Accepted forward (r 1) ∧ forward.chan.partState = .running ∧
        forward.chan.procedure = some ⟨.dieSetting 1 4 7 0, 9, false⟩) ∧
      (Accepted (testValidB .running (testPort .idle)) (r 1) ∧
        (testValidB .running (testPort .idle)).chan.procedure = none) ∧
      Accepted (testValidB .parked (testPort .parked)) (r 1) ∧
        (testValidB .parked (testPort .parked)).chan.partState = .parked := by decide +kernel

/-- A DIE_SETTING header: index, value and die mask. -/
def testForward (value : BitVec 32) (mask : BitVec 4) : Header :=
  testSeal kindSetup 0x15 { testHeader 5 0 value with dieMask := mask }

theorem test_witness_DieSettingBeginsForward :
    let r (v : BitVec 32) (m : BitVec 4) := Request.dieSetting (testForward v m)
    let busy := testRunning.testProcedure (.dieSetting 1 4 7 0)
    (LevelKept testRunning ∧ Accepted testRunning (r 0x30007 1) ∧ Accepted testRunning (r 0x100007 1) ∧
      Accepted testRunning (r 0x40007 0) ∧ Accepted testRunning (r 0x40007 2) ∧ testRunning.present 1 = false) ∧
      (Accepted State.reset (r 0x40007 1) ∧ State.reset.chan.partState = .config) ∧
      (Accepted busy (r 0x40007 1) ∧ busy.chan.procedure = some ⟨.dieSetting 1 4 7 0, 9, false⟩) ∧
      (Accepted testRunning (r 0x40007 1) ∧ Accepted testRunning (r 0xF0007 1) ∧
        testRunning.chan.procedure = none ∧ (1 : BitVec 4).getLsbD 0 = true ∧ (testRunning.port 0).state = .idle ∧
        (testRunning.port 0).slot = none ∧ (testRunning.port 0).moving = false) := by decide +kernel

theorem test_witness_RestartReturnsPartToConfig :
    let r := Request.setup 0x14 0 (testSetup 0x14 0)
    let stopped := testPart .stopped (testPort .idle)
    let busy := testPart .stopped (testBusy .busy testLineWrite (.drain 0))
    requestOf (.restart (testSetup 0x14 0)) = some r ∧ (LevelKept State.reset ∧ Accepted State.reset r) ∧
      (LevelKept stopped ∧ Accepted stopped r ∧ ∀ d, stopped.present d = true → (stopped.port d).slot = none) ∧
      (LevelKept busy ∧ Accepted busy r ∧ busy.present 0 = true ∧ (busy.port 0).slot ≠ none) ∧
      Accepted testRunning r ∧ testRunning.chan.partState = .running :=
  ⟨rfl, by decide +kernel, by decide +kernel, by decide +kernel, by decide +kernel⟩

theorem test_witness_ClearErrorsKeepsStickyLatches :
    let h := testSetup 0x13 255
    let r : Request := { Request.setup 0x13 255 h with exempt := true }
    requestOf (.clearErrors h) = some r ∧ LevelKept testHalted ∧ Taken testHalted r ∧ r.malformed = false ∧
      h.tag ∉ testHalted.link.tags ∧
      Taken testHalted { Request.setup 0x13 255 (testSetup 0x13 256) with exempt := true } :=
  ⟨rfl, by decide +kernel, by decide +kernel, by decide +kernel, by decide +kernel, by decide +kernel⟩

/-! ### Witnesses: settings and profiles -/

/-- Every code's SETUP with one value is accepted in a state whose level is kept. -/
def testAccepts (s : State) (codes : List Byte) (v : BitVec 32) : Bool :=
  decide (LevelKept s) && codes.all fun c => decide (Accepted s (Request.setup c anyValue (testSetup c v)))

theorem test_witness_AcceptedSettingsAreWritten :
    testAccepts State.reset [0x01, 0x07, 0x08, 0x09, 0x0E] 0 ∧ testAccepts State.reset [0x01, 0x05, 0x07, 0x08, 0x09] 1 ∧
      testAccepts State.reset [0x05, 0x0F] 1000 ∧ testAccepts State.reset [0x0B] 20 ∧ testAccepts State.reset [0x0B] 28 ∧
      testAccepts State.reset [0x0E] 7 ∧ testAccepts State.reset [0x0F] 10 ∧ State.reset.chan.partState = .config := by
  decide +kernel

theorem test_witness_AcceptedSettingsActAtOnce :
    testAccepts State.reset [0x02] 9 ∧ testAccepts State.reset [0x02] 32 ∧ State.reset.chan.settings.lowMark < 9 ∧
      testAccepts State.reset [0x03, 0x04, 0x06] 0 ∧ testAccepts State.reset [0x03] 23 ∧
      23 < State.reset.chan.settings.highMark ∧ testAccepts State.reset [0x04, 0x0D] 1000 ∧
      testAccepts State.reset [0x06] 65535 ∧ testAccepts State.reset [0x0A, 0x0C, 0x0D] 1 ∧
      testAccepts State.reset [0x0A, 0x0C] 2 ∧ testAccepts State.reset [0x0A] 4 ∧
      State.reset.chan.partState = .config ∧ (State.reset.chan.profile State.reset.chan.active).refreshRule 1 = true ∧
      (State.reset.chan.profile State.reset.chan.active).refreshRule 2 = true := by decide +kernel

/-- A part whose valid profile A has a refresh interval of 2000 ns. -/
def testShortRefresh : State :=
  { State.reset with
    chan := { State.reset.chan with
      profileA := { fields := Profile.resetA.fields.set 4 2000, valid := true } } }

theorem test_witness_RefusedSettingsChangeNothing :
    testAccepts State.reset [0x01, 0x07, 0x08, 0x09] 2 ∧ testAccepts State.reset [0x02, 0x05, 0x0A, 0x0C, 0x0D] 0 ∧
      testAccepts State.reset [0x02] 8 ∧ testAccepts State.reset [0x02] 33 ∧ testAccepts State.reset [0x03] 24 ∧
      testAccepts State.reset [0x03] 32 ∧ testAccepts State.reset [0x04, 0x05, 0x0D, 0x0F] 1001 ∧
      testAccepts State.reset [0x06] 65536 ∧ testAccepts State.reset [0x0A, 0x0C] 3 ∧
      testAccepts State.reset [0x0B] 19 ∧ testAccepts State.reset [0x0B] 29 ∧ testAccepts State.reset [0x0E] 8 ∧
      testAccepts State.reset [0x0F] 9 ∧
      (testAccepts testShortRefresh [0x0C] 4 ∧
        (testShortRefresh.chan.profile testShortRefresh.chan.active).valid = true ∧
        (testShortRefresh.chan.profile testShortRefresh.chan.active).refreshRule 4 = false) ∧
      testAccepts testRunning [0x09, 0x0A, 0x0C] 1 ∧ testAccepts testRunning [0x0B] 20 ∧
      testRunning.chan.partState ≠ .config ∧
      (testRunning.chan.profile testRunning.chan.active).refreshRule 1 = true := by decide +kernel

theorem test_witness_ProfileFieldWriteClearsValidFlag :
    testAccepts State.reset [fieldCode .a 0, fieldCode .b 15] 65536 ∧
      testAccepts State.reset [fieldCode .a 0, fieldCode .b 15] 65535 ∧
      (testAccepts testRunning [fieldCode .a 0, fieldCode .b 0] 1000 ∧ testRunning.chan.active = .a) ∧
      testAccepts (testSwitching .wake (testPort .parked)) [fieldCode .b 3] 9 := by decide +kernel

theorem test_witness_ProfileCommitTestsProfile :
    testAccepts State.reset [0x10] 2 ∧ testAccepts (testSwitching .wake (testPort .parked)) [0x10] 1 ∧
      testAccepts State.reset [0x10] 0 ∧ (State.reset.chan.profile .a).sound 1 = true ∧
      testAccepts State.reset [0x10] 1 ∧ (State.reset.chan.profile .b).sound 1 = false := by decide +kernel

/-! ### Witnesses: queries, answers and the link -/

theorem test_witness_QueriesReportState :
    LevelKept State.reset ∧
      ∀ q ∈ [((0 : Byte), 0, (0 : BitVec 32)), (1, 0, 0), (2, 31, 31), (3, 0, 0), (4, 1, 1), (5, 3, 3), (6, 0, 0)],
        Accepted State.reset (Request.query q.1 q.2.1 (testQuery q.1 q.2.2)) := by decide +kernel

theorem test_witness_AnswerSentFreesPlaceAndTakesHeld :
    let s : State :=
      { State.reset.testFull 24 with
        link := { (State.reset.testFull 24).link with held := [.read 0 testRead] } }
    State.reset.link.answers = [] ∧ s.link.answers = Answer.plain 1 .ok 0 :: List.replicate 23 (Answer.plain 1 .ok 0) ∧
      s.link.held = [.read 0 testRead] ∧ (Instr.read 0 testRead).wf = true ∧
      requestOf (.read 0 testRead) = some (Request.ofRead 0 testRead) ∧ 23 + s.link.tags.length < 24 ∧
      (State.reset.testFull 24).link.held = [] :=
  ⟨rfl, rfl, rfl, rfl, rfl, by decide, rfl⟩

/-! ### Witnesses: waking a parked part

A part that is PARKING or PARKED, its one port PARKED, meets what each waking command asks. -/

/-- A part that is parking or parked, its port PARKED. -/
def testAsleep (parked : Bool) : State := testPart (if parked then .parked else .parking) (testPort .parked)

/-- What `Wakes` and `ParkedLeave` ask of a state, at die 0. -/
abbrev testSleeps (s : State) : Prop :=
  (s.chan.partState = .parking ∨ s.chan.partState = .parked) ∧ s.present 0 = true ∧ (s.port 0).state = .parked ∧
    (s.port 0).slot = none

theorem test_witness_WriteMergesIntoOpenEntry_wakes :
    ∀ b, let s := ((testAsleep b).testWith (testEntry .opened .first)).testLevel
      testSleeps s ∧ LevelKept s ∧ TableSound s ∧ Accepted s (Request.ofWrite 0 testWrite (testPayload 1)) ∧
        (∀ j, (s.entry j).state ≠ .free → (s.table.nextWsn - (s.entry j).firstWsn).toNat < 2 ^ 31 - 1) ∧
        (s.entry 0).state = .opened ∧ (s.entry 0).line = some testWrite.line := by
  set_option synthInstance.maxHeartbeats 200000 in
  set_option synthInstance.maxSize 1000 in
  decide +kernel

theorem test_witness_WriteAllocatesLowestFreeEntry_wakes :
    ∀ b, let s := testAsleep b
      testSleeps s ∧ LevelKept s ∧ Accepted s (Request.ofWrite 0 testWrite (testPayload 1)) ∧
        ∀ j, (s.entry j).state = .free := by decide +kernel

theorem test_witness_WriteLeavesTableUnchanged_wakes :
    ∀ b,
      (testSleeps (testAsleep b) ∧ LevelKept (testAsleep b) ∧
        Accepted (testAsleep b) (Request.ofWrite 0 testWrite (testPayload 0))) ∧
      let s := (testAsleep b).testFilled
      testSleeps s ∧ LevelKept s ∧ Accepted s (Request.ofWrite 0 testWrite (testPayload 1)) ∧
        (∀ j, (s.entry j).state ≠ .free) ∧
        ∀ j, ¬ ((s.entry j).state = .opened ∧ (s.entry j).line = some testWrite.line) := by decide +kernel

theorem test_witness_ReadAnsweredAtArrivalOrListed_wakes :
    ∀ b, let s := testAsleep b
      testSleeps s ∧ LevelKept s ∧ Accepted s (Request.ofRead 0 testRead) ∧ s.errs.poison = [] ∧
        s.captureMask testRead.line ≠ BitVec.allOnes 64 ∧ s.reads.list = [] := by decide +kernel

theorem test_witness_DieSettingBeginsForward_wakes_and_waits :
    let r := Request.dieSetting (testForward 0x40007 1)
    (∀ b, testSleeps (testAsleep b) ∧ LevelKept (testAsleep b) ∧ Accepted (testAsleep b) r ∧
      (testAsleep b).chan.procedure = none) ∧
      ∀ s ∈ [testControl .tempRead, testPart .running (testSettling .settling 4)],
        LevelKept s ∧ Accepted s r ∧ s.chan.procedure = none ∧
          ((s.port 0).state = .busy ∨ (s.port 0).state = .settling) ∧ (s.port 0).moving = false := by decide +kernel

/-! ### Witnesses: stopping a part of two dies -/

/-- A state whose die d owes a clock recal. -/
def State.testOwed (s : State) (d : DieId) : State :=
  { s with chan := { s.chan with recalOwed := s.chan.recalOwed.set d true } }

/-- The state with die 1 PARKED, and with die 1 IDLE and owing a clock recal. -/
def State.testOthers (s : State) : List State :=
  [s.testTwo (testPort .parked), (s.testTwo (testPort .idle)).testOwed 1]

/-- What `Stops` and `OthersCarriedBack` ask of a state, at die 1. -/
abbrev testStops (s : State) : Prop :=
  s.chan.partState ∈ [PartState.running, .parking, .waking, .switching] ∧ s.present 1 = true ∧ (s.port 1).slot = none ∧
    ((s.port 1).state = .parked ∨ ((s.port 1).state = .idle ∧ s.chan.recalOwed[1] = true))

/-- A full Poison List that does not hold line 8. -/
def State.testOverflow (s : State) : State :=
  { s with errs := { s.errs with poison := (List.range 16).map fun i => (BitVec.ofNat 30 (100 + i), 0) } }

/-- What `Overflows` asks of a state, for line 8. -/
abbrev testOverflows (s : State) : Prop :=
  (8 : LineAddr) ∉ s.errs.poison.map (·.1) ∧ 16 ≤ s.errs.poison.length

theorem test_witness_WriteStepRetiresRetriesOrLoses_overflows :
    ∀ s ∈ (testTried 3).testOverflow.testOthers,
      testStops s ∧ testOverflows s ∧ (s.port 0).slot = some ⟨testMaskedWrite, .drain 0, none⟩ ∧
        s.chan.settings.drainRetry < (s.entry 0).attempts + 1 ∧ (s.entry 0).line = some 8 := by decide +kernel

theorem test_witness_RmwReadFillsOrLoses_overflows :
    ∀ s ∈ (testDraining testLineRead).testOverflow.testOthers,
      testStops s ∧ testOverflows s ∧ (s.port 0).slot = some ⟨testLineRead, .drain 0, none⟩ ∧
        (s.entry 0).line = some 8 := by decide +kernel

theorem test_witness_FailAndOpLimitFailPort_stops :
    ∀ s ∈ (testControl (.refresh 350)).testOthers,
      testStops s ∧ (s.port 0).slot = some ⟨.refresh 350, .maintenance, none⟩ ∧ (s.port 0).opLimit = some 100000 := by
  decide +kernel

theorem test_witness_ParkDoneGoesOn_waking_and_stopped :
    let entering := testBusy .busy (.parkEnter 120) .channel
    let leaving := testBusy .busy (.parkExit .quick 200) .channel
    let w := (testPart .waking leaving).testProcedure (.dieSetting 1 4 7 0)
    let x := (testPart .stopped leaving).testOwed 0
    (∀ p ∈ [PartState.waking, .stopped],
      ((testPart p entering).port 0).slot = some ⟨.parkEnter 120, .channel, none⟩ ∧
        (testPart p entering).chan.partState = p ∧ (testPart p entering).present 0 = true) ∧
      ((w.port 0).slot = some ⟨.parkExit .quick 200, .channel, none⟩ ∧ (w.port 0).state = .busy ∧
        (w.port 0).channelClaim = none ∧ w.chan.procedure = some ⟨.dieSetting 1 4 7 0, 9, false⟩ ∧
        w.chan.partState = .waking ∧ w.present 0 = true ∧ (1 : BitVec 4).getLsbD 0 = true ∧
        (0 : BitVec 4).getLsbD 0 = false) ∧
      (x.port 0).slot = some ⟨.parkExit .quick 200, .channel, none⟩ ∧ (x.port 0).state = .busy ∧
        (x.port 0).channelClaim = none ∧ x.chan.partState = .stopped ∧ x.present 0 = true ∧
        x.chan.recalOwed[0] = true := by decide +kernel

/-! ### Witnesses: conditions, due timers and claims of the Maintenance Unit -/

/-- An ACTIVE die 0 whose claims follow its balance. -/
def testFollowing (balance : Int) : State :=
  (testActive balance).setPort 0 { testPort .idle with refreshClaim := decide (balance < 0) }

theorem test_witness_RefreshDueEventDebitsDie_active :
    ∀ balance ∈ [(-8 : Int), -7, 0, 8],
      let s := testFollowing balance
      CareFollows s 0 ∧ (s.care 0).condition = .active ∧ (s.care 0).refreshDue = some 7800 ∧
        (s.care 0).recalDue = some 128000000 ∧ DueTimersFollow s 0 := by decide +kernel

theorem test_witness_RefreshDueEventDebitsDie_conditions :
    (∀ p ∈ [PortState.off, .init, .failed], ((testPart .running (testPort p)).port 0).state = p) ∧
      (∀ s ∈ [testPart .parked (testPort .parked), testPart .parking (testBusy .busy (.parkEnter 120) .channel),
          testPart .waking (testBusy .busy (.parkExit .normal 600) .channel), testSwitching .apply (testPort .idle)],
        s.conditionOf 0 = .suspended ∧ (s.care 0).condition = .stopped) ∧
      (testRunning.conditionOf 0 = .active ∧ (testRunning.care 0).condition = .stopped) ∧
      (testSwitching .quiesce (testPort .idle)).conditionOf 0 = .active ∧
      (testFollowing 0).conditionOf 0 = ((testFollowing 0).care 0).condition := by decide +kernel

theorem test_witness_StepKeepsCareFollowing_due_timers :
    (∀ d, DueTimersFollow State.reset d) ∧ DueTimersFollow (testActive (-8)) 0 := by decide +kernel

/-! ### Witnesses: selection -/

theorem test_witness_IdleDrainAndRelockExpiries_selection :
    let timed (s : State) : State := { s with drain := { s.drain with idleTimer := some 2000 } }
    let pressed (s : State) : State := { s with drain := { s.drain with pressure := .idle } }
    let draining := testDraining .tempRead
    ((timed testOpen).drain.idleTimer = some 2000 ∧ LevelKept (timed testOpen) ∧
      (timed testOpen).drain.pressure = .none ∧ (timed testOpen).present 0 = true ∧
      (∀ i, ((timed testOpen).entry i).state ≠ .draining) ∧ OldestEligible (timed testOpen) 0 0) ∧
      ((draining.entry 0).state = .draining ∧ draining.entryDie 0 = some 0) ∧
      ((pressed testOpen).drain.pressure ≠ .none ∧ (∀ i, ((pressed testOpen).entry i).state ≠ .draining) ∧
        OldestEligible (pressed testOpen) 0 0) ∧
      ((pressed testRunning).drain.pressure ≠ .none ∧ ∀ i, (pressed testRunning).eligible i = false) ∧
      ((pressed testOpen).present 0 = true ∧ (pressed testOpen).level = .none) ∧
      testOpen.drain.pressure = .none ∧
        ({ testOpen with drain := { testOpen.drain with idleFlag := true } } : State).level ≠ .none := by decide +kernel

/-! ### Witnesses: permitted classes, decisions and grants -/

theorem test_witness_ArbiterFollowsGrantOrder_decisions :
    let claims (s : State) (p : PortState) (op : ChannelOp) : State :=
      s.setPort 0 { testPort p with channelClaim := some op }
    let bringup := testBringup 0 (testPort .off)
    (claims bringup .off .dieReset).decision 0 = some (.channel .dieReset) ∧
      (claims bringup .off .longRecal).decision 0 = none ∧
      (claims bringup .init .longRecal).decision 0 = some (.channel .longRecal) ∧
      (bringup.setPort 0 { testSettling .init 0 with channelClaim := some .longRecal }).decision 0 = none ∧
      (claims (testAsleep false) .parked .parkExit).decision 0 = some (.channel .parkExit) ∧
      (claims (testAsleep true) .parked .parkExit).decision 0 = none ∧
      (claims (testPart .stopped (testPort .idle)) .idle .parkEnter).decision 0 = none ∧
      (claims (testPart .stopped (testPort .idle)) .idle .longRecal).decision 0 = some (.channel .longRecal) ∧
      (claims (testSwitching .clock (testPort .idle)) .idle .parkExit).decision 0 = none ∧
      ((testControl .tempRead).port 0).slot.isSome = true ∧
      (∀ p ∈ [PortState.settling, .failed], ((testPart .running (testPort p)).port 0).state = p) ∧
      (testRunning.port 0).slot = none ∧ (testRunning.port 0).state = .idle ∧
      ((testFollowing (-8)).care 0).balance = -8 ∧ ((testFollowing 8).care 0).balance = 8 := by decide +kernel

theorem test_witness_ArbiterFollowsGrantOrder_claimants :
    let s := testReading.setPort 0 { testPort .idle with readClaims := [0, 1] }
    (testRunning.port 0).readClaims = [] ∧ (s.port 0).readClaims = testRecord.claim :: [1] ∧
      testRecord ∈ s.reads.list ∧ (s.reads.list.map ReadRecord.claim).Nodup := by decide +kernel

theorem test_witness_ArbiterFollowsGrantOrder_grants :
    let stepped (step : DrainStep) : State :=
      (testDraining .tempRead).setEntry 0 { testEntry .draining .first with step := some step }
    let opened (mask : Mask) : State := testRunning.testWith { testEntry .opened .first with mask := mask }
    let without (s : State) : State :=
      { s with chan := { s.chan with settings := { s.chan.settings with maskedWrites := 0 } } }
    (∀ step ∈ [DrainStep.maskedWrite, .rmwRead, .rmwWrite, .fullWrite],
      ((stepped step).entry 0).line = some 8 ∧ ((stepped step).entry 0).step = some step) ∧
      (((opened (BitVec.allOnes 64)).entry 0).line = some 8 ∧
        ((opened (BitVec.allOnes 64)).entry 0).mask = BitVec.allOnes 64) ∧
      (((opened 1).entry 0).line = some 8 ∧ ((opened 1).entry 0).mask ≠ BitVec.allOnes 64 ∧
        (opened 1).chan.settings.maskedWrites = 1) ∧
      (((without (opened 1)).entry 0).line = some 8 ∧ ((without (opened 1)).entry 0).mask ≠ BitVec.allOnes 64 ∧
        (without (opened 1)).chan.settings.maskedWrites ≠ 1) ∧
      (testRunning.present 1 = false ∧ testRunning.decision 0 = none) ∧
      ((testFollowing (-8)).present 0 = true ∧ (testFollowing (-8)).decision 0 = some .refresh) := by decide +kernel

/-! ### Witnesses: claims that every step keeps -/

/-- A running part with n OPEN entries and this hysteresis flag. -/
def testHysteresis (n : Nat) (flag : Bool) : State :=
  let s :=
    testRunning.setTable
      { entries := Vector.ofFn fun i => if i.val < n then testFullTable.entry i else Entry.freed, nextWsn := 1 }
  { s with drain := { s.drain with hysteresis := flag } }

theorem test_witness_StepKeepsPressureLevel_hysteresis :
    (HysteresisFollows (testHysteresis 24 true) ∧ 24 ≤ occupancy (testHysteresis 24 true).table) ∧
      (HysteresisFollows (testHysteresis 8 false) ∧ occupancy (testHysteresis 8 false).table ≤ 8) ∧
      ∀ n ∈ [9, 23], ∀ flag, let s := testHysteresis n flag
        HysteresisFollows s ∧ step s = .next s ∧ s.pending.head? ≠ some .answerSent ∧
          s.chan.settings.lowMark < occupancy s.table ∧ occupancy s.table < s.chan.settings.highMark := by
  refine ⟨by decide +kernel, by decide +kernel, fun n hn flag => ⟨?_, rfl, ?_⟩⟩ <;>
    fin_cases hn <;> cases flag <;> decide +kernel

/-- The state with a listed read of die 0, its claim pending there. -/
def State.testClaiming (s : State) : State :=
  { s.setPort 0 { s.port 0 with readClaims := [0] } with
    reads := testReading.reads, link := testReading.link }

/-- The LINE READ of an AT_DIE record, in flight. -/
def testServing : State :=
  { testReadAtDie with reads := { list := [{ testRecord with state := .atDie }], nextClaim := 1 } }

/-- An OPEN entry selected at a BUSY port. -/
def testSelected : State :=
  let s := (testControl .tempRead).testWith (testEntry .opened .first)
  { s.setPort 0 { s.port 0 with drainClaim := some { entry := 0, continuation := false } } with
    drain := { s.drain with idleFlag := true, pressure := .idle } }

/-- A DRAINING entry that has its continuation claim pending. -/
def testContinuing : State :=
  let s := testRunning.testWith (testEntry .draining .first)
  s.setPort 0 { s.port 0 with drainClaim := some { entry := 0, continuation := true } }

theorem test_witness_StepKeepsPressureLevel_claims :
    ∀ s ∈ [(testDraining testLineWrite).testClaiming, testServing, testSelected, testContinuing],
      TagsHeld s ∧ SettingsInRange s.chan.settings ∧ ReadsClaimed s ∧ DrainsClaimed s := by
  set_option synthInstance.maxHeartbeats 400000 in
  set_option synthInstance.maxSize 2000 in
  decide +kernel

theorem test_witness_StepKeepsTagsHeld_claims :
    (TagsHeld testServing ∧ ReadsClaimed testServing) ∧
      let s := testSelected.testClaiming
      TagsHeld s ∧ ReadsClaimed s := by
  set_option synthInstance.maxHeartbeats 200000 in
  set_option synthInstance.maxSize 1000 in
  decide +kernel

/-- A part in QUIESCE with a balance, its IDLE port's claim as R125 has it. -/
def testQuiesce (balance : Int) : State :=
  (testSwitching .quiesce
    { testPort .idle with channelClaim := if 0 ≤ balance then some .parkEnter else none }).setCare 0
    { DieCare.atReset with condition := .active, balance := balance, refreshDue := some 7800 }

/-- A part in QUIESCE with a refresh of its die in flight. -/
def testPayingUp (balance : Int) : State :=
  (testSwitching .quiesce (testBusy .busy (.refresh 350) .maintenance)).setCare 0
    { DieCare.atReset with condition := .active, balance := balance }

theorem test_witness_StepKeepsCareFollowing_quiesce :
    ∀ balance ∈ [(-1 : Int), 0, 8], let s := testQuiesce balance
      s.chan.partState = .switching ∧ s.chan.phase = some .quiesce ∧
        ∀ d, s.present d = true → ParkEnterKept s d := by decide +kernel

theorem test_witness_RefreshDueEventDebitsDie_quiesce :
    ∀ balance ∈ [(-8 : Int), 0, 8],
      ((testQuiesce balance).care 0).refreshDue = some 7800 ∧ (testQuiesce balance).present 0 = true := by decide +kernel

theorem test_witness_MaintenanceCompletionsUpdateDie_quiesce :
    ∀ balance ∈ [(-1 : Int), 8], let s := testPayingUp balance
      (s.port 0).slot = some ⟨.refresh 350, .maintenance, none⟩ ∧ (s.care 0).balance ≤ 8 ∧ s.present 0 = true ∧
        s.chan.partState = .switching ∧ s.chan.phase = some .quiesce ∧ (s.port 0).state = .busy ∧
        -1 ≤ (s.care 0).balance := by decide +kernel

theorem test_witness_RateSwitchBeginsAtQuiesceOrClock_parks :
    ∀ balance ∈ [(-1 : Int), 0, 8],
      let s := (testValidB .running (testPort .idle)).setCare 0 { DieCare.atReset with balance := balance }
      LevelKept s ∧ Accepted s (Request.setup 0x12 anyValue (testSetup 0x12 1)) ∧ s.chan.partState = .running ∧
        s.chan.procedure = none ∧ s.present 0 = true ∧ (s.port 0).state = .idle ∧ (s.port 0).slot = none := by
  decide +kernel

/-! ### Witnesses: a failure in bring-up, and procedures that are not in progress -/

theorem test_witness_FailedPortRevertsEntriesAndStopsPart_bringup :
    let s := testBringup 2 (testBusy .init .dieReset .channel)
    (TableSound s ∧ s.chan.partState = .bringup ∧ s.chan.procedure = some ⟨.start 2, 9, false⟩) ∧
      TableSound testRunning ∧ testRunning.chan.partState ≠ .bringup ∧ testRunning.chan.procedure = none := by
  set_option synthInstance.maxHeartbeats 200000 in
  set_option synthInstance.maxSize 1000 in
  decide +kernel

theorem test_witness_ProceduresEndWithTheirAnswers_none :
    testRunning.chan.procedure = none ∧
      (testSwitching .apply (testPort .idle)).chan.procedure = some ⟨.rateSwitch .b, 9, false⟩ ∧
      (testRunning.testProcedure (.dieSetting 1 4 7 1)).chan.procedure = some ⟨.dieSetting 1 4 7 1, 9, false⟩ ∧
      ((1 : BitVec 4).getLsbD 1 = false ∧ (1 : BitVec 4).getLsbD 0 = true) := by decide +kernel

/-! ### Witnesses: invariants

Each invariant holds at State.reset and, where it says something of a filled state, at a state that is not reset. -/

theorem test_witness_StepKeepsListsBalancesAndAlert :
    step State.reset = .next State.reset ∧ AlertFollows testHalted ∧ BalancesBounded (testActive (-8)) ∧
      ListsBounded (testRunning.testPoison 16) ∧ AlertFollows State.reset ∧ BalancesBounded State.reset ∧
      ListsBounded State.reset := ⟨rfl, by decide +kernel⟩

theorem test_witness_StepKeepsSettingsAndProfilesSound :
    SettingsInRange State.reset.chan.settings ∧ ProfilesSound State.reset :=
  ⟨by decide +kernel, fun p => by cases p <;> decide +kernel⟩

theorem test_witness_StepKeepsPressureLevel : LevelKept testFullTable ∧ testFullTable.drain.pressure = .urgent := by
  decide +kernel

theorem test_witness_StepKeepsPortsOrdered :
    PortsOrdered (testBringup 0 (testSettling .init 0)) ∧ PortsOrdered (testDraining testLineWrite) := by decide +kernel

theorem test_witness_StepKeepsTableSound : TableSound testPair ∧ WsnsOrdered testPair := by
  set_option synthInstance.maxHeartbeats 200000 in
  set_option synthInstance.maxSize 1000 in
  decide +kernel

theorem test_witness_StepKeepsTagsHeld :
    TagsHeld testReading ∧ TagsHeld (testRunning.testProcedure (.dieSetting 1 4 7 0)) := by decide +kernel

theorem test_witness_StepKeepsCareFollowing :
    let s := (testActive (-1)).setPort 0 { testPort .idle with refreshClaim := true }
    ∀ d, s.present d = true → CareFollows s d := by decide +kernel

end Sys2Proof.Machine
end

section
/-! SUPPORT. The completions that a port discards (R87): which completions carry an outcome of which operation, and that
each of the eleven completion commands leaves the state as it is unless the slot holds its operation and the completion
carries one of that operation's outcomes. -/

namespace Sys2Proof.Machine

/-! ### Outcomes: the model's tests of a completion, against the completions themselves -/

theorem outcome_and_plainCompletion_iff (c : Completion) (o : OutcomeCode) :
    (c.outcome == o && plainCompletion c) = true ↔ c = plain o := by
  obtain ⟨outcome, data, band⟩ := c
  simp [plainCompletion, plain]

theorem isDone_iff (c : Completion) : isDone c = true ↔ c = plain .done := outcome_and_plainCompletion_iff c .done

theorem isFail_iff (c : Completion) : isFail c = true ↔ c = plain .fail := outcome_and_plainCompletion_iff c .fail

theorem lineReadOutcome_some {c : Completion} {data : Option LineData} (h : lineReadOutcome c = some data) :
    (∃ bytes, c = { outcome := .done, data := some bytes, band := none }) ∨ c = plain .uncorrectable := by
  obtain ⟨outcome, bytes, band⟩ := c
  unfold lineReadOutcome at h
  split at h
  case h_1 bytes houtcome hbytes hband => exact .inl ⟨bytes, by simp_all⟩
  case h_2 houtcome hbytes hband => exact .inr (by simp_all [plain])
  case h_3 => cases h

theorem writeOutcome_some {c : Completion} {stored : Bool} (h : writeOutcome c = some stored) :
    c = plain .done ∨ c = plain .checkFail := by
  unfold writeOutcome at h
  split at h
  case isTrue hplain =>
    split at h
    case h_1 hdone => exact .inl ((outcome_and_plainCompletion_iff c _).1 (by simp [hdone, hplain]))
    case h_2 hcheck => exact .inr ((outcome_and_plainCompletion_iff c _).1 (by simp [hcheck, hplain]))
    all_goals cases h
  case isFalse => cases h

theorem temperatureOf_some {c : Completion} {b : Band} (h : temperatureOf c = some b) :
    c = { outcome := .done, data := none, band := some b } := by
  obtain ⟨outcome, data, band⟩ := c
  unfold temperatureOf at h
  split at h
  case h_1 houtcome hdata => simp_all
  case h_2 => cases h

theorem controlCompletion_other {c : Completion} (s : State) (d : DieId) (f : State → State) (hdone : c ≠ plain .done)
    (hfail : c ≠ plain .fail) : s.controlCompletion d c f = s := by
  unfold State.controlCompletion
  rw [if_neg (mt (isDone_iff c).1 hdone), if_neg (mt (isFail_iff c).1 hfail)]

/-! ### Each command, discarded or matching -/

/-- The operation that the slot of a die's port holds (R75). -/
abbrev State.inSlot (s : State) (d : DieId) : Option Operation := (s.port d).slot.map Slot.op

theorem State.inSlot_of_slot {s : State} {d : DieId} {op : Operation} {cl : Claimant} {ln : Option LineAddr}
    (h : (s.port d).slot = some ⟨op, cl, ln⟩) : s.inSlot d = some op := by rw [State.inSlot, h]; rfl

/-- What the seven control operations share once the slot is found to match (`P`): only DONE and FAIL go on. -/
theorem controlCompletion_idle_or {P : Prop} (hP : P) (s : State) (d : DieId) (c : Completion) (f : State → State) :
    (.next (s.controlCompletion d c f) : Host.Outcome State Fault Refusal) = .next s ∨
      P ∧ (c = plain .done ∨ c = plain .fail) := by
  by_cases hc : c = plain .done ∨ c = plain .fail
  · exact .inr ⟨hP, hc⟩
  · obtain ⟨hdone, hfail⟩ := not_or.1 hc
    exact .inl (congrArg _ (controlCompletion_other s d f hdone hfail))

section
variable (d : DieId) (c : Completion) (s : State)

theorem execLineReadCompletion_idle_or : execLineReadCompletion d c s = .next s ∨
    (∃ l n, s.inSlot d = some (.lineRead l n)) ∧
      ((∃ bytes, c = { outcome := .done, data := some bytes, band := none }) ∨ c = plain .uncorrectable) := by
  unfold execLineReadCompletion
  split
  case h_1 hslot hc => exact .inr ⟨⟨_, _, State.inSlot_of_slot hslot⟩, lineReadOutcome_some hc⟩
  case h_2 => exact .inl rfl

theorem execLineWriteCompletion_idle_or : execLineWriteCompletion d c s = .next s ∨
    (∃ l data k w r, s.inSlot d = some (.lineWrite l data k w r)) ∧ (c = plain .done ∨ c = plain .checkFail) := by
  unfold execLineWriteCompletion
  split
  case h_1 hslot hc => exact .inr ⟨⟨_, _, _, _, _, State.inSlot_of_slot hslot⟩, writeOutcome_some hc⟩
  case h_2 => exact .inl rfl

theorem execMaskedWriteCompletion_idle_or : execMaskedWriteCompletion d c s = .next s ∨
    (∃ l m data k w r, s.inSlot d = some (.maskedWrite l m data k w r)) ∧
      (c = plain .done ∨ c = plain .checkFail) := by
  unfold execMaskedWriteCompletion
  split
  case h_1 hslot hc => exact .inr ⟨⟨_, _, _, _, _, _, State.inSlot_of_slot hslot⟩, writeOutcome_some hc⟩
  case h_2 => exact .inl rfl

theorem execRefreshCompletion_idle_or : execRefreshCompletion d c s = .next s ∨
    (∃ w, s.inSlot d = some (.refresh w)) ∧ (c = plain .done ∨ c = plain .fail) := by
  unfold execRefreshCompletion
  split
  case h_1 hslot => exact controlCompletion_idle_or ⟨_, State.inSlot_of_slot hslot⟩ s d c _
  case h_2 => exact .inl rfl

theorem execShortRecalCompletion_idle_or : execShortRecalCompletion d c s = .next s ∨
    (∃ w, s.inSlot d = some (.shortRecal w)) ∧ (c = plain .done ∨ c = plain .fail) := by
  unfold execShortRecalCompletion
  split
  case h_1 hslot => exact controlCompletion_idle_or ⟨_, State.inSlot_of_slot hslot⟩ s d c _
  case h_2 => exact .inl rfl

theorem execLongRecalCompletion_idle_or : execLongRecalCompletion d c s = .next s ∨
    (∃ w, s.inSlot d = some (.longRecal w)) ∧ (c = plain .done ∨ c = plain .fail) := by
  unfold execLongRecalCompletion
  split
  case h_1 hslot => exact controlCompletion_idle_or ⟨_, State.inSlot_of_slot hslot⟩ s d c _
  case h_2 => exact .inl rfl

theorem execTempReadCompletion_idle_or : execTempReadCompletion d c s = .next s ∨
    s.inSlot d = some .tempRead ∧ ∃ b, c = { outcome := .done, data := none, band := some b } := by
  unfold execTempReadCompletion
  split
  case h_1 hslot hc => exact .inr ⟨State.inSlot_of_slot hslot, _, temperatureOf_some hc⟩
  case h_2 => exact .inl rfl

theorem execSetCompletion_idle_or : execSetCompletion d c s = .next s ∨
    (∃ i v, s.inSlot d = some (.set i v)) ∧ (c = plain .done ∨ c = plain .fail) := by
  unfold execSetCompletion
  split
  case h_1 hslot => exact controlCompletion_idle_or ⟨_, _, State.inSlot_of_slot hslot⟩ s d c _
  case h_2 => exact .inl rfl

theorem execDieResetCompletion_idle_or : execDieResetCompletion d c s = .next s ∨
    s.inSlot d = some .dieReset ∧ (c = plain .done ∨ c = plain .fail) := by
  unfold execDieResetCompletion
  split
  case h_1 hslot => exact controlCompletion_idle_or (State.inSlot_of_slot hslot) s d c _
  case h_2 => exact .inl rfl

theorem execParkEnterCompletion_idle_or : execParkEnterCompletion d c s = .next s ∨
    (∃ w, s.inSlot d = some (.parkEnter w)) ∧ (c = plain .done ∨ c = plain .fail) := by
  unfold execParkEnterCompletion
  split
  case h_1 hslot => exact controlCompletion_idle_or ⟨_, State.inSlot_of_slot hslot⟩ s d c _
  case h_2 => exact .inl rfl

theorem execParkExitCompletion_idle_or : execParkExitCompletion d c s = .next s ∨
    (∃ m w, s.inSlot d = some (.parkExit m w)) ∧ (c = plain .done ∨ c = plain .fail) := by
  unfold execParkExitCompletion
  split
  case h_1 hslot => exact controlCompletion_idle_or ⟨_, _, State.inSlot_of_slot hslot⟩ s d c _
  case h_2 => exact .inl rfl

end

/-- Settles O28: each command is discarded or matches both the slot and an outcome, and each clause's premise rules the
match out. -/
theorem mismatchedCompletionChangesNothing : Obligations.MismatchedCompletionChangesNothing := by
  intro s d c
  refine ⟨fun h => ?lineRead, fun h => ?lineWrite, fun h => ?maskedWrite, fun h => ?refresh, fun h => ?shortRecal,
    fun h => ?longRecal, fun h => ?tempRead, fun h => ?set, fun h => ?dieReset, fun h => ?parkEnter,
    fun h => ?parkExit⟩
  case lineRead =>
    refine (execLineReadCompletion_idle_or d c s).resolve_right (not_and_or.2 (h.imp ?_ ?_))
    · exact fun hne ⟨_, _, hop⟩ => hne _ _ hop
    · exact fun ⟨hdone, huncorrectable⟩ => not_or.2 ⟨not_exists.2 hdone, huncorrectable⟩
  case lineWrite =>
    refine (execLineWriteCompletion_idle_or d c s).resolve_right (not_and_or.2 (h.imp_left ?_))
    exact fun hne ⟨_, _, _, _, _, hop⟩ => hne _ _ _ _ _ hop
  case maskedWrite =>
    refine (execMaskedWriteCompletion_idle_or d c s).resolve_right (not_and_or.2 (h.imp_left ?_))
    exact fun hne ⟨_, _, _, _, _, _, hop⟩ => hne _ _ _ _ _ _ hop
  case refresh =>
    exact (execRefreshCompletion_idle_or d c s).resolve_right (not_and_or.2 (h.imp_left not_exists.2))
  case shortRecal =>
    exact (execShortRecalCompletion_idle_or d c s).resolve_right (not_and_or.2 (h.imp_left not_exists.2))
  case longRecal =>
    exact (execLongRecalCompletion_idle_or d c s).resolve_right (not_and_or.2 (h.imp_left not_exists.2))
  case tempRead =>
    exact (execTempReadCompletion_idle_or d c s).resolve_right (not_and_or.2 (h.imp_right not_exists.2))
  case set =>
    refine (execSetCompletion_idle_or d c s).resolve_right (not_and_or.2 (h.imp_left ?_))
    exact fun hne ⟨_, _, hop⟩ => hne _ _ hop
  case dieReset => exact (execDieResetCompletion_idle_or d c s).resolve_right (not_and_or.2 h)
  case parkEnter =>
    exact (execParkEnterCompletion_idle_or d c s).resolve_right (not_and_or.2 (h.imp_left not_exists.2))
  case parkExit =>
    refine (execParkExitCompletion_idle_or d c s).resolve_right (not_and_or.2 (h.imp_left ?_))
    exact fun hne ⟨_, _, hop⟩ => hne _ _ hop

end Sys2Proof.Machine
end

section
/-! SUPPORT. CLEAR_ERRORS (R161): when the Intake answers a message MALFORMED, when it hands one on in every part state,
what the Error Unit keeps and clears, and the state that the command leaves. -/

namespace Sys2Proof.Machine

/-! ### The Intake: a malformed message, and one that only its form and its tag can have refused -/

/-- A message that the Intake takes is answered MALFORMED first of all, after its arrival (R151 steps 1 and 2). -/
theorem malformed_deliver {s : State} {r : Request} (c : Instr) (serve : State → State) (h : Taken s r)
    (hmalformed : r.malformed = true) :
    s.deliver c (fun t => t.intake r serve) = s.arrive.reply r.header.tag .malformed := by
  obtain ⟨hheld, hplace, hcheck⟩ := h
  have hrefusal : s.arrive.refusal r = some .malformed := by rw [State.refusal, if_pos hmalformed]
  simp only [State.deliver, hheld, hplace, and_self, if_true, State.intake, hcheck, hrefusal]

/-- A message that passes the halted check and that the state, range and data checks do not concern is accepted in every
part state, halted or not, unless it is malformed or its tag is in use (R151, R162). -/
theorem accepted_of_exempt {s : State} {r : Request} (h : Taken s r) (hmalformed : r.malformed = false)
    (htag : r.header.tag ∉ s.link.tags) (hexempt : r.exempt = true) (hmemory : r.memory = false)
    (hline : r.line = none) (hdata : r.dataOk = true) : Accepted s r := by
  obtain ⟨hheld, hplace, hcheck⟩ := h
  refine ⟨hheld, hplace, hcheck, ?_⟩
  simp [State.refusal, State.outOfRange, hmalformed, htag, hexempt, hmemory, hline, hdata]

/-- An arrival with its answer queued is the answered state but for what closing the arrival may change. -/
theorem arrive_reply_internal (s : State) (tag : Tag) (status : Status) :
    Internal (s.answered (Answer.plain tag status 0)) (s.arrive.reply tag status) := by
  have harrive := arrive_internal s
  have hlink : s.arrive.link = s.link := harrive.link
  unfold State.reply State.queue
  rw [hlink]
  exact harrive.setLink_congr _

/-- A SETUP whose value is above the largest that its form allows is malformed (R169). -/
theorem setupMalformed_of_lt {limit : Nat} {h : Header} (hvalue : limit < h.value.toNat) :
    setupMalformed limit h = true := by
  simp [setupMalformed, Nat.not_le.2 hvalue]

/-! ### The Error Unit: clearing latches -/

/-- The latches that stay whatever the mask: DIE_FAILED in position 5 and POISON_FULL in position 6. -/
theorem stickyLatches_getLsbD (k : Nat) : stickyLatches.getLsbD k = (decide (k = 5) || decide (k = 6)) := by
  rw [stickyLatches, BitVec.getLsbD_or, BitVec.getLsbD_twoPow, BitVec.getLsbD_twoPow]
  simp [Latch.position, eq_comm]

section
variable (e : Errors) (mask : BitVec 8)

theorem Errors.clear_latches_getLsbD (k : Nat) :
    (e.clear mask).latches.getLsbD k =
      (e.latches.getLsbD k && (!mask.getLsbD k || decide (k = 5) || decide (k = 6))) := by
  show (e.latches &&& (~~~mask ||| stickyLatches)).getLsbD k = _
  rw [BitVec.getLsbD_and, BitVec.getLsbD_or, BitVec.getLsbD_not, stickyLatches_getLsbD]
  by_cases hk : k < 8
  · simp [hk, Bool.or_assoc]
  · simp [BitVec.getLsbD_of_ge e.latches k (Nat.not_lt.1 hk)]

@[simp] theorem Errors.clear_alert : (e.clear mask).alert = ((e.clear mask).latches != 0) := rfl
@[simp] theorem Errors.clear_log : (e.clear mask).log = e.log := rfl
@[simp] theorem Errors.clear_nextRecord : (e.clear mask).nextRecord = e.nextRecord := rfl
@[simp] theorem Errors.clear_overwrite : (e.clear mask).overwrite = e.overwrite := rfl
@[simp] theorem Errors.clear_poison : (e.clear mask).poison = e.poison := rfl

end

/-- Each of the eight latches is named by the mask's bit of its position, which is a bit of the message's value. -/
theorem Errors.clear_value_latches_getLsbD (e : Errors) (value : BitVec 32) (k : Nat) :
    (e.clear (value.setWidth 8)).latches.getLsbD k =
      (e.latches.getLsbD k && (!value.getLsbD k || decide (k = 5) || decide (k = 6))) := by
  rw [Errors.clear_latches_getLsbD, BitVec.getLsbD_setWidth]
  by_cases hk : k < 8
  · simp [hk]
  · simp [BitVec.getLsbD_of_ge e.latches k (Nat.not_lt.1 hk)]

/-! ### CLEAR_ERRORS -/

/-- What the Intake checks of a CLEAR_ERRORS: its mask has eight bits, and it is let through the halted check. -/
def Request.clearErrors (h : Header) : Request := { Request.setup 0x13 255 h with exempt := true }

theorem requestOf_clearErrors (h : Header) : requestOf (.clearErrors h) = some (Request.clearErrors h) := rfl

theorem exec_clearErrors (h : Header) (s : State) :
    exec (.clearErrors h) s =
      .next (s.deliver (.clearErrors h) fun t => t.intake (Request.clearErrors h) (State.serveClearErrors h)) := rfl

/-- A mask that names a position with no latch. -/
theorem exec_clearErrors_malformed {s : State} {h : Header} (ht : Taken s (Request.clearErrors h))
    (hvalue : 255 < h.value.toNat) : exec (.clearErrors h) s = .next (s.arrive.reply h.tag .malformed) := by
  have hmalformed : (Request.clearErrors h).malformed = true := setupMalformed_of_lt hvalue
  rw [exec_clearErrors, malformed_deliver _ _ ht hmalformed]
  rfl

/-- The state that an accepted CLEAR_ERRORS leaves: its arrival, answered OK, with the named latches cleared. -/
def State.errorsCleared (s : State) (h : Header) : State :=
  (s.arrive.reply h.tag .ok).setErrs (s.errs.clear (h.value.setWidth 8))

theorem exec_clearErrors_accepted {s : State} {h : Header} (ht : Taken s (Request.clearErrors h))
    (hmalformed : (Request.clearErrors h).malformed = false) (htag : h.tag ∉ s.link.tags) :
    exec (.clearErrors h) s = .next (s.errorsCleared h) := by
  have haccepted : Accepted s (Request.clearErrors h) := accepted_of_exempt ht hmalformed htag rfl rfl rfl rfl
  have herrs : s.arrive.errs = s.errs := (arrive_internal s).errs
  rw [exec_clearErrors, accepted_deliver _ _ haccepted, State.serveClearErrors, herrs]
  rfl

section
variable (s : State) (h : Header)

@[simp] theorem errorsCleared_errs : (s.errorsCleared h).errs = s.errs.clear (h.value.setWidth 8) := rfl

theorem errorsCleared_internal :
    Internal { s.answered (Answer.plain h.tag .ok 0) with errs := (s.errorsCleared h).errs } (s.errorsCleared h) :=
  (arrive_reply_internal s h.tag .ok).setErrs_congr _

theorem errorsCleared_settings : (s.errorsCleared h).chan.settings = s.chan.settings :=
  (congrArg Channel.settings (errorsCleared_internal s h).chan).trans rfl

/-- The halted condition goes by the setting and by the latch HEADER_CHECK that is left (R162). -/
theorem errorsCleared_halted :
    (s.errorsCleared h).halted =
      (decide (s.chan.settings.checkPolicy = 1) && (s.errorsCleared h).errs.latches.getLsbD 0) := by
  rw [State.halted, errorsCleared_settings]
  rfl

end

/-- Settles O45: a mask above 255 is stopped by the malformed test; any other reaches the Error Unit, whose clearing
leaves every latch outside the mask and the two sticky ones. -/
theorem clearErrorsKeepsStickyLatches : Obligations.ClearErrorsKeepsStickyLatches := by
  intro s h r hr _ ht
  obtain rfl : Request.clearErrors h = r := Option.some.inj ((requestOf_clearErrors h).symm.trans hr)
  constructor
  · intro hvalue
    exact ⟨_, exec_clearErrors_malformed ht hvalue, arrive_reply_internal s h.tag .malformed⟩
  · intro hmalformed htag
    refine ⟨s.errorsCleared h, exec_clearErrors_accepted ht hmalformed htag, errorsCleared_internal s h, ?latches,
      ?alert, errorsCleared_halted s h, ?log, ?nextRecord, ?overwrite, ?poison⟩
    case latches =>
      intro k
      rw [errorsCleared_errs, Errors.clear_value_latches_getLsbD]
    case alert => rw [errorsCleared_errs, Errors.clear_alert]
    case log => rw [errorsCleared_errs, Errors.clear_log]
    case nextRecord => rw [errorsCleared_errs, Errors.clear_nextRecord]
    case overwrite => rw [errorsCleared_errs, Errors.clear_overwrite]
    case poison => rw [errorsCleared_errs, Errors.clear_poison]

end Sys2Proof.Machine
end

section
/-! SUPPORT. The checks of R171: the header check and the data check over one more byte, the register's step by its bit
15, and the lengths of the byte strings that the checks cover. -/

namespace Sys2Proof.Machine

/-! ### The header check -/

@[simp] theorem xorBytes_nil : xorBytes [] = 0 := rfl

@[simp] theorem xorBytes_append_singleton (l : List Byte) (b : Byte) : xorBytes (l ++ [b]) = xorBytes l ^^^ b :=
  List.foldl_concat ..

theorem headerOk_iff (r : Request) :
    r.headerOk = true ↔ xorBytes (headerBytes r.kind r.byte7 r.header) = r.header.check := beq_iff_eq

/-! ### The data check -/

/-- The model tests the register's sign bit, which is bit 15 of its 16. -/
theorem crcStep_eq_ite (r : BitVec 16) :
    crcStep r = if r.getLsbD 15 = true then (r <<< 1) ^^^ 0x1021#16 else r <<< 1 := by
  rw [crcStep, BitVec.msb_eq_getLsbD_last]

theorem crcByte_eq_eight_steps (r : BitVec 16) (b : Byte) :
    crcByte r b = crcStep (crcStep (crcStep (crcStep (crcStep (crcStep (crcStep (crcStep
      (r ^^^ (b.setWidth 16 <<< 8))))))))) := rfl

@[simp] theorem dataCheck_nil : dataCheck [] = 0xFFFF#16 := rfl

@[simp] theorem dataCheck_append_singleton (l : List Byte) (b : Byte) :
    dataCheck (l ++ [b]) = crcByte (dataCheck l) b := List.foldl_concat ..

/-! ### What the checks cover -/

@[simp] theorem leBytes16_length (w : BitVec 16) : (leBytes16 w).length = 2 := rfl

@[simp] theorem leBytes32_length (w : BitVec 32) : (leBytes32 w).length = 4 := rfl

@[simp] theorem maskBytes_length (m : Mask) : (maskBytes m).length = 8 := rfl

theorem maskBytes_append_data_length (m : Mask) (data : LineData) : (maskBytes m ++ data.toList).length = 72 := by
  rw [List.length_append, maskBytes_length, Vector.length_toList]

@[simp] theorem headerBytes_length (kind : BitVec 3) (byte7 : Byte) (h : Header) :
    (headerBytes kind byte7 h).length = 15 := by
  simp [headerBytes]

@[simp] theorem Answer.header_length (a : Answer) : a.header.length = 15 := by
  simp [Answer.header]

theorem write_wireBytes (byte7 : Byte) (h : Header) (p : WritePayload) :
    (Instr.write byte7 h p).wireBytes =
      some (headerBytes kindWrite byte7 h ++ [h.check] ++
        (maskBytes p.mask ++ p.data.toList ++ [p.check.extractLsb' 8 8, p.check.extractLsb' 0 8])) := rfl

/-- Settles O5: each check is a left fold over its bytes, so one more byte at the end is one more turn of the fold; the
byte strings that the checks cover and the messages that carry them are laid out as the model's own definitions say. -/
theorem checksAreComputedBitByBit : Obligations.ChecksAreComputedBitByBit := by
  refine ⟨xorBytes_nil, xorBytes_append_singleton, dataCheck_nil, ?dataByte, crcStep_eq_ite, ?maskedCheck,
    maskBytes_append_data_length, ?lineCheck, write_wireBytes, ?request, ?answer⟩
  case dataByte =>
    intro l b
    rw [dataCheck_append_singleton, crcByte_eq_eight_steps]
  case maskedCheck => exact fun _ _ => rfl
  case lineCheck => exact fun _ => rfl
  case request => exact fun r => ⟨headerBytes_length .., headerOk_iff r⟩
  case answer => exact fun a => ⟨a.header_length, rfl⟩

end Sys2Proof.Machine
end

section
/-! SUPPORT. Request messages and events: which block serves a message that passes the Intake's checks, and what a step
can do, said once, so that each invariant is proved over the blocks' own effects (R151, R154). -/

namespace Sys2Proof.Machine

/-! ### The block that serves a message -/

/-- What the block that an accepted message is handed to makes of the arrived state (R151 step 8). A message of an
undefined code is never accepted; a command that is no message changes nothing here. -/
def served (c : Instr) (s : State) : State :=
  match c with
  | .read _ h => s.serveRead h
  | .write _ h p => s.serveWrite h p
  | .flush _ h => s.serveFlush h
  | .setupCheckPolicy h => s.serveSetting h (outside 0 1) false acceptCheckPolicy
  | .setupHighMark h => s.serveSetting h badHighMark false acceptHighMark
  | .setupLowMark h => s.serveSetting h badLowMark false acceptLowMark
  | .setupIdleDrainTime h => s.serveSetting h (outside 0 1000) false acceptIdleDrainTime
  | .setupReadWaitLimit h => s.serveSetting h (outside 1 1000) false acceptReadWaitLimit
  | .setupParkDelay h => s.serveSetting h (outside 0 65535) false acceptParkDelay
  | .setupWakeMode h => s.serveSetting h (outside 0 1) false acceptWakeMode
  | .setupPullIn h => s.serveSetting h (outside 0 1) false acceptPullIn
  | .setupMaskedWrites h => s.serveSetting h (outside 0 1) true acceptMaskedWrites
  | .setupDieCount h => s.serveSetting h (fun _ v => notOneTwoFour v) true acceptDieCount
  | .setupDieLinesLog2 h => s.serveSetting h (outside 20 28) true acceptDieLinesLog2
  | .setupGranularity h => s.serveSetting h badGranularity true acceptGranularity
  | .setupTempPoll h => s.serveSetting h (outside 1 1000) false acceptTempPoll
  | .setupDrainRetry h => s.serveSetting h (outside 0 7) false acceptDrainRetry
  | .setupDieOpLimit h => s.serveSetting h (outside 10 1000) false acceptDieOpLimit
  | .profileFieldWrite p n h => s.serveFieldWrite p n h
  | .profileCommit h => s.serveCommit h
  | .start h => s.serveStart h
  | .rateSwitch h => s.serveRateSwitch h
  | .clearErrors h => s.serveClearErrors h
  | .restart h => s.serveRestart h
  | .dieSetting h => s.serveDieSetting h
  | .queryStatus h => s.answerQuery h s.statusBytes
  | .queryLog h => s.serveLog h
  | .queryEntry h =>
      s.answerQuery h (entryBytes (Fin.ofNat 32 h.value.toNat).val (s.entry (Fin.ofNat 32 h.value.toNat)))
  | .queryPoison h => s.answerQuery h (poisonBytes s.errs.poison)
  | .queryProfile h => s.answerQuery h (s.profileBytes (if h.value = 0 then .a else .b))
  | .queryShadow h => s.answerQuery h (s.shadowBytes (Fin.ofNat 4 h.value.toNat))
  | .querySettings h => s.answerQuery h s.chan.settings.bytes
  | _ => s

theorem takeHeld_eq {c : Instr} {r : Request} (hr : requestOf c = some r) (s : State) :
    takeHeld c s = s.intake r (served c) := by
  cases c <;> cases hr <;> rfl

/-- A well-formed message is delivered to the Intake (R154). -/
theorem exec_message {c : Instr} {r : Request} (hw : c.wf = true) (hr : requestOf c = some r) (s : State) :
    exec c s = .next (s.deliver c fun t => t.intake r (served c)) := by
  have htaken : (fun t => t.intake r (served c)) = takeHeld c := funext fun t => (takeHeld_eq hr t).symm
  rw [htaken]
  cases c <;> cases hr
  case undefinedKind.refl k b h => exact if_neg (by simpa [Instr.wf] using hw)
  case undefinedSettingCode.refl k h => exact if_neg (by simpa [Instr.wf] using hw)
  case undefinedQueryCode.refl k h => exact if_neg (by simpa [Instr.wf] using hw)
  all_goals rfl

/-- A term with a defined code that says it is undefined is refused (log 12). -/
theorem exec_illFormed {c : Instr} (hw : c.wf = false) (s : State) : ∃ m, exec c s = .refused (.illFormed m) := by
  cases c
  case undefinedKind k b h => exact ⟨_, if_pos (by simpa [Instr.wf] using hw)⟩
  case undefinedSettingCode k h => exact ⟨_, if_pos (by simpa [Instr.wf] using hw)⟩
  case undefinedQueryCode k h => exact ⟨_, if_pos (by simpa [Instr.wf] using hw)⟩
  all_goals cases hw

theorem wf_of_next {c : Instr} {s t : State} (h : exec c s = .next t) : c.wf = true := by
  by_contra hw
  obtain ⟨m, hm⟩ := exec_illFormed (Bool.eq_false_iff.2 hw) s
  rw [hm] at h
  cases h

/-! ### The Intake -/

section
variable {s : State} {r : Request} (serve : State → State)

theorem intake_fault (hok : r.headerOk = false) : s.intake r serve = s.headerFault := by
  rw [State.intake, if_neg (by simp [hok])]

theorem intake_refused {st : Status} (hok : r.headerOk = true) (hst : s.refusal r = some st) (hd : st ≠ .dataCheck) :
    s.intake r serve = s.arrive.reply r.header.tag st := by
  simp only [State.intake, hok, if_true, refusal_arrive, hst]

theorem intake_dataFault (hok : r.headerOk = true) (hst : s.refusal r = some .dataCheck) :
    s.intake r serve = (s.arrive.dataFault r).reply r.header.tag .dataCheck := by
  simp only [State.intake, hok, if_true, refusal_arrive, hst]

theorem intake_served (hok : r.headerOk = true) (hst : s.refusal r = none) : s.intake r serve = serve s.arrive := by
  simp only [State.intake, hok, if_true, refusal_arrive, hst]

end

theorem deliver_taken {s : State} (c : Instr) (taken : State → State) (hl : s.link.held = []) (hp : s.hasPlace = true) :
    s.deliver c taken = taken s := if_pos ⟨hl, hp⟩

theorem deliver_waits {s : State} (c : Instr) (taken : State → State) (h : s.link.held ≠ [] ∨ s.hasPlace = false) :
    s.deliver c taken = s.setLink { s.link with held := s.link.held ++ [c] } := by
  refine if_neg fun ⟨hl, hp⟩ => ?_
  rcases h with h | h
  · exact h hl
  · rw [hp] at h; cases h

theorem hasPlace_iff (s : State) :
    s.hasPlace = true ↔ s.link.answers.length + s.link.tags.length < 24 := decide_eq_true_iff

/-- What no failed check says: the tag is free, and a READ, WRITE or FLUSH finds the part up (R151 steps 2 to 5). -/
theorem refusal_none {s : State} {r : Request} (h : s.refusal r = none) :
    r.malformed = false ∧ r.header.tag ∉ s.link.tags ∧ (r.memory = true → s.stateRefusal = none) := by
  unfold State.refusal at h
  split at h
  · cases h
  next hm =>
    split at h
    · cases h
    · split at h
      · cases h
      next ht =>
        refine ⟨by simpa using hm, by simpa using ht, fun hmem => ?_⟩
        rw [if_pos hmem] at h
        cases hs : s.stateRefusal with
        | none => rfl
        | some st => rw [hs] at h; cases h

/-- The part states in which the state check passes (R151 step 5). -/
theorem stateRefusal_none {s : State} (h : s.stateRefusal = none) :
    s.chan.partState ∈ [PartState.running, .parking, .parked, .waking, .switching] := by
  unfold State.stateRefusal at h
  split at h <;> simp_all

/-! ### What a block can do with an accepted message -/

/-- The fifteen part settings: the bad values, whether CONFIG is asked for, and what acceptance does (R135, R137). -/
inductive Setting : (State → Nat → Bool) → Bool → (Nat → State → State) → Prop
  | checkPolicy : Setting (outside 0 1) false acceptCheckPolicy
  | highMark : Setting badHighMark false acceptHighMark
  | lowMark : Setting badLowMark false acceptLowMark
  | idleDrainTime : Setting (outside 0 1000) false acceptIdleDrainTime
  | readWaitLimit : Setting (outside 1 1000) false acceptReadWaitLimit
  | parkDelay : Setting (outside 0 65535) false acceptParkDelay
  | wakeMode : Setting (outside 0 1) false acceptWakeMode
  | pullIn : Setting (outside 0 1) false acceptPullIn
  | maskedWrites : Setting (outside 0 1) true acceptMaskedWrites
  | dieCount : Setting (fun _ v => notOneTwoFour v) true acceptDieCount
  | dieLinesLog2 : Setting (outside 20 28) true acceptDieLinesLog2
  | granularity : Setting badGranularity true acceptGranularity
  | tempPoll : Setting (outside 1 1000) false acceptTempPoll
  | drainRetry : Setting (outside 0 7) false acceptDrainRetry
  | dieOpLimit : Setting (outside 10 1000) false acceptDieOpLimit

/-- The state that a block leaves of the arrived state s when it serves a message: an answer at once, or an effect of
its own, each with what the block has found to hold. -/
inductive Service (s : State) : State → Prop
  | answer (a : Answer) : Service s (s.queue a)
  | read (h : Header) (free : h.tag ∉ s.link.tags)
      (up : s.chan.partState ∈ [PartState.running, .parking, .parked, .waking, .switching])
      (room : s.reads.list.length < 16) :
      Service s ((s.joinReads (s.readRecord h)).wake.finishAt s (s.dieIndex h.line))
  | writeRests (a : Answer) (line : LineAddr)
      (up : s.chan.partState ∈ [PartState.running, .parking, .parked, .waking, .switching]) :
      Service s ((s.queue a).wake.finishAt s (s.dieIndex line))
  | writePosts (a : Answer) (line : LineAddr) (m : Mask) (data : LineData) (i : Fin 32) (e : Entry)
      (up : s.chan.partState ∈ [PartState.running, .parking, .parked, .waking, .switching])
      (posts : s.posting line m data = .entry i e) :
      Service s (((s.post i e line m).queue a).wake.finishAt s (s.dieIndex line))
  | flush (tag : Tag) (free : tag ∉ s.link.tags) (room : s.flushes.length < 4) :
      Service s
        (((s.setFlushes (s.flushes ++ [{ tag := tag, boundary := s.table.nextWsn, loss := false }])).joinTag tag).finish
          s fun _ => false)
  | setting (a : Answer) (v : Nat) {bad : State → Nat → Bool} {configOnly : Bool} {accept : Nat → State → State}
      (setting : Setting bad configOnly accept) (good : bad s v = false)
      (config : configOnly = true → s.chan.partState = .config) : Service s ((accept v s).queue a)
  | field (a : Answer) (p : ProfileId) (n : Fin 16) (v : BitVec 16) : Service s ((s.writeField p n v).queue a)
  | commit (a : Answer) (p : ProfileId) (sound : (s.chan.profile p).sound s.chan.settings.granularity = true) :
      Service s ((s.setChan (s.chan.setProfile p { s.chan.profile p with valid := true })).queue a)
  | start (tag : Tag) (free : tag ∉ s.link.tags) (config : s.chan.partState = .config) :
      Service s
        ((((s.beginProcedure (.start 0) tag).setPartState .bringup none).forPresent fun d t =>
          t.setChannelClaim d (some .dieReset)).finish s fun _ => true)
  | rateSwitch (target : ProfileId) (tag : Tag) (free : tag ∉ s.link.tags)
      (up : s.chan.partState = .running ∨ s.chan.partState = .parked) (alone : s.forwarding = false) :
      Service s (s.beginSwitch target tag)
  | clearErrors (a : Answer) (mask : BitVec 8) : Service s ((s.setErrs (s.errs.clear mask)).queue a)
  | restart (a : Answer) : Service s (s.restarted.queue a)
  | forward (h : Header) (free : h.tag ∉ s.link.tags)
      (up : s.chan.partState ∈ [PartState.running, .parking, .parked, .waking]) (alone : s.forwarding = false) :
      Service s (s.beginForward h)
  | log (a : Answer) :
      Service s ((s.setErrs { s.errs with log := s.errs.log.drop 4, overwrite := false }).queue a)

theorem serveSetting_service {s : State} (h : Header) {bad : State → Nat → Bool} {configOnly : Bool}
    {accept : Nat → State → State} (k : Setting bad configOnly accept) :
    Service s (s.serveSetting h bad configOnly accept) := by
  unfold State.serveSetting
  dsimp only
  split
  · exact .answer _
  next hb =>
    split
    · exact .answer _
    next hc =>
      refine .setting _ _ k (by simpa using hb) fun hconfig => ?_
      by_contra hne
      exact hc ⟨hconfig, hne⟩

theorem serveRead_service {s : State} (h : Header) (free : h.tag ∉ s.link.tags)
    (up : s.chan.partState ∈ [PartState.running, .parking, .parked, .waking, .switching]) :
    Service s (s.serveRead h) := by
  unfold State.serveRead
  split
  · exact .answer _
  · split
    · exact .answer _
    · split
      · exact .answer _
      next hr => exact .read h free up (not_le.1 hr)

theorem serveWrite_service {s : State} (h : Header) (p : WritePayload)
    (up : s.chan.partState ∈ [PartState.running, .parking, .parked, .waking, .switching]) :
    Service s (s.serveWrite h p) := by
  unfold State.serveWrite
  cases hp : s.posting h.line p.mask p.data with
  | unchanged => exact .writeRests _ _ up
  | retry => exact .writeRests _ _ up
  | entry i e => exact .writePosts _ _ _ _ _ _ up hp

theorem serveFlush_service {s : State} (h : Header) (free : h.tag ∉ s.link.tags) : Service s (s.serveFlush h) := by
  unfold State.serveFlush
  dsimp only
  split
  · exact .answer _
  · split
    · exact .answer _
    next hr => exact .flush h.tag free (not_le.1 hr)

theorem serveFieldWrite_service {s : State} (p : ProfileId) (n : Fin 16) (h : Header) :
    Service s (s.serveFieldWrite p n h) := by
  unfold State.serveFieldWrite
  split
  · exact .answer _
  · split
    · exact .answer _
    · exact .field _ _ _ _

theorem serveCommit_service {s : State} (h : Header) : Service s (s.serveCommit h) := by
  unfold State.serveCommit
  split
  · exact .answer _
  · dsimp only
    split
    · exact .answer _
    · split
      next hs => exact .commit _ _ hs
      · exact .answer _

theorem serveStart_service {s : State} (h : Header) (free : h.tag ∉ s.link.tags) : Service s (s.serveStart h) := by
  unfold State.serveStart
  split
  · exact .answer _
  next hc => exact .start h.tag free (not_not.1 (not_or.1 hc).1)

theorem serveRateSwitch_service {s : State} (h : Header) (free : h.tag ∉ s.link.tags) :
    Service s (s.serveRateSwitch h) := by
  unfold State.serveRateSwitch
  split
  · exact .answer _
  · split
    · exact .answer _
    · split
      · exact .answer _
      next hup =>
        split
        · exact .answer _
        next hf => exact .rateSwitch _ _ free (by tauto) (by simpa using hf)

theorem serveRestart_service {s : State} (h : Header) : Service s (s.serveRestart h) := by
  unfold State.serveRestart
  split
  · exact .restart _
  · split
    · exact .answer _
    · exact .restart _
  all_goals exact .answer _

theorem serveDieSetting_service {s : State} (h : Header) (free : h.tag ∉ s.link.tags) :
    Service s (s.serveDieSetting h) := by
  unfold State.serveDieSetting
  split
  · exact .answer _
  · split <;> first
      | exact .answer _
      | (next hp =>
          split
          · exact .answer _
          next hf => exact .forward h free (by simp [hp]) (by simpa using hf))

/-- Whatever message the Intake hands on, its block serves it in one of these ways. -/
theorem served_service {c : Instr} {r : Request} {s : State} (hr : requestOf c = some r) (hn : s.refusal r = none) :
    Service s (served c s) := by
  obtain ⟨hmalformed, free, hup⟩ := refusal_none hn
  cases c <;> cases hr
  case read.refl b h => exact serveRead_service h free (stateRefusal_none (hup rfl))
  case write.refl b h p => exact serveWrite_service h p (stateRefusal_none (hup rfl))
  case flush.refl b h => exact serveFlush_service h free
  case undefinedKind.refl => cases hmalformed
  case undefinedSettingCode.refl => cases hmalformed
  case undefinedQueryCode.refl => cases hmalformed
  case setupCheckPolicy.refl h => exact serveSetting_service h .checkPolicy
  case setupHighMark.refl h => exact serveSetting_service h .highMark
  case setupLowMark.refl h => exact serveSetting_service h .lowMark
  case setupIdleDrainTime.refl h => exact serveSetting_service h .idleDrainTime
  case setupReadWaitLimit.refl h => exact serveSetting_service h .readWaitLimit
  case setupParkDelay.refl h => exact serveSetting_service h .parkDelay
  case setupWakeMode.refl h => exact serveSetting_service h .wakeMode
  case setupPullIn.refl h => exact serveSetting_service h .pullIn
  case setupMaskedWrites.refl h => exact serveSetting_service h .maskedWrites
  case setupDieCount.refl h => exact serveSetting_service h .dieCount
  case setupDieLinesLog2.refl h => exact serveSetting_service h .dieLinesLog2
  case setupGranularity.refl h => exact serveSetting_service h .granularity
  case setupTempPoll.refl h => exact serveSetting_service h .tempPoll
  case setupDrainRetry.refl h => exact serveSetting_service h .drainRetry
  case setupDieOpLimit.refl h => exact serveSetting_service h .dieOpLimit
  case profileFieldWrite.refl p n h => exact serveFieldWrite_service p n h
  case profileCommit.refl h => exact serveCommit_service h
  case start.refl h => exact serveStart_service h free
  case rateSwitch.refl h => exact serveRateSwitch_service h free
  case clearErrors.refl h => exact .clearErrors _ _
  case restart.refl h => exact serveRestart_service h
  case dieSetting.refl h => exact serveDieSetting_service h free
  case queryLog.refl h => exact .log _
  all_goals exact .answer _

/-! ### What an event can do -/

/-- A link reset's own effect (R157). -/
def State.linkEmptied (s : State) : State :=
  let s1 := s.setLink { tags := [], answers := [], held := [] }
  let s2 := forDies (fun d t => t.setPort d { t.port d with readClaims := [] }) s1
  let s3 := (s2.setReads { s2.reads with list := [] }).setFlushes []
  s3.setChan { s3.chan with procedure := s3.chan.procedure.map Procedure.suppress }

/-- The beginning of parking (R120). -/
def State.parkingBegun (s : State) : State :=
  (s.setChan { s.chan with partState := .parking, phase := none, parkDelay := none }).forPresent fun d t =>
    t.setChannelClaim d (some .parkEnter)

/-- The expiry of a settle timer: the port, the shadow, and what waited for it (R77, R143). -/
def State.settleExpired (s : State) (d : DieId) : State :=
  let s1 := s.setPort d (s.port d).afterSettle
  match (s.port d).settling with
  | some (index, value) => (s1.recordShadow d index value).settled d index value
  | none => s1

/-- The expiry of a record's deadline (R53). -/
def State.deadlineExpired (s : State) (r : ReadRecord) : State :=
  ((s.close (Answer.plain r.tag .timeout 0)).logNote
      { kind := .readTimeout, detail := Status.timeout.code, die := some r.die, line := some r.line
        tag := some r.tag }).dropRead r

/-- A refresh due event at a die (R96 to R98). -/
def State.refreshDebited (s : State) (d : DieId) : State :=
  let c := s.care d
  let balance := if c.counts && decide (-8 < c.balance) then c.balance - 1 else c.balance
  let s1 :=
    s.setCare d { c with balance := balance, coolSkip := c.nextToggle, refreshDue := some (s.dueInterval d) }
  if c.counts && decide (c.balance ≤ -8) then s1.logNote { kind := .refreshOverrun, die := some d } else s1

/-- A recal due event at a die (R104). -/
def State.recalCalled (s : State) (d : DieId) : State :=
  s.setCare d
    { s.care d with
      recalDue := some s.recalPeriod, recalPending := true
      recalForced := (s.care d).recalForced || (s.care d).recalPending }

/-- A thermal poll (R102). -/
def State.polled (s : State) : State :=
  forDies
    (fun d t =>
      if (t.care d).condition = .active then t.setCare d { t.care d with tempPending := true } else t)
    (s.setMaint { s.maint with pollTimer := some (pollLength s.chan.settings.tempPoll) })

/-- An event's own effect u on the state s before it closes, and the dies that it touches. -/
inductive Event (s : State) : State → (DieId → Bool) → Prop
  | linkReset : Event s s.linkEmptied s.readOf
  | park (may : s.mayPark = true) : Event s s.parkingBegun fun _ => true
  | relock : Event s (s.setChan { s.chan with relock := none }).beginWake fun _ => true
  | settle (d : DieId) (runs : (s.port d).settle.isSome = true) : Event s (s.settleExpired d) fun x => x == d
  | fail (d : DieId) (detail : Status) : Event s (s.failPort d detail) fun x => x == d
  | deadline (r : ReadRecord) (listed : r ∈ s.reads.list) : Event s (s.deadlineExpired r) fun x => x == r.die
  | refreshDue (d : DieId) (runs : (s.care d).refreshDue.isSome = true) : Event s (s.refreshDebited d) fun x => x == d
  | recalDue (d : DieId) (runs : (s.care d).recalDue.isSome = true) : Event s (s.recalCalled d) fun x => x == d
  | poll : Event s s.polled fun _ => true
  | lineRead (d : DieId) (l n : Nat) (cl : Claimant) (ln : Option LineAddr) (data : Option LineData)
      (slot : (s.port d).slot = some ⟨.lineRead l n, cl, ln⟩) :
      Event s ((s.emptySlot d).takeLineRead d cl data) fun x => x == d
  | lineWrite (d : DieId) (l : Nat) (data : LineData) (k : BitVec 16) (w r : Nat) (cl : Claimant)
      (ln : Option LineAddr) (stored : Bool) (slot : (s.port d).slot = some ⟨.lineWrite l data k w r, cl, ln⟩) :
      Event s ((s.emptySlot d).takeWriteStep d cl stored) fun x => x == d
  | maskedWrite (d : DieId) (l : Nat) (m : Mask) (data : LineData) (k : BitVec 16) (w r : Nat) (cl : Claimant)
      (ln : Option LineAddr) (stored : Bool) (slot : (s.port d).slot = some ⟨.maskedWrite l m data k w r, cl, ln⟩) :
      Event s ((s.emptySlot d).takeWriteStep d cl stored) fun x => x == d
  | refresh (d : DieId) (w : Nat) (cl : Claimant) (ln : Option LineAddr)
      (slot : (s.port d).slot = some ⟨.refresh w, cl, ln⟩) :
      Event s (State.refreshDone d (s.emptySlot d)) fun x => x == d
  | shortRecal (d : DieId) (w : Nat) (cl : Claimant) (ln : Option LineAddr)
      (slot : (s.port d).slot = some ⟨.shortRecal w, cl, ln⟩) : Event s ((s.emptySlot d).clearRecal d) fun x => x == d
  | longRecal (d : DieId) (w : Nat) (cl : Claimant) (ln : Option LineAddr)
      (slot : (s.port d).slot = some ⟨.longRecal w, cl, ln⟩) :
      Event s (State.longRecalDone d (s.emptySlot d)) fun x => x == d
  | tempRead (d : DieId) (cl : Claimant) (ln : Option LineAddr) (band : Band)
      (slot : (s.port d).slot = some ⟨.tempRead, cl, ln⟩) : Event s ((s.emptySlot d).takeBand d band) fun x => x == d
  | set (d : DieId) (index : BitVec 4) (value : BitVec 16) (cl : Claimant) (ln : Option LineAddr)
      (slot : (s.port d).slot = some ⟨.set index value, cl, ln⟩) :
      Event s (State.setDone d index value (s.emptySlot d)) fun x => x == d
  | dieReset (d : DieId) (cl : Claimant) (ln : Option LineAddr) (slot : (s.port d).slot = some ⟨.dieReset, cl, ln⟩) :
      Event s (((s.emptySlot d).bringupClaim d .longRecal).abortBringup) fun x => x == d
  | parkEnter (d : DieId) (w : Nat) (cl : Claimant) (ln : Option LineAddr)
      (slot : (s.port d).slot = some ⟨.parkEnter w, cl, ln⟩) :
      Event s (State.parkEnterDone d (s.emptySlot d)) fun x => x == d
  | parkExit (d : DieId) (mode : WakeMode) (w : Nat) (cl : Claimant) (ln : Option LineAddr)
      (slot : (s.port d).slot = some ⟨.parkExit mode w, cl, ln⟩) :
      Event s (State.parkExitDone d mode (s.emptySlot d)) fun x => x == d

/-- What a command that is neither a message nor an answer sent makes of a state. -/
inductive EventStep (s : State) : State → Prop
  | rests : EventStep s s
  | powersOn : EventStep s s.poweredOn
  | delaysParking : EventStep s s.restartParkDelay
  | idles : EventStep s s.expireIdleDrain
  | closes {u : State} {touched : DieId → Bool} (event : Event s u touched) : EventStep s (u.finish s touched)

/-- An event that concerns one die closes. -/
theorem EventStep.closesAt {s u : State} {d : DieId} (h : Event s u fun x => x == d) : EventStep s (u.finishAt s d) :=
  .closes h

theorem controlCompletion_step {s : State} {d : DieId} {f : State → State}
    (h : Event s (f (s.emptySlot d)) fun x => x == d) (c : Completion) : EventStep s (s.controlCompletion d c f) := by
  unfold State.controlCompletion
  split
  · exact .closesAt h
  · split
    · exact (EventStep.closesAt (.fail d .failed) :)
    · exact .rests

/-- Every event is one of these. -/
theorem event_step {c : Instr} {s t : State} (hr : requestOf c = none) (ha : c ≠ .answerSent)
    (h : exec c s = .next t) : EventStep s t := by
  cases c <;> cases hr <;> simp only [exec] at h
  case powerOn.refl => obtain rfl := Host.Outcome.next.inj h; exact .powersOn
  case linkReset.refl => obtain rfl := Host.Outcome.next.inj h; exact (EventStep.closes .linkReset :)
  case answerSent.refl => exact absurd rfl ha
  case idleDrainTimerExpiry.refl =>
    unfold execIdleDrainTimerExpiry at h
    split at h <;> obtain rfl := Host.Outcome.next.inj h
    · exact .rests
    · exact .idles
  case parkDelayTimerExpiry.refl =>
    unfold execParkDelayTimerExpiry at h
    split at h <;> obtain rfl := Host.Outcome.next.inj h
    · exact .rests
    · split
      next hp => exact (EventStep.closes (.park hp) :)
      · exact .delaysParking
  case relockTimerExpiry.refl =>
    unfold execRelockTimerExpiry at h
    split at h <;> obtain rfl := Host.Outcome.next.inj h
    · exact .rests
    · exact (EventStep.closes .relock :)
  case settleTimerExpiry.refl d =>
    unfold execSettleTimerExpiry at h
    split at h <;> obtain rfl := Host.Outcome.next.inj h
    · exact .rests
    next hs => exact (EventStep.closesAt (.settle d (by rw [hs]; rfl)) :)
  case opLimitExpiry.refl d =>
    unfold execOpLimitExpiry at h
    split at h <;> obtain rfl := Host.Outcome.next.inj h
    · exact .rests
    · exact (EventStep.closesAt (.fail d .timeout) :)
  case deadlineExpiry.refl tag =>
    unfold execDeadlineExpiry at h
    split at h <;> obtain rfl := Host.Outcome.next.inj h
    · exact .rests
    next hf => exact (EventStep.closesAt (.deadline _ (List.mem_of_find?_eq_some hf)) :)
  case refreshDueEvent.refl d =>
    unfold execRefreshDueEvent at h
    split at h <;> obtain rfl := Host.Outcome.next.inj h
    · exact .rests
    next hs => exact (EventStep.closesAt (.refreshDue d (by rw [hs]; rfl)) :)
  case recalDueEvent.refl d =>
    unfold execRecalDueEvent at h
    split at h <;> obtain rfl := Host.Outcome.next.inj h
    · exact .rests
    next hs => exact (EventStep.closesAt (.recalDue d (by rw [hs]; rfl)) :)
  case thermalPollExpiry.refl =>
    unfold execThermalPollExpiry at h
    split at h <;> obtain rfl := Host.Outcome.next.inj h
    · exact .rests
    · exact (EventStep.closes .poll :)
  case lineReadCompletion.refl d c =>
    unfold execLineReadCompletion at h
    split at h <;> obtain rfl := Host.Outcome.next.inj h
    next hs _ => exact (EventStep.closesAt (.lineRead d _ _ _ _ _ hs) :)
    · exact .rests
  case lineWriteCompletion.refl d c =>
    unfold execLineWriteCompletion at h
    split at h <;> obtain rfl := Host.Outcome.next.inj h
    next hs _ => exact (EventStep.closesAt (.lineWrite d _ _ _ _ _ _ _ _ hs) :)
    · exact .rests
  case maskedWriteCompletion.refl d c =>
    unfold execMaskedWriteCompletion at h
    split at h <;> obtain rfl := Host.Outcome.next.inj h
    next hs _ => exact (EventStep.closesAt (.maskedWrite d _ _ _ _ _ _ _ _ _ hs) :)
    · exact .rests
  case refreshCompletion.refl d c =>
    unfold execRefreshCompletion at h
    split at h <;> obtain rfl := Host.Outcome.next.inj h
    next hs => exact controlCompletion_step (.refresh d _ _ _ hs) c
    · exact .rests
  case shortRecalCompletion.refl d c =>
    unfold execShortRecalCompletion at h
    split at h <;> obtain rfl := Host.Outcome.next.inj h
    next hs => exact controlCompletion_step (.shortRecal d _ _ _ hs) c
    · exact .rests
  case longRecalCompletion.refl d c =>
    unfold execLongRecalCompletion at h
    split at h <;> obtain rfl := Host.Outcome.next.inj h
    next hs => exact controlCompletion_step (.longRecal d _ _ _ hs) c
    · exact .rests
  case tempReadCompletion.refl d c =>
    unfold execTempReadCompletion at h
    split at h <;> obtain rfl := Host.Outcome.next.inj h
    next hs _ => exact (EventStep.closesAt (.tempRead d _ _ _ hs) :)
    · exact .rests
  case setCompletion.refl d c =>
    unfold execSetCompletion at h
    split at h <;> obtain rfl := Host.Outcome.next.inj h
    next hs => exact controlCompletion_step (.set d _ _ _ _ hs) c
    · exact .rests
  case dieResetCompletion.refl d c =>
    unfold execDieResetCompletion at h
    split at h <;> obtain rfl := Host.Outcome.next.inj h
    next hs => exact controlCompletion_step (.dieReset d _ _ hs) c
    · exact .rests
  case parkEnterCompletion.refl d c =>
    unfold execParkEnterCompletion at h
    split at h <;> obtain rfl := Host.Outcome.next.inj h
    next hs => exact controlCompletion_step (.parkEnter d _ _ _ hs) c
    · exact .rests
  case parkExitCompletion.refl d c =>
    unfold execParkExitCompletion at h
    split at h <;> obtain rfl := Host.Outcome.next.inj h
    next hs => exact controlCompletion_step (.parkExit d _ _ _ _ hs) c
    · exact .rests

end Sys2Proof.Machine
end

section
/-! SUPPORT. What every command keeps: the rule by which an invariant is proved once for all of them. -/

namespace Sys2Proof.Machine

/-- What a property must survive to be kept by every command: the link's own moves, the Intake's, each block's service
of an accepted message, and each event. -/
structure ExecKeeps (P : State → Prop) : Prop where
  held : ∀ s l, P s → P (s.setLink { s.link with held := l })
  sent : ∀ s, P s → P (s.setLink { s.link with answers := s.link.answers.tail })
  headerFault : ∀ s, P s → P s.headerFault
  arrive : ∀ s, P s → P s.arrive
  dataFault : ∀ s r, P s → P (s.dataFault r)
  service : ∀ s t, s.hasPlace = true → Service s t → P s → P t
  event : ∀ s t, EventStep s t → P s → P t

theorem arrive_hasPlace (s : State) : s.arrive.hasPlace = s.hasPlace := by
  rw [State.hasPlace, (arrive_internal s).link]
  rfl

namespace ExecKeeps

variable {P : State → Prop} (k : ExecKeeps P)
include k

theorem intake {c : Instr} {r : Request} (hr : requestOf c = some r) {s : State} (hp : s.hasPlace = true) (h : P s) :
    P (s.intake r (served c)) := by
  have ha : P s.arrive := k.arrive s h
  have hap : s.arrive.hasPlace = true := (arrive_hasPlace s).trans hp
  cases hok : r.headerOk
  · rw [intake_fault _ hok]
    exact k.headerFault s h
  · cases hst : s.refusal r with
    | none =>
      rw [intake_served _ hok hst]
      exact k.service _ _ hap (served_service hr ((refusal_arrive s r).trans hst)) ha
    | some st =>
      by_cases hd : st = .dataCheck
      · rw [intake_dataFault _ hok (hst.trans (congrArg some hd))]
        have hdp : (s.arrive.dataFault r).hasPlace = true := hap
        exact k.service (s.arrive.dataFault r) _ hdp (.answer _) (k.dataFault _ r ha)
      · rw [intake_refused _ hok hst hd]
        exact k.service s.arrive _ hap (.answer _) ha

theorem takeHeld {c : Instr} {s : State} (hp : s.hasPlace = true) (h : P s) : P (takeHeld c s) := by
  cases hr : requestOf c with
  | some r =>
    rw [takeHeld_eq hr]
    exact k.intake hr hp h
  | none =>
    have hs : Machine.takeHeld c s = s := by cases c <;> cases hr <;> rfl
    rwa [hs]

theorem takeAllHeld (l : List Instr) {s : State} (h : P s) : P (takeAllHeld l s) := by
  induction l generalizing s with
  | nil => exact h
  | cons c rest ih =>
    unfold Machine.takeAllHeld
    split
    next hp => exact ih (k.takeHeld hp (k.held s rest h))
    · exact h

theorem exec {c : Instr} {s t : State} (hx : exec c s = .next t) (h : P s) : P t := by
  cases hr : requestOf c with
  | some r =>
    rw [exec_message (wf_of_next hx) hr] at hx
    obtain rfl := Host.Outcome.next.inj hx
    unfold State.deliver
    split
    next hd => exact k.intake hr hd.2 h
    · exact k.held s _ h
  | none =>
    by_cases ha : c = .answerSent
    · subst ha
      have hx : execAnswerSent s = .next t := hx
      unfold execAnswerSent at hx
      split at hx
      · rwa [← Host.Outcome.next.inj hx]
      · rw [← Host.Outcome.next.inj hx]
        exact k.takeAllHeld _ (k.sent s h)
    · exact k.event s t (event_step hr ha hx) h

/-- A property that every command keeps, and that does not read the queue of commands, is kept by every step. -/
theorem step (queue : ∀ s l, P s → P { s with pending := l }) {s t : State} (hx : step s = .next t) (h : P s) :
    P t := by
  unfold Machine.step at hx
  split at hx
  · rwa [← Host.Outcome.next.inj hx]
  · exact k.exec hx (queue s _ h)

end ExecKeeps

end Sys2Proof.Machine
end

section
/-! SUPPORT. DIE_COUNT changed and changed back within one ANSWER_SENT: the Maintenance Unit's claims of a die that is
absent in between do not follow a change of PULL_IN (R99, R137, R154). -/

namespace Sys2Proof.Machine

/-- A SETUP header of a code with a value, under tag 0 and with the check that it needs. -/
def setupHeader (code : Byte) (value : BitVec 32) : Header :=
  let h : Header :=
    { kindRsvd := 0, tag := 0, tagRsvd := 0, line := 0, lineRsvd := 0, startBeat := 0, half := false
      pairwise := false, beatRsvd := 0, value := value, dieMask := 0, dieMaskRsvd := 0, tailRsvd := 0, check := 0 }
  { h with check := xorBytes (headerBytes kindSetup code h) }

/-- Two dies in CONFIG, die 1 IDLE and ACTIVE with a balance of 0 and PULL_IN off, so that no refresh is wanted; an
answer waits to be sent, and the link holds DIE_COUNT 1, PULL_IN 1 and DIE_COUNT 2. -/
def absentMeanwhile : State :=
  { State.reset with
    pending := [.answerSent]
    link :=
      { tags := [], answers := [Answer.plain 0 .ok 0]
        held := [.setupDieCount (setupHeader 0x0A 1), .setupPullIn (setupHeader 0x08 1),
          .setupDieCount (setupHeader 0x0A 2)] }
    ports := State.reset.ports.set 1 { Port.atReset (some 2500) with state := .idle }
    maint :=
      { State.reset.maint with
        dies := State.reset.maint.dies.set 1
          { DieCare.atReset with condition := .active, refreshDue := some 7800, recalDue := some 128000000 } }
    chan :=
      { State.reset.chan with settings := { State.reset.chan.settings with dieCount := 2 } } }

/-- The state once the three held messages have been taken. -/
def absentMeanwhileAfter : State :=
  takeAllHeld absentMeanwhile.link.held
    { absentMeanwhile with pending := [], link := { absentMeanwhile.link with answers := [] } }

theorem step_absentMeanwhile : step absentMeanwhile = .next absentMeanwhileAfter := rfl

theorem absentMeanwhile_follows : ∀ d, absentMeanwhile.present d = true → CareFollows absentMeanwhile d := by
  decide +kernel

theorem absentMeanwhileAfter_dieCount :
    absentMeanwhileAfter.chan.settings.dieCount = absentMeanwhile.chan.settings.dieCount := by decide +kernel

/-- Die 1 is present again and wants a pull-in refresh, but its claim was not placed while it was absent. -/
theorem absentMeanwhileAfter_breaks :
    absentMeanwhileAfter.present 1 = true ∧ absentMeanwhileAfter.wantsRefresh 1 = true ∧
      (absentMeanwhileAfter.port 1).refreshClaim = false := by decide +kernel

/-- Refutes O60: three held messages that one ANSWER_SENT takes in CONFIG set DIE_COUNT to 1, PULL_IN to 1 and DIE_COUNT
back to 2, and PULL_IN places no claim at the die that is absent when it is taken. -/
theorem not_stepKeepsCareFollowing : ¬ Obligations.StepKeepsCareFollowing := by
  intro keeps
  obtain ⟨follows, -, -⟩ := keeps absentMeanwhile absentMeanwhileAfter step_absentMeanwhile
  obtain ⟨present, wants, claim⟩ := absentMeanwhileAfter_breaks
  obtain ⟨-, refresh, -, -⟩ :=
    follows absentMeanwhileAfter_dieCount absentMeanwhile_follows 1 present
  rw [wants, claim] at refresh
  cases refresh

end Sys2Proof.Machine
end

section
/-! SUPPORT. Which blocks of the part each shared operation touches, said once: every block outside the list stays. -/

namespace Sys2Proof.Machine

/-- The blocks of the part; `settings` are the part settings and the two profiles within Channel Control. -/
inductive Block
  | link | table | drain | reads | flushes | ports | maint | chan | settings | errs
  deriving DecidableEq

open Block

/-- The state t is s but for the blocks listed; the queue of commands stays. -/
structure Touches (bs : List Block) (s t : State) : Prop where
  pending : t.pending = s.pending
  link : .link ∉ bs → t.link = s.link
  table : .table ∉ bs → t.table = s.table
  drain : .drain ∉ bs → t.drain = s.drain
  reads : .reads ∉ bs → t.reads = s.reads
  flushes : .flushes ∉ bs → t.flushes = s.flushes
  ports : .ports ∉ bs → t.ports = s.ports
  maint : .maint ∉ bs → t.maint = s.maint
  chan : .chan ∉ bs → t.chan = s.chan
  settings : .settings ∉ bs → t.chan.settings = s.chan.settings ∧ t.chan.profileA = s.chan.profileA ∧
    t.chan.profileB = s.chan.profileB
  errs : .errs ∉ bs → t.errs = s.errs

namespace Touches

variable {as bs : List Block} {s t u : State}

theorem refl (bs : List Block) (s : State) : Touches bs s s :=
  ⟨rfl, fun _ => rfl, fun _ => rfl, fun _ => rfl, fun _ => rfl, fun _ => rfl, fun _ => rfl, fun _ => rfl, fun _ => rfl,
    fun _ => ⟨rfl, rfl, rfl⟩, fun _ => rfl⟩

theorem mono (h : Touches as s t) (hs : as ⊆ bs) : Touches bs s t :=
  ⟨h.pending, fun k => h.link (mt (@hs _) k), fun k => h.table (mt (@hs _) k), fun k => h.drain (mt (@hs _) k),
    fun k => h.reads (mt (@hs _) k), fun k => h.flushes (mt (@hs _) k), fun k => h.ports (mt (@hs _) k),
    fun k => h.maint (mt (@hs _) k), fun k => h.chan (mt (@hs _) k), fun k => h.settings (mt (@hs _) k),
    fun k => h.errs (mt (@hs _) k)⟩

theorem trans (h : Touches bs s t) (k : Touches bs t u) : Touches bs s u :=
  ⟨k.pending.trans h.pending, fun n => (k.link n).trans (h.link n), fun n => (k.table n).trans (h.table n),
    fun n => (k.drain n).trans (h.drain n), fun n => (k.reads n).trans (h.reads n),
    fun n => (k.flushes n).trans (h.flushes n), fun n => (k.ports n).trans (h.ports n),
    fun n => (k.maint n).trans (h.maint n), fun n => (k.chan n).trans (h.chan n),
    fun n => ⟨(k.settings n).1.trans (h.settings n).1, (k.settings n).2.1.trans (h.settings n).2.1,
      (k.settings n).2.2.trans (h.settings n).2.2⟩,
    fun n => (k.errs n).trans (h.errs n)⟩

/-- A step that touches a sublist of the blocks, after one that touches others. -/
theorem andThen (h : Touches bs s t) (k : Touches as t u) (hs : as ⊆ bs) : Touches bs s u :=
  h.trans (k.mono hs)

theorem port (h : Touches bs s t) (n : .ports ∉ bs) (d : DieId) : t.port d = s.port d := by
  rw [State.port, h.ports n]; rfl

theorem care (h : Touches bs s t) (n : .maint ∉ bs) (d : DieId) : t.care d = s.care d := by
  rw [State.care, h.maint n]; rfl

theorem entry (h : Touches bs s t) (n : .table ∉ bs) (i : Fin 32) : t.entry i = s.entry i := by
  rw [State.entry, h.table n]; rfl

theorem present (h : Touches bs s t) (n : .settings ∉ bs) (d : DieId) : t.present d = s.present d := by
  rw [State.present, (h.settings n).1]; rfl

theorem forDies {f : DieId → State → State} (h : ∀ d t, Touches bs t (f d t)) (s : State) :
    Touches bs s (Machine.forDies f s) :=
  (((h 0 s).trans (h 1 _)).trans (h 2 _)).trans (h 3 _)

theorem forPresent {f : DieId → State → State} (h : ∀ d t, Touches bs t (f d t)) (s : State) :
    Touches bs s (s.forPresent f) :=
  forDies (fun d t => by split <;> [exact h d t; exact refl bs t]) s

end Touches

/-! ### Single updates -/

theorem setLink_touches (s : State) (l : Link) : Touches [.link] s (s.setLink l) := by constructor <;> simp
theorem setTable_touches (s : State) (x : Table) : Touches [.table] s (s.setTable x) := by constructor <;> simp
theorem setDrain_touches (s : State) (x : Drain) : Touches [.drain] s (s.setDrain x) := by constructor <;> simp
theorem setReads_touches (s : State) (x : Reads) : Touches [.reads] s (s.setReads x) := by constructor <;> simp
theorem setFlushes_touches (s : State) (x : List FlushRecord) : Touches [.flushes] s (s.setFlushes x) := by
  constructor <;> simp
theorem setPort_touches (s : State) (d : DieId) (p : Port) : Touches [.ports] s (s.setPort d p) := by
  constructor <;> simp
theorem setMaint_touches (s : State) (x : Maint) : Touches [.maint] s (s.setMaint x) := by constructor <;> simp
theorem setErrs_touches (s : State) (x : Errors) : Touches [.errs] s (s.setErrs x) := by constructor <;> simp
theorem setEntry_touches (s : State) (i : Fin 32) (e : Entry) : Touches [.table] s (s.setEntry i e) :=
  setTable_touches s _
theorem setCare_touches (s : State) (d : DieId) (c : DieCare) : Touches [.maint] s (s.setCare d c) :=
  setMaint_touches s _

/-- A change of Channel Control's state outside settings and profiles. -/
theorem setChan_touches (s : State) (c : Channel)
    (h : (c.settings, c.profileA, c.profileB) = (s.chan.settings, s.chan.profileA, s.chan.profileB)) :
    Touches [.chan] s (s.setChan c) := by
  simp only [Prod.mk.injEq] at h
  constructor <;> simp [h]

theorem logNote_touches (s : State) (n : LogNote) : Touches [.errs] s (s.logNote n) := setErrs_touches s _
theorem latch_touches (s : State) (l : Latch) : Touches [.errs] s (s.latch l) := setErrs_touches s _
theorem noteAndLatch_touches (s : State) (n : LogNote) (l : Latch) : Touches [.errs] s ((s.logNote n).latch l) :=
  (logNote_touches s n).trans (latch_touches _ l)
theorem queue_touches (s : State) (a : Answer) : Touches [.link] s (s.queue a) := setLink_touches s _
theorem close_touches (s : State) (a : Answer) : Touches [.link] s (s.close a) := setLink_touches s _
theorem joinTag_touches (s : State) (tag : Tag) : Touches [.link] s (s.joinTag tag) := setLink_touches s _
theorem setDrainClaim_touches (s : State) (d : DieId) (c : Option DrainClaim) :
    Touches [.ports] s (s.setDrainClaim d c) := setPort_touches s d _
theorem setChannelClaim_touches (s : State) (d : DieId) (c : Option ChannelOp) :
    Touches [.ports] s (s.setChannelClaim d c) := setPort_touches s d _
theorem setPartState_touches (s : State) (p : PartState) (phase : Option Phase) :
    Touches [.chan] s (s.setPartState p phase) := setChan_touches s _ (by rfl)
theorem setRecalOwed_touches (s : State) (d : DieId) (v : Bool) : Touches [.chan] s (s.setRecalOwed d v) :=
  setChan_touches s _ (by rfl)
theorem setBalance_touches (s : State) (d : DieId) (b : Int) : Touches [.maint] s (s.setBalance d b) :=
  setCare_touches s d _
theorem clearRecal_touches (s : State) (d : DieId) : Touches [.maint] s (s.clearRecal d) := setCare_touches s d _
theorem recordShadow_touches (s : State) (d : DieId) (index : BitVec 4) (value : BitVec 16) :
    Touches [.chan] s (s.recordShadow d index value) := setChan_touches s _ (by rfl)
theorem emptySlot_touches (s : State) (d : DieId) : Touches [.ports] s (s.emptySlot d) := setPort_touches s d _

/-! ### Answers and the table -/

theorem closeAll_touches (s : State) (l : List Answer) : Touches [.link] s (s.closeAll l) := by
  rw [closeAll_eq]
  exact setLink_touches s _

theorem endProcedure_touches (s : State) (st : Status) (detail : BitVec 32) :
    Touches [.chan, .link] s (s.endProcedure st detail) := by
  unfold State.endProcedure
  split
  · exact .refl _ s
  · have hc : Touches [.chan, .link] s (s.setChan { s.chan with procedure := none }) :=
      (setChan_touches s _ (by rfl)).mono (by decide)
    dsimp only
    split
    · exact hc
    · exact hc.andThen (close_touches _ _) (by decide)

theorem promote_touches (s : State) (line : LineAddr) : Touches [.table] s (s.promote line) := by
  unfold State.promote
  split
  · exact setEntry_touches s _ _
  · exact .refl _ s

theorem notice_touches (s : State) (lost : Bool) (first : Wsn) :
    Touches [.flushes, .link] s (s.notice lost first) :=
  ((setFlushes_touches s _).mono (by decide)).andThen (closeAll_touches _ _) (by decide)

/-- Leaving the table: the entry and its line's SECOND, the flushes and their answers. -/
theorem leave_touches (s : State) (i : Fin 32) (lost : Bool) :
    Touches [.table, .flushes, .link] s (s.leave i lost) := by
  have hfree : Touches [.table, .flushes, .link] s (s.setEntry i Entry.freed) :=
    (setEntry_touches s i _).mono (by decide)
  unfold State.leave
  dsimp only
  split
  · exact (hfree.andThen (promote_touches _ _) (by decide)).andThen (notice_touches _ _ _) (by decide)
  · exact hfree.andThen (notice_touches _ _ _) (by decide)

theorem fill_touches (s : State) (d : DieId) (i : Fin 32) (data : LineData) :
    Touches [.table, .ports] s (s.fill d i data) :=
  ((setEntry_touches s i _).mono (by decide)).andThen (setDrainClaim_touches _ d _) (by decide)

theorem revert_touches (s : State) (i : Fin 32) : Touches [.table] s (s.revert i) := by
  unfold State.revert
  dsimp only
  split
  · exact (setEntry_touches s i _).trans (setEntry_touches _ _ _)
  · exact setEntry_touches s i _

theorem foldl_touches {α : Type} {bs : List Block} (f : State → α → State) (h : ∀ t a, Touches bs t (f t a))
    (l : List α) (s : State) : Touches bs s (l.foldl f s) := by
  induction l generalizing s with
  | nil => exact .refl bs s
  | cons a l ih => exact (h s a).trans (ih _)

theorem revertDie_touches (s : State) (d : DieId) : Touches [.table] s (s.revertDie d) :=
  foldl_touches _ (fun t i => by split <;> [exact revert_touches t i; exact .refl _ t]) _ s

theorem unpoison_touches (s : State) (line : LineAddr) : Touches [.errs] s (s.unpoison line) := setErrs_touches s _

theorem post_touches (s : State) (i : Fin 32) (e : Entry) (line : LineAddr) (m : Mask) :
    Touches [.table, .errs] s (s.post i e line m) := by
  have hposted : Touches [.table, .errs] s ((s.setEntry i e).advanceWsn) :=
    ((setEntry_touches s i e).mono (by decide)).andThen (setTable_touches _ _) (by decide)
  unfold State.post
  dsimp only
  split
  · exact hposted.andThen (unpoison_touches _ line) (by decide)
  · exact hposted

/-! ### Channel Control -/

theorem becomeRunning_touches (s : State) : Touches [.chan] s s.becomeRunning :=
  (setPartState_touches s _ _).trans (setChan_touches _ _ (by rfl))

theorem wake_touches (s : State) : Touches [.chan] s s.wake := by
  unfold State.wake
  split <;> [exact setPartState_touches s _ _; exact .refl _ s]

theorem endWake_touches (s : State) : Touches [.chan] s s.endWake := by
  unfold State.endWake
  split <;> [exact becomeRunning_touches s; exact .refl _ s]

theorem claimAll_touches (s : State) (op : State → ChannelOp) :
    Touches [.ports] s (s.forPresent fun d t => t.setChannelClaim d (some (op t))) :=
  .forPresent (fun d t => setChannelClaim_touches t d _) s

theorem beginPhase_touches (s : State) (phase : Phase) (op : State → ChannelOp) :
    Touches [.chan, .ports] s (s.beginPhase phase op) :=
  ((setPartState_touches s _ _).mono (by decide)).andThen (claimAll_touches _ op) (by decide)

theorem endWakePhase_touches (s : State) : Touches [.chan, .ports] s s.endWakePhase := by
  unfold State.endWakePhase
  split <;> [exact beginPhase_touches s _ _; exact .refl _ s]

theorem endRecalPhase_touches (s : State) : Touches [.chan, .ports] s s.endRecalPhase := by
  unfold State.endRecalPhase
  split <;> [exact beginPhase_touches s _ _; exact .refl _ s]

theorem enterClock_touches (s : State) : Touches [.chan, .ports] s s.enterClock := by
  unfold State.enterClock
  split
  · refine Touches.andThen (.forPresent (fun d t => ?_) s) (setChan_touches _ _ (by rfl)) (by decide)
    exact ((setPort_touches t d _).mono (by decide)).andThen (setRecalOwed_touches _ d true) (by decide)
  · exact .refl _ s

theorem allParked_touches (s : State) : Touches [.chan, .ports] s s.allParked := by
  unfold State.allParked
  split
  · split
    · exact (setPartState_touches s _ _).mono (by decide)
    · split <;> [exact enterClock_touches s; exact .refl _ s]
  · exact .refl _ s

theorem bringupClaim_touches (s : State) (d : DieId) (op : ChannelOp) : Touches [.ports] s (s.bringupClaim d op) := by
  unfold State.bringupClaim
  split <;> [exact setChannelClaim_touches s d _; exact .refl _ s]

theorem claimForward_touches (s : State) (d : DieId) : Touches [.ports] s (s.claimForward d) := by
  unfold State.claimForward
  split <;> [exact setChannelClaim_touches s d _; exact .refl _ s]

theorem claimForwardNow_touches (s : State) : Touches [.ports] s s.claimForwardNow :=
  .forPresent (fun d t => by dsimp only; split <;> [exact claimForward_touches t d; exact .refl _ t]) s

theorem addFailed_touches (s : State) (d : DieId) : Touches [.chan] s (s.addFailed d) := by
  unfold State.addFailed
  split <;> [exact setChan_touches s _ (by rfl); exact .refl _ s]

theorem toOffAll_touches (s : State) :
    Touches [.chan, .ports] s (s.forPresent fun d t =>
      (t.setPort d ((t.port d).toOff t.activePeriod)).setChan
        { t.chan with shadow := t.chan.shadow.set d shadowUnknown }) :=
  .forPresent (fun d t => ((setPort_touches t d _).mono (by decide)).andThen (setChan_touches _ _ (by rfl))
      (by decide)) s

theorem abortBringup_touches (s : State) : Touches [.chan, .ports, .link] s s.abortBringup := by
  unfold State.abortBringup
  dsimp only
  split
  · exact ((((toOffAll_touches s).mono (by decide)).andThen (setChan_touches _ _ (by rfl)) (by decide)).andThen
      (setPartState_touches _ _ _) (by decide)).andThen (endProcedure_touches _ _ _) (by decide)
  · exact .refl _ s

theorem endBringup_touches (s : State) (d : DieId) :
    Touches [.chan, .ports, .link, .maint] s (s.endBringup d) := by
  have hdie : Touches [.chan, .ports, .link, .maint] s
      ((((s.setPort d { s.port d with state := .idle }).setBalance d 0).clearRecal d).setRecalOwed d false) :=
    ((((setPort_touches s d _).mono (by decide)).andThen (setBalance_touches _ d 0) (by decide)).andThen
      (clearRecal_touches _ d) (by decide)).andThen (setRecalOwed_touches _ d false) (by decide)
  unfold State.endBringup
  dsimp only
  split
  · exact ((hdie.andThen (becomeRunning_touches _) (by decide)).andThen (endProcedure_touches _ _ _)
        (by decide)).andThen (setMaint_touches _ _) (by decide)
  · exact hdie

theorem endSwitch_touches (s : State) : Touches [.chan, .link, .maint] s s.endSwitch := by
  unfold State.endSwitch
  split
  · refine Touches.andThen (Touches.andThen (.forPresent (fun d t => ?_) s) (becomeRunning_touches _) (by decide))
      (endProcedure_touches _ _ _) (by decide)
    exact (setBalance_touches t d 0).mono (by decide)
  · exact .refl _ s

theorem forwardSettled_touches (s : State) (d : DieId) (index : BitVec 4) (value : BitVec 16) :
    Touches [.chan, .link] s (s.forwardSettled d index value) := by
  unfold State.forwardSettled
  split
  next mask i v done tag suppressed _ =>
    split
    · have hmarked : Touches [.chan, .link] s
          (s.setChan { s.chan with procedure := some ⟨.dieSetting mask i v (done ||| dieBit d), tag, suppressed⟩ }) :=
        (setChan_touches s _ (by rfl)).mono (by decide)
      dsimp only
      split
      · exact hmarked.andThen (endProcedure_touches _ _ _) (by decide)
      · exact hmarked
    · exact .refl _ s
  · exact .refl _ s

theorem settled_touches (s : State) (d : DieId) (index : BitVec 4) (value : BitVec 16) :
    Touches [.chan, .ports, .link, .maint] s (s.settled d index value) := by
  unfold State.settled
  split
  · refine Touches.andThen ?_ (abortBringup_touches _) (by decide)
    split
    · exact (bringupClaim_touches s d _).mono (by decide)
    · exact endBringup_touches s d
  · split
    · exact (setChannelClaim_touches s d _).mono (by decide)
    · exact (endSwitch_touches s).mono (by decide)
  all_goals exact (forwardSettled_touches s d index value).mono (by decide)

/-! ### STOPPED, failure and loss -/

theorem stopReads_touches (s : State) : Touches [.ports, .reads, .link] s s.stopReads :=
  ((Touches.forDies (fun d t => (setPort_touches t d _).mono (by decide)) s).andThen (setReads_touches _ _)
      (by decide)).andThen
    (closeAll_touches _ _) (by decide)

theorem stopFlushes_touches (s : State) : Touches [.flushes, .link] s s.stopFlushes :=
  ((setFlushes_touches s _).mono (by decide)).andThen (closeAll_touches _ _) (by decide)

theorem stopClaims_touches (s : State) : Touches [.ports] s s.stopClaims :=
  .forDies (fun d t => by split <;> [exact .refl _ t; exact setChannelClaim_touches t d _]) s

/-- What an entry to STOPPED does from the part states that have one (R131). -/
def State.halts (s : State) (cause : StopCause) : State :=
  ((s.setChan { s.chan with partState := .stopped, phase := none, stopCause := some cause }).endProcedure .failed
    s.stopDetail).stopReads.stopFlushes.stopClaims

/-- From RUNNING, PARKING, WAKING and SWITCHING the part stops; in any other part state nothing changes (R131). -/
theorem enterStopped_eq (s : State) (cause : StopCause) :
    s.enterStopped cause =
      if s.chan.partState ∈ [PartState.running, .parking, .waking, .switching] then s.halts cause else s := by
  unfold State.enterStopped
  split <;> simp_all [State.halts]

theorem halts_touches (s : State) (cause : StopCause) :
    Touches [.chan, .link, .reads, .flushes, .ports] s (s.halts cause) :=
  (((((setChan_touches s _ (by rfl)).mono (by decide)).andThen (endProcedure_touches _ _ _) (by decide)).andThen
    (stopReads_touches _) (by decide)).andThen (stopFlushes_touches _) (by decide)).andThen (stopClaims_touches _)
        (by decide)

theorem enterStopped_touches (s : State) (cause : StopCause) :
    Touches [.chan, .link, .reads, .flushes, .ports] s (s.enterStopped cause) := by
  rw [enterStopped_eq]
  split <;> [exact halts_touches s cause; exact .refl _ s]

theorem failPort_touches (s : State) (d : DieId) (detail : Status) :
    Touches [.errs, .ports, .table, .chan, .link, .reads, .flushes] s (s.failPort d detail) := by
  unfold State.failPort
  dsimp only
  have hport (n : LogNote) (p : Port) : Touches [.errs, .ports, .table, .chan, .link, .reads, .flushes] s
      ((((s.logNote n).latch .dieFailed).setPort d p).revertDie d) :=
    (((noteAndLatch_touches s n _).mono (by decide)).andThen (setPort_touches _ d p) (by decide)).andThen
        (revertDie_touches _ d) (by decide)
  split
  · exact ((hport _ _).andThen (addFailed_touches _ d) (by decide)).andThen (abortBringup_touches _) (by decide)
  · exact (hport _ _).andThen (enterStopped_touches _ _) (by decide)

theorem markLost_touches (s : State) (line : LineAddr) : Touches [.reads] s (s.markLost line) := setReads_touches s _

theorem reportLoss_touches (s : State) (line : LineAddr) (wsn : Wsn) (cause : LossCause) :
    Touches [.errs, .reads, .chan, .link, .flushes, .ports] s (s.reportLoss line wsn cause) := by
  have hmark (t : State) (ht : Touches [.errs] s t) (n : LogNote) :
      Touches [.errs, .reads, .chan, .link, .flushes, .ports] s (((t.logNote n).latch .writeLost).markLost line) :=
    ((ht.mono (by decide)).andThen (noteAndLatch_touches t n _) (by decide)).andThen (markLost_touches _ line)
        (by decide)
  unfold State.reportLoss
  dsimp only
  split
  · refine Touches.andThen (Touches.andThen (hmark _ ?_ _) (noteAndLatch_touches _ _ _) (by decide))
        (enterStopped_touches _ _) (by decide)
    split <;> [exact .refl _ s; exact setErrs_touches s _]
  · refine hmark _ ?_ _
    split <;> [exact .refl _ s; exact setErrs_touches s _]

theorem lose_touches (s : State) (i : Fin 32) (cause : LossCause) :
    Touches [.errs, .reads, .chan, .link, .flushes, .ports, .table] s (s.lose i cause) := by
  unfold State.lose
  dsimp only
  refine Touches.andThen ?_ (leave_touches _ i true) (by decide)
  split
  · exact (reportLoss_touches s _ _ _).mono (by decide)
  · exact .refl _ s

theorem retryOrLose_touches (s : State) (d : DieId) (i : Fin 32) :
    Touches [.errs, .reads, .chan, .link, .flushes, .ports, .table] s (s.retryOrLose d i) := by
  unfold State.retryOrLose
  dsimp only
  split
  · exact ((setEntry_touches s i _).mono (by decide)).andThen (setDrainClaim_touches _ d _) (by decide)
  · exact lose_touches s i _

theorem takeWriteStep_touches (s : State) (d : DieId) (cl : Claimant) (stored : Bool) :
    Touches [.errs, .reads, .chan, .link, .flushes, .ports, .table] s (s.takeWriteStep d cl stored) := by
  unfold State.takeWriteStep
  split
  · split
    · exact (leave_touches s _ false).mono (by decide)
    · exact retryOrLose_touches s d _
  all_goals exact .refl _ s

theorem dropRead_touches (s : State) (r : ReadRecord) : Touches [.reads, .ports] s (s.dropRead r) :=
  ((setReads_touches s _).mono (by decide)).andThen (setPort_touches _ _ _) (by decide)

theorem answerRead_touches (s : State) (r : ReadRecord) (data : Option LineData) :
    Touches [.link, .reads, .ports, .errs] s (s.answerRead r data) := by
  unfold State.answerRead
  dsimp only
  split
  · exact ((close_touches s _).mono (by decide)).andThen (dropRead_touches _ r) (by decide)
  · exact (((close_touches s _).mono (by decide)).andThen (noteAndLatch_touches _ _ _) (by decide)).andThen
        (dropRead_touches _ r) (by decide)

theorem takeLineRead_touches (s : State) (d : DieId) (cl : Claimant) (data : Option LineData) :
    Touches [.errs, .reads, .chan, .link, .flushes, .ports, .table] s (s.takeLineRead d cl data) := by
  unfold State.takeLineRead
  split
  · split
    · exact (answerRead_touches s _ data).mono (by decide)
    · exact .refl _ s
  · split
    · exact (fill_touches s d _ _).mono (by decide)
    · exact lose_touches s _ _
  all_goals exact .refl _ s

/-! ### Events -/

theorem takeBand_touches (s : State) (d : DieId) (band : Band) : Touches [.maint, .errs] s (s.takeBand d band) := by
  have hcare (c : DieCare) : Touches [.maint, .errs] s (s.setCare d c) := (setCare_touches s d c).mono (by decide)
  unfold State.takeBand
  dsimp only
  split <;> [exact (hcare _).andThen (noteAndLatch_touches _ _ _) (by decide); exact hcare _]

theorem longRecalDone_touches (s : State) (d : DieId) :
    Touches [.chan, .ports, .link, .maint] s (State.longRecalDone d s) := by
  have hcleared : Touches [.chan, .ports, .link, .maint] s ((s.clearRecal d).setRecalOwed d false) :=
    ((clearRecal_touches s d).mono (by decide)).andThen (setRecalOwed_touches _ d false) (by decide)
  unfold State.longRecalDone
  dsimp only
  split
  · exact (hcleared.andThen (bringupClaim_touches _ d _) (by decide)).andThen (abortBringup_touches _) (by decide)
  · exact hcleared.andThen (endRecalPhase_touches _) (by decide)
  all_goals exact hcleared

theorem parkEnterDone_touches (s : State) (d : DieId) :
    Touches [.chan, .ports, .maint] s (State.parkEnterDone d s) :=
  (((setPort_touches s d _).mono (by decide)).andThen (setBalance_touches _ d 0) (by decide)).andThen
      (allParked_touches _) (by decide)

theorem parkExitDone_touches (s : State) (d : DieId) (mode : WakeMode) :
    Touches [.chan, .ports, .maint] s (State.parkExitDone d mode s) :=
  ((((setBalance_touches s d _).mono (by decide)).andThen (claimForward_touches _ d) (by decide)).andThen
    (endWake_touches _) (by decide)).andThen (endWakePhase_touches _) (by decide)

theorem settleExpired_touches (s : State) (d : DieId) :
    Touches [.chan, .ports, .link, .maint] s (s.settleExpired d) := by
  have hport : Touches [.chan, .ports, .link, .maint] s (s.setPort d (s.port d).afterSettle) :=
    (setPort_touches s d _).mono (by decide)
  unfold State.settleExpired
  dsimp only
  split
  · exact (hport.andThen (recordShadow_touches _ d _ _) (by decide)).andThen (settled_touches _ d _ _) (by decide)
  · exact hport

theorem linkEmptied_touches (s : State) : Touches [.link, .ports, .reads, .flushes, .chan] s s.linkEmptied :=
  (((((setLink_touches s _).mono (by decide)).andThen
    (Touches.forDies (fun d t => setPort_touches t d { t.port d with readClaims := [] }) _) (by decide)).andThen
    (setReads_touches _ _) (by decide)).andThen (setFlushes_touches _ _) (by decide)).andThen
        (setChan_touches _ _ (by rfl)) (by decide)

theorem refreshDebited_touches (s : State) (d : DieId) : Touches [.maint, .errs] s (s.refreshDebited d) := by
  have hcare (c : DieCare) : Touches [.maint, .errs] s (s.setCare d c) := (setCare_touches s d c).mono (by decide)
  unfold State.refreshDebited
  dsimp only
  split <;> [exact (hcare _).andThen (logNote_touches _ _) (by decide); exact hcare _]

theorem polled_touches (s : State) : Touches [.maint] s s.polled :=
  (setMaint_touches s _).trans
    (.forDies (fun d t => by split <;> [exact setCare_touches t d _; exact .refl _ t]) _)

/-- No event's own effect touches the scheduler's flags and timer, the settings, the profiles or the queue of
commands. -/
theorem event_touches {s u : State} {touched : DieId → Bool} (h : Event s u touched) :
    Touches [.link, .table, .reads, .flushes, .ports, .maint, .chan, .errs] s u := by
  have hslot (d : DieId) : Touches [.link, .table, .reads, .flushes, .ports, .maint, .chan, .errs] s (s.emptySlot d) :=
    (emptySlot_touches s d).mono (by decide)
  cases h with
  | linkReset => exact (linkEmptied_touches s).mono (by decide)
  | park =>
      exact ((setChan_touches s _ (by rfl)).mono (by decide)).andThen (claimAll_touches _ fun _ => .parkEnter)
          (by decide)
  | relock => exact ((setChan_touches s _ (by rfl)).mono (by decide)).andThen (beginPhase_touches _ _ _) (by decide)
  | settle d => exact (settleExpired_touches s d).mono (by decide)
  | fail d detail => exact (failPort_touches s d detail).mono (by decide)
  | deadline r =>
    exact (((close_touches s _).mono (by decide)).andThen (logNote_touches _ _) (by decide)).andThen
        (dropRead_touches _ r) (by decide)
  | refreshDue d => exact (refreshDebited_touches s d).mono (by decide)
  | recalDue d => exact (setCare_touches s d _).mono (by decide)
  | poll => exact (polled_touches s).mono (by decide)
  | lineRead d => exact (hslot d).andThen (takeLineRead_touches _ d _ _) (by decide)
  | lineWrite d => exact (hslot d).andThen (takeWriteStep_touches _ d _ _) (by decide)
  | maskedWrite d => exact (hslot d).andThen (takeWriteStep_touches _ d _ _) (by decide)
  | refresh d => exact (hslot d).andThen (setBalance_touches _ d _) (by decide)
  | shortRecal d => exact (hslot d).andThen (clearRecal_touches _ d) (by decide)
  | longRecal d => exact (hslot d).andThen (longRecalDone_touches _ d) (by decide)
  | tempRead d => exact (hslot d).andThen (takeBand_touches _ d _) (by decide)
  | set d => exact (hslot d).andThen (setPort_touches _ d _) (by decide)
  | dieReset d =>
      exact ((hslot d).andThen (bringupClaim_touches _ d _) (by decide)).andThen (abortBringup_touches _) (by decide)
  | parkEnter d => exact (hslot d).andThen (parkEnterDone_touches _ d) (by decide)
  | parkExit d mode => exact (hslot d).andThen (parkExitDone_touches _ d mode) (by decide)

end Sys2Proof.Machine
end

section
/-! SUPPORT. The machine: a step, the well-formed commands, power-on, and the moves of the request link (R134, R151 to
R154). -/

namespace Sys2Proof.Machine

/-! ### Blocks touched by a service -/

theorem Internal.touches {s t : State} (h : Internal s t) : Touches [.table, .drain, .reads, .ports, .maint] s t := by
  have hchan := h.chan
  exact ⟨h.pending, fun _ => h.link, by simp, by simp, by simp, fun _ => h.flushes, by simp, by simp, fun _ => hchan,
    fun _ => by rw [hchan]; exact ⟨rfl, rfl, rfl⟩, fun _ => h.errs⟩

theorem finish_touches (s before : State) (touched : DieId → Bool) :
    Touches [.table, .drain, .reads, .ports, .maint] s (s.finish before touched) :=
  (finish_internal s before touched).touches

theorem relevel_touches (s : State) : Touches [.table, .drain, .reads, .ports, .maint] s s.relevel :=
  (relevel_internal s).touches

theorem arrive_touches (s : State) : Touches [.table, .drain, .reads, .ports, .maint, .chan] s s.arrive :=
  (((setDrain_touches s _).mono (by decide)).andThen (setChan_touches _ _ (by rfl)) (by decide)).andThen
      (relevel_touches _) (by decide)

/-- Every block of the part. -/
def allBlocks : List Block := [.link, .table, .drain, .reads, .flushes, .ports, .maint, .chan, .settings, .errs]

theorem Touches.all {bs : List Block} {s t : State} (h : Touches bs s t) : Touches allBlocks s t :=
  h.mono fun b _ => by cases b <;> decide

theorem setChan_touchesAll (s : State) (c : Channel) : Touches allBlocks s (s.setChan c) := by
  constructor <;> simp [allBlocks]

theorem setClocks_touches (s : State) (period : Nat) : Touches [.ports] s (s.setClocks period) :=
  .forDies (fun d t => setPort_touches t d _) s

theorem accept_touches {bad : State → Nat → Bool} {configOnly : Bool} {accept : Nat → State → State}
    (k : Setting bad configOnly accept) (v : Nat) (s : State) : Touches allBlocks s (accept v s) := by
  have hset (c : Settings) : Touches allBlocks s (s.setSettings c) := setChan_touchesAll s _
  cases k with
  | highMark => exact (hset _).trans (finish_touches _ _ _).all
  | lowMark => exact (hset _).trans (finish_touches _ _ _).all
  | pullIn => exact (hset _).trans (finish_touches _ _ _).all
  | idleDrainTime => exact ((hset _).trans (setDrain_touches _ _).all).trans (relevel_touches _).all
  | parkDelay => exact (hset _).trans (setChan_touches _ _ (by rfl)).all
  | dieCount => exact (hset _).trans (setClocks_touches _ _).all
  | granularity => exact (hset _).trans (setChan_touchesAll _ _)
  | tempPoll => exact (hset _).trans (setMaint_touches _ _).all
  | checkPolicy => exact hset _
  | readWaitLimit => exact hset _
  | wakeMode => exact hset _
  | maskedWrites => exact hset _
  | dieLinesLog2 => exact hset _
  | drainRetry => exact hset _
  | dieOpLimit => exact hset _

/-! ### The queue of commands -/

theorem writeField_touches (s : State) (p : ProfileId) (n : Fin 16) (v : BitVec 16) :
    Touches allBlocks s (s.writeField p n v) := by
  have hset (c : Channel) : Touches allBlocks s (s.setChan c) := setChan_touchesAll s c
  unfold State.writeField
  dsimp only
  split
  · exact (hset _).trans (setClocks_touches _ _).all
  · exact hset _

theorem beginProcedure_touches (s : State) (kind : ProcedureKind) (tag : Tag) :
    Touches [.chan, .link] s (s.beginProcedure kind tag) :=
  ((setChan_touches s _ (by rfl)).mono (by decide)).andThen (joinTag_touches _ tag) (by decide)

/-- Every block but the settings and profiles. -/
def unsetBlocks : List Block := [.link, .table, .drain, .reads, .flushes, .ports, .maint, .chan, .errs]

theorem Touches.unset {bs : List Block} {s t : State} (h : Touches bs s t) (hs : bs ⊆ unsetBlocks) :
    Touches unsetBlocks s t := h.mono hs

/-- Only a SETUP of a part setting, of a profile field or of PROFILE_COMMIT touches settings and profiles. -/
theorem service_settings {s t : State} (h : Service s t) :
    Touches unsetBlocks s t ∨
      (∃ (a : Answer) (v : Nat) (bad : State → Nat → Bool) (configOnly : Bool) (accept : Nat → State → State),
        Setting bad configOnly accept ∧ bad s v = false ∧ (configOnly = true → s.chan.partState = .config) ∧
          t = (accept v s).queue a) ∨
      (∃ a p n v, t = (s.writeField p n v).queue a) ∨
      ∃ a p, (s.chan.profile p).sound s.chan.settings.granularity = true ∧
        t = (s.setChan (s.chan.setProfile p { s.chan.profile p with valid := true })).queue a := by
  cases h with
  | setting a v k good config => exact .inr (.inl ⟨a, v, _, _, _, k, good, config, rfl⟩)
  | field a p n v => exact .inr (.inr (.inl ⟨a, p, n, v, rfl⟩))
  | commit a p sound => exact .inr (.inr (.inr ⟨a, p, sound, rfl⟩))
  | answer a => exact .inl ((queue_touches s a).unset (by decide))
  | read h =>
    have hjoin : Touches unsetBlocks s (s.joinReads (s.readRecord h)) :=
      (((setReads_touches s _).unset (by decide)).andThen (setPort_touches _ _ _) (by decide)).andThen
          (joinTag_touches _ _) (by decide)
    exact .inl ((hjoin.andThen (wake_touches _) (by decide)).andThen (finish_touches _ _ _) (by decide))
  | writeRests a =>
    exact .inl ((((queue_touches s a).unset (by decide)).andThen (wake_touches _) (by decide)).andThen
        (finish_touches _ _ _) (by decide))
  | writePosts a line m data i e =>
    exact .inl (((((post_touches s i e line m).unset (by decide)).andThen (queue_touches _ a) (by decide)).andThen
        (wake_touches _) (by decide)).andThen
      (finish_touches _ _ _) (by decide))
  | flush tag =>
    exact .inl ((((setFlushes_touches s _).unset (by decide)).andThen (joinTag_touches _ tag) (by decide)).andThen
        (finish_touches _ _ _) (by decide))
  | start tag =>
    exact .inl (((((beginProcedure_touches s _ tag).unset (by decide)).andThen (setPartState_touches _ _ _)
        (by decide)).andThen
      (claimAll_touches _ fun _ => .dieReset) (by decide)).andThen (finish_touches _ _ _) (by decide))
  | rateSwitch target tag =>
    have hbegun : Touches unsetBlocks s ((s.beginProcedure (.rateSwitch target) tag).setPartState .switching
        (some .quiesce)) := ((beginProcedure_touches s _ tag).unset (by decide)).andThen (setPartState_touches _ _ _)
            (by decide)
    unfold State.beginSwitch
    refine .inl (Touches.andThen ?_ (finish_touches _ _ _) (by decide))
    split
    · exact hbegun.andThen (enterClock_touches _) (by decide)
    · exact hbegun
  | clearErrors a mask => exact .inl (((setErrs_touches s _).unset (by decide)).andThen (queue_touches _ a) (by decide))
  | restart a =>
    have hrestarted :
        Touches unsetBlocks s s.restarted := by constructor <;> simp [unsetBlocks, State.restarted, Channel.restarted]
    exact .inl (hrestarted.andThen (queue_touches _ a) (by decide))
  | forward h =>
    unfold State.beginForward
    exact .inl (((((beginProcedure_touches s _ h.tag).unset (by decide)).andThen (wake_touches _) (by decide)).andThen
      (claimForwardNow_touches _) (by decide)).andThen (finish_touches _ _ _) (by decide))
  | log a => exact .inl (((setErrs_touches s _).unset (by decide)).andThen (queue_touches _ a) (by decide))

theorem service_pending {s t : State} (h : Service s t) : t.pending = s.pending := by
  obtain h | ⟨a, v, bad, configOnly, accept, k, -, -, rfl⟩ | ⟨a, p, n, v, rfl⟩ | ⟨a, p, -, rfl⟩ := service_settings h
  · exact h.pending
  · exact (accept_touches k v s).pending
  · exact (writeField_touches s p n v).pending
  · rfl

theorem eventStep_pending {s t : State} (h : EventStep s t) : t.pending = s.pending := by
  cases h with
  | rests => rfl
  | powersOn => rfl
  | delaysParking => rfl
  | idles => exact (relevel_touches _).pending
  | closes event => exact (finish_touches _ _ _).pending.trans (event_touches event).pending

/-- No command touches the queue of commands. -/
theorem pending_execKeeps (l : List Instr) : ExecKeeps fun s => s.pending = l where
  held _ _ h := h
  sent _ h := h
  headerFault _ h := h
  arrive s h := (arrive_touches s).pending.trans h
  dataFault _ _ h := h
  service _ _ _ k h := (service_pending k).trans h
  event _ _ k h := (eventStep_pending k).trans h

/-- No event faults or is refused. -/
theorem exec_event_next {c : Instr} (hr : requestOf c = none) (s : State) : ∃ t, exec c s = .next t := by
  cases c <;> cases hr <;>
    simp only [exec, execPowerOn, execLinkReset, execAnswerSent, execIdleDrainTimerExpiry, execParkDelayTimerExpiry,
      execRelockTimerExpiry, execSettleTimerExpiry, execOpLimitExpiry, execDeadlineExpiry, execRefreshDueEvent,
      execRecalDueEvent, execThermalPollExpiry, execLineReadCompletion, execLineWriteCompletion,
      execMaskedWriteCompletion, execRefreshCompletion, execShortRecalCompletion, execLongRecalCompletion,
      execTempReadCompletion, execSetCompletion, execDieResetCompletion, execParkEnterCompletion,
      execParkExitCompletion]
  case powerOn.refl => exact ⟨_, rfl⟩
  case linkReset.refl => exact ⟨_, rfl⟩
  all_goals split <;> exact ⟨_, rfl⟩

theorem exec_next {c : Instr} (hw : c.wf = true) (s : State) : ∃ t, exec c s = .next t := by
  cases hr : requestOf c with
  | some r => exact ⟨_, exec_message hw hr s⟩
  | none => exact exec_event_next hr s

/-- Settles O2: a message is delivered and an event has one of its effects, neither of which touches the queue; a term
whose code is defined after all is refused. -/
theorem everyCommandCompletes : Obligations.EveryCommandCompletes := by
  intro c s
  refine ⟨fun hw => ?_, fun hw => exec_illFormed hw s⟩
  obtain ⟨t, ht⟩ := exec_next hw s
  exact ⟨t, ht, (pending_execKeeps s.pending).exec ht rfl⟩

/-- Settles O1: the two arms of the step. -/
theorem stepTakesFrontCommand : Obligations.StepTakesFrontCommand :=
  ⟨fun _ _ _ => rfl, fun s hs => by rw [step, hs]⟩

/-! ### Power-on -/

theorem vector_replicate_getElem {α : Type} {n : Nat} (a : α) (i : Fin n) : (Vector.replicate n a)[i] = a :=
  Vector.getElem_replicate i.isLt

/-- The entries, dies and shadows after power-on are each the same in every place. -/
theorem reset_entry (i : Fin 32) : State.reset.entry i = Entry.freed := vector_replicate_getElem _ i

theorem reset_care (d : DieId) : State.reset.care d = DieCare.atReset := vector_replicate_getElem _ d

theorem reset_port (d : DieId) : State.reset.port d = Port.atReset (if d = 0 then some 2500 else none) := by
  fin_cases d <;> rfl

theorem reset_shadow (d : DieId) (n : Fin 16) :
    State.reset.chan.shadow[d][n] = { value := 0, known := false } := by
  have hdie : State.reset.chan.shadow[d] = shadowUnknown := vector_replicate_getElem _ d
  rw [hdie]
  exact vector_replicate_getElem _ n

/-- Settles O3: POWER_ON leaves the reset state with its queue of commands. -/
theorem powerOnGivesResetValues : Obligations.PowerOnGivesResetValues := by
  intro s
  refine ⟨s.poweredOn, rfl, rfl, rfl, rfl, reset_entry, rfl, rfl, rfl, reset_port, reset_care, rfl, rfl, rfl, rfl, rfl,
    rfl, rfl, ?recalOwed, rfl, rfl, rfl, ?profileB, rfl, reset_shadow, rfl, rfl⟩
  case recalOwed => exact vector_replicate_getElem _
  case profileB => exact vector_replicate_getElem _

/-- Settles O4: each invariant is a closed fact about the reset state, its four ports and its 32 FREE entries. -/
theorem resetSatisfiesInvariants : Obligations.ResetSatisfiesInvariants := by
  have hfree (i : Fin 32) : (State.reset.entry i).state = .free := by rw [reset_entry]; rfl
  have hline (i : Fin 32) : (State.reset.entry i).line = none := by rw [reset_entry]; rfl
  have hgen (i : Fin 32) : (State.reset.entry i).gen = .first := by rw [reset_entry]; rfl
  have hslot (d : DieId) : (State.reset.port d).slot = none := by rw [reset_port]; rfl
  have hclaim (d : DieId) : (State.reset.port d).drainClaim = none := by rw [reset_port]; rfl
  have hoff (d : DieId) : (State.reset.port d).state = .off := by rw [reset_port]; rfl
  have hsettle (d : DieId) : (State.reset.port d).settle = none := by rw [reset_port]; rfl
  have hlist : State.reset.reads.list = [] := rfl
  have hnone (i : Fin 32) : State.reset.eligible i = false := by simp [State.eligible, hfree]
  refine ⟨rfl, ?balances, ?lists, ?settings, ?profiles, ?level, ?ports, ?table, ?wsns, ?tags, ?hysteresis, ?reads,
    ?drains, fun d => ⟨?care, ?timers, ?parkEnter⟩⟩
  case balances => intro d; simp [reset_care, DieCare.atReset]
  case lists => decide
  case settings => decide
  case profiles => intro p; cases p <;> decide
  case level => decide +kernel
  case ports => intro d; refine ⟨?_, ?_, ?_⟩ <;> simp [hslot, hoff, hsettle]
  case table => refine ⟨?_, ?_, ?_, ?_, ?_⟩ <;> simp [hfree, hline, hgen]
  case wsns => intro i hi; exact absurd (hfree i) hi
  case tags => decide
  case hysteresis => decide +kernel
  case reads =>
    refine ⟨fun d => ?_, ?_, ?_, ?_, ?_, ?_⟩
    · rw [reset_port]; rfl
    all_goals simp [hlist, hslot]
  case drains => refine ⟨?_, ?_, ?_, ?_, ?_, ?_⟩ <;> simp [hfree, hslot, hclaim, OldestEligible, hnone]
  case care => revert d; decide +kernel
  case timers => revert d; decide +kernel
  case parkEnter => intro hp; cases hp

/-! ### The request link -/

/-- Settles O8: without a place, or behind other messages, the message joins the held ones. -/
theorem messageWaitsForPlace : Obligations.MessageWaitsForPlace := by
  intro c s r hw hr hwait
  rw [exec_message hw hr, deliver_waits _ _ (hwait.imp_right fun h => ?_)]
  · rfl
  · exact Bool.eq_false_iff.2 fun hp => absurd ((hasPlace_iff s).1 hp) (Nat.not_lt.2 h)

section
variable (e : Errors) (r : LogRecord) (l : Latch)

@[simp] theorem setLatch_log : (e.setLatch l).log = e.log := rfl
@[simp] theorem setLatch_poison : (e.setLatch l).poison = e.poison := rfl
@[simp] theorem setLatch_overwrite : (e.setLatch l).overwrite = e.overwrite := rfl
@[simp] theorem setLatch_nextRecord : (e.setLatch l).nextRecord = e.nextRecord := rfl
@[simp] theorem setLatch_latches : (e.setLatch l).latches = e.latches ||| BitVec.twoPow 8 l.position := rfl
theorem setLatch_alert : (e.setLatch l).alert = ((e.setLatch l).latches != 0) := rfl

/-- A record joins the Log, which loses its oldest when it is full (R165). -/
theorem append_log : (e.append r).log = (if 16 ≤ e.log.length then e.log.tail else e.log) ++ [r] := by
  unfold Errors.append
  split <;> simp_all [Config.logRecords]

@[simp] theorem append_poison : (e.append r).poison = e.poison := by
  unfold Errors.append
  split <;> rfl

@[simp] theorem append_nextRecord : (e.append r).nextRecord = e.nextRecord + 1 := by
  unfold Errors.append
  split <;> rfl

theorem append_overwrite : (e.append r).overwrite = (e.overwrite || decide (16 ≤ e.log.length)) := by
  unfold Errors.append
  split <;> simp_all [Config.logRecords]

/-- A full Log sets the LOG_OVERWRITTEN latch, in position 7 (R165). -/
theorem append_latches : (e.append r).latches = e.latches ||| (if 16 ≤ e.log.length then 128 else 0) := by
  unfold Errors.append
  split
  next h => rw [if_pos (show 16 ≤ e.log.length from h)]; rfl
  next h => rw [if_neg (show ¬ 16 ≤ e.log.length from h)]; exact (BitVec.or_zero).symm

end

/-- A latch that is set keeps ALERT asserted (R160). -/
theorem setLatch_alert_true (e : Errors) (l : Latch) : (e.setLatch l).alert = true := by
  have hbit : (e.setLatch l).latches.getLsbD l.position = true := by
    rw [setLatch_latches, BitVec.getLsbD_or, BitVec.getLsbD_twoPow]
    cases l <;> simp [Latch.position]
  rw [setLatch_alert, bne_iff_ne]
  intro hzero
  rw [hzero] at hbit
  simp at hbit

theorem headerFault_errs (s : State) :
    s.headerFault.errs =
      (s.errs.append
        { number := s.errs.nextRecord, kind := .headerCheck, part := s.chan.partState, detail := 0, die := none
          line := none, tag := none, wsn := none }).setLatch .headerCheck := rfl

/-- Settles O7: the Intake's first check fails, so that the fault is recorded and latched and nothing else happens. -/
theorem headerFaultDropsMessage : Obligations.HeaderFaultDropsMessage := by
  intro c s r hw hr hheld hplace hcheck
  have hok : r.headerOk = false := Bool.eq_false_iff.2 fun h => hcheck ((headerOk_iff r).1 h)
  refine ⟨s.headerFault, ?_, rfl, ?log, ?nextRecord, ?poison, ?overwrite, ?latches, ?alert⟩
  · rw [exec_message hw hr, deliver_taken _ _ hheld hplace, intake_fault _ hok]
  all_goals rw [headerFault_errs]
  case log => rw [setLatch_log, append_log]
  case nextRecord => rw [setLatch_nextRecord, append_nextRecord]
  case poison => rw [setLatch_poison, append_poison]
  case overwrite => rw [setLatch_overwrite, append_overwrite]
  case latches =>
    rw [setLatch_latches, append_latches, BitVec.or_assoc, BitVec.or_assoc]
    exact congrArg (s.errs.latches ||| ·) (BitVec.or_comm _ _)
  case alert => exact setLatch_alert_true _ _

/-! ### Refusals -/

/-- An accepted message is handed to its block after its arrival (R151 step 8). -/
theorem exec_accepted {c : Instr} {s : State} {r : Request} (hw : c.wf = true) (hr : requestOf c = some r)
    (h : Accepted s r) : exec c s = .next (served c s.arrive) := by
  rw [exec_message hw hr, accepted_deliver _ _ h]

theorem exec_taken {c : Instr} {s : State} {r : Request} (hw : c.wf = true) (hr : requestOf c = some r)
    (h : Taken s r) : exec c s = .next (s.intake r (served c)) := by
  obtain ⟨hheld, hplace, -⟩ := h
  rw [exec_message hw hr, deliver_taken _ _ hheld hplace]

/-- A refused message is answered after its arrival. -/
theorem refused_completes {c : Instr} {s : State} {r : Request} {st : Status} (hw : c.wf = true)
    (hr : requestOf c = some r) (h : Taken s r) (hst : s.refusal r = some st) (hd : st ≠ .dataCheck) :
    CompletesAs c s (s.answered (Answer.plain r.header.tag st 0)) :=
  ⟨_, (exec_taken hw hr h).trans (congrArg _ (intake_refused _ h.2.2 hst hd)), arrive_reply_internal s _ st⟩

theorem dataFault_internal {s t : State} (h : Internal s t) (r : Request) :
    Internal (s.dataFault r) (t.dataFault r) := by
  have herrs : (t.dataFault r).errs = (s.dataFault r).errs := by
    simp only [State.dataFault, State.latch, State.logNote, State.setErrs_errs, h.errs, h.chan]
  exact (congrArg (Internal (s.setErrs (s.dataFault r).errs)) (congrArg t.setErrs herrs)).mpr (h.setErrs_congr _)

theorem halted_iff (s : State) :
    s.halted = true ↔ s.chan.settings.checkPolicy = 1 ∧ s.errs.latches.getLsbD 0 = true := by
  rw [State.halted, Bool.and_eq_true, beq_iff_eq]
  rfl

theorem outOfRange_iff (s : State) (line : Option LineAddr) :
    s.outOfRange line = true ↔
      ∃ l, line = some l ∧ s.chan.settings.dieCount * 2 ^ s.chan.settings.dieLinesLog2 ≤ l.toNat := by
  cases line with
  | none => simp [State.outOfRange]
  | some l =>
    refine ⟨fun h => ⟨l, rfl, of_decide_eq_true h⟩, fun ⟨m, hm, hl⟩ => ?_⟩
    exact decide_eq_true ((Option.some.inj hm) ▸ hl)

/-- Settles O9: the clauses follow the order in which the model's own test runs through the checks. -/
theorem refusalsFollowIntakeOrder : Obligations.RefusalsFollowIntakeOrder := by
  intro c s r hw hr ht refused halted
  have refuse {st : Status} (hst : s.refusal r = some st) (hd : st ≠ .dataCheck) : refused st :=
    refused_completes hw hr ht hst hd
  have hhalted : (s.halted && !r.exempt) = true ↔ halted := by
    rw [Bool.and_eq_true, halted_iff, Bool.not_eq_true', and_assoc]
  split_ifs with hm hh htag hready hstop hrange hdata
  case pos => exact refuse (if_pos hm) (by decide)
  all_goals rw [Bool.not_eq_true] at hm
  case pos => exact refuse (by simp [State.refusal, hm, hhalted.2 hh]) (by decide)
  all_goals have hh' : (s.halted && !r.exempt) = false := Bool.eq_false_iff.2 (mt hhalted.1 hh)
  case pos => exact refuse (by simp [State.refusal, hm, hh', htag]) (by decide)
  case pos =>
    obtain ⟨hmem, hconfig | hbringup⟩ := hready
    · exact refuse (by simp [State.refusal, hm, hh', htag, hmem, State.stateRefusal, hconfig]) (by decide)
    · exact refuse (by simp [State.refusal, hm, hh', htag, hmem, State.stateRefusal, hbringup]) (by decide)
  case pos =>
    obtain ⟨hmem, hstopped⟩ := hstop
    exact refuse (by simp [State.refusal, hm, hh', htag, hmem, State.stateRefusal, hstopped]) (by decide)
  all_goals
    have hstate : (if r.memory = true then s.stateRefusal else none) = none := by
      split
      next hmem =>
        unfold State.stateRefusal
        split <;> simp_all
      · rfl
  case pos =>
    exact refuse (by simp [State.refusal, hm, hh', htag, hstate, (outOfRange_iff s r.line).2 hrange]) (by decide)
  all_goals have hrange' : s.outOfRange r.line = false := Bool.eq_false_iff.2 (mt (outOfRange_iff s r.line).1 hrange)
  case pos =>
    have hst : s.refusal r = some .dataCheck := by
      simp [State.refusal, hm, hh', htag, hstate, hrange', hdata]
    refine ⟨_, (exec_taken hw hr ht).trans (congrArg _ (intake_dataFault _ ht.2.2 hst)), ?_⟩
    have harrive := dataFault_internal (arrive_internal s) r
    have hlink : (s.arrive.dataFault r).link = s.link := (arrive_internal s).link
    unfold State.reply State.queue
    rw [hlink]
    exact harrive.setLink_congr _
  case neg =>
    obtain ⟨hheld, hplace, hok⟩ := ht
    exact ⟨hheld, hplace, hok, by simp_all [State.refusal]⟩

/-! ### Malformed messages -/

section
variable (h : Header)

/-- The bits that are reserved in every kind. -/
theorem rsvdZero_iff : rsvdZero h = true ↔
    h.kindRsvd = 0 ∧ h.tagRsvd = 0 ∧ h.lineRsvd = 0 ∧ h.beatRsvd = 0 ∧ h.dieMaskRsvd = 0 ∧ h.tailRsvd = 0 := by
  simp [rsvdZero, and_assoc]

theorem beatFieldsZero_iff : beatFieldsZero h = true ↔ h.startBeat = 0 ∧ h.half = false ∧ h.pairwise = false := by
  simp [beatFieldsZero, and_assoc]

theorem readMalformed_iff (byte7 : Byte) : readMalformed byte7 h = false ↔
    rsvdZero h = true ∧ byte7 = 0 ∧ h.value = 0 ∧ h.dieMask = 0 := by
  simp [readMalformed, and_assoc]

theorem writeMalformed_iff (byte7 : Byte) : writeMalformed byte7 h = false ↔
    rsvdZero h = true ∧ byte7 = 0 ∧ h.value = 0 ∧ h.dieMask = 0 ∧ beatFieldsZero h = true := by
  simp [writeMalformed, and_assoc]

theorem flushMalformed_iff (byte7 : Byte) : flushMalformed byte7 h = false ↔
    rsvdZero h = true ∧ byte7 = 0 ∧ h.value = 0 ∧ h.dieMask = 0 ∧ beatFieldsZero h = true ∧ h.line = 0 := by
  simp [flushMalformed, and_assoc]

theorem setupMalformed_iff (limit : Nat) : setupMalformed limit h = false ↔
    rsvdZero h = true ∧ h.dieMask = 0 ∧ beatFieldsZero h = true ∧ h.line = 0 ∧ h.value.toNat ≤ limit := by
  rw [setupMalformed, Bool.not_eq_false', Bool.and_eq_true, Bool.and_eq_true, Bool.and_eq_true, Bool.and_eq_true,
    decide_eq_true_iff, beq_iff_eq, beq_iff_eq]
  tauto

theorem dieSettingMalformed_iff : dieSettingMalformed h = false ↔
    rsvdZero h = true ∧ beatFieldsZero h = true ∧ h.line = 0 ∧ h.value.toNat < 2 ^ 24 := by
  rw [dieSettingMalformed, Bool.not_eq_false', Bool.and_eq_true, Bool.and_eq_true, Bool.and_eq_true,
    decide_eq_true_iff, beq_iff_eq]
  tauto

theorem value_le_anyValue : h.value.toNat ≤ anyValue := Nat.le_pred_of_lt h.value.isLt

theorem value_le_zero_iff : h.value.toNat ≤ 0 ↔ h.value = 0 := by
  rw [Nat.le_zero, ← BitVec.toNat_inj]
  rfl

end

/-- Settles O10: the test of each kind is a conjunction of the fields that the kind does not use. -/
theorem malformedFormsOfEachKind : Obligations.MalformedFormsOfEachKind := by
  intro byte7 h p rsvd noBeats
  have hr : rsvdZero h = true ↔ rsvd := rsvdZero_iff h
  have hb : beatFieldsZero h = true ↔ noBeats := beatFieldsZero_iff h
  refine ⟨?read, ?write, ?flush, fun code => ?setup, fun c r hc hq => ?action, fun r hq => ?clearErrors,
    fun r hq => ?dieSetting, fun c r limit hc hq => ?query⟩
  case read => exact (readMalformed_iff h byte7).trans (by rw [hr])
  case write => exact (writeMalformed_iff h byte7).trans (by rw [hr, hb])
  case flush => exact (flushMalformed_iff h byte7).trans (by rw [hr, hb])
  case setup => exact (setupMalformed_iff h anyValue).trans (by simp only [hr, hb, value_le_anyValue, and_true])
  case action =>
    have hz : setupMalformed 0 h = false ↔ rsvd ∧ h.dieMask = 0 ∧ noBeats ∧ h.line = 0 ∧ h.value = 0 :=
      (setupMalformed_iff h 0).trans (by rw [hr, hb, value_le_zero_iff])
    rcases hc with rfl | rfl <;> cases hq <;> exact hz
  case clearErrors =>
    cases hq
    exact (setupMalformed_iff h 255).trans (by rw [hr, hb, Nat.lt_succ_iff])
  case dieSetting =>
    cases hq
    exact (dieSettingMalformed_iff h).trans (by rw [hr, hb])
  case query =>
    have hz (n : Nat) : queryMalformed n h = false ↔ rsvd ∧ h.dieMask = 0 ∧ noBeats ∧ h.line = 0 ∧ h.value.toNat ≤ n :=
      (setupMalformed_iff h n).trans (by rw [hr, hb])
    simp only [List.mem_cons, List.not_mem_nil, or_false, Prod.mk.injEq] at hc
    rcases hc with ⟨rfl, rfl⟩ | ⟨rfl, rfl⟩ | ⟨rfl, rfl⟩ | ⟨rfl, rfl⟩ | ⟨rfl, rfl⟩ | ⟨rfl, rfl⟩ | ⟨rfl, rfl⟩ <;>
      cases hq <;> exact hz _

/-- Settles O11: the three forms are malformed whatever they carry. -/
theorem undefinedCodesAnsweredMalformed : Obligations.UndefinedCodesAnsweredMalformed := by
  intro s h
  refine ⟨fun k byte7 r hk hr ht => ?kind, fun code r hc hr ht => ?setting, fun code r hc hr ht => ?query⟩
  case kind =>
    have hw : (Instr.undefinedKind k byte7 h).wf = true := by
      simp only [Instr.wf, kindCodeDefined, Bool.not_eq_true', decide_eq_false_iff_not]
      omega
    cases hr
    exact refused_completes hw rfl ht (if_pos rfl) (by decide)
  case setting =>
    have hw : (Instr.undefinedSettingCode code h).wf = true := by
      simp only [Instr.wf, settingCodeDefined, Bool.not_eq_true', Bool.or_eq_false_iff, Bool.and_eq_false_iff,
        decide_eq_false_iff_not]
      omega
    cases hr
    exact refused_completes hw rfl ht (if_pos rfl) (by decide)
  case query =>
    have hw : (Instr.undefinedQueryCode code h).wf = true := by
      simp only [Instr.wf, queryCodeDefined, Bool.not_eq_true', decide_eq_false_iff_not]
      omega
    cases hr
    exact refused_completes hw rfl ht (if_pos rfl) (by decide)

/-! ### The sending of an answer -/

/-- The held messages stay while there is no place (R154). -/
theorem takeAllHeld_full (l : List Instr) {s : State} (h : s.hasPlace = false) : takeAllHeld l s = s := by
  cases l with
  | nil => rfl
  | cons c rest => exact if_neg (by simp [h])

/-- One held message is taken when there is a place. -/
theorem takeAllHeld_one (c : Instr) {s : State} (h : s.hasPlace = true) :
    takeAllHeld [c] s = takeHeld c (s.setLink { s.link with held := [] }) := by
  rw [takeAllHeld, if_pos h]
  rfl

/-- Settles O53: the queue's head goes, and the Intake's condition is tested again for what the link held. -/
theorem answerSentFreesPlaceAndTakesHeld : Obligations.AnswerSentFreesPlaceAndTakesHeld := by
  intro s
  refine ⟨fun hnone => if_pos hnone, ?_⟩
  intro a rest hcons sent
  have hsent : exec .answerSent s = .next (takeAllHeld s.link.held sent) := by
    show execAnswerSent s = _
    rw [execAnswerSent, if_neg (by rw [hcons]; exact List.cons_ne_nil _ _), State.answerSent, hcons]
    rfl
  have hplace : sent.hasPlace = true ↔ rest.length + s.link.tags.length < 24 := hasPlace_iff sent
  refine ⟨fun hfull => ?_, fun c r hheld hw hr hroom => ?_, hsent⟩
  · rw [hsent]
    rcases hfull with hnil | hfull
    · rw [hnil]; rfl
    · rw [takeAllHeld_full _ (Bool.eq_false_iff.2 fun hp => absurd (hplace.1 hp) (Nat.not_lt.2 hfull))]
  · have hp := hplace.2 hroom
    have hemptied : (sent.setLink { sent.link with held := [] }).hasPlace = true := hp
    rw [hsent, hheld, takeAllHeld_one c hp, takeHeld_eq hr]
    exact ((exec_message hw hr _).trans (congrArg _ (deliver_taken _ _ rfl hemptied))).symm

end Sys2Proof.Machine
end

section
/-! SUPPORT. The invariant of settings and profiles (R135, R136, R138): what each SETUP makes of Channel Control. -/

namespace Sys2Proof.Machine

/-- Settings in range, and no valid profile that breaks the refresh rule, read from Channel Control alone. -/
def ChannelSound (c : Channel) : Prop :=
  SettingsInRange c.settings ∧
    ∀ p, (c.profile p).valid = true → (c.profile p).refreshRule c.settings.granularity = true

theorem channelSound_iff (s : State) :
    ChannelSound s.chan ↔ SettingsInRange s.chan.settings ∧ ProfilesSound s := Iff.rfl

/-- Two states of Channel Control with the same settings and profiles. -/
theorem ChannelSound.congr {c e : Channel} (h : ChannelSound c)
    (k : e.settings = c.settings ∧ e.profileA = c.profileA ∧ e.profileB = c.profileB) : ChannelSound e := by
  obtain ⟨hs, hA, hB⟩ := k
  have hp (p : ProfileId) : e.profile p = c.profile p := by cases p <;> assumption
  refine ⟨hs ▸ h.1, fun p hv => ?_⟩
  rw [hp] at hv ⊢
  rw [hs]
  exact h.2 p hv

/-- A change of settings that keeps GRANULARITY. -/
theorem ChannelSound.settings {c : Channel} (h : ChannelSound c) {x : Settings} (hx : SettingsInRange x)
    (hg : x.granularity = c.settings.granularity) : ChannelSound { c with settings := x } := by
  refine ⟨hx, fun p hv => ?_⟩
  have hp : ({ c with settings := x } : Channel).profile p = c.profile p := by cases p <;> rfl
  rw [hp] at hv ⊢
  exact hg ▸ h.2 p hv

theorem profile_setProfile (c : Channel) (p q : ProfileId) (v : Profile) :
    (c.setProfile p v).profile q = if p = q then v else c.profile q := by cases p <;> cases q <;> rfl

@[simp] theorem setProfile_settings (c : Channel) (p : ProfileId) (v : Profile) :
    (c.setProfile p v).settings = c.settings := by cases p <;> rfl

/-- A change of one profile. -/
theorem ChannelSound.setProfile {c : Channel} (h : ChannelSound c) (p : ProfileId) {v : Profile}
    (hv : v.valid = true → v.refreshRule c.settings.granularity = true) : ChannelSound (c.setProfile p v) := by
  refine ⟨(setProfile_settings c p v).symm ▸ h.1, fun q hq => ?_⟩
  rw [setProfile_settings]
  rw [profile_setProfile] at hq ⊢
  split at hq
  next hpq => rw [if_pos hpq]; exact hv hq
  next hpq => rw [if_neg hpq]; exact h.2 q hq

theorem outside_false {lo hi v : Nat} {s : State} : outside lo hi s v = false ↔ lo ≤ v ∧ v ≤ hi := by
  simp [outside]

theorem notOneTwoFour_false {v : Nat} : notOneTwoFour v = false ↔ v ∈ [1, 2, 4] := by
  simp only [notOneTwoFour, Bool.and_eq_false_iff, bne_eq_false_iff_eq, List.mem_cons, List.not_mem_nil, or_false]
  tauto

theorem sound_refreshRule {p : Profile} {g : Nat} (h : p.sound g = true) : p.refreshRule g = true := by
  simp only [Profile.sound, Bool.and_eq_true] at h
  exact h.2

/-- What acceptance makes of Channel Control: the closing of an event leaves it. -/
theorem acceptHighMark_chan (v : Nat) (s : State) :
    (acceptHighMark v s).chan = { s.chan with settings := { s.chan.settings with highMark := v } } :=
  (finish_internal _ _ _).chan

theorem acceptLowMark_chan (v : Nat) (s : State) :
    (acceptLowMark v s).chan = { s.chan with settings := { s.chan.settings with lowMark := v } } :=
  (finish_internal _ _ _).chan

theorem acceptPullIn_chan (v : Nat) (s : State) :
    (acceptPullIn v s).chan = { s.chan with settings := { s.chan.settings with pullIn := v } } :=
  (finish_internal _ _ _).chan

theorem acceptIdleDrainTime_chan (v : Nat) (s : State) :
    (acceptIdleDrainTime v s).chan = { s.chan with settings := { s.chan.settings with idleDrainTime := v } } :=
  (relevel_internal _).chan

theorem acceptDieCount_chan (v : Nat) (s : State) :
    (acceptDieCount v s).chan = { s.chan with settings := { s.chan.settings with dieCount := v } } :=
  (setClocks_touches _ _).chan (by decide)

@[simp] theorem settings_profile (c : Channel) (x : Settings) (p : ProfileId) :
    ({ c with settings := x } : Channel).profile p = c.profile p := by cases p <;> rfl

theorem acceptGranularity_chan (v : Nat) (s : State) :
    (acceptGranularity v s).chan =
      ({ s.chan with settings := { s.chan.settings with granularity := v } } : Channel).setProfile
        (otherProfile s.chan.active)
        { s.chan.profile (otherProfile s.chan.active) with
          valid := (s.chan.profile (otherProfile s.chan.active)).valid &&
            (s.chan.profile (otherProfile s.chan.active)).refreshRule v } := by
  simp only [acceptGranularity, State.setSettings, State.setChan_chan, settings_profile]

theorem eq_active_of_ne_other {p q : ProfileId} (h : otherProfile q ≠ p) : p = q := by
  cases p <;> cases q <;> simp_all [otherProfile]

/-- The other profile is left as it is, or loses its flag under a GRANULARITY that breaks its rule; the active one keeps
the rule, or the value is refused (R138). -/
theorem acceptGranularity_sound {v : Nat} {s : State} (h : ChannelSound s.chan) (good : badGranularity s v = false) :
    ChannelSound (acceptGranularity v s).chan := by
  obtain ⟨⟨hcheck, hhigh, hlow, hmarks, hidle, hwait, hpark, hwake, hpull, hmasked, hcount, hlines, -, hrest⟩, -⟩ := h
  simp only [badGranularity, Bool.or_eq_false_iff, Bool.and_eq_false_iff, Bool.not_eq_false'] at good
  obtain ⟨hv, hactive⟩ := good
  rw [acceptGranularity_chan]
  refine ⟨?_, fun p hvalid => ?_⟩
  · rw [setProfile_settings]
    exact ⟨hcheck, hhigh, hlow, hmarks, hidle, hwait, hpark, hwake, hpull, hmasked, hcount, hlines,
      notOneTwoFour_false.1 hv, hrest⟩
  · rw [setProfile_settings]
    rw [profile_setProfile, settings_profile] at hvalid ⊢
    split at hvalid
    next ho => rw [if_pos ho]; exact (Bool.and_eq_true_iff.1 hvalid).2
    next ho =>
      rw [if_neg ho]
      rw [eq_active_of_ne_other ho] at hvalid ⊢
      rw [settings_profile] at hvalid
      exact hactive.resolve_left (by simp [hvalid])

/-- An accepted part setting lies in its range (R135, R136). -/
theorem accept_sound {bad : State → Nat → Bool} {configOnly : Bool} {accept : Nat → State → State}
    (k : Setting bad configOnly accept) {v : Nat} {s : State} (good : bad s v = false) (h : ChannelSound s.chan) :
    ChannelSound (accept v s).chan := by
  obtain ⟨hcheck, hhigh, hlow, hmarks, hidle, hwait, hpark, hwake, hpull, hmasked, hcount, hlines, hgran, hpoll, hretry,
    hlimit⟩ := h.1
  cases k with
  | checkPolicy =>
    have hv := (outside_false.1 good).2
    exact h.settings (x := { s.chan.settings with checkPolicy := v })
      ⟨hv, hhigh, hlow, hmarks, hidle, hwait, hpark, hwake, hpull, hmasked, hcount, hlines, hgran, hpoll, hretry,
          hlimit⟩
      rfl
  | highMark =>
    simp only [badHighMark, Bool.or_eq_false_iff, decide_eq_false_iff_not, not_le] at good
    rw [acceptHighMark_chan]
    exact h.settings (x := { s.chan.settings with highMark := v })
      ⟨hcheck, outside_false.1 good.1, hlow, good.2, hidle, hwait, hpark, hwake, hpull, hmasked, hcount, hlines, hgran,
        hpoll, hretry, hlimit⟩ rfl
  | lowMark =>
    simp only [badLowMark, Bool.or_eq_false_iff, decide_eq_false_iff_not, not_le] at good
    rw [acceptLowMark_chan]
    exact h.settings (x := { s.chan.settings with lowMark := v })
      ⟨hcheck, hhigh, (outside_false.1 good.1).2, good.2, hidle, hwait, hpark, hwake, hpull, hmasked, hcount, hlines,
        hgran, hpoll, hretry, hlimit⟩ rfl
  | idleDrainTime =>
    rw [acceptIdleDrainTime_chan]
    exact h.settings (x := { s.chan.settings with idleDrainTime := v })
      ⟨hcheck, hhigh, hlow, hmarks, (outside_false.1 good).2, hwait, hpark, hwake, hpull, hmasked, hcount,
          hlines, hgran,
        hpoll, hretry, hlimit⟩ rfl
  | readWaitLimit =>
    exact h.settings (x := { s.chan.settings with readWaitLimit := v })
      ⟨hcheck, hhigh, hlow, hmarks, hidle, outside_false.1 good, hpark, hwake, hpull, hmasked, hcount, hlines, hgran,
        hpoll, hretry, hlimit⟩ rfl
  | parkDelay =>
    refine (h.settings (x := { s.chan.settings with parkDelay := v })
      ⟨hcheck, hhigh, hlow, hmarks, hidle, hwait, (outside_false.1 good).2, hwake, hpull, hmasked, hcount,
          hlines, hgran,
        hpoll, hretry, hlimit⟩ rfl).congr ⟨rfl, rfl, rfl⟩
  | wakeMode =>
    exact h.settings (x := { s.chan.settings with wakeMode := v })
      ⟨hcheck, hhigh, hlow, hmarks, hidle, hwait, hpark, (outside_false.1 good).2, hpull, hmasked, hcount,
          hlines, hgran,
        hpoll, hretry, hlimit⟩ rfl
  | pullIn =>
    rw [acceptPullIn_chan]
    exact h.settings (x := { s.chan.settings with pullIn := v })
      ⟨hcheck, hhigh, hlow, hmarks, hidle, hwait, hpark, hwake, (outside_false.1 good).2, hmasked, hcount,
          hlines, hgran,
        hpoll, hretry, hlimit⟩ rfl
  | maskedWrites =>
    exact h.settings (x := { s.chan.settings with maskedWrites := v })
      ⟨hcheck, hhigh, hlow, hmarks, hidle, hwait, hpark, hwake, hpull, (outside_false.1 good).2, hcount, hlines, hgran,
        hpoll, hretry, hlimit⟩ rfl
  | dieCount =>
    rw [acceptDieCount_chan]
    exact h.settings (x := { s.chan.settings with dieCount := v })
      ⟨hcheck, hhigh, hlow, hmarks, hidle, hwait, hpark, hwake, hpull, hmasked, notOneTwoFour_false.1 good,
          hlines, hgran,
        hpoll, hretry, hlimit⟩ rfl
  | dieLinesLog2 =>
    exact h.settings (x := { s.chan.settings with dieLinesLog2 := v })
      ⟨hcheck, hhigh, hlow, hmarks, hidle, hwait, hpark, hwake, hpull, hmasked, hcount, outside_false.1 good, hgran,
        hpoll, hretry, hlimit⟩ rfl
  | granularity => exact acceptGranularity_sound h good
  | tempPoll =>
    exact h.settings (x := { s.chan.settings with tempPoll := v })
      ⟨hcheck, hhigh, hlow, hmarks, hidle, hwait, hpark, hwake, hpull, hmasked, hcount, hlines, hgran,
        outside_false.1 good, hretry, hlimit⟩ rfl
  | drainRetry =>
    exact h.settings (x := { s.chan.settings with drainRetry := v })
      ⟨hcheck, hhigh, hlow, hmarks, hidle, hwait, hpark, hwake, hpull, hmasked, hcount, hlines, hgran, hpoll,
        (outside_false.1 good).2, hlimit⟩ rfl
  | dieOpLimit =>
    exact h.settings (x := { s.chan.settings with dieOpLimit := v })
      ⟨hcheck, hhigh, hlow, hmarks, hidle, hwait, hpark, hwake, hpull, hmasked, hcount, hlines, hgran, hpoll, hretry,
        outside_false.1 good⟩ rfl

theorem Touches.channelSound {bs : List Block} {s t : State} (h : Touches bs s t) (n : .settings ∉ bs)
    (k : ChannelSound s.chan) : ChannelSound t.chan := k.congr (h.settings n)

theorem writeField_sound {s : State} (p : ProfileId) (n : Fin 16) (v : BitVec 16) (h : ChannelSound s.chan) :
    ChannelSound (s.writeField p n v).chan := by
  have hset : ChannelSound
      (s.chan.setProfile p { fields := (s.chan.profile p).fields.set n v, valid := false }) :=
    h.setProfile p (by simp)
  unfold State.writeField
  dsimp only
  split
  · rwa [(setClocks_touches _ _).chan (by decide)]
  · exact hset

theorem eventStep_touches {s t : State} (h : EventStep s t) : t = s.poweredOn ∨ Touches unsetBlocks s t := by
  cases h with
  | rests => exact .inr (.refl _ s)
  | powersOn => exact .inl rfl
  | delaysParking => exact .inr ((setChan_touches s _ (by rfl)).unset (by decide))
  | idles => exact .inr (((setDrain_touches s _).unset (by decide)).andThen (relevel_touches _) (by decide))
  | closes event => exact .inr (((event_touches event).unset (by decide)).andThen (finish_touches _ _ _) (by decide))

theorem reset_channelSound : ChannelSound State.reset.chan :=
  ⟨by decide, fun p => by cases p <;> decide⟩

theorem channelSound_execKeeps : ExecKeeps fun s => ChannelSound s.chan where
  held _ _ h := h
  sent _ h := h
  headerFault _ h := h
  arrive s h := (arrive_touches s).channelSound (by decide) h
  dataFault _ _ h := h
  service s t _ hs h := by
    obtain k | ⟨a, v, bad, configOnly, accept, k, good, -, rfl⟩ | ⟨a, p, n, v, rfl⟩ | ⟨a, p, sound, rfl⟩ :=
      service_settings hs
    · exact k.channelSound (by decide) h
    · exact accept_sound k good h
    · exact writeField_sound p n v h
    · exact h.setProfile p fun _ => sound_refreshRule sound
  event s t k h := by
    obtain rfl | k := eventStep_touches k
    · exact reset_channelSound
    · exact k.channelSound (by decide) h

/-- Settles O55: only the SETUPs touch settings and profiles, and each keeps the ranges and the refresh rule. -/
theorem stepKeepsSettingsAndProfilesSound : Obligations.StepKeepsSettingsAndProfilesSound :=
  fun _ _ hx h => channelSound_execKeeps.step (fun _ _ h => h) hx h

end Sys2Proof.Machine
end

section
/-! SUPPORT. What no operation outgrows: ALERT, the Log, the Poison List, the refresh balances and the two lists of
requests (R45, R62, R96, R160, R163, R165). -/

namespace Sys2Proof.Machine

/-- ALERT follows the latches, and the Log and the Poison List keep their capacities. -/
def Errors.Sound (e : Errors) : Prop :=
  e.alert = (e.latches != 0) ∧ e.log.length ≤ 16 ∧ e.poison.length ≤ 16 ∧ (e.poison.map (·.1)).Nodup

/-- From s to t the bounds of O54 are kept, and neither list of requests grows. -/
structure Bounds (s t : State) : Prop where
  errs : s.errs.Sound → t.errs.Sound
  care : BalancesBounded s → BalancesBounded t
  reads : t.reads.list.length ≤ s.reads.list.length
  flushes : t.flushes.length ≤ s.flushes.length

/-! ### The Error Unit -/

theorem setLatch_sound (e : Errors) (l : Latch) (h : e.Sound) : (e.setLatch l).Sound := ⟨setLatch_alert e l, h.2⟩

theorem append_sound (e : Errors) (r : LogRecord) (h : e.Sound) : (e.append r).Sound := by
  obtain ⟨halert, hlog, hpoison, hnodup⟩ := h
  refine ⟨?_, ?_, by rwa [append_poison], by rwa [append_poison]⟩
  · unfold Errors.append
    split
    · rfl
    · exact halert
  · rw [append_log]
    split <;> simp <;> omega

theorem clear_sound (e : Errors) (mask : BitVec 8) (h : e.Sound) : (e.clear mask).Sound := ⟨rfl, h.2⟩

/-- A line that is not on the Poison List joins it while there is room (R163). -/
theorem poison_append_sound {e : Errors} {line : LineAddr} (die : DieId) (hnew : ∀ x ∈ e.poison, x.1 ≠ line)
    (hroom : e.poison.length < 16) (h : e.Sound) : Errors.Sound { e with poison := e.poison ++ [(line, die)] } := by
  obtain ⟨halert, hlog, -, hnodup⟩ := h
  refine ⟨halert, hlog, by simpa using hroom, ?_⟩
  rw [List.map_append, List.map_singleton, List.nodup_append]
  refine ⟨hnodup, List.nodup_singleton _, fun a ha b hb => ?_⟩
  obtain ⟨x, hx, rfl⟩ := List.mem_map.1 ha
  rw [List.mem_singleton.1 hb]
  exact hnew x hx

theorem unpoison_sound {e : Errors} (line : LineAddr) (h : e.Sound) :
    Errors.Sound { e with poison := e.poison.filter (·.1 != line) } := by
  obtain ⟨halert, hlog, hpoison, hnodup⟩ := h
  exact ⟨halert, hlog, (List.length_filter_le _ _).trans hpoison, hnodup.sublist (List.filter_sublist.map _)⟩

/-! ### The rule for each block -/

namespace Bounds

variable {s t u : State}

theorem refl (s : State) : Bounds s s := ⟨id, id, le_rfl, le_rfl⟩

theorem trans (h : Bounds s t) (k : Bounds t u) : Bounds s u :=
  ⟨k.errs ∘ h.errs, k.care ∘ h.care, k.reads.trans h.reads, k.flushes.trans h.flushes⟩

/-- Dies 0 to 3 in turn. -/
theorem forDies {f : DieId → State → State} (h : ∀ d t, Bounds t (f d t)) (s : State) : Bounds s (forDies f s) :=
  (((h 0 s).trans (h 1 _)).trans (h 2 _)).trans (h 3 _)

theorem forPresent {f : DieId → State → State} (h : ∀ d t, Bounds t (f d t)) (s : State) :
    Bounds s (s.forPresent f) :=
  .forDies (fun d t => by split <;> [exact h d t; exact .refl t]) s

end Bounds

theorem Touches.bounds {bs : List Block} {s t : State} (h : Touches bs s t)
    (hb : ∀ b ∈ [Block.errs, .maint, .reads, .flushes], b ∉ bs) : Bounds s t := by
  have hcare := h.care (hb .maint (by decide))
  refine ⟨fun k => ?_, fun k d => ?_, ?_, ?_⟩
  · rwa [h.errs (hb .errs (by decide))]
  · rw [hcare d]; exact k d
  · rw [h.reads (hb .reads (by decide))]
  · rw [h.flushes (hb .flushes (by decide))]

theorem Internal.bounds {s t : State} (h : Internal s t) : Bounds s t := by
  refine ⟨fun k => ?_, fun k d => ?_, h.reads.length_eq.ge, h.flushes ▸ le_rfl⟩
  · rwa [h.errs]
  · rw [(h.care d).1]; exact k d

theorem setChan_bounds (s : State) (c : Channel) : Bounds s (s.setChan c) := ⟨id, id, le_rfl, le_rfl⟩

theorem setErrs_bounds (s : State) (e : Errors) (h : s.errs.Sound → e.Sound) : Bounds s (s.setErrs e) :=
  ⟨h, id, le_rfl, le_rfl⟩

theorem setReads_bounds (s : State) (x : Reads) (h : x.list.length ≤ s.reads.list.length) : Bounds s (s.setReads x) :=
  ⟨id, id, h, le_rfl⟩

theorem setFlushes_bounds (s : State) (x : List FlushRecord) (h : x.length ≤ s.flushes.length) :
    Bounds s (s.setFlushes x) :=
  ⟨id, id, le_rfl, h⟩

theorem setCare_bounds (s : State) (d : DieId) (c : DieCare)
    (h : -8 ≤ (s.care d).balance ∧ (s.care d).balance ≤ 8 → -8 ≤ c.balance ∧ c.balance ≤ 8) :
    Bounds s (s.setCare d c) := by
  refine ⟨id, fun k e => ?_, le_rfl, le_rfl⟩
  rw [State.setCare_care]
  split <;> [exact h (k d); exact k e]

theorem setPollTimer_bounds (s : State) (x : Timer) : Bounds s (s.setMaint { s.maint with pollTimer := x }) :=
  ⟨id, id, le_rfl, le_rfl⟩

theorem logNote_bounds (s : State) (n : LogNote) : Bounds s (s.logNote n) := setErrs_bounds s _ (append_sound _ _)

theorem latch_bounds (s : State) (l : Latch) : Bounds s (s.latch l) := setErrs_bounds s _ (setLatch_sound _ l)

theorem noteAndLatch_bounds (s : State) (n : LogNote) (l : Latch) : Bounds s ((s.logNote n).latch l) :=
  (logNote_bounds s n).trans (latch_bounds _ l)

theorem setBalance_bounds (s : State) (d : DieId) {b : Int} (h : -8 ≤ b ∧ b ≤ 8) : Bounds s (s.setBalance d b) :=
  setCare_bounds s d _ fun _ => h

theorem clearRecal_bounds (s : State) (d : DieId) : Bounds s (s.clearRecal d) := setCare_bounds s d _ id

theorem finish_bounds (s before : State) (touched : DieId → Bool) : Bounds s (s.finish before touched) :=
  (finish_internal s before touched).bounds

/-! ### The table and the two lists -/

theorem notice_bounds (s : State) (lost : Bool) (first : Wsn) : Bounds s (s.notice lost first) := by
  refine (setFlushes_bounds s _ ?_).trans ((closeAll_touches _ _).bounds (by decide))
  exact (List.length_filter_le _ _).trans (by simp)

theorem leave_bounds (s : State) (i : Fin 32) (lost : Bool) : Bounds s (s.leave i lost) := by
  have hfree : Bounds s (s.setEntry i Entry.freed) := (setEntry_touches s i _).bounds (by decide)
  unfold State.leave
  dsimp only
  split
  · exact (hfree.trans ((promote_touches _ _).bounds (by decide))).trans (notice_bounds _ _ _)
  · exact hfree.trans (notice_bounds _ _ _)

theorem post_bounds (s : State) (i : Fin 32) (e : Entry) (line : LineAddr) (m : Mask) :
    Bounds s (s.post i e line m) := by
  have hposted : Bounds s ((s.setEntry i e).advanceWsn) :=
    ((setEntry_touches s i e).trans (setTable_touches _ _)).bounds (by decide)
  unfold State.post
  dsimp only
  split
  · exact hposted.trans (setErrs_bounds _ _ (unpoison_sound line))
  · exact hposted

theorem stopReads_bounds (s : State) : Bounds s s.stopReads :=
  ((Bounds.forDies (fun d t => (setPort_touches t d { t.port d with readClaims := [] }).bounds (by decide)) s).trans
    (setReads_bounds _ _ (Nat.zero_le _))).trans ((closeAll_touches _ _).bounds (by decide))

theorem stopFlushes_bounds (s : State) : Bounds s s.stopFlushes :=
  (setFlushes_bounds s _ (Nat.zero_le _)).trans ((closeAll_touches _ _).bounds (by decide))

theorem enterStopped_bounds (s : State) (cause : StopCause) : Bounds s (s.enterStopped cause) := by
  rw [enterStopped_eq]
  split
  · have hended (c : Channel) (st : Status) (w : BitVec 32) : Bounds s ((s.setChan c).endProcedure st w) :=
      (setChan_bounds s c).trans ((endProcedure_touches _ _ _).bounds (by decide))
    exact (((hended _ _ _).trans (stopReads_bounds _)).trans (stopFlushes_bounds _)).trans
      ((stopClaims_touches _).bounds (by decide))
  · exact .refl s

theorem failPort_bounds (s : State) (d : DieId) (detail : Status) : Bounds s (s.failPort d detail) := by
  have hport (n : LogNote) (p : Port) : Bounds s ((((s.logNote n).latch .dieFailed).setPort d p).revertDie d) :=
    ((noteAndLatch_bounds s n _).trans ((setPort_touches _ d p).bounds (by decide))).trans
      ((revertDie_touches _ d).bounds (by decide))
  unfold State.failPort
  dsimp only
  split
  · exact ((hport _ _).trans ((addFailed_touches _ d).bounds (by decide))).trans
      ((abortBringup_touches _).bounds (by decide))
  · exact (hport _ _).trans (enterStopped_bounds _ _)

theorem poisoned_false {s : State} {line : LineAddr} (h : ¬ s.poisoned line = true) : ∀ x ∈ s.errs.poison, x.1 ≠ line :=
  fun x hx he => h (List.any_eq_true.2 ⟨x, hx, beq_iff_eq.2 he⟩)

/-- The Poison List takes a new line only while it has room; an overflow leaves it and stops the part (R163). -/
theorem reportLoss_bounds (s : State) (line : LineAddr) (wsn : Wsn) (cause : LossCause) :
    Bounds s (s.reportLoss line wsn cause) := by
  have hmark (t : State) (ht : Bounds s t) (n : LogNote) :
      Bounds s (((t.logNote n).latch .writeLost).markLost line) :=
    (ht.trans (noteAndLatch_bounds t n _)).trans (setReads_bounds _ _ (by simp))
  unfold State.reportLoss
  dsimp only
  split
  next hover =>
    rw [if_pos (Or.inr hover)]
    exact ((hmark s (.refl s) _).trans (noteAndLatch_bounds _ _ _)).trans (enterStopped_bounds _ _)
  next hover =>
    refine hmark _ ?_ _
    split
    · exact .refl s
    next hjoin =>
      obtain ⟨hnew, -⟩ := not_or.1 hjoin
      refine setErrs_bounds s _ (poison_append_sound _ (poisoned_false hnew) ?_)
      have hroom : s.errs.poison.length < Config.poisonLines := by simpa [hnew] using hover
      exact hroom

theorem lose_bounds (s : State) (i : Fin 32) (cause : LossCause) : Bounds s (s.lose i cause) := by
  unfold State.lose
  dsimp only
  refine Bounds.trans ?_ (leave_bounds _ i true)
  split
  · exact reportLoss_bounds s _ _ _
  · exact .refl s

theorem takeWriteStep_bounds (s : State) (d : DieId) (cl : Claimant) (stored : Bool) :
    Bounds s (s.takeWriteStep d cl stored) := by
  unfold State.takeWriteStep
  split
  · split
    · exact leave_bounds s _ false
    · unfold State.retryOrLose
      dsimp only
      split
      · exact ((setEntry_touches s _ _).bounds (by decide)).trans ((setDrainClaim_touches _ d _).bounds (by decide))
      · exact lose_bounds s _ _
  all_goals exact .refl s

theorem dropRead_bounds (s : State) (r : ReadRecord) : Bounds s (s.dropRead r) :=
  (setReads_bounds s _ (List.length_filter_le _ _)).trans ((setPort_touches _ _ _).bounds (by decide))

theorem takeLineRead_bounds (s : State) (d : DieId) (cl : Claimant) (data : Option LineData) :
    Bounds s (s.takeLineRead d cl data) := by
  have hclose (a : Answer) : Bounds s (s.close a) := (close_touches s a).bounds (by decide)
  unfold State.takeLineRead
  split
  · split
    · unfold State.answerRead
      dsimp only
      split
      · exact (hclose _).trans (dropRead_bounds _ _)
      · exact ((hclose _).trans (noteAndLatch_bounds _ _ _)).trans (dropRead_bounds _ _)
    · exact .refl s
  · split
    · exact (fill_touches s d _ _).bounds (by decide)
    · exact lose_bounds s _ _
  all_goals exact .refl s

/-! ### Channel Control and the Maintenance Unit -/

theorem endBringup_bounds (s : State) (d : DieId) : Bounds s (s.endBringup d) := by
  have hdie : Bounds s ((((s.setPort d { s.port d with state := .idle }).setBalance d 0).clearRecal d).setRecalOwed d
      false) :=
    ((((setPort_touches s d _).bounds (by decide)).trans (setBalance_bounds _ d (by decide))).trans
      (clearRecal_bounds _ d)).trans ((setRecalOwed_touches _ d false).bounds (by decide))
  unfold State.endBringup
  dsimp only
  split
  · exact ((hdie.trans ((becomeRunning_touches _).bounds (by decide))).trans
      ((endProcedure_touches _ _ _).bounds (by decide))).trans (setPollTimer_bounds _ _)
  · exact hdie

theorem endSwitch_bounds (s : State) : Bounds s s.endSwitch := by
  unfold State.endSwitch
  split
  · exact ((Bounds.forPresent (fun d t => setBalance_bounds t d (by decide)) s).trans
      ((becomeRunning_touches _).bounds (by decide))).trans ((endProcedure_touches _ _ _).bounds (by decide))
  · exact .refl s

theorem settled_bounds (s : State) (d : DieId) (index : BitVec 4) (value : BitVec 16) :
    Bounds s (s.settled d index value) := by
  unfold State.settled
  split
  · refine Bounds.trans ?_ ((abortBringup_touches _).bounds (by decide))
    split
    · exact (bringupClaim_touches s d _).bounds (by decide)
    · exact endBringup_bounds s d
  · split
    · exact (setChannelClaim_touches s d _).bounds (by decide)
    · exact endSwitch_bounds s
  all_goals exact (forwardSettled_touches s d index value).bounds (by decide)

theorem settleExpired_bounds (s : State) (d : DieId) : Bounds s (s.settleExpired d) := by
  have hport : Bounds s (s.setPort d (s.port d).afterSettle) := (setPort_touches s d _).bounds (by decide)
  unfold State.settleExpired
  dsimp only
  split
  · exact (hport.trans ((recordShadow_touches _ d _ _).bounds (by decide))).trans (settled_bounds _ d _ _)
  · exact hport

theorem takeBand_bounds (s : State) (d : DieId) (band : Band) : Bounds s (s.takeBand d band) := by
  have hcare : Bounds s (s.setCare d { s.care d with tempPending := false, band := band }) := setCare_bounds s d _ id
  unfold State.takeBand
  dsimp only
  split
  · exact hcare.trans (noteAndLatch_bounds _ _ _)
  · exact hcare

theorem longRecalDone_bounds (s : State) (d : DieId) : Bounds s (State.longRecalDone d s) := by
  have hcleared : Bounds s ((s.clearRecal d).setRecalOwed d false) :=
    (clearRecal_bounds s d).trans ((setRecalOwed_touches _ d false).bounds (by decide))
  unfold State.longRecalDone
  dsimp only
  split
  · exact (hcleared.trans ((bringupClaim_touches _ d _).bounds (by decide))).trans
      ((abortBringup_touches _).bounds (by decide))
  · exact hcleared.trans ((endRecalPhase_touches _).bounds (by decide))
  all_goals exact hcleared

theorem refreshDone_bounds (s : State) (d : DieId) : Bounds s (State.refreshDone d s) := by
  refine setCare_bounds s d _ fun h => ?_
  dsimp only
  split <;> omega

/-- At -8 the balance stays, with a record (R96). -/
theorem refreshDebited_bounds (s : State) (d : DieId) : Bounds s (s.refreshDebited d) := by
  have hcare (skip : Bool) (due : Timer) : Bounds s (s.setCare d
      { s.care d with
        balance := if (s.care d).counts && decide (-8 < (s.care d).balance) then (s.care d).balance - 1
          else (s.care d).balance
        coolSkip := skip, refreshDue := due }) := by
    refine setCare_bounds s d _ fun h => ?_
    dsimp only
    split
    next hlow =>
      have hlow : -8 < (s.care d).balance := of_decide_eq_true (Bool.and_eq_true_iff.1 hlow).2
      omega
    · exact h
  unfold State.refreshDebited
  dsimp only
  split
  · exact (hcare _ _).trans (logNote_bounds _ _)
  · exact hcare _ _

theorem polled_bounds (s : State) : Bounds s s.polled :=
  (setPollTimer_bounds s _).trans
    (.forDies (fun d t => by split <;> [exact setCare_bounds t d _ id; exact .refl t]) _)

theorem parkExitDone_bounds (s : State) (d : DieId) (mode : WakeMode) : Bounds s (State.parkExitDone d mode s) := by
  have hmode : -8 ≤ mode.balance ∧ mode.balance ≤ 8 := by cases mode <;> decide
  exact ((setBalance_bounds s d hmode).trans ((claimForward_touches _ d).bounds (by decide))).trans
    (((endWake_touches _).bounds (by decide)).trans ((endWakePhase_touches _).bounds (by decide)))

theorem linkEmptied_bounds (s : State) : Bounds s s.linkEmptied := by
  have hports : Bounds s (forDies (fun d t => t.setPort d { t.port d with readClaims := [] })
      (s.setLink { tags := [], answers := [], held := [] })) :=
    ((setLink_touches s _).bounds (by decide)).trans
      (.forDies (fun d t => (setPort_touches t d _).bounds (by decide)) _)
  exact ((hports.trans (setReads_bounds _ _ (Nat.zero_le _))).trans (setFlushes_bounds _ _ (Nat.zero_le _))).trans
    ((setChan_touches _ _ (by rfl)).bounds (by decide))

/-! ### Every command -/

theorem event_bounds {s u : State} {touched : DieId → Bool} (h : Event s u touched) : Bounds s u := by
  have hslot (d : DieId) : Bounds s (s.emptySlot d) := (emptySlot_touches s d).bounds (by decide)
  cases h with
  | linkReset => exact linkEmptied_bounds s
  | park => exact (setChan_bounds s _).trans ((claimAll_touches _ fun _ => .parkEnter).bounds (by decide))
  | relock => exact (setChan_bounds s _).trans ((beginPhase_touches _ _ _).bounds (by decide))
  | settle d => exact settleExpired_bounds s d
  | fail d detail => exact failPort_bounds s d detail
  | deadline r =>
      exact (((close_touches s _).bounds (by decide)).trans (logNote_bounds _ _)).trans (dropRead_bounds _ r)
  | refreshDue d => exact refreshDebited_bounds s d
  | recalDue d => exact setCare_bounds s d _ id
  | poll => exact polled_bounds s
  | lineRead d => exact (hslot d).trans (takeLineRead_bounds _ d _ _)
  | lineWrite d => exact (hslot d).trans (takeWriteStep_bounds _ d _ _)
  | maskedWrite d => exact (hslot d).trans (takeWriteStep_bounds _ d _ _)
  | refresh d => exact (hslot d).trans (refreshDone_bounds _ d)
  | shortRecal d => exact (hslot d).trans (clearRecal_bounds _ d)
  | longRecal d => exact (hslot d).trans (longRecalDone_bounds _ d)
  | tempRead d => exact (hslot d).trans (takeBand_bounds _ d _)
  | set d => exact (hslot d).trans ((setPort_touches _ d _).bounds (by decide))
  | dieReset d =>
    exact ((hslot d).trans ((bringupClaim_touches _ d _).bounds (by decide))).trans
      ((abortBringup_touches _).bounds (by decide))
  | parkEnter d =>
    exact (((hslot d).trans ((setPort_touches _ d _).bounds (by decide))).trans
      (setBalance_bounds _ d (by decide))).trans ((allParked_touches _).bounds (by decide))
  | parkExit d mode => exact (hslot d).trans (parkExitDone_bounds _ d mode)

theorem accept_bounds {bad : State → Nat → Bool} {configOnly : Bool} {accept : Nat → State → State}
    (k : Setting bad configOnly accept) (v : Nat) (s : State) : Bounds s (accept v s) := by
  have hset (c : Settings) : Bounds s (s.setSettings c) := setChan_bounds s _
  cases k with
  | highMark => exact (hset _).trans (finish_bounds _ _ _)
  | lowMark => exact (hset _).trans (finish_bounds _ _ _)
  | pullIn => exact (hset _).trans (finish_bounds _ _ _)
  | idleDrainTime =>
      exact ((hset _).trans ((setDrain_touches _ _).bounds (by decide))).trans (relevel_internal _).bounds
  | dieCount => exact (hset _).trans ((setClocks_touches _ _).bounds (by decide))
  | parkDelay => exact (hset _).trans (setChan_bounds _ _)
  | granularity => exact (hset _).trans (setChan_bounds _ _)
  | tempPoll => exact (hset _).trans (setPollTimer_bounds _ _)
  | checkPolicy => exact hset _
  | readWaitLimit => exact hset _
  | wakeMode => exact hset _
  | maskedWrites => exact hset _
  | dieLinesLog2 => exact hset _
  | drainRetry => exact hset _
  | dieOpLimit => exact hset _

theorem writeField_bounds (s : State) (p : ProfileId) (n : Fin 16) (v : BitVec 16) : Bounds s (s.writeField p n v) := by
  unfold State.writeField
  dsimp only
  split
  · exact (setChan_bounds s _).trans ((setClocks_touches _ _).bounds (by decide))
  · exact setChan_bounds s _

theorem restarted_bounds (s : State) : Bounds s s.restarted := by
  refine ⟨fun h => ?_, fun _ d => ?_, Nat.zero_le _, Nat.zero_le _⟩
  · obtain ⟨halert, hlog, -, -⟩ := append_sound s.errs _ h
    exact ⟨halert, hlog, Nat.zero_le _, List.nodup_nil⟩
  · have hcare : s.restarted.care d = DieCare.atReset := reset_care d
    rw [hcare]
    decide

/-- The bounds of O54 together. -/
def Bounded (s : State) : Prop :=
  s.errs.Sound ∧ BalancesBounded s ∧ s.reads.list.length ≤ 16 ∧ s.flushes.length ≤ 4

theorem bounded_iff (s : State) : Bounded s ↔ AlertFollows s ∧ BalancesBounded s ∧ ListsBounded s := by
  simp only [Bounded, Errors.Sound, AlertFollows, ListsBounded]
  tauto

theorem Bounds.bounded {s t : State} (h : Bounds s t) (k : Bounded s) : Bounded t := by
  obtain ⟨herrs, hcare, hreads, hflushes⟩ := k
  exact ⟨h.errs herrs, h.care hcare, h.reads.trans hreads, h.flushes.trans hflushes⟩

/-- A service outgrows nothing: a READ and a FLUSH join their lists only where they find room (R45, R62). -/
theorem service_bounded {s t : State} (h : Service s t) (k : Bounded s) : Bounded t := by
  have hqueue (u : State) (a : Answer) : Bounds u (u.queue a) := (queue_touches u a).bounds (by decide)
  have hbegin (kind : ProcedureKind) (tag : Tag) : Bounds s (s.beginProcedure kind tag) :=
    (beginProcedure_touches s kind tag).bounds (by decide)
  have hwake (u : State) : Bounds u u.wake := (wake_touches u).bounds (by decide)
  obtain ⟨herrs, hcare, hreads, hflushes⟩ := id k
  cases h with
  | answer a => exact (hqueue s a).bounded k
  | read h up free room =>
    have hjoined : Bounded (s.joinReads (s.readRecord h)) :=
      ⟨herrs, hcare, by simpa [State.joinReads, State.joinTag] using room, hflushes⟩
    exact ((hwake _).trans (finish_bounds _ _ _)).bounded hjoined
  | writeRests a => exact (((hqueue s a).trans (hwake _)).trans (finish_bounds _ _ _)).bounded k
  | writePosts a line m data i e =>
    exact ((((post_bounds s i e line m).trans (hqueue _ a)).trans (hwake _)).trans (finish_bounds _ _ _)).bounded k
  | flush tag free room =>
    have hjoined : Bounded
        ((s.setFlushes (s.flushes ++ [{ tag := tag, boundary := s.table.nextWsn, loss := false }])).joinTag tag) :=
      ⟨herrs, hcare, hreads, by simpa [State.joinTag] using room⟩
    exact (finish_bounds _ _ _).bounded hjoined
  | setting a v setting => exact ((accept_bounds setting v s).trans (hqueue _ a)).bounded k
  | field a p n v => exact ((writeField_bounds s p n v).trans (hqueue _ a)).bounded k
  | commit a p => exact ((setChan_bounds s _).trans (hqueue _ a)).bounded k
  | start tag =>
    exact ((((hbegin _ tag).trans (setChan_bounds _ _)).trans
      ((claimAll_touches _ fun _ => .dieReset).bounds (by decide))).trans (finish_bounds _ _ _)).bounded k
  | rateSwitch target tag =>
    have hbegun : Bounds s ((s.beginProcedure (.rateSwitch target) tag).setPartState .switching (some .quiesce)) :=
      (hbegin _ tag).trans (setChan_bounds _ _)
    unfold State.beginSwitch
    refine (Bounds.trans ?_ (finish_bounds _ _ _)).bounded k
    split
    · exact hbegun.trans ((enterClock_touches _).bounds (by decide))
    · exact hbegun
  | clearErrors a mask => exact ((setErrs_bounds s _ (clear_sound _ mask)).trans (hqueue _ a)).bounded k
  | restart a => exact ((restarted_bounds s).trans (hqueue _ a)).bounded k
  | forward h =>
    unfold State.beginForward
    exact ((((hbegin _ h.tag).trans (hwake _)).trans ((claimForwardNow_touches _).bounds (by decide))).trans
      (finish_bounds _ _ _)).bounded k
  | log a =>
    refine ((setErrs_bounds s _ fun h => ?_).trans (hqueue _ a)).bounded k
    obtain ⟨halert, hlog, hpoison⟩ := h
    exact ⟨halert, by simp; omega, hpoison⟩

theorem bounded_execKeeps : ExecKeeps Bounded where
  held _ _ h := h
  sent _ h := h
  headerFault s h := (noteAndLatch_bounds s _ _).bounded h
  arrive s h := by
    have harrived : Bounds s s.arrived := ⟨id, id, le_rfl, le_rfl⟩
    exact (harrived.trans (arrive_internal s).bounds).bounded h
  dataFault s _ h := (noteAndLatch_bounds s _ _).bounded h
  service _ _ _ k h := service_bounded k h
  event s t k h := by
    cases k with
    | rests => exact h
    | powersOn =>
      refine ⟨⟨rfl, Nat.zero_le _, Nat.zero_le _, List.nodup_nil⟩, fun d => ?_, Nat.zero_le _, Nat.zero_le _⟩
      have hcare : s.poweredOn.care d = DieCare.atReset := reset_care d
      rw [hcare]
      decide
    | delaysParking => exact (setChan_bounds s _).bounded h
    | idles => exact (((setDrain_touches s _).bounds (by decide)).trans (relevel_internal _).bounds).bounded h
    | closes event => exact ((event_bounds event).trans (finish_bounds _ _ _)).bounded h

/-- Settles O54: no operation outgrows a bound, and the two services that add to a list find room first. -/
theorem stepKeepsListsBalancesAndAlert : Obligations.StepKeepsListsBalancesAndAlert := by
  intro s t hx h
  have hkept : Bounded t := bounded_execKeeps.step (fun _ _ k => k) hx ((bounded_iff s).2 h)
  exact (bounded_iff t).1 hkept

end Sys2Proof.Machine
end

section
/-! SUPPORT. The slot, state and settle timer of every port stay in step (R73, R77). -/

namespace Sys2Proof.Machine

/-! ### The rule for each block -/

/-- The step from s to t keeps the order of the ports. -/
def OrderKept (s t : State) : Prop := PortsOrdered s → PortsOrdered t

namespace OrderKept

variable {s t u : State}

theorem refl (s : State) : OrderKept s s := id

theorem trans (h : OrderKept s t) (k : OrderKept t u) : OrderKept s u := k ∘ h

theorem forDies {f : DieId → State → State} (h : ∀ d t, OrderKept t (f d t)) (s : State) :
    OrderKept s (forDies f s) :=
  (((h 0 s).trans (h 1 _)).trans (h 2 _)).trans (h 3 _)

theorem forPresent {f : DieId → State → State} (h : ∀ d t, OrderKept t (f d t)) (s : State) :
    OrderKept s (s.forPresent f) :=
  .forDies (fun d t => by split <;> [exact h d t; exact .refl t]) s

end OrderKept

theorem Touches.orderKept {bs : List Block} {s t : State} (h : Touches bs s t) (hb : .ports ∉ bs) : OrderKept s t :=
  fun k d => by rw [h.port hb d]; exact k d

theorem setPort_orderKept (s : State) (d : DieId) (p : Port) (h : (s.port d).Ordered → p.Ordered) :
    OrderKept s (s.setPort d p) := by
  intro k e
  rw [State.setPort_port]
  split <;> [exact h (k d); exact k e]

/-- A change of a port's claims, timers of operations, alternation or clock. -/
theorem setClaims_orderKept (s : State) (d : DieId) (p : Port)
    (h : (p.slot, p.state, p.settle) = ((s.port d).slot, (s.port d).state, (s.port d).settle)) :
    OrderKept s (s.setPort d p) := by
  simp only [Prod.mk.injEq] at h
  obtain ⟨hslot, hstate, hsettle⟩ := h
  exact setPort_orderKept s d p fun k => by simpa only [Port.Ordered, hslot, hstate, hsettle] using k

/-- A grant fills the empty slot of a port without a settle timer, and makes it BUSY or INIT (R75). -/
theorem PortKept.ordered {n : Nat} {p q : Port} (h : PortKept n p q) (k : p.Ordered) : q.Ordered := by
  obtain ⟨hsettle, -, -, ⟨hslot, hstate, -, -⟩ | ⟨hnone, hsome, -, hstate, hfrom⟩⟩ := h
  · simpa only [Port.Ordered, hsettle, hslot, hstate] using k
  · obtain ⟨-, -, htimer⟩ := k
    have hstopped : p.settle = none := by
      by_contra hne
      have hsettling := htimer (Option.isSome_iff_ne_none.2 hne)
      rcases hfrom with h | h | h | h <;> simp_all
    refine ⟨fun _ => ⟨?_, hsettle.trans hstopped⟩, fun _ => hsome, fun hs => ?_⟩
    · rw [hstate]
      rcases hfrom with h | h | h | ⟨h, -⟩ <;> simp [h, PortState.granted]
    · rw [hsettle, hstopped] at hs
      cases hs

theorem Internal.orderKept {s t : State} (h : Internal s t) : OrderKept s t := fun k d => (h.ports d).ordered (k d)

theorem finish_orderKept (s before : State) (touched : DieId → Bool) : OrderKept s (s.finish before touched) :=
  (finish_internal s before touched).orderKept

/-! ### Single ports -/

theorem atReset_ordered (clock : Option Nat) : (Port.atReset clock).Ordered := by simp [Port.Ordered, Port.atReset]

/-- An empty slot and a stopped settle timer leave every state but BUSY in order. -/
theorem ordered_of_rests {p : Port} (hslot : p.slot = none) (hsettle : p.settle = none) (hstate : p.state ≠ .busy) :
    p.Ordered := by
  simp [Port.Ordered, hslot, hsettle, hstate]

theorem fail_ordered (p : Port) : p.fail.Ordered := ordered_of_rests rfl rfl nofun

theorem toOff_ordered (p : Port) (clock : Nat) : (p.toOff clock).Ordered := ordered_of_rests rfl rfl nofun

theorem emptied_state_ne_busy (p : Port) : p.emptied.state ≠ .busy := by
  unfold Port.emptied
  dsimp only
  split <;> nofun

/-- A filled slot stands beside a stopped settle timer. -/
theorem settle_of_slot {p : Port} {x : Slot} (h : p.Ordered) (hslot : p.slot = some x) : p.settle = none :=
  (h.1 (by rw [hslot]; rfl)).2

theorem emptySlot_orderKept {s : State} {d : DieId} {x : Slot} (hslot : (s.port d).slot = some x) :
    OrderKept s (s.emptySlot d) :=
  setPort_orderKept s d _ fun h =>
    ordered_of_rests (p := (s.port d).emptied) rfl (settle_of_slot (p := s.port d) h hslot) (emptied_state_ne_busy _)

/-- A running settle timer stands beside an empty slot (R77). -/
theorem afterSettle_ordered {p : Port} (h : p.Ordered) (hruns : p.settle.isSome = true) : p.afterSettle.Ordered := by
  obtain ⟨hslot, hbusy, hstate⟩ := h
  have hempty : p.slot = none := by
    by_contra hne
    have hstopped := (hslot (Option.isSome_iff_ne_none.2 hne)).2
    rw [hstopped] at hruns
    cases hruns
  refine ordered_of_rests hempty rfl ?_
  unfold Port.afterSettle
  rcases hstate hruns with h | h <;> simp [h]

/-! ### Operations -/

theorem abortBringup_orderKept (s : State) : OrderKept s s.abortBringup := by
  have hoff (t : State) (d : DieId) : OrderKept t
      ((t.setPort d ((t.port d).toOff t.activePeriod)).setChan
        { t.chan with shadow := t.chan.shadow.set d shadowUnknown }) :=
    (setPort_orderKept t d _ fun _ => toOff_ordered _ _).trans ((setChan_touches _ _ (by rfl)).orderKept (by decide))
  unfold State.abortBringup
  dsimp only
  split
  · exact ((OrderKept.forPresent (fun d t => hoff t d) s).trans
        ((setChan_touches _ _ (by rfl)).orderKept (by decide))).trans
      (((setPartState_touches _ _ _).orderKept (by decide)).trans ((endProcedure_touches _ _ _).orderKept (by decide)))
  · exact .refl s

theorem setChannelClaim_orderKept (s : State) (d : DieId) (claim : Option ChannelOp) :
    OrderKept s (s.setChannelClaim d claim) :=
  setClaims_orderKept s d _ rfl

theorem bringupClaim_orderKept (s : State) (d : DieId) (op : ChannelOp) : OrderKept s (s.bringupClaim d op) := by
  unfold State.bringupClaim
  split <;> [exact setChannelClaim_orderKept s d _; exact .refl s]

theorem claimForward_orderKept (s : State) (d : DieId) : OrderKept s (s.claimForward d) := by
  unfold State.claimForward
  split <;> [exact setChannelClaim_orderKept s d _; exact .refl s]

theorem claimForwardNow_orderKept (s : State) : OrderKept s s.claimForwardNow :=
  .forPresent (fun d t => by dsimp only; split <;> [exact claimForward_orderKept t d; exact .refl t]) s

theorem claimAll_orderKept (s : State) (op : State → ChannelOp) :
    OrderKept s (s.forPresent fun d t => t.setChannelClaim d (some (op t))) :=
  .forPresent (fun d t => setChannelClaim_orderKept t d _) s

theorem beginPhase_orderKept (s : State) (phase : Phase) (op : State → ChannelOp) :
    OrderKept s (s.beginPhase phase op) :=
  ((setPartState_touches s _ _).orderKept (by decide)).trans (claimAll_orderKept _ op)

theorem endWakePhase_orderKept (s : State) : OrderKept s s.endWakePhase := by
  unfold State.endWakePhase
  split <;> [exact beginPhase_orderKept s _ _; exact .refl s]

theorem endRecalPhase_orderKept (s : State) : OrderKept s s.endRecalPhase := by
  unfold State.endRecalPhase
  split <;> [exact beginPhase_orderKept s _ _; exact .refl s]

theorem enterClock_orderKept (s : State) : OrderKept s s.enterClock := by
  have hclock (t : State) (d : DieId) (clock : Option Nat) :
      OrderKept t ((t.setPort d { t.port d with clock := clock }).setRecalOwed d true) :=
    (setClaims_orderKept t d _ (by rfl)).trans ((setRecalOwed_touches _ d true).orderKept (by decide))
  unfold State.enterClock
  split
  · exact (OrderKept.forPresent (fun d t => hclock t d _) s).trans
      ((setChan_touches _ _ (by rfl)).orderKept (by decide))
  · exact .refl s

theorem allParked_orderKept (s : State) : OrderKept s s.allParked := by
  unfold State.allParked
  split
  · split
    · exact (setPartState_touches s _ _).orderKept (by decide)
    · split <;> [exact enterClock_orderKept s; exact .refl s]
  · exact .refl s

theorem enterStopped_orderKept (s : State) (cause : StopCause) : OrderKept s (s.enterStopped cause) := by
  rw [enterStopped_eq]
  split
  · have hreads (t : State) : OrderKept t t.stopReads :=
      ((OrderKept.forDies (fun d t => setClaims_orderKept t d { t.port d with readClaims := [] } (by rfl)) t).trans
        ((setReads_touches _ _).orderKept (by decide))).trans ((closeAll_touches _ _).orderKept (by decide))
    have hclaims (t : State) : OrderKept t t.stopClaims :=
      .forDies (fun d t => by split <;> [exact .refl t; exact setChannelClaim_orderKept t d none]) t
    have hended : OrderKept s ((s.setChan
        { s.chan with partState := .stopped, phase := none, stopCause := some cause }).endProcedure .failed
          s.stopDetail) :=
      ((setChan_touches s _ (by rfl)).orderKept (by decide)).trans ((endProcedure_touches _ _ _).orderKept (by decide))
    exact ((hended.trans (hreads _)).trans ((stopFlushes_touches _).orderKept (by decide))).trans (hclaims _)
  · exact .refl s

theorem failPort_orderKept (s : State) (d : DieId) (detail : Status) : OrderKept s (s.failPort d detail) := by
  have hport (n : LogNote) (p : Port) :
      OrderKept s ((((s.logNote n).latch .dieFailed).setPort d p.fail).revertDie d) :=
    (((noteAndLatch_touches s n _).orderKept (by decide)).trans
      (setPort_orderKept _ d _ fun _ => fail_ordered _)).trans ((revertDie_touches _ d).orderKept (by decide))
  unfold State.failPort
  dsimp only
  split
  · exact ((hport _ _).trans ((addFailed_touches _ d).orderKept (by decide))).trans (abortBringup_orderKept _)
  · exact (hport _ _).trans (enterStopped_orderKept _ _)

theorem lose_orderKept (s : State) (i : Fin 32) (cause : LossCause) : OrderKept s (s.lose i cause) := by
  have hreport (line : LineAddr) (wsn : Wsn) : OrderKept s (s.reportLoss line wsn cause) := by
    have hmark (t : State) (ht : OrderKept s t) (n : LogNote) :
        OrderKept s (((t.logNote n).latch .writeLost).markLost line) :=
      (ht.trans ((noteAndLatch_touches t n _).orderKept (by decide))).trans
        ((markLost_touches _ line).orderKept (by decide))
    have hlisted (b : Prop) [Decidable b] (e : Errors) : OrderKept s (if b then s else s.setErrs e) := by
      split <;> [exact .refl s; exact (setErrs_touches s _).orderKept (by decide)]
    unfold State.reportLoss
    dsimp only
    split
    · exact ((hmark _ (hlisted _ _) _).trans ((noteAndLatch_touches _ _ _).orderKept (by decide))).trans
        (enterStopped_orderKept _ _)
    · exact hmark _ (hlisted _ _) _
  unfold State.lose
  dsimp only
  refine OrderKept.trans ?_ ((leave_touches _ i true).orderKept (by decide))
  split
  · exact hreport _ _
  · exact .refl s

theorem takeWriteStep_orderKept (s : State) (d : DieId) (cl : Claimant) (stored : Bool) :
    OrderKept s (s.takeWriteStep d cl stored) := by
  unfold State.takeWriteStep
  split
  · split
    · exact (leave_touches s _ false).orderKept (by decide)
    · unfold State.retryOrLose
      dsimp only
      split
      · exact ((setEntry_touches s _ _).orderKept (by decide)).trans (setClaims_orderKept _ d _ (by rfl))
      · exact lose_orderKept s _ _
  all_goals exact .refl s

theorem dropRead_orderKept (s : State) (r : ReadRecord) : OrderKept s (s.dropRead r) :=
  ((setReads_touches s _).orderKept (by decide)).trans (setClaims_orderKept _ _ _ (by rfl))

theorem takeLineRead_orderKept (s : State) (d : DieId) (cl : Claimant) (data : Option LineData) :
    OrderKept s (s.takeLineRead d cl data) := by
  have hclose (a : Answer) : OrderKept s (s.close a) := (close_touches s a).orderKept (by decide)
  unfold State.takeLineRead
  split
  · split
    · unfold State.answerRead
      dsimp only
      split
      · exact (hclose _).trans (dropRead_orderKept _ _)
      · exact ((hclose _).trans ((noteAndLatch_touches _ _ _).orderKept (by decide))).trans (dropRead_orderKept _ _)
    · exact .refl s
  · split
    · exact ((setEntry_touches s _ _).orderKept (by decide)).trans (setClaims_orderKept _ d _ (by rfl))
    · exact lose_orderKept s _ _
  all_goals exact .refl s

/-- A die whose settle timer has expired has an empty slot and no settle timer, so that it may become IDLE. -/
theorem endBringup_orderKept {s : State} {d : DieId} (hslot : (s.port d).slot = none)
    (hsettle : (s.port d).settle = none) : OrderKept s (s.endBringup d) := by
  have hdie : OrderKept s
      ((((s.setPort d { s.port d with state := .idle }).setBalance d 0).clearRecal d).setRecalOwed d false) :=
    (((setPort_orderKept s d { s.port d with state := .idle } fun _ => ordered_of_rests hslot hsettle nofun).trans
      ((setBalance_touches _ d 0).orderKept (by decide))).trans ((clearRecal_touches _ d).orderKept (by decide))).trans
      ((setRecalOwed_touches _ d false).orderKept (by decide))
  unfold State.endBringup
  dsimp only
  split
  · exact ((hdie.trans ((becomeRunning_touches _).orderKept (by decide))).trans
      ((endProcedure_touches _ _ _).orderKept (by decide))).trans ((setMaint_touches _ _).orderKept (by decide))
  · exact hdie

theorem settled_orderKept {s : State} {d : DieId} (index : BitVec 4) (value : BitVec 16)
    (hslot : (s.port d).slot = none) (hsettle : (s.port d).settle = none) :
    OrderKept s (s.settled d index value) := by
  unfold State.settled
  split
  · refine OrderKept.trans ?_ (abortBringup_orderKept _)
    split
    · exact bringupClaim_orderKept s d _
    · exact endBringup_orderKept hslot hsettle
  · split
    · exact setChannelClaim_orderKept s d _
    · exact (endSwitch_touches s).orderKept (by decide)
  all_goals exact (forwardSettled_touches s d index value).orderKept (by decide)

theorem settleExpired_orderKept {s : State} {d : DieId} (hruns : (s.port d).settle.isSome = true) :
    OrderKept s (s.settleExpired d) := by
  intro h
  have hport : PortsOrdered (s.setPort d (s.port d).afterSettle) :=
    setPort_orderKept s d _ (fun k => afterSettle_ordered k hruns) h
  have hempty : (s.port d).afterSettle.slot = none := by
    by_contra hne
    have hstopped := ((h d).1 (Option.isSome_iff_ne_none.2 hne)).2
    rw [hstopped] at hruns
    cases hruns
  unfold State.settleExpired
  dsimp only
  split
  · refine settled_orderKept _ _ ?_ ?_ ((recordShadow_touches _ d _ _).orderKept (by decide) hport)
    · exact (congrArg Port.slot (State.setPort_port_self s d _)).trans hempty
    · exact congrArg Port.settle (State.setPort_port_self s d _)
  · exact hport

theorem longRecalDone_orderKept (s : State) (d : DieId) : OrderKept s (State.longRecalDone d s) := by
  have hcleared : OrderKept s ((s.clearRecal d).setRecalOwed d false) :=
    ((clearRecal_touches s d).orderKept (by decide)).trans ((setRecalOwed_touches _ d false).orderKept (by decide))
  unfold State.longRecalDone
  dsimp only
  split
  · exact (hcleared.trans (bringupClaim_orderKept _ d _)).trans (abortBringup_orderKept _)
  · exact hcleared.trans (endRecalPhase_orderKept _)
  all_goals exact hcleared

/-- A completed SET leaves the port in INIT or SETTLING with its settle timer running (R74, R77). -/
theorem setDone_orderKept {s : State} {d : DieId} (index : BitVec 4) (value : BitVec 16)
    (hslot : (s.port d).slot = none) : OrderKept s (State.setDone d index value s) := by
  refine setPort_orderKept s d _ fun _ => ⟨fun h => ?_, fun h => ?_, fun _ => ?_⟩
  · rw [hslot] at h
    cases h
  · revert h
    dsimp only
    split <;> nofun
  · dsimp only
    split
    · exact .inr rfl
    · exact .inl rfl

theorem parkExitDone_orderKept (s : State) (d : DieId) (mode : WakeMode) : OrderKept s (State.parkExitDone d mode s) :=
  (((setBalance_touches s d _).orderKept (by decide)).trans (claimForward_orderKept _ d)).trans
    (((endWake_touches _).orderKept (by decide)).trans (endWakePhase_orderKept _))

theorem linkEmptied_orderKept (s : State) : OrderKept s s.linkEmptied := by
  have hports : OrderKept s (forDies (fun d t => t.setPort d { t.port d with readClaims := [] })
      (s.setLink { tags := [], answers := [], held := [] })) :=
    ((setLink_touches s _).orderKept (by decide)).trans (.forDies (fun d t => setClaims_orderKept t d _ (by rfl)) _)
  exact ((hports.trans ((setReads_touches _ _).orderKept (by decide))).trans
    ((setFlushes_touches _ _).orderKept (by decide))).trans ((setChan_touches _ _ (by rfl)).orderKept (by decide))

/-! ### Every command -/

theorem emptySlot_slot (s : State) (d : DieId) : ((s.emptySlot d).port d).slot = none :=
  congrArg Port.slot (State.setPort_port_self s d _)

theorem event_orderKept {s u : State} {touched : DieId → Bool} (h : Event s u touched) : OrderKept s u := by
  cases h with
  | linkReset => exact linkEmptied_orderKept s
  | park =>
      exact ((setChan_touches s _ (by rfl)).orderKept (by decide)).trans (claimAll_orderKept _ fun _ => .parkEnter)
  | relock => exact ((setChan_touches s _ (by rfl)).orderKept (by decide)).trans (beginPhase_orderKept _ _ _)
  | settle d runs => exact settleExpired_orderKept runs
  | fail d detail => exact failPort_orderKept s d detail
  | deadline r =>
    exact (((close_touches s _).orderKept (by decide)).trans ((logNote_touches _ _).orderKept (by decide))).trans
      (dropRead_orderKept _ r)
  | refreshDue d => exact (refreshDebited_touches s d).orderKept (by decide)
  | recalDue d => exact (setCare_touches s d _).orderKept (by decide)
  | poll => exact (polled_touches s).orderKept (by decide)
  | lineRead d _ _ _ _ _ slot => exact (emptySlot_orderKept slot).trans (takeLineRead_orderKept _ d _ _)
  | lineWrite d _ _ _ _ _ _ _ _ slot => exact (emptySlot_orderKept slot).trans (takeWriteStep_orderKept _ d _ _)
  | maskedWrite d _ _ _ _ _ _ _ _ _ slot => exact (emptySlot_orderKept slot).trans (takeWriteStep_orderKept _ d _ _)
  | refresh d _ _ _ slot =>
    exact (emptySlot_orderKept slot).trans ((setBalance_touches _ d _).orderKept (by decide))
  | shortRecal d _ _ _ slot => exact (emptySlot_orderKept slot).trans ((clearRecal_touches _ d).orderKept (by decide))
  | longRecal d _ _ _ slot => exact (emptySlot_orderKept slot).trans (longRecalDone_orderKept _ d)
  | tempRead d _ _ _ slot => exact (emptySlot_orderKept slot).trans ((takeBand_touches _ d _).orderKept (by decide))
  | set d index value _ _ slot =>
    exact (emptySlot_orderKept slot).trans (setDone_orderKept index value (emptySlot_slot s d))
  | dieReset d _ _ slot =>
    exact ((emptySlot_orderKept slot).trans (bringupClaim_orderKept _ d _)).trans (abortBringup_orderKept _)
  | parkEnter d _ _ _ slot =>
    have hparked : OrderKept s ((s.emptySlot d).setPort d { (s.emptySlot d).port d with state := .parked }) := by
      intro h
      have hsettle : ((s.emptySlot d).port d).settle = none :=
        (congrArg Port.settle (State.setPort_port_self s d _)).trans (settle_of_slot (p := s.port d) (h d) slot)
      exact setPort_orderKept _ d { (s.emptySlot d).port d with state := .parked }
        (fun _ => ordered_of_rests (emptySlot_slot s d) hsettle nofun)
        (emptySlot_orderKept slot h)
    exact (hparked.trans ((setBalance_touches _ d 0).orderKept (by decide))).trans (allParked_orderKept _)
  | parkExit d mode _ _ _ slot => exact (emptySlot_orderKept slot).trans (parkExitDone_orderKept _ d mode)

theorem setClocks_orderKept (s : State) (period : Nat) : OrderKept s (s.setClocks period) :=
  .forDies (fun d t => setClaims_orderKept t d _ (by rfl)) s

theorem accept_orderKept {bad : State → Nat → Bool} {configOnly : Bool} {accept : Nat → State → State}
    (k : Setting bad configOnly accept) (v : Nat) (s : State) : OrderKept s (accept v s) := by
  have hset (c : Settings) : OrderKept s (s.setSettings c) := id
  cases k with
  | highMark => exact (hset _).trans (finish_orderKept _ _ _)
  | lowMark => exact (hset _).trans (finish_orderKept _ _ _)
  | pullIn => exact (hset _).trans (finish_orderKept _ _ _)
  | idleDrainTime =>
      exact ((hset _).trans ((setDrain_touches _ _).orderKept (by decide))).trans (relevel_internal _).orderKept
  | dieCount => exact (hset _).trans (setClocks_orderKept _ _)
  | parkDelay => exact id
  | granularity => exact id
  | tempPoll => exact id
  | checkPolicy => exact id
  | readWaitLimit => exact id
  | wakeMode => exact id
  | maskedWrites => exact id
  | dieLinesLog2 => exact id
  | drainRetry => exact id
  | dieOpLimit => exact id

theorem writeField_orderKept (s : State) (p : ProfileId) (n : Fin 16) (v : BitVec 16) :
    OrderKept s (s.writeField p n v) := by
  have hset (c : Channel) : OrderKept s (s.setChan c) := id
  unfold State.writeField
  dsimp only
  split
  · exact (hset _).trans (setClocks_orderKept _ _)
  · exact hset _

theorem restarted_port (s : State) (d : DieId) :
    s.restarted.port d = Port.atReset (if s.present d then some (s.chan.profileA.field 0) else none) :=
  Vector.getElem_ofFn d.isLt

theorem service_orderKept {s t : State} (h : Service s t) : OrderKept s t := by
  have hqueue (u : State) (a : Answer) : OrderKept u (u.queue a) := id
  have hbegin (kind : ProcedureKind) (tag : Tag) : OrderKept s (s.beginProcedure kind tag) := id
  have hwake (u : State) : OrderKept u u.wake := (wake_touches u).orderKept (by decide)
  cases h with
  | answer a => exact hqueue s a
  | read h up free room =>
    have hjoined : OrderKept s (s.joinReads (s.readRecord h)) :=
      (((setReads_touches s _).orderKept (by decide)).trans (setClaims_orderKept _ _ _ (by rfl))).trans
        ((joinTag_touches _ _).orderKept (by decide))
    exact (hjoined.trans (hwake _)).trans (finish_orderKept _ _ _)
  | writeRests a => exact ((hqueue s a).trans (hwake _)).trans (finish_orderKept _ _ _)
  | writePosts a line m data i e =>
    exact ((((post_touches s i e line m).orderKept (by decide)).trans (hqueue _ a)).trans (hwake _)).trans
      (finish_orderKept _ _ _)
  | flush tag =>
    exact (((setFlushes_touches s _).orderKept (by decide)).trans ((joinTag_touches _ tag).orderKept (by decide))).trans
      (finish_orderKept _ _ _)
  | setting a v setting => exact (accept_orderKept setting v s).trans (hqueue _ a)
  | field a p n v => exact (writeField_orderKept s p n v).trans (hqueue _ a)
  | commit a p => exact hqueue s a
  | start tag =>
    have hbegun : OrderKept s ((s.beginProcedure (.start 0) tag).setPartState .bringup none) := id
    exact (hbegun.trans (claimAll_orderKept _ fun _ => .dieReset)).trans (finish_orderKept _ _ _)
  | rateSwitch target tag =>
    have hbegun :
        OrderKept s ((s.beginProcedure (.rateSwitch target) tag).setPartState .switching (some .quiesce)) := id
    unfold State.beginSwitch
    refine OrderKept.trans ?_ (finish_orderKept _ _ _)
    split <;> [exact hbegun.trans (enterClock_orderKept _); exact hbegun]
  | clearErrors a mask => exact hqueue s a
  | restart a =>
    intro _ d
    have hport : (s.restarted.queue a).port d = Port.atReset _ := restarted_port s d
    rw [hport]
    exact atReset_ordered _
  | forward h =>
    unfold State.beginForward
    exact (((hbegin _ h.tag).trans (hwake _)).trans (claimForwardNow_orderKept _)).trans (finish_orderKept _ _ _)
  | log a => exact hqueue s a

theorem portsOrdered_execKeeps : ExecKeeps PortsOrdered where
  held _ _ h := h
  sent _ h := h
  headerFault _ h := h
  arrive s h := (arrive_internal s).orderKept h
  dataFault _ _ h := h
  service _ _ _ k h := service_orderKept k h
  event s t k h := by
    cases k with
    | rests => exact h
    | powersOn =>
      intro d
      have hport : s.poweredOn.port d = Port.atReset _ := reset_port d
      rw [hport]
      exact atReset_ordered _
    | delaysParking => exact h
    | idles => exact (relevel_internal _).orderKept h
    | closes event => exact finish_orderKept _ _ _ (event_orderKept event h)

/-- Settles O57: a grant, a completion and a settle expiry each leave their port in order, and nothing else moves a
slot, a state or a settle timer but a failure and a return to OFF. -/
theorem stepKeepsPortsOrdered : Obligations.StepKeepsPortsOrdered :=
  fun _ _ hx h => portsOrdered_execKeeps.step (fun _ _ k => k) hx h

end Sys2Proof.Machine
end

section
/-! SUPPORT. The table's entries keep the order of R1, R3 and R4, and the counter stays ahead of every first WSN (R5,
R6). -/

namespace Sys2Proof.Machine

/-! ### Entries -/

/-- What R1, R3 and R4 say of the 32 entries. -/
structure EntriesSound (f : Fin 32 → Entry) : Prop where
  free : ∀ i, (f i).state = .free ↔ (f i).line = none
  opened : ∀ i j, (f i).state = .opened → (f j).state = .opened → (f i).line = (f j).line → i = j
  draining : ∀ i j, (f i).state = .draining → (f j).state = .draining → (f i).line = (f j).line → i = j
  first : ∀ i j, (f i).state = .opened → (f i).gen = .first → (f j).state = .draining → (f i).line ≠ (f j).line
  second : ∀ i, (f i).gen = .second →
    (f i).state = .opened ∧ ∃ j, (f j).state = .draining ∧ (f j).line = (f i).line

theorem tableSound_iff (s : State) : TableSound s ↔ EntriesSound s.entry :=
  ⟨fun ⟨h1, h2, h3, h4, h5⟩ => ⟨h1, h2, h3, h4, h5⟩, fun ⟨h1, h2, h3, h4, h5⟩ => ⟨h1, h2, h3, h4, h5⟩⟩

namespace EntriesSound

variable {f g : Fin 32 → Entry}

/-- Data, mask, WSNs and drain step do not matter. -/
theorem congr (h : EntriesSound f)
    (k : ∀ i, (g i).state = (f i).state ∧ (g i).line = (f i).line ∧ (g i).gen = (f i).gen) : EntriesSound g := by
  obtain ⟨h1, h2, h3, h4, h5⟩ := h
  constructor <;> intro i <;> grind

/-- A granted FIRST entry becomes DRAINING: no other of its line is OPEN or DRAINING (R2, R14). -/
theorem kept (h : EntriesSound f) (k : ∀ i, EntryKept (f i) (g i)) : EntriesSound g := by
  have hk (i : Fin 32) : (g i).line = (f i).line ∧ (g i).gen = (f i).gen ∧
      ((g i).state = (f i).state ∨ (f i).state = .opened ∧ (f i).gen = .first ∧ (g i).state = .draining) := by
    obtain h | ⟨ho, hf, step, h⟩ := k i
    · rw [h]; exact ⟨rfl, rfl, .inl rfl⟩
    · rw [h]; exact ⟨rfl, rfl, .inr ⟨ho, hf, rfl⟩⟩
  obtain ⟨h1, h2, h3, h4, h5⟩ := h
  constructor <;> intro i <;> grind

/-- The other entry of a SECOND entry's line is DRAINING. -/
theorem beside_second (h : EntriesSound f) {i j : Fin 32} (hij : j ≠ i) (hgen : (f j).gen = .second)
    (hline : (f j).line = (f i).line) : (f i).state = .draining := by
  obtain ⟨hopen, -⟩ := h.second j hgen
  cases hi : (f i).state with
  | free => rw [(h.free i).1 hi, ← h.free j, hopen] at hline; cases hline
  | opened => exact absurd (h.opened j i hopen hi hline) hij
  | draining => rfl

/-- An entry leaves the table, and the SECOND entry of its line becomes FIRST (R4, R15, R16). -/
theorem left (h : EntriesSound f) (i : Fin 32) (hi : g i = Entry.freed)
    (k : ∀ j, j ≠ i → g j =
      if (f j).state = .opened ∧ (f j).gen = .second ∧ (f j).line = (f i).line then { f j with gen := .first }
      else f j) :
    EntriesSound g := by
  have hfreed : (g i).state = .free ∧ (g i).line = none ∧ (g i).gen = .first := by rw [hi]; exact ⟨rfl, rfl, rfl⟩
  have hk (j : Fin 32) (hj : j ≠ i) : (g j).state = (f j).state ∧ (g j).line = (f j).line ∧
      ((g j).gen = (f j).gen ∧ ((f j).gen = .second → (f j).line ≠ (f i).line) ∨
        (g j).gen = .first ∧ (f j).gen = .second ∧ (f j).line = (f i).line) := by
    have hsecond := h.second j
    rw [k j hj]
    split <;> grind
  have hmate (j : Fin 32) (hj : j ≠ i) := h.beside_second hj
  obtain ⟨h1, h2, h3, h4, h5⟩ := h
  constructor <;> intro j <;> grind

/-- A DRAINING entry reverts to OPEN, and the SECOND entry of its line is absorbed (R18). -/
theorem reverted (h : EntriesSound f) (i : Fin 32) (hi : (f i).state = .draining)
    (hg : (g i).state = .opened ∧ (g i).line = (f i).line ∧ (g i).gen = .first)
    (k : ∀ j, j ≠ i → g j =
      if (f j).state = .opened ∧ (f j).gen = .second ∧ (f j).line = (f i).line then Entry.freed else f j) :
    EntriesSound g := by
  have hk (j : Fin 32) (hj : j ≠ i) :
      (g j).state = .free ∧ (g j).line = none ∧ (g j).gen = .first ∧ (f j).state = .opened ∨
        (g j).state = (f j).state ∧ (g j).line = (f j).line ∧ (g j).gen = (f j).gen ∧
          ¬ ((f j).state = .opened ∧ (f j).line = (f i).line) := by
    have hfirst := h.first j i
    rw [k j hj]
    split
    next hs => exact .inl ⟨rfl, rfl, rfl, hs.1⟩
    next hs =>
      refine .inr ⟨rfl, rfl, rfl, fun ⟨ho, hl⟩ => ?_⟩
      cases hgen : (f j).gen with
      | first => exact hfirst ho hgen hi hl
      | second => exact hs ⟨ho, hgen, hl⟩
  obtain ⟨h1, h2, h3, h4, h5⟩ := h
  constructor <;> intro j <;> grind

/-- A FREE entry is allocated to a line without an OPEN entry, as SECOND if one of the line is DRAINING (R4, R9). -/
theorem allocated (h : EntriesSound f) (i : Fin 32) (line : LineAddr) (hi : (f i).state = .free)
    (hline : ∀ j, (f j).state = .opened → (f j).line ≠ some line)
    (hg : (g i).state = .opened ∧ (g i).line = some line)
    (hgen : (g i).gen = .second ↔ ∃ j, (f j).state = .draining ∧ (f j).line = some line)
    (k : ∀ j, j ≠ i → g j = f j) : EntriesSound g := by
  obtain ⟨h1, h2, h3, h4, h5⟩ := h
  constructor <;> intro j <;> grind

end EntriesSound

/-! ### Operations on the table -/

/-- Look-ups that find nothing. -/
theorem of_findEntry_none {s : State} {p : Entry → Bool} (h : s.findEntry p = none) (j : Fin 32) :
    p (s.entry j) = false := by
  by_contra hp
  have hsome := findEntry_isSome.2 ⟨j, Bool.not_eq_false _ ▸ hp⟩
  rw [h] at hsome
  cases hsome

theorem isSecond_iff (e : Entry) (line : LineAddr) :
    (e.state == .opened && e.gen == .second && e.line == some line) = true ↔
      e.state = .opened ∧ e.gen = .second ∧ e.line = some line := by
  simp [and_assoc]

/-- Where a line has one OPEN entry at most, the promotion concerns its SECOND entry alone (R4). -/
theorem promote_entry {s : State} (line : LineAddr)
    (h : ∀ i j, (s.entry i).state = .opened → (s.entry j).state = .opened → (s.entry i).line = (s.entry j).line → i = j)
    (k : Fin 32) :
    (s.promote line).entry k =
      if (s.entry k).state = .opened ∧ (s.entry k).gen = .second ∧ (s.entry k).line = some line then
        { s.entry k with gen := .first }
      else s.entry k := by
  unfold State.promote
  split
  next j hj =>
    have hsecond := (isSecond_iff _ line).1 (findEntry_some hj)
    obtain ⟨hopen, -, hline⟩ := id hsecond
    rw [State.setEntry_entry]
    by_cases hjk : j = k
    · subst hjk
      rw [if_pos rfl, if_pos hsecond]
    · rw [if_neg hjk, if_neg]
      exact fun ⟨ho, _, hl⟩ => hjk (h j k hopen ho (hline.trans hl.symm))
  next hnone => rw [if_neg fun hk => by simpa [hk] using of_findEntry_none hnone k]

/-- What leaving makes of a sound table: the entry is FREE, and the SECOND entry of its line FIRST (R15, R16). -/
theorem leave_entry {s : State} (h : EntriesSound s.entry) (i : Fin 32) (lost : Bool) :
    (s.leave i lost).entry i = Entry.freed ∧ ∀ j, j ≠ i → (s.leave i lost).entry j =
      if (s.entry j).state = .opened ∧ (s.entry j).gen = .second ∧ (s.entry j).line = (s.entry i).line then
        { s.entry j with gen := .first }
      else s.entry j := by
  have hnotice (t : State) (w : Wsn) (k : Fin 32) : (t.notice lost w).entry k = t.entry k :=
    (notice_touches t lost w).entry (by decide) k
  have hself : (s.setEntry i Entry.freed).entry i = Entry.freed := State.setEntry_entry_self s i _
  have hother {j : Fin 32} (hj : j ≠ i) : (s.setEntry i Entry.freed).entry j = s.entry j := by
    rw [State.setEntry_entry, if_neg hj.symm]
  unfold State.leave
  dsimp only
  split
  next line hline =>
    have hopen : ∀ j k, ((s.setEntry i Entry.freed).entry j).state = .opened →
        ((s.setEntry i Entry.freed).entry k).state = .opened →
        ((s.setEntry i Entry.freed).entry j).line = ((s.setEntry i Entry.freed).entry k).line → j = k := by
      intro j k hj hk hjk
      have hji : j ≠ i := by rintro rfl; rw [hself] at hj; cases hj
      have hki : k ≠ i := by rintro rfl; rw [hself] at hk; cases hk
      rw [hother hji] at hj hjk
      rw [hother hki] at hk hjk
      exact h.opened j k hj hk hjk
    refine ⟨?_, fun j hj => ?_⟩
    · rw [hnotice, promote_entry line hopen, hself, if_neg]
      rintro ⟨hfreed, -⟩
      cases hfreed
    · rw [hnotice, promote_entry line hopen, hother hj, hline]
  next hnone =>
    refine ⟨(hnotice _ _ i).trans hself, fun j hj => ?_⟩
    rw [hnotice, hother hj, if_neg]
    rintro ⟨ho, -, hl⟩
    rw [hnone, ← h.free j, ho] at hl
    cases hl

/-- What a revert makes of a DRAINING entry of a sound table: it is OPEN and FIRST, and the SECOND entry of its line is
FREE (R18). -/
theorem revert_entry {s : State} (h : EntriesSound s.entry) (i : Fin 32) (hi : (s.entry i).state = .draining) :
    (((s.revert i).entry i).state = .opened ∧ ((s.revert i).entry i).line = (s.entry i).line ∧
      ((s.revert i).entry i).gen = .first ∧ ((s.revert i).entry i).firstWsn = (s.entry i).firstWsn) ∧
      ∀ j, j ≠ i → (s.revert i).entry j =
        if (s.entry j).state = .opened ∧ (s.entry j).gen = .second ∧ (s.entry j).line = (s.entry i).line then
          Entry.freed
        else s.entry j := by
  unfold State.revert
  dsimp only
  split
  next k hk =>
    obtain ⟨line, hline, hk⟩ := Option.bind_eq_some_iff.1 hk
    have hsecond := (isSecond_iff _ line).1 (findEntry_some hk)
    obtain ⟨hopen, -, hkline⟩ := id hsecond
    have hki : k ≠ i := by rintro rfl; rw [hopen] at hi; cases hi
    constructor
    · rw [State.setEntry_entry, if_neg hki, State.setEntry_entry_self]
      exact ⟨rfl, rfl, rfl, rfl⟩
    · intro j hj
      rw [State.setEntry_entry, State.setEntry_entry, if_neg hj.symm, hline]
      by_cases hkj : k = j
      · subst hkj
        rw [if_pos rfl, if_pos hsecond]
      · rw [if_neg hkj, if_neg]
        exact fun ⟨ho, _, hl⟩ => hkj (h.opened k j hopen ho (hkline.trans hl.symm))
  next hnone =>
    constructor
    · rw [State.setEntry_entry_self]
      exact ⟨rfl, rfl, rfl, rfl⟩
    · intro j hj
      rw [State.setEntry_entry, if_neg hj.symm, if_neg]
      rintro ⟨ho, hgen, hl⟩
      cases hline : (s.entry i).line with
      | none => rw [(h.free i).2 hline] at hi; cases hi
      | some line =>
        rw [hline, Option.bind_some] at hnone
        simpa [ho, hgen, hl, hline] using of_findEntry_none hnone j

/-! ### Every operation keeps the table sound -/

/-- The step from s to t keeps the table sound. -/
def SoundKept (s t : State) : Prop := EntriesSound s.entry → EntriesSound t.entry

namespace SoundKept

variable {s t u : State}

theorem refl (s : State) : SoundKept s s := id

theorem trans (h : SoundKept s t) (k : SoundKept t u) : SoundKept s u := k ∘ h

end SoundKept

theorem Touches.soundKept {bs : List Block} {s t : State} (h : Touches bs s t) (hb : .table ∉ bs) : SoundKept s t :=
  fun k => k.congr fun i => by rw [h.entry hb i]; exact ⟨rfl, rfl, rfl⟩

theorem Internal.soundKept {s t : State} (h : Internal s t) : SoundKept s t := fun k => k.kept h.entries

/-- A change of an entry's data, mask, WSNs, step or attempts. -/
theorem setEntry_soundKept (s : State) (i : Fin 32) (e : Entry)
    (h : (e.state, e.line, e.gen) = ((s.entry i).state, (s.entry i).line, (s.entry i).gen)) :
    SoundKept s (s.setEntry i e) := by
  simp only [Prod.mk.injEq] at h
  refine fun k => k.congr fun j => ?_
  rw [State.setEntry_entry]
  split
  next hij => rw [← hij]; exact h
  · exact ⟨rfl, rfl, rfl⟩

theorem leave_soundKept (s : State) (i : Fin 32) (lost : Bool) : SoundKept s (s.leave i lost) := fun h =>
  have ⟨hself, hother⟩ := leave_entry h i lost
  h.left i hself hother

theorem revertDie_soundKept (s : State) (d : DieId) : SoundKept s (s.revertDie d) := by
  unfold State.revertDie
  refine List.foldlRecOn (motive := SoundKept s) _ _ (.refl s) fun t ht i _ => ht.trans fun h => ?_
  split
  next hi =>
    obtain ⟨⟨hopen, hline, hfirst, -⟩, hother⟩ := revert_entry h i hi.1
    exact h.reverted i hi.1 ⟨hopen, hline, hfirst⟩ hother
  · exact h

/-- What the table's decision for a WRITE has found (R7): no entry stands too far behind the counter, and the entry
taken is the line's OPEN one, or a FREE one where the line has none. -/
theorem posting_entry {s : State} {line : LineAddr} {m : Mask} {data : LineData} {i : Fin 32} {e : Entry}
    (h : s.posting line m data = .entry i e) :
    s.tooFar = false ∧
      ((s.openEntry line = some i ∧ e = (s.entry i).merged m data s.table.nextWsn) ∨
        (s.openEntry line = none ∧ s.freeEntry = some i ∧
          e = Entry.allocated line (s.newGeneration line) m data s.table.nextWsn)) := by
  unfold State.posting at h
  dsimp only at h
  split at h
  · cases h
  · split at h
    · cases h
    next hfar =>
      refine ⟨Bool.eq_false_iff.2 hfar, ?_⟩
      split at h
      next j ho => cases h; exact .inl ⟨ho, rfl⟩
      next ho =>
        split at h
        next j hf => cases h; exact .inr ⟨ho, hf, rfl⟩
        · cases h

theorem newGeneration_second_iff (s : State) (line : LineAddr) :
    s.newGeneration line = .second ↔ ∃ j, (s.entry j).state = .draining ∧ (s.entry j).line = some line := by
  have hsome : (s.drainingEntry line).isSome = true ↔
      ∃ j, (s.entry j).state = .draining ∧ (s.entry j).line = some line := by
    simp [State.drainingEntry, findEntry_isSome]
  rw [← hsome]
  unfold State.newGeneration
  split <;> simp_all

theorem post_entry (s : State) (i : Fin 32) (e : Entry) (line : LineAddr) (m : Mask) (j : Fin 32) :
    (s.post i e line m).entry j = if i = j then e else s.entry j := by
  unfold State.post
  dsimp only
  split <;> exact State.setEntry_entry s i j e

theorem post_soundKept {s : State} {line : LineAddr} {m : Mask} {data : LineData} {i : Fin 32} {e : Entry}
    (h : s.posting line m data = .entry i e) : SoundKept s (s.post i e line m) := by
  intro k
  have hother (j : Fin 32) (hj : j ≠ i) : (s.post i e line m).entry j = s.entry j := by
    rw [post_entry, if_neg hj.symm]
  have hself : (s.post i e line m).entry i = e := by rw [post_entry, if_pos rfl]
  obtain ⟨-, ⟨hopen, he⟩ | ⟨hnone, hfree, he⟩⟩ := posting_entry h
  · refine k.congr fun j => ?_
    by_cases hj : j = i
    · rw [hj, hself, he]; exact ⟨rfl, rfl, rfl⟩
    · rw [hother j hj]; exact ⟨rfl, rfl, rfl⟩
  · refine k.allocated i line (by simpa using findEntry_some hfree) (fun j ho hl => ?_) ?_ ?_ hother
    · simpa [ho, hl] using of_findEntry_none hnone j
    · rw [hself, he]; exact ⟨rfl, rfl⟩
    · rw [hself, he]; exact newGeneration_second_iff s line

/-! ### Every operation keeps the counter ahead -/

/-- From s to t no first WSN changes and no entry is taken, under the same counter. -/
structure WsnsKept (s t : State) : Prop where
  counter : t.table.nextWsn = s.table.nextWsn
  live : ∀ i, (t.entry i).state ≠ .free → (s.entry i).state ≠ .free ∧ (t.entry i).firstWsn = (s.entry i).firstWsn

namespace WsnsKept

variable {s t u : State}

theorem refl (s : State) : WsnsKept s s := ⟨rfl, fun _ h => ⟨h, rfl⟩⟩

theorem trans (h : WsnsKept s t) (k : WsnsKept t u) : WsnsKept s u := by
  refine ⟨k.counter.trans h.counter, fun i hi => ?_⟩
  obtain ⟨ht, htu⟩ := k.live i hi
  obtain ⟨hs, hst⟩ := h.live i ht
  exact ⟨hs, htu.trans hst⟩

theorem ordered (h : WsnsKept s t) (k : WsnsOrdered s) : WsnsOrdered t := by
  intro i hi
  obtain ⟨hs, hw⟩ := h.live i hi
  rw [hw, h.counter]
  exact k i hs

end WsnsKept

theorem Touches.wsnsKept {bs : List Block} {s t : State} (h : Touches bs s t) (hb : .table ∉ bs) : WsnsKept s t :=
  ⟨congrArg Table.nextWsn (h.table hb), fun i hi => by rw [h.entry hb i] at hi ⊢; exact ⟨hi, rfl⟩⟩

theorem Internal.wsnsKept {s t : State} (h : Internal s t) : WsnsKept s t := by
  refine ⟨h.nextWsn, fun i hi => ?_⟩
  obtain k | ⟨ho, -, step, k⟩ := h.entries i
  · rw [k] at hi ⊢; exact ⟨hi, rfl⟩
  · rw [k]; exact ⟨by rw [ho]; nofun, rfl⟩

theorem setEntry_wsnsKept (s : State) (i : Fin 32) (e : Entry)
    (h : e.state ≠ .free → (s.entry i).state ≠ .free ∧ e.firstWsn = (s.entry i).firstWsn) :
    WsnsKept s (s.setEntry i e) := by
  refine ⟨rfl, fun j hj => ?_⟩
  rw [State.setEntry_entry] at hj ⊢
  split at hj
  next hij => rw [if_pos hij, ← hij]; exact h hj
  next hij => rw [if_neg hij]; exact ⟨hj, rfl⟩

theorem free_wsnsKept (s : State) (i : Fin 32) : WsnsKept s (s.setEntry i Entry.freed) :=
  setEntry_wsnsKept s i _ fun h => absurd rfl h

theorem promote_wsnsKept (s : State) (line : LineAddr) : WsnsKept s (s.promote line) := by
  unfold State.promote
  split
  · exact setEntry_wsnsKept s _ _ fun h => ⟨h, rfl⟩
  · exact .refl s

theorem leave_wsnsKept (s : State) (i : Fin 32) (lost : Bool) : WsnsKept s (s.leave i lost) := by
  unfold State.leave
  dsimp only
  split
  · exact ((free_wsnsKept s i).trans (promote_wsnsKept _ _)).trans ((notice_touches _ _ _).wsnsKept (by decide))
  · exact (free_wsnsKept s i).trans ((notice_touches _ _ _).wsnsKept (by decide))

theorem revert_wsnsKept {s : State} {i : Fin 32} (hi : (s.entry i).state = .draining) : WsnsKept s (s.revert i) := by
  have hlive : (s.entry i).state ≠ .free := by rw [hi]; nofun
  unfold State.revert
  dsimp only
  split
  · refine (setEntry_wsnsKept s i _ ?_).trans (free_wsnsKept _ _)
    exact fun _ => ⟨hlive, rfl⟩
  · exact setEntry_wsnsKept s i _ fun _ => ⟨hlive, rfl⟩

theorem revertDie_wsnsKept (s : State) (d : DieId) : WsnsKept s (s.revertDie d) := by
  unfold State.revertDie
  refine List.foldlRecOn (motive := WsnsKept s) _ _ (.refl s) fun t ht i _ => ht.trans ?_
  split
  next hi => exact revert_wsnsKept hi.1
  · exact .refl t

theorem precedes_succ_self (n : Wsn) : precedes n (n + 1) = true := by
  simp [precedes]

/-- The bound of R7 step 2 leaves the advanced counter less than 2^31 ahead. -/
theorem precedes_succ {f n : Wsn} (h : precedes f n = true) (hfar : tooFarBehind n f = false) :
    precedes f (n + 1) = true := by
  simp only [precedes, tooFarBehind, Bool.and_eq_true, decide_eq_true_eq, bne_iff_ne, decide_eq_false_iff_not] at *
  obtain ⟨-, hne⟩ := h
  constructor
  · bv_omega
  · rintro rfl
    bv_omega

theorem post_ordered {s : State} {line : LineAddr} {m : Mask} {data : LineData} {i : Fin 32} {e : Entry}
    (h : s.posting line m data = .entry i e) (k : WsnsOrdered s) : WsnsOrdered (s.post i e line m) := by
  obtain ⟨hfar, hposted⟩ := posting_entry h
  have hahead (j : Fin 32) (hj : (s.entry j).state ≠ .free) :
      precedes (s.entry j).firstWsn (s.table.nextWsn + 1) = true := by
    refine precedes_succ (k j hj) (Bool.eq_false_iff.2 fun hb => ?_)
    have hlive : (s.entry j).live = true := by simpa [Entry.live] using hj
    refine absurd (List.any_eq_true.2 ⟨j, List.mem_finRange j, ?_⟩) (Bool.eq_false_iff.1 hfar)
    rw [hlive, hb]
    rfl
  have hcounter : (s.post i e line m).table.nextWsn = s.table.nextWsn + 1 := by
    unfold State.post
    dsimp only
    split <;> rfl
  intro j hj
  rw [post_entry] at hj ⊢
  rw [hcounter]
  split at hj
  next hij =>
    rw [if_pos hij]
    obtain ⟨hopen, rfl⟩ | ⟨-, -, rfl⟩ := hposted
    · exact hahead i hj
    · exact precedes_succ_self _
  next hij =>
    rw [if_neg hij]
    exact hahead j hj

/-! ### Every command -/

/-- From s to t both orders of the table are kept. -/
structure TableKept (s t : State) : Prop where
  sound : EntriesSound s.entry → EntriesSound t.entry
  wsns : WsnsOrdered s → WsnsOrdered t

namespace TableKept

variable {s t u : State}

theorem refl (s : State) : TableKept s s := ⟨id, id⟩

theorem trans (h : TableKept s t) (k : TableKept t u) : TableKept s u := ⟨k.sound ∘ h.sound, k.wsns ∘ h.wsns⟩

theorem of_kept (h : SoundKept s t) (k : WsnsKept s t) : TableKept s t := ⟨h, k.ordered⟩

end TableKept

theorem Touches.tableKept {bs : List Block} {s t : State} (h : Touches bs s t) (hb : .table ∉ bs) : TableKept s t :=
  .of_kept (h.soundKept hb) (h.wsnsKept hb)

theorem Internal.tableKept {s t : State} (h : Internal s t) : TableKept s t := .of_kept h.soundKept h.wsnsKept

theorem finish_tableKept (s before : State) (touched : DieId → Bool) : TableKept s (s.finish before touched) :=
  (finish_internal s before touched).tableKept

theorem setEntry_tableKept (s : State) (i : Fin 32) (e : Entry)
    (h : (e.state, e.line, e.gen, e.firstWsn) =
      ((s.entry i).state, (s.entry i).line, (s.entry i).gen, (s.entry i).firstWsn)) :
    TableKept s (s.setEntry i e) := by
  simp only [Prod.mk.injEq] at h
  obtain ⟨hstate, hline, hgen, hwsn⟩ := h
  exact .of_kept (setEntry_soundKept s i e (by rw [hstate, hline, hgen]))
    (setEntry_wsnsKept s i e fun hlive => ⟨hstate ▸ hlive, hwsn⟩)

theorem leave_tableKept (s : State) (i : Fin 32) (lost : Bool) : TableKept s (s.leave i lost) :=
  .of_kept (leave_soundKept s i lost) (leave_wsnsKept s i lost)

theorem lose_tableKept (s : State) (i : Fin 32) (cause : LossCause) : TableKept s (s.lose i cause) := by
  unfold State.lose
  dsimp only
  refine TableKept.trans ?_ (leave_tableKept _ i true)
  split
  · exact (reportLoss_touches s _ _ _).tableKept (by decide)
  · exact .refl s

theorem failPort_tableKept (s : State) (d : DieId) (detail : Status) : TableKept s (s.failPort d detail) := by
  have hport (n : LogNote) (p : Port) :
      TableKept s ((((s.logNote n).latch .dieFailed).setPort d p).revertDie d) :=
    (((noteAndLatch_touches s n _).tableKept (by decide)).trans ((setPort_touches _ d p).tableKept (by decide))).trans
      (.of_kept (revertDie_soundKept _ d) (revertDie_wsnsKept _ d))
  unfold State.failPort
  dsimp only
  split
  · exact ((hport _ _).trans ((addFailed_touches _ d).tableKept (by decide))).trans
      ((abortBringup_touches _).tableKept (by decide))
  · exact (hport _ _).trans ((enterStopped_touches _ _).tableKept (by decide))

theorem takeWriteStep_tableKept (s : State) (d : DieId) (cl : Claimant) (stored : Bool) :
    TableKept s (s.takeWriteStep d cl stored) := by
  unfold State.takeWriteStep
  split
  · split
    · exact leave_tableKept s _ false
    · unfold State.retryOrLose
      dsimp only
      split
      · exact (setEntry_tableKept s _ _ (by rfl)).trans ((setDrainClaim_touches _ d _).tableKept (by decide))
      · exact lose_tableKept s _ _
  all_goals exact .refl s

theorem takeLineRead_tableKept (s : State) (d : DieId) (cl : Claimant) (data : Option LineData) :
    TableKept s (s.takeLineRead d cl data) := by
  unfold State.takeLineRead
  split
  · split
    · exact (answerRead_touches s _ _).tableKept (by decide)
    · exact .refl s
  · split
    · exact (setEntry_tableKept s _ _ (by rfl)).trans ((setDrainClaim_touches _ d _).tableKept (by decide))
    · exact lose_tableKept s _ _
  all_goals exact .refl s

/-- Only failures, drains and resets concern the table. -/
theorem event_tableKept {s u : State} {touched : DieId → Bool} (h : Event s u touched) : TableKept s u := by
  have hslot (d : DieId) : TableKept s (s.emptySlot d) := (emptySlot_touches s d).tableKept (by decide)
  cases h with
  | linkReset => exact (linkEmptied_touches s).tableKept (by decide)
  | park =>
    exact ((setChan_touches s _ (by rfl)).tableKept (by decide)).trans
      ((claimAll_touches _ fun _ => .parkEnter).tableKept (by decide))
  | relock =>
    exact ((setChan_touches s _ (by rfl)).tableKept (by decide)).trans
        ((beginPhase_touches _ _ _).tableKept (by decide))
  | settle d => exact (settleExpired_touches s d).tableKept (by decide)
  | fail d detail => exact failPort_tableKept s d detail
  | deadline r =>
    exact (((close_touches s _).tableKept (by decide)).trans ((logNote_touches _ _).tableKept (by decide))).trans
      ((dropRead_touches _ r).tableKept (by decide))
  | refreshDue d => exact (refreshDebited_touches s d).tableKept (by decide)
  | recalDue d => exact (setCare_touches s d _).tableKept (by decide)
  | poll => exact (polled_touches s).tableKept (by decide)
  | lineRead d => exact (hslot d).trans (takeLineRead_tableKept _ d _ _)
  | lineWrite d => exact (hslot d).trans (takeWriteStep_tableKept _ d _ _)
  | maskedWrite d => exact (hslot d).trans (takeWriteStep_tableKept _ d _ _)
  | refresh d => exact (hslot d).trans ((setBalance_touches _ d _).tableKept (by decide))
  | shortRecal d => exact (hslot d).trans ((clearRecal_touches _ d).tableKept (by decide))
  | longRecal d => exact (hslot d).trans ((longRecalDone_touches _ d).tableKept (by decide))
  | tempRead d => exact (hslot d).trans ((takeBand_touches _ d _).tableKept (by decide))
  | set d => exact (hslot d).trans ((setPort_touches _ d _).tableKept (by decide))
  | dieReset d =>
    exact ((hslot d).trans ((bringupClaim_touches _ d _).tableKept (by decide))).trans
      ((abortBringup_touches _).tableKept (by decide))
  | parkEnter d => exact (hslot d).trans ((parkEnterDone_touches _ d).tableKept (by decide))
  | parkExit d mode => exact (hslot d).trans ((parkExitDone_touches _ d mode).tableKept (by decide))

theorem accept_tableKept {bad : State → Nat → Bool} {configOnly : Bool} {accept : Nat → State → State}
    (k : Setting bad configOnly accept) (v : Nat) (s : State) : TableKept s (accept v s) := by
  have hset (c : Settings) : TableKept s (s.setSettings c) := ⟨id, id⟩
  cases k with
  | highMark => exact (hset _).trans (finish_tableKept _ _ _)
  | lowMark => exact (hset _).trans (finish_tableKept _ _ _)
  | pullIn => exact (hset _).trans (finish_tableKept _ _ _)
  | idleDrainTime =>
    exact ((hset _).trans ((setDrain_touches _ _).tableKept (by decide))).trans (relevel_internal _).tableKept
  | dieCount => exact (hset _).trans ((setClocks_touches _ _).tableKept (by decide))
  | parkDelay => exact ⟨id, id⟩
  | granularity => exact ⟨id, id⟩
  | tempPoll => exact ⟨id, id⟩
  | checkPolicy => exact hset _
  | readWaitLimit => exact hset _
  | wakeMode => exact hset _
  | maskedWrites => exact hset _
  | dieLinesLog2 => exact hset _
  | drainRetry => exact hset _
  | dieOpLimit => exact hset _

theorem writeField_tableKept (s : State) (p : ProfileId) (n : Fin 16) (v : BitVec 16) :
    TableKept s (s.writeField p n v) := by
  have hset (c : Channel) : TableKept s (s.setChan c) := ⟨id, id⟩
  unfold State.writeField
  dsimp only
  split
  · exact (hset _).trans ((setClocks_touches _ _).tableKept (by decide))
  · exact hset _

/-- An empty table is in order, whatever the counter. -/
theorem tableKept_of_freed {s t : State} (h : ∀ i, t.entry i = Entry.freed) : TableKept s t := by
  have hstate (i : Fin 32) : (t.entry i).state = .free := by rw [h]; rfl
  have hline (i : Fin 32) : (t.entry i).line = none := by rw [h]; rfl
  have hgen (i : Fin 32) : (t.entry i).gen = .first := by rw [h]; rfl
  refine ⟨fun _ => ?_, fun _ i hi => absurd (hstate i) hi⟩
  constructor <;> simp [hstate, hline, hgen]

theorem service_tableKept {s t : State} (h : Service s t) : TableKept s t := by
  have hqueue (u : State) (a : Answer) : TableKept u (u.queue a) := ⟨id, id⟩
  have hwake (u : State) : TableKept u u.wake := (wake_touches u).tableKept (by decide)
  have hbegin (kind : ProcedureKind) (tag : Tag) : TableKept s (s.beginProcedure kind tag) :=
    (beginProcedure_touches s kind tag).tableKept (by decide)
  cases h with
  | answer a => exact hqueue s a
  | read h =>
    have hjoined : TableKept s (s.joinReads (s.readRecord h)) := ⟨id, id⟩
    exact (hjoined.trans (hwake _)).trans (finish_tableKept _ _ _)
  | writeRests a => exact ((hqueue s a).trans (hwake _)).trans (finish_tableKept _ _ _)
  | writePosts a line m data i e up posts =>
    have hposted : TableKept s (s.post i e line m) := ⟨post_soundKept posts, post_ordered posts⟩
    exact ((hposted.trans (hqueue _ a)).trans (hwake _)).trans (finish_tableKept _ _ _)
  | flush tag =>
    have hjoined : TableKept s
        ((s.setFlushes (s.flushes ++ [{ tag := tag, boundary := s.table.nextWsn, loss := false }])).joinTag tag) :=
      ⟨id, id⟩
    exact hjoined.trans (finish_tableKept _ _ _)
  | setting a v setting => exact (accept_tableKept setting v s).trans (hqueue _ a)
  | field a p n v => exact (writeField_tableKept s p n v).trans (hqueue _ a)
  | commit a p => exact ⟨id, id⟩
  | start tag =>
    exact (((hbegin _ tag).trans ((setPartState_touches _ _ _).tableKept (by decide))).trans
      ((claimAll_touches _ fun _ => .dieReset).tableKept (by decide))).trans (finish_tableKept _ _ _)
  | rateSwitch target tag =>
    have hbegun : TableKept s ((s.beginProcedure (.rateSwitch target) tag).setPartState .switching (some .quiesce)) :=
      (hbegin _ tag).trans ((setPartState_touches _ _ _).tableKept (by decide))
    unfold State.beginSwitch
    refine TableKept.trans ?_ (finish_tableKept _ _ _)
    split
    · exact hbegun.trans ((enterClock_touches _).tableKept (by decide))
    · exact hbegun
  | clearErrors a mask => exact ⟨id, id⟩
  | restart a => exact tableKept_of_freed fun i => reset_entry i
  | forward h =>
    unfold State.beginForward
    exact (((hbegin _ h.tag).trans (hwake _)).trans ((claimForwardNow_touches _).tableKept (by decide))).trans
      (finish_tableKept _ _ _)
  | log a => exact ⟨id, id⟩

/-- Whatever a command does after a state s₀, both orders are kept from s₀ on. -/
theorem tableKept_execKeeps (s₀ : State) : ExecKeeps (TableKept s₀) where
  held _ _ h := h.trans ⟨id, id⟩
  sent _ h := h.trans ⟨id, id⟩
  headerFault _ h := h.trans ⟨id, id⟩
  arrive s h := by
    have harrived : TableKept s s.arrived := ⟨id, id⟩
    exact (h.trans harrived).trans (arrive_internal s).tableKept
  dataFault _ _ h := h.trans ⟨id, id⟩
  service _ _ _ k h := h.trans (service_tableKept k)
  event s t k h := by
    refine h.trans ?_
    cases k with
    | rests => exact .refl s
    | powersOn => exact tableKept_of_freed fun i => reset_entry i
    | delaysParking => exact ⟨id, id⟩
    | idles => exact ((setDrain_touches s _).tableKept (by decide)).trans (relevel_internal _).tableKept
    | closes event => exact (event_tableKept event).trans (finish_tableKept _ _ _)

/-- Settles O58: an entry is posted, granted, left, promoted or reverted, and each keeps both orders. -/
theorem stepKeepsTableSound : Obligations.StepKeepsTableSound := by
  intro s t hx
  have hkept : TableKept s t :=
    (tableKept_execKeeps s).step (P := TableKept s) (fun _ _ k => k.trans ⟨id, id⟩) hx (.refl s)
  exact ⟨fun h => (tableSound_iff t).2 (hkept.sound ((tableSound_iff s).1 h)), hkept.wsns⟩

end Sys2Proof.Machine
end

section
/-! SUPPORT. The Tag Set holds the tags of the outstanding requests, and the Response Queue a place for each (R153,
R154); the procedure fits the part state (R115). -/

namespace Sys2Proof.Machine

/-! ### The link alone -/

/-- The Tag Set is what is owed, and there is a place for each answer. -/
structure Link.Holds (l : Link) (owed : List Tag) : Prop where
  nodup : l.tags.Nodup
  perm : l.tags.Perm owed
  places : l.answers.length + l.tags.length ≤ 24

/-- The link after the answer of an outstanding request (R153). -/
def Link.closed (l : Link) (a : Answer) : Link :=
  { l with tags := l.tags.filter (· != a.tag), answers := l.answers ++ [a] }

theorem close_link (s : State) (a : Answer) : (s.close a).link = s.link.closed a := rfl

namespace Link.Holds

variable {l : Link} {owed rest : List Tag}

theorem congr (h : l.Holds owed) (hp : owed.Perm rest) : l.Holds rest := ⟨h.nodup, h.perm.trans hp, h.places⟩

theorem sent (h : l.Holds owed) : Link.Holds { l with answers := l.answers.tail } owed := by
  refine ⟨h.nodup, h.perm, le_trans ?_ h.places⟩
  simp only [List.length_tail]
  omega

theorem queued (h : l.Holds owed) (hplace : l.answers.length + l.tags.length < 24) (a : Answer) :
    Link.Holds { l with answers := l.answers ++ [a] } owed := by
  refine ⟨h.nodup, h.perm, ?_⟩
  simp only [List.length_append, List.length_singleton]
  omega

theorem joined (h : l.Holds owed) (hplace : l.answers.length + l.tags.length < 24) {tag : Tag} (free : tag ∉ l.tags) :
    Link.Holds { l with tags := l.tags ++ [tag] } (owed ++ [tag]) := by
  refine ⟨?_, h.perm.append_right _, ?_⟩
  · rw [List.nodup_append]
    refine ⟨h.nodup, List.nodup_singleton _, fun a ha b hb hab => free ?_⟩
    rwa [← List.mem_singleton.1 hb, ← hab]
  · simp only [List.length_append, List.length_singleton]
    omega

/-- An answered request gives its tag and its place up. -/
theorem closed {a : Answer} (h : l.Holds (a.tag :: rest)) : (l.closed a).Holds rest := by
  have howed : (a.tag :: rest).Nodup := (h.perm.nodup_iff).1 h.nodup
  obtain ⟨hfresh, -⟩ := List.nodup_cons.1 howed
  have hrest : (a.tag :: rest).filter (· != a.tag) = rest := by
    rw [List.filter_cons_of_neg (by simp), List.filter_eq_self]
    intro b hb
    rw [bne_iff_ne]
    rintro rfl
    exact hfresh hb
  have hperm : (l.tags.filter (· != a.tag)).Perm rest := hrest ▸ h.perm.filter _
  refine ⟨h.nodup.filter _, hperm, ?_⟩
  have hlength := h.perm.length_eq
  have hplaces := h.places
  rw [List.length_cons] at hlength
  simp only [Link.closed, List.length_append, List.length_cons, List.length_nil, hperm.length_eq]
  omega

theorem closedAll {answers : List Answer} {s : State} (h : s.link.Holds (answers.map Answer.tag ++ rest)) :
    (s.closeAll answers).link.Holds rest := by
  unfold State.closeAll
  induction answers generalizing s with
  | nil => exact h
  | cons a answers ih => exact ih (s := s.close a) (close_link s a ▸ closed h)

end Link.Holds

/-! ### The outstanding requests -/

/-- The tags of the listed reads, the listed flushes and the procedure (R153). -/
def State.owed (s : State) : List Tag :=
  s.reads.list.map ReadRecord.tag ++ s.flushes.map FlushRecord.tag ++ s.procedureTags

/-- The Tag Set and the Read Wait List are in order. -/
def Held (s : State) : Prop := s.link.Holds s.owed ∧ ClaimsNumbered s

/-- The procedure fits the part state (R115). -/
def Channel.Fits (c : Channel) : Prop := procedureFits c.partState c.procedure = true

theorem tagsHeld_iff (s : State) : TagsHeld s ↔ Held s ∧ s.chan.Fits := by
  constructor
  · rintro ⟨hnodup, hperm, hplaces, hclaims, hbelow, hfits⟩
    exact ⟨⟨⟨hnodup, hperm, hplaces⟩, hclaims, hbelow⟩, hfits⟩
  · rintro ⟨⟨⟨hnodup, hperm, hplaces⟩, hclaims, hbelow⟩, hfits⟩
    exact ⟨hnodup, hperm, hplaces, hclaims, hbelow, hfits⟩

/-- The procedure's claim on the Tag Set. -/
def Channel.procedureTags (c : Channel) : List Tag :=
  match c.procedure with
  | some p => if p.suppressed then [] else [p.tag]
  | none => []

theorem procedureTags_chan (s : State) : s.procedureTags = s.chan.procedureTags := rfl

/-- Only the link, the two lists and the procedure's tag matter. -/
theorem Held.congr {s t : State} (h : Held s) (hlink : t.link = s.link) (hreads : t.reads = s.reads)
    (hflushes : t.flushes = s.flushes) (hproc : t.chan.procedureTags = s.chan.procedureTags) : Held t := by
  obtain ⟨hholds, hclaims⟩ := h
  refine ⟨?_, hclaims.congr hreads⟩
  rwa [State.owed, procedureTags_chan, hlink, hreads, hflushes, hproc, ← procedureTags_chan]

/-- Marks, states and captured bytes of the listed reads do not matter. -/
theorem Held.setReads {s : State} (h : Held s) {l : List ReadRecord}
    (htag : l.map ReadRecord.tag = s.reads.list.map ReadRecord.tag)
    (hclaim : l.map ReadRecord.claim = s.reads.list.map ReadRecord.claim) :
    Held (s.setReads { s.reads with list := l }) := by
  obtain ⟨hholds, hnodup, hbelow⟩ := h
  refine ⟨?_, ?_, fun r hr => ?_⟩
  · have howed : (s.setReads { s.reads with list := l }).owed = s.owed := by
      simp only [State.owed, State.setReads_reads, htag]
      rfl
    rw [howed]
    exact hholds
  · rw [State.setReads_reads, hclaim]
    exact hnodup
  · have hmem : r.claim ∈ s.reads.list.map ReadRecord.claim := hclaim ▸ List.mem_map_of_mem hr
    obtain ⟨q, hq, hqr⟩ := List.mem_map.1 hmem
    rw [← hqr]
    exact hbelow q hq

/-- A listed record and the rest of the list. -/
theorem perm_filter_claim {l : List ReadRecord} (h : (l.map ReadRecord.claim).Nodup) {r : ReadRecord} (hr : r ∈ l) :
    l.Perm (r :: l.filter (·.claim != r.claim)) := by
  refine (List.filter_append_perm (·.claim == r.claim) l).symm.trans ?_
  have hsingle : l.filter (·.claim == r.claim) = [r] := by
    refine List.perm_singleton.1 ?_
    rw [List.perm_ext_iff_of_nodup ((List.Nodup.of_map _ h).filter _) (List.nodup_singleton r)]
    intro q
    rw [List.mem_filter, beq_iff_eq, List.mem_singleton]
    exact ⟨fun ⟨hq, hqr⟩ => claim_unique h hq hr hqr, fun hq => ⟨hq ▸ hr, hq ▸ rfl⟩⟩
  rw [hsingle, List.singleton_append]
  exact .refl _

/-- A listed read is answered and leaves the list (R45, R153). -/
theorem Held.answered {s t : State} (h : Held s) {r : ReadRecord} (hr : r ∈ s.reads.list) {a : Answer}
    (ha : a.tag = r.tag) (hlink : t.link = s.link.closed a)
    (hreads : t.reads = { s.reads with list := s.reads.list.filter (·.claim != r.claim) })
    (hflushes : t.flushes = s.flushes) (hproc : t.chan.procedureTags = s.chan.procedureTags) : Held t := by
  obtain ⟨hholds, hnodup, hbelow⟩ := h
  refine ⟨?_, ?_, fun q hq => ?_⟩
  · rw [hlink]
    refine Link.Holds.closed (hholds.congr ?_)
    have hperm := (perm_filter_claim hnodup hr).map ReadRecord.tag
    rw [State.owed, State.owed, procedureTags_chan, procedureTags_chan, hproc, hflushes, hreads, ha]
    exact (hperm.append_right _).append_right _
  · rw [hreads]
    exact hnodup.sublist (List.filter_sublist.map _)
  · rw [hreads] at hq ⊢
    exact hbelow q (List.mem_of_mem_filter hq)

/-- Listed flushes are answered and leave the list (R65, R153). -/
theorem Held.flushed {s : State} (h : Held s) {l : List FlushRecord} {answers : List Answer}
    (hperm : (s.flushes.map FlushRecord.tag).Perm (answers.map Answer.tag ++ l.map FlushRecord.tag)) :
    Held ((s.setFlushes l).closeAll answers) := by
  obtain ⟨hholds, hclaims⟩ := h
  have hrest := closeAll_touches (s.setFlushes l) answers
  refine ⟨?_, hclaims.congr (hrest.reads (by decide))⟩
  have howed : ((s.setFlushes l).closeAll answers).owed =
      s.reads.list.map ReadRecord.tag ++ l.map FlushRecord.tag ++ s.procedureTags := by
    rw [State.owed, procedureTags_chan, hrest.reads (by decide), hrest.flushes (by decide), hrest.chan (by decide)]
    rfl
  rw [howed]
  refine Link.Holds.closedAll (s := s.setFlushes l) (hholds.congr ?_)
  rw [State.owed, ← List.append_assoc]
  refine .append_right _ ?_
  refine (hperm.append_left _).trans ?_
  rw [← List.append_assoc, ← List.append_assoc]
  exact .append_right _ List.perm_append_comm

/-! ### The procedure -/

theorem endProcedure_procedure (s : State) (st : Status) (w : BitVec 32) :
    (s.endProcedure st w).chan.procedure = none := by
  unfold State.endProcedure
  split
  · assumption
  · dsimp only
    split <;> rfl

theorem fits_of_none {c : Channel} (h : c.procedure = none) : c.Fits := by
  rw [Channel.Fits, h]
  cases c.partState <;> rfl

/-- The procedure's answer gives its tag up; a suppressed one holds none (R115, R153). -/
theorem Held.endProcedure {s : State} (h : Held s) (st : Status) (w : BitVec 32) : Held (s.endProcedure st w) := by
  obtain ⟨hholds, hclaims⟩ := id h
  unfold State.endProcedure
  split
  · exact h
  next p hp =>
    dsimp only
    split
    next hsup =>
      refine h.congr rfl rfl rfl ?_
      simp [Channel.procedureTags, hp, hsup]
    next hsup =>
      refine ⟨?_, hclaims⟩
      rw [close_link]
      refine Link.Holds.closed (hholds.congr ?_)
      have howed : s.owed = s.reads.list.map ReadRecord.tag ++ s.flushes.map FlushRecord.tag ++ [p.tag] := by
        simp [State.owed, State.procedureTags, hp, hsup]
      rw [howed]
      simp only [State.owed, State.procedureTags, State.close, State.setLink_chan, State.setChan_chan, List.append_nil]
      exact List.perm_append_comm

/-! ### The rule for each block -/

/-- From s to t what the Tag Set owes and the fit of the procedure are kept. -/
structure TagsKept (s t : State) : Prop where
  held : Held s → Held t
  fits : s.chan.Fits → t.chan.Fits

namespace TagsKept

variable {s t u : State}

theorem refl (s : State) : TagsKept s s := ⟨id, id⟩

theorem trans (h : TagsKept s t) (k : TagsKept t u) : TagsKept s u := ⟨k.held ∘ h.held, k.fits ∘ h.fits⟩

theorem forDies {f : DieId → State → State} (h : ∀ d t, TagsKept t (f d t)) (s : State) : TagsKept s (forDies f s) :=
  (((h 0 s).trans (h 1 _)).trans (h 2 _)).trans (h 3 _)

theorem forPresent {f : DieId → State → State} (h : ∀ d t, TagsKept t (f d t)) (s : State) :
    TagsKept s (s.forPresent f) :=
  .forDies (fun d t => by split <;> [exact h d t; exact .refl t]) s

end TagsKept

theorem Touches.tagsKept {bs : List Block} {s t : State} (h : Touches bs s t)
    (hb : ∀ b ∈ [Block.link, .reads, .flushes, .chan], b ∉ bs) : TagsKept s t := by
  have hchan := h.chan (hb .chan (by decide))
  refine ⟨fun k => ?_, fun k => hchan.symm ▸ k⟩
  exact k.congr (h.link (hb .link (by decide))) (h.reads (hb .reads (by decide)))
    (h.flushes (hb .flushes (by decide))) (by rw [hchan])

theorem map_of_readKept {α : Type} {f : ReadRecord → α} (hf : ∀ r, f { r with state := .atDie } = f r)
    {l m : List ReadRecord} (h : List.Forall₂ ReadKept l m) : m.map f = l.map f := by
  induction h with
  | nil => rfl
  | cons hr _ ih =>
    rw [List.map_cons, List.map_cons, ih]
    obtain rfl | rfl := hr
    · rfl
    · rw [hf]

theorem Internal.tagsKept {s t : State} (h : Internal s t) : TagsKept s t := by
  refine ⟨fun k => ?_, fun k => h.chan.symm ▸ k⟩
  have hset : Held (s.setReads { s.reads with list := t.reads.list }) :=
    k.setReads (map_of_readKept (fun _ => rfl) h.reads) (map_of_readKept (fun _ => rfl) h.reads)
  refine hset.congr h.link ?_ h.flushes (by rw [h.chan]; rfl)
  show t.reads = ⟨t.reads.list, s.reads.nextClaim⟩
  rw [← h.nextClaim]

theorem finish_tagsKept (s before : State) (touched : DieId → Bool) : TagsKept s (s.finish before touched) :=
  (finish_internal s before touched).tagsKept

theorem setChan_held (s : State) (c : Channel) (hp : c.procedure = s.chan.procedure) (h : Held s) :
    Held (s.setChan c) :=
  h.congr rfl rfl rfl (by simp [Channel.procedureTags, hp])

theorem setChan_tagsKept (s : State) (c : Channel) (hp : c.procedure = s.chan.procedure)
    (hf : s.chan.Fits → c.Fits) : TagsKept s (s.setChan c) :=
  ⟨setChan_held s c hp, hf⟩

theorem ended_tagsKept {s u : State} (h : Held s → Held u) (st : Status) (w : BitVec 32) :
    TagsKept s (u.endProcedure st w) :=
  ⟨fun k => (h k).endProcedure st w, fun _ => fits_of_none (endProcedure_procedure u st w)⟩

/-! ### Part states and procedures -/

theorem fits_of_stopped {c : Channel} (h : c.partState = .stopped) : c.Fits := by
  rw [Channel.Fits, h]
  cases c.procedure <;> rfl

theorem fits_of_switching {c : Channel} (h : c.partState = .switching) : c.Fits := by
  rw [Channel.Fits, h]
  cases c.procedure <;> rfl

/-- RUNNING, PARKING, PARKED and WAKING have the same procedures. -/
theorem fits_of_up {c e : Channel} (hc : c.partState ∈ [PartState.running, .parking, .parked, .waking])
    (he : e.partState ∈ [PartState.running, .parking, .parked, .waking]) (hp : e.procedure = c.procedure)
    (h : c.Fits) : e.Fits := by
  have hup {c : Channel} (hc : c.partState ∈ [PartState.running, .parking, .parked, .waking]) :
      procedureFits c.partState c.procedure = procedureFits .running c.procedure := by
    simp only [List.mem_cons, List.not_mem_nil, or_false] at hc
    rcases hc with hc | hc | hc | hc <;> rw [hc] <;>
      rcases c.procedure with _ | ⟨_ | _ | _, _, _⟩ <;> rfl
  rw [Channel.Fits, hup hc] at h
  rwa [Channel.Fits, hup he, hp]

/-- No procedure is in progress but a forward while the part runs or is parked (R124, R144). -/
theorem procedure_none {s : State} (h : s.chan.Fits)
    (hup : s.chan.partState ∈ [PartState.running, .parking, .parked, .waking]) (alone : s.forwarding = false) :
    s.chan.procedure = none := by
  rw [Channel.Fits] at h
  unfold State.forwarding at alone
  simp only [List.mem_cons, List.not_mem_nil, or_false] at hup
  cases hp : s.chan.procedure with
  | none => rfl
  | some p =>
    obtain ⟨kind, tag, sup⟩ := p
    rw [hp] at h alone
    cases kind <;> rcases hup with hup | hup | hup | hup <;> rw [hup] at h <;> simp_all [procedureFits]

theorem procedure_none_of_config {s : State} (h : s.chan.Fits) (hc : s.chan.partState = .config) :
    s.chan.procedure = none := by
  rw [Channel.Fits, hc] at h
  cases hp : s.chan.procedure with
  | none => rfl
  | some p => rw [hp] at h; cases h

/-! ### Operations -/

theorem setPartState_tagsKept {s : State} (hs : s.chan.partState ∈ [PartState.running, .parking, .parked, .waking])
    (p : PartState) (hp : p ∈ [PartState.running, .parking, .parked, .waking]) (phase : Option Phase) :
    TagsKept s (s.setPartState p phase) :=
  setChan_tagsKept s _ (by rfl) (fits_of_up hs hp rfl)

theorem restartParkDelay_tagsKept (s : State) : TagsKept s s.restartParkDelay := setChan_tagsKept s _ (by rfl) id

theorem setRecalOwed_tagsKept (s : State) (d : DieId) (v : Bool) : TagsKept s (s.setRecalOwed d v) :=
  setChan_tagsKept s _ (by rfl) id

theorem recordShadow_tagsKept (s : State) (d : DieId) (index : BitVec 4) (value : BitVec 16) :
    TagsKept s (s.recordShadow d index value) :=
  setChan_tagsKept s _ (by rfl) id

theorem wake_tagsKept (s : State) : TagsKept s s.wake := by
  unfold State.wake
  split
  next h => exact setPartState_tagsKept (by rcases h with h | h <;> simp [h]) _ (by decide) _
  · exact .refl s

theorem endWake_tagsKept (s : State) : TagsKept s s.endWake := by
  unfold State.endWake
  split
  next h =>
    exact (setPartState_tagsKept (by simp [h.1]) _ (by decide) _).trans (restartParkDelay_tagsKept _)
  · exact .refl s

theorem beginPhase_tagsKept (s : State) (phase : Phase) (op : State → ChannelOp) :
    TagsKept s (s.beginPhase phase op) :=
  (setChan_tagsKept s { s.chan with partState := .switching, phase := some phase } rfl fun _ =>
    fits_of_switching rfl).trans ((claimAll_touches _ op).tagsKept (by decide))

theorem endWakePhase_tagsKept (s : State) : TagsKept s s.endWakePhase := by
  unfold State.endWakePhase
  split <;> [exact beginPhase_tagsKept s _ _; exact .refl s]

theorem endRecalPhase_tagsKept (s : State) : TagsKept s s.endRecalPhase := by
  unfold State.endRecalPhase
  split <;> [exact beginPhase_tagsKept s _ _; exact .refl s]

theorem enterClock_tagsKept (s : State) : TagsKept s s.enterClock := by
  unfold State.enterClock
  split
  · refine TagsKept.trans (.forPresent (fun d t => ?_) s) (setChan_tagsKept _ _ (by rfl) id)
    exact ((setPort_touches t d _).tagsKept (by decide)).trans (setRecalOwed_tagsKept _ d true)
  · exact .refl s

theorem allParked_tagsKept (s : State) : TagsKept s s.allParked := by
  unfold State.allParked
  split
  · split
    next h => exact setPartState_tagsKept (by simp [h]) _ (by decide) _
    · split <;> [exact enterClock_tagsKept s; exact .refl s]
  · exact .refl s

theorem addFailed_tagsKept (s : State) (d : DieId) : TagsKept s (s.addFailed d) := by
  unfold State.addFailed
  split
  next hp =>
    refine ⟨fun h => h.congr rfl rfl rfl (by simp [Channel.procedureTags, hp]), fun h => ?_⟩
    rw [Channel.Fits, hp] at h
    revert h
    simp only [Channel.Fits, State.setChan_chan]
    cases s.chan.partState <;> exact id
  · exact .refl s

theorem abortBringup_tagsKept (s : State) : TagsKept s s.abortBringup := by
  unfold State.abortBringup
  dsimp only
  split
  · refine ended_tagsKept (fun h => ?_) _ _
    have hoff : TagsKept s (s.forPresent fun d t =>
        (t.setPort d ((t.port d).toOff t.activePeriod)).setChan
          { t.chan with shadow := t.chan.shadow.set d shadowUnknown }) := by
      refine .forPresent (fun d t => TagsKept.trans
        ((setPort_touches t d ((t.port d).toOff t.activePeriod)).tagsKept (by decide)) ?_) s
      exact setChan_tagsKept _ { t.chan with shadow := t.chan.shadow.set d shadowUnknown } rfl id
    exact setChan_held _ _ (by rfl) (setChan_held _ _ (by rfl) (hoff.held h))
  · exact .refl s

/-- The part becomes RUNNING and the procedure ends. -/
theorem runs_tagsKept {s u : State} (h : TagsKept s u) (st : Status) (w : BitVec 32) :
    TagsKept s (u.becomeRunning.endProcedure st w) :=
  ended_tagsKept (u := u.becomeRunning) (fun k => setChan_held _ _ (by rfl) (setChan_held u _ (by rfl) (h.held k))) st w

theorem endBringup_tagsKept (s : State) (d : DieId) : TagsKept s (s.endBringup d) := by
  have hdie : TagsKept s
      ((((s.setPort d { s.port d with state := .idle }).setBalance d 0).clearRecal d).setRecalOwed d false) :=
    ((((setPort_touches s d _).tagsKept (by decide)).trans ((setBalance_touches _ d 0).tagsKept (by decide))).trans
      ((clearRecal_touches _ d).tagsKept (by decide))).trans (setRecalOwed_tagsKept _ d false)
  unfold State.endBringup
  dsimp only
  split
  · exact (runs_tagsKept hdie _ _).trans ((setMaint_touches _ _).tagsKept (by decide))
  · exact hdie

theorem endSwitch_tagsKept (s : State) : TagsKept s s.endSwitch := by
  unfold State.endSwitch
  split
  · exact runs_tagsKept (.forPresent (fun d t => (setBalance_touches t d 0).tagsKept (by decide)) s) _ _
  · exact .refl s

theorem forwardSettled_tagsKept (s : State) (d : DieId) (index : BitVec 4) (value : BitVec 16) :
    TagsKept s (s.forwardSettled d index value) := by
  unfold State.forwardSettled
  split
  next mask i v _ tag sup hp =>
    split
    · dsimp only
      have hdone (done : BitVec 4) : TagsKept s
          (s.setChan { s.chan with procedure := some ⟨.dieSetting mask i v done, tag, sup⟩ }) := by
        refine ⟨fun h => h.congr rfl rfl rfl (by simp [Channel.procedureTags, hp]), fun h => ?_⟩
        rw [Channel.Fits, hp] at h
        revert h
        simp only [Channel.Fits, State.setChan_chan]
        cases s.chan.partState <;> exact id
      split
      · exact (hdone _).trans (ended_tagsKept id _ _)
      · exact hdone _
    · exact .refl s
  · exact .refl s

theorem settled_tagsKept (s : State) (d : DieId) (index : BitVec 4) (value : BitVec 16) :
    TagsKept s (s.settled d index value) := by
  unfold State.settled
  split
  · refine TagsKept.trans ?_ (abortBringup_tagsKept _)
    split
    · exact (bringupClaim_touches s d _).tagsKept (by decide)
    · exact endBringup_tagsKept s d
  · split
    · exact (setChannelClaim_touches s d _).tagsKept (by decide)
    · exact endSwitch_tagsKept s
  all_goals exact forwardSettled_tagsKept s d index value

theorem settleExpired_tagsKept (s : State) (d : DieId) : TagsKept s (s.settleExpired d) := by
  have hport : TagsKept s (s.setPort d (s.port d).afterSettle) := (setPort_touches s d _).tagsKept (by decide)
  unfold State.settleExpired
  dsimp only
  split
  · exact (hport.trans (recordShadow_tagsKept _ d _ _)).trans (settled_tagsKept _ d _ _)
  · exact hport

/-! ### Answers to several requests -/

theorem notice_tagsKept (s : State) (lost : Bool) (first : Wsn) : TagsKept s (s.notice lost first) := by
  refine ⟨fun h => h.flushed ?_, fun h => ((notice_touches s lost first).chan (by decide)).symm ▸ h⟩
  have htags : (s.flushes.map (·.flagged lost first)).map FlushRecord.tag = s.flushes.map FlushRecord.tag := by
    rw [List.map_map]
    rfl
  rw [← htags, List.map_map (g := Answer.tag)]
  exact ((List.filter_append_perm (fun r : FlushRecord => s.flushComplete r.boundary) _).symm.map _).trans
    (.of_eq List.map_append)

theorem leave_tagsKept (s : State) (i : Fin 32) (lost : Bool) : TagsKept s (s.leave i lost) := by
  have hfree : TagsKept s (s.setEntry i Entry.freed) := (setEntry_touches s i _).tagsKept (by decide)
  unfold State.leave
  dsimp only
  split
  · exact (hfree.trans ((promote_touches _ _).tagsKept (by decide))).trans (notice_tagsKept _ _ _)
  · exact hfree.trans (notice_tagsKept _ _ _)

theorem stopFlushes_tagsKept (s : State) : TagsKept s s.stopFlushes := by
  refine ⟨fun h => h.flushed ?_, fun h => ((stopFlushes_touches s).chan (by decide)).symm ▸ h⟩
  rw [List.map_map, List.map_nil, List.append_nil]
  exact .refl _

/-- Every listed READ is answered and leaves the list (R59, R153). -/
theorem stopReads_tagsKept (s : State) : TagsKept s s.stopReads := by
  refine ⟨fun h => ?_, fun h => ((stopReads_touches s).chan (by decide)).symm ▸ h⟩
  obtain ⟨hholds, -⟩ := h
  have hports := Touches.forDies (fun d t => setPort_touches t d { t.port d with readClaims := [] }) s
  have hanswers := closeAll_touches ((forDies (fun d t => t.setPort d { t.port d with readClaims := [] }) s).setReads
    { s.reads with list := [] }) (s.reads.list.map fun r => Answer.plain r.tag .stopped 0)
  have hreads : s.stopReads.reads = { s.reads with list := [] } := hanswers.reads (by decide)
  have hflushes : s.stopReads.flushes = s.flushes :=
    (hanswers.flushes (by decide)).trans (hports.flushes (by decide))
  have hchan : s.stopReads.chan = s.chan := (stopReads_touches s).chan (by decide)
  constructor
  · refine Link.Holds.closedAll ?_
    rw [State.owed, procedureTags_chan, hreads, hflushes, hchan, List.map_map, List.map_nil, List.nil_append]
    have hlink : ((forDies (fun d t => t.setPort d { t.port d with readClaims := [] }) s).setReads
        { s.reads with list := [] }).link = s.link := hports.link (by decide)
    rw [hlink]
    refine hholds.congr ?_
    rw [State.owed, List.append_assoc, procedureTags_chan]
    exact .refl _
  · unfold ClaimsNumbered
    rw [hreads]
    exact ⟨List.nodup_nil, nofun⟩

theorem enterStopped_tagsKept (s : State) (cause : StopCause) : TagsKept s (s.enterStopped cause) := by
  rw [enterStopped_eq]
  split
  · have hset : TagsKept s (s.setChan { s.chan with partState := .stopped, phase := none, stopCause := some cause }) :=
      setChan_tagsKept s _ (by rfl) fun _ => fits_of_stopped rfl
    exact (((hset.trans (ended_tagsKept id _ _)).trans (stopReads_tagsKept _)).trans (stopFlushes_tagsKept _)).trans
      ((stopClaims_touches _).tagsKept (by decide))
  · exact .refl s

theorem failPort_tagsKept (s : State) (d : DieId) (detail : Status) : TagsKept s (s.failPort d detail) := by
  have hport (n : LogNote) (p : Port) :
      TagsKept s ((((s.logNote n).latch .dieFailed).setPort d p).revertDie d) :=
    (((noteAndLatch_touches s n _).tagsKept (by decide)).trans ((setPort_touches _ d p).tagsKept (by decide))).trans
      ((revertDie_touches _ d).tagsKept (by decide))
  unfold State.failPort
  dsimp only
  split
  · exact ((hport _ _).trans (addFailed_tagsKept _ d)).trans (abortBringup_tagsKept _)
  · exact (hport _ _).trans (enterStopped_tagsKept _ _)

theorem markLost_tagsKept (s : State) (line : LineAddr) : TagsKept s (s.markLost line) := by
  refine ⟨fun h => h.setReads ?_ ?_, id⟩
  all_goals
    rw [List.map_map]
    refine List.map_congr_left fun r _ => ?_
    simp only [Function.comp_apply]
    split <;> rfl

theorem reportLoss_tagsKept (s : State) (line : LineAddr) (wsn : Wsn) (cause : LossCause) :
    TagsKept s (s.reportLoss line wsn cause) := by
  have hmark (t : State) (ht : TagsKept s t) (n : LogNote) :
      TagsKept s (((t.logNote n).latch .writeLost).markLost line) :=
    (ht.trans ((noteAndLatch_touches t n _).tagsKept (by decide))).trans (markLost_tagsKept _ line)
  have hlisted (b : Prop) [Decidable b] (e : Errors) : TagsKept s (if b then s else s.setErrs e) := by
    split <;> [exact .refl s; exact (setErrs_touches s _).tagsKept (by decide)]
  unfold State.reportLoss
  dsimp only
  split
  · exact ((hmark _ (hlisted _ _) _).trans ((noteAndLatch_touches _ _ _).tagsKept (by decide))).trans
      (enterStopped_tagsKept _ _)
  · exact hmark _ (hlisted _ _) _

theorem lose_tagsKept (s : State) (i : Fin 32) (cause : LossCause) : TagsKept s (s.lose i cause) := by
  unfold State.lose
  dsimp only
  refine TagsKept.trans ?_ (leave_tagsKept _ i true)
  split
  · exact reportLoss_tagsKept s _ _ _
  · exact .refl s

theorem takeWriteStep_tagsKept (s : State) (d : DieId) (cl : Claimant) (stored : Bool) :
    TagsKept s (s.takeWriteStep d cl stored) := by
  unfold State.takeWriteStep
  split
  · split
    · exact leave_tagsKept s _ false
    · unfold State.retryOrLose
      dsimp only
      split
      · exact ((setEntry_touches s _ _).tagsKept (by decide)).trans ((setDrainClaim_touches _ d _).tagsKept (by decide))
      · exact lose_tagsKept s _ _
  all_goals exact .refl s

/-- Read Service answers a listed read and drops it (R48, R49). -/
theorem answerRead_tagsKept (s : State) {r : ReadRecord} (hr : r ∈ s.reads.list) (data : Option LineData) :
    TagsKept s (s.answerRead r data) := by
  unfold State.answerRead
  dsimp only
  split
  · exact ⟨fun h => h.answered hr rfl rfl rfl rfl rfl, id⟩
  · exact ⟨fun h => h.answered hr rfl rfl rfl rfl rfl, id⟩

theorem takeLineRead_tagsKept (s : State) (d : DieId) (cl : Claimant) (data : Option LineData) :
    TagsKept s (s.takeLineRead d cl data) := by
  unfold State.takeLineRead
  split
  · split
    next hf => exact answerRead_tagsKept s (List.mem_of_find?_eq_some hf) data
    · exact .refl s
  · split
    · exact (fill_touches s d _ _).tagsKept (by decide)
    · exact lose_tagsKept s _ _
  all_goals exact .refl s

/-- A link reset leaves nothing outstanding, a suppressed procedure included (R157). -/
theorem linkEmptied_tagsKept (s : State) : TagsKept s s.linkEmptied := by
  have hports := Touches.forDies (fun d t => setPort_touches t d { t.port d with readClaims := [] })
    (s.setLink { tags := [], answers := [], held := [] })
  have hchan : s.linkEmptied.chan = { s.chan with procedure := s.chan.procedure.map Procedure.suppress } := by
    have hc := hports.chan (by decide)
    simp only [State.linkEmptied, State.setFlushes_chan, State.setReads_chan, State.setChan_chan, hc]
    rfl
  have hlink : s.linkEmptied.link = { tags := [], answers := [], held := [] } := hports.link (by decide)
  constructor
  · rintro -
    refine ⟨?_, List.nodup_nil, nofun⟩
    have howed : s.linkEmptied.owed = s.linkEmptied.chan.procedureTags := rfl
    have hnone : s.linkEmptied.chan.procedureTags = [] := by
      rw [hchan]
      cases hp : s.chan.procedure <;> simp [Channel.procedureTags, Procedure.suppress]
    rw [howed, hnone, hlink]
    exact ⟨List.nodup_nil, .refl _, by decide⟩
  · intro h
    rw [Channel.Fits] at h
    rw [hchan, Channel.Fits]
    revert h
    cases s.chan.partState <;> rcases s.chan.procedure with _ | ⟨_ | _ | _, _, _⟩ <;> exact id

/-! ### Every command -/

theorem event_tagsKept {s u : State} {touched : DieId → Bool} (h : Event s u touched) : TagsKept s u := by
  have hslot (d : DieId) : TagsKept s (s.emptySlot d) := (emptySlot_touches s d).tagsKept (by decide)
  cases h with
  | linkReset => exact linkEmptied_tagsKept s
  | park may =>
    have hrunning : s.chan.partState = .running := by
      simp only [State.mayPark, Bool.and_eq_true, beq_iff_eq] at may
      tauto
    have hup : s.chan.partState ∈ [PartState.running, .parking, .parked, .waking] := by simp [hrunning]
    have hset : TagsKept s (s.setChan { s.chan with partState := .parking, phase := none, parkDelay := none }) :=
      setChan_tagsKept s _ (by rfl) (fits_of_up hup (by simp) rfl)
    exact hset.trans ((claimAll_touches _ fun _ => .parkEnter).tagsKept (by decide))
  | relock => exact (setChan_tagsKept s { s.chan with relock := none } rfl id).trans (beginPhase_tagsKept _ _ _)
  | settle d => exact settleExpired_tagsKept s d
  | fail d detail => exact failPort_tagsKept s d detail
  | deadline r listed => exact ⟨fun h => h.answered listed rfl rfl rfl rfl rfl, id⟩
  | refreshDue d => exact (refreshDebited_touches s d).tagsKept (by decide)
  | recalDue d => exact (setCare_touches s d _).tagsKept (by decide)
  | poll => exact (polled_touches s).tagsKept (by decide)
  | lineRead d => exact (hslot d).trans (takeLineRead_tagsKept _ d _ _)
  | lineWrite d => exact (hslot d).trans (takeWriteStep_tagsKept _ d _ _)
  | maskedWrite d => exact (hslot d).trans (takeWriteStep_tagsKept _ d _ _)
  | refresh d => exact (hslot d).trans ((setBalance_touches _ d _).tagsKept (by decide))
  | shortRecal d => exact (hslot d).trans ((clearRecal_touches _ d).tagsKept (by decide))
  | longRecal d =>
    refine (hslot d).trans ?_
    have hcleared (t : State) : TagsKept t ((t.clearRecal d).setRecalOwed d false) :=
      ((clearRecal_touches t d).tagsKept (by decide)).trans (setRecalOwed_tagsKept _ d false)
    unfold State.longRecalDone
    dsimp only
    split
    · exact ((hcleared _).trans ((bringupClaim_touches _ d _).tagsKept (by decide))).trans (abortBringup_tagsKept _)
    · exact (hcleared _).trans (endRecalPhase_tagsKept _)
    all_goals exact hcleared _
  | tempRead d => exact (hslot d).trans ((takeBand_touches _ d _).tagsKept (by decide))
  | set d => exact (hslot d).trans ((setPort_touches _ d _).tagsKept (by decide))
  | dieReset d =>
    exact ((hslot d).trans ((bringupClaim_touches _ d _).tagsKept (by decide))).trans (abortBringup_tagsKept _)
  | parkEnter d =>
    exact (((hslot d).trans ((setPort_touches _ d _).tagsKept (by decide))).trans
      ((setBalance_touches _ d 0).tagsKept (by decide))).trans (allParked_tagsKept _)
  | parkExit d mode =>
    exact ((((hslot d).trans ((setBalance_touches _ d _).tagsKept (by decide))).trans
      ((claimForward_touches _ d).tagsKept (by decide))).trans (endWake_tagsKept _)).trans (endWakePhase_tagsKept _)

end Sys2Proof.Machine
end

section
/-! SUPPORT. Every message keeps the Tag Set and the places (R153, R154), so that every step does. -/

namespace Sys2Proof.Machine

theorem hasPlace_congr {s t : State} (h : t.link = s.link) (hp : s.hasPlace = true) : t.hasPlace = true := by
  rwa [State.hasPlace, h]

/-- An answer at once needs a place and no tag (R153, R154). -/
theorem Held.queue {s : State} (h : Held s) (hp : s.hasPlace = true) (a : Answer) : Held (s.queue a) :=
  ⟨h.1.queued ((hasPlace_iff s).1 hp) a, h.2⟩

/-- A new request takes a place and its tag (R153, R154). -/
theorem Held.join {s t : State} (h : Held s) (hp : s.hasPlace = true) {tag : Tag} (free : tag ∉ s.link.tags)
    (hlink : t.link = { s.link with tags := s.link.tags ++ [tag] }) (howed : (s.owed ++ [tag]).Perm t.owed)
    (hclaims : ClaimsNumbered t) : Held t := by
  refine ⟨?_, hclaims⟩
  rw [hlink]
  exact (h.1.joined ((hasPlace_iff s).1 hp) free).congr howed

theorem owed_join_reads (l m n : List Tag) (tag : Tag) : (l ++ m ++ n ++ [tag]).Perm (l ++ [tag] ++ m ++ n) := by
  rw [List.append_assoc, List.append_assoc, List.append_assoc, List.append_assoc, ← List.append_assoc m n]
  exact .append_left _ List.perm_append_comm

theorem owed_join_flushes (l m n : List Tag) (tag : Tag) : (l ++ m ++ n ++ [tag]).Perm (l ++ (m ++ [tag]) ++ n) := by
  rw [List.append_assoc, List.append_assoc, List.append_assoc, List.append_assoc]
  exact .append_left _ (.append_left _ List.perm_append_comm)

/-- A new record takes the next claim number (log 13). -/
theorem joinReads_numbered {s : State} (h : ClaimsNumbered s) {r : ReadRecord} (hclaim : r.claim = s.reads.nextClaim) :
    ClaimsNumbered (s.joinReads r) := by
  obtain ⟨hnodup, hbelow⟩ := h
  refine ⟨?_, fun q hq => ?_⟩
  · show ((s.reads.list ++ [r]).map ReadRecord.claim).Nodup
    rw [List.map_append, List.nodup_append]
    refine ⟨hnodup, List.nodup_singleton _, fun a ha b hb => ?_⟩
    obtain ⟨q, hq, rfl⟩ := List.mem_map.1 ha
    rw [List.mem_singleton.1 hb, hclaim]
    exact (hbelow q hq).ne
  · show q.claim < s.reads.nextClaim + 1
    obtain hq | hq := List.mem_append.1 (show q ∈ s.reads.list ++ [r] from hq)
    · exact Nat.lt_succ_of_lt (hbelow q hq)
    · rw [List.mem_singleton.1 hq, hclaim]
      exact Nat.lt_succ_self _

/-- A READ joins the list under the next claim number (R44, R153; log 13). -/
theorem Held.joinReads {s : State} (h : Held s) (hp : s.hasPlace = true) {r : ReadRecord}
    (free : r.tag ∉ s.link.tags) (hclaim : r.claim = s.reads.nextClaim) : Held (s.joinReads r) := by
  refine h.join hp free rfl ?_ ?_
  · have howed : (s.joinReads r).owed =
        s.reads.list.map ReadRecord.tag ++ [r.tag] ++ s.flushes.map FlushRecord.tag ++ s.procedureTags := by
      show (s.reads.list ++ [r]).map ReadRecord.tag ++ _ ++ _ = _
      rw [List.map_append]
      rfl
    rw [howed]
    exact owed_join_reads _ _ _ _
  · exact joinReads_numbered h.2 hclaim

theorem Held.joinFlushes {s : State} (h : Held s) (hp : s.hasPlace = true) {r : FlushRecord}
    (free : r.tag ∉ s.link.tags) : Held ((s.setFlushes (s.flushes ++ [r])).joinTag r.tag) := by
  refine h.join hp free rfl ?_ h.2
  have howed : ((s.setFlushes (s.flushes ++ [r])).joinTag r.tag).owed =
      s.reads.list.map ReadRecord.tag ++ (s.flushes.map FlushRecord.tag ++ [r.tag]) ++ s.procedureTags := by
    show _ ++ (s.flushes ++ [r]).map FlushRecord.tag ++ _ = _
    rw [List.map_append]
    rfl
  rw [howed]
  exact owed_join_flushes _ _ _ _

/-- A procedure begins where none is in progress (R115). -/
theorem Held.beginProcedure {s : State} (h : Held s) (hp : s.hasPlace = true) {tag : Tag} (free : tag ∉ s.link.tags)
    (hnone : s.chan.procedure = none) (kind : ProcedureKind) : Held (s.beginProcedure kind tag) := by
  refine h.join hp free rfl ?_ h.2
  have howed : s.owed = s.reads.list.map ReadRecord.tag ++ s.flushes.map FlushRecord.tag := by
    simp [State.owed, State.procedureTags, hnone]
  rw [howed]
  exact .refl _

/-- Nothing is outstanding after a restart (R133). -/
theorem restarted_held (s : State) (h : Held s) : Held s.restarted := by
  refine ⟨⟨List.nodup_nil, .refl _, ?_⟩, List.nodup_nil, nofun⟩
  have hplaces := h.1.places
  show s.link.answers.length + 0 ≤ 24
  omega

/-- Profiles do not matter. -/
theorem setProfile_tagsKept (s : State) (p : ProfileId) (v : Profile) :
    TagsKept s (s.setChan (s.chan.setProfile p v)) := by
  cases p <;> exact setChan_tagsKept s _ (by rfl) id

theorem accept_tagsKept {bad : State → Nat → Bool} {configOnly : Bool} {accept : Nat → State → State}
    (k : Setting bad configOnly accept) (v : Nat) (s : State) : TagsKept s (accept v s) := by
  have hset (c : Settings) : TagsKept s (s.setSettings c) := ⟨id, id⟩
  cases k with
  | highMark => exact (hset _).trans (finish_tagsKept _ _ _)
  | lowMark => exact (hset _).trans (finish_tagsKept _ _ _)
  | pullIn => exact (hset _).trans (finish_tagsKept _ _ _)
  | idleDrainTime =>
    exact ((hset _).trans ((setDrain_touches _ _).tagsKept (by decide))).trans (relevel_internal _).tagsKept
  | dieCount => exact (hset _).trans ((setClocks_touches _ _).tagsKept (by decide))
  | parkDelay => exact (hset _).trans (restartParkDelay_tagsKept _)
  | granularity => exact (hset _).trans (setProfile_tagsKept _ _ _)
  | tempPoll => exact (hset _).trans ((setMaint_touches _ _).tagsKept (by decide))
  | checkPolicy => exact hset _
  | readWaitLimit => exact hset _
  | wakeMode => exact hset _
  | maskedWrites => exact hset _
  | dieLinesLog2 => exact hset _
  | drainRetry => exact hset _
  | dieOpLimit => exact hset _

theorem writeField_tagsKept (s : State) (p : ProfileId) (n : Fin 16) (v : BitVec 16) :
    TagsKept s (s.writeField p n v) := by
  unfold State.writeField
  dsimp only
  split
  · exact (setProfile_tagsKept s p _).trans ((setClocks_touches _ _).tagsKept (by decide))
  · exact setProfile_tagsKept s p _

/-! ### The blocks that a SETUP leaves alone -/

theorem setChan_touchesBoth (s : State) (c : Channel) : Touches [.chan, .settings] s (s.setChan c) := by
  constructor <;> simp

/-- A part setting never concerns the link, the flushes and the errors (R135). -/
theorem accept_blocks {bad : State → Nat → Bool} {configOnly : Bool} {accept : Nat → State → State}
    (k : Setting bad configOnly accept) (v : Nat) (s : State) :
    Touches [.table, .drain, .reads, .ports, .maint, .chan, .settings] s (accept v s) := by
  have hset (c : Settings) : Touches [.table, .drain, .reads, .ports, .maint, .chan, .settings] s (s.setSettings c) :=
    (setChan_touchesBoth s _).mono (by decide)
  cases k with
  | highMark => exact (hset _).andThen (finish_touches _ _ _) (by decide)
  | lowMark => exact (hset _).andThen (finish_touches _ _ _) (by decide)
  | pullIn => exact (hset _).andThen (finish_touches _ _ _) (by decide)
  | idleDrainTime => exact ((hset _).andThen (setDrain_touches _ _) (by decide)).andThen (relevel_touches _) (by decide)
  | dieCount => exact (hset _).andThen (setClocks_touches _ _) (by decide)
  | parkDelay => exact (hset _).andThen (setChan_touchesBoth _ _) (by decide)
  | granularity => exact (hset _).andThen (setChan_touchesBoth _ _) (by decide)
  | tempPoll => exact (hset _).andThen (setMaint_touches _ _) (by decide)
  | checkPolicy => exact hset _
  | readWaitLimit => exact hset _
  | wakeMode => exact hset _
  | maskedWrites => exact hset _
  | dieLinesLog2 => exact hset _
  | drainRetry => exact hset _
  | dieOpLimit => exact hset _

theorem writeField_blocks (s : State) (p : ProfileId) (n : Fin 16) (v : BitVec 16) :
    Touches [.ports, .chan, .settings] s (s.writeField p n v) := by
  unfold State.writeField
  dsimp only
  split
  · exact ((setChan_touchesBoth s _).mono (by decide)).andThen (setClocks_touches _ _) (by decide)
  · exact (setChan_touchesBoth s _).mono (by decide)

/-! ### Every command -/

/-- The Tag Set in order and the procedure in its part state. -/
def Answerable (s : State) : Prop := Held s ∧ s.chan.Fits

theorem TagsKept.answerable {s t : State} (h : TagsKept s t) (k : Answerable s) : Answerable t :=
  ⟨h.held k.1, h.fits k.2⟩

theorem Answerable.queue {s : State} (h : Answerable s) (hp : s.hasPlace = true) (a : Answer) :
    Answerable (s.queue a) :=
  ⟨h.1.queue hp a, h.2⟩

theorem reset_answerable (s : State) : Answerable s.poweredOn :=
  ⟨⟨⟨List.nodup_nil, .refl _, Nat.zero_le _⟩, List.nodup_nil, nofun⟩, rfl⟩

theorem service_answerable {s t : State} (hp : s.hasPlace = true) (h : Service s t) (k : Answerable s) :
    Answerable t := by
  have hclosed {u : State} (before : State) (touched : DieId → Bool) (hu : Answerable u) :
      Answerable (u.finish before touched) :=
    (finish_tagsKept u before touched).answerable hu
  have hwoken {u : State} (hu : Answerable u) : Answerable u.wake := (wake_tagsKept u).answerable hu
  cases h with
  | answer a => exact k.queue hp a
  | read h free up room =>
    have hjoined : Answerable (s.joinReads (s.readRecord h)) := ⟨k.1.joinReads hp free rfl, k.2⟩
    exact hclosed _ _ (hwoken hjoined)
  | writeRests a => exact hclosed _ _ (hwoken (k.queue hp a))
  | writePosts a line m data i e =>
    have hpost := post_touches s i e line m
    have hposted : Answerable (s.post i e line m) := (hpost.tagsKept (by decide)).answerable k
    exact hclosed _ _ (hwoken (hposted.queue (hasPlace_congr (hpost.link (by decide)) hp) a))
  | flush tag free room =>
    exact hclosed s _ ⟨k.1.joinFlushes (r := { tag := tag, boundary := s.table.nextWsn, loss := false }) hp free, k.2⟩
  | setting a v setting =>
    exact ((accept_tagsKept setting v s).answerable k).queue
      (hasPlace_congr ((accept_blocks setting v s).link (by decide)) hp) a
  | field a p n v =>
    exact ((writeField_tagsKept s p n v).answerable k).queue
      (hasPlace_congr ((writeField_blocks s p n v).link (by decide)) hp) a
  | commit a p => exact ((setProfile_tagsKept s p _).answerable k).queue (s := s.setChan _) hp a
  | start tag free config =>
    have hbegun : Answerable ((s.beginProcedure (.start 0) tag).setPartState .bringup none) :=
      ⟨setChan_held _ _ (by rfl) (k.1.beginProcedure hp free (procedure_none_of_config k.2 config) _), rfl⟩
    exact hclosed _ _ (((claimAll_touches _ fun _ => .dieReset).tagsKept (by decide)).answerable hbegun)
  | rateSwitch target tag free up alone =>
    have hnone : s.chan.procedure = none := procedure_none k.2 (by rcases up with h | h <;> simp [h]) alone
    have hbegun : Answerable ((s.beginProcedure (.rateSwitch target) tag).setPartState .switching (some .quiesce)) :=
      ⟨setChan_held _ _ (by rfl) (k.1.beginProcedure hp free hnone _), fits_of_switching rfl⟩
    unfold State.beginSwitch
    refine hclosed _ _ ?_
    split
    · exact (enterClock_tagsKept _).answerable hbegun
    · exact hbegun
  | clearErrors a mask => exact k.queue (s := s.setErrs _) hp a
  | restart a =>
    refine ⟨(restarted_held s k.1).queue ?_ a, rfl⟩
    have hroom := (hasPlace_iff s).1 hp
    refine (hasPlace_iff _).2 ?_
    show s.link.answers.length + 0 < 24
    omega
  | forward h free up alone =>
    have hbegun (kind : ProcedureKind) (hkind : ∃ m i v n, kind = .dieSetting m i v n) :
        Answerable (s.beginProcedure kind h.tag) := by
      refine ⟨k.1.beginProcedure hp free (procedure_none k.2 up alone) kind, ?_⟩
      obtain ⟨m, i, v, n, rfl⟩ := hkind
      simp only [List.mem_cons, List.not_mem_nil, or_false] at up
      show procedureFits s.chan.partState _ = true
      rcases up with up | up | up | up <;> rw [up] <;> rfl
    unfold State.beginForward
    exact hclosed _ _ (((claimForwardNow_touches _).tagsKept (by decide)).answerable
      (hwoken (hbegun _ ⟨_, _, _, _, rfl⟩)))
  | log a => exact k.queue (s := s.setErrs _) hp a

theorem eventStep_answerable {s t : State} (h : EventStep s t) (k : Answerable s) : Answerable t := by
  cases h with
  | rests => exact k
  | powersOn => exact reset_answerable s
  | delaysParking => exact (restartParkDelay_tagsKept s).answerable k
  | idles => exact (((setDrain_touches s _).tagsKept (by decide)).trans (relevel_internal _).tagsKept).answerable k
  | closes event => exact ((event_tagsKept event).trans (finish_tagsKept _ _ _)).answerable k

theorem arrive_tagsKept (s : State) : TagsKept s s.arrive := by
  have harrived : TagsKept s s.arrived := ⟨id, id⟩
  exact harrived.trans (arrive_internal s).tagsKept

theorem answerable_execKeeps : ExecKeeps Answerable where
  held _ _ h := ⟨⟨⟨h.1.1.nodup, h.1.1.perm, h.1.1.places⟩, h.1.2⟩, h.2⟩
  sent _ h := ⟨⟨h.1.1.sent, h.1.2⟩, h.2⟩
  headerFault _ h := h
  arrive s h := (arrive_tagsKept s).answerable h
  dataFault _ _ h := h
  service _ _ hp k h := service_answerable hp k h
  event _ _ k h := eventStep_answerable k h

theorem answerable_iff (s : State) : Answerable s ↔ TagsHeld s := (tagsHeld_iff s).symm

end Sys2Proof.Machine
end

section
/-! SUPPORT. Every command keeps Read Service's claims: the pending ones at their ports, the granted ones in their slots
(R44, R46, R53). -/

namespace Sys2Proof.Machine

/-! ### What holds without a listed read -/

/-- Every slot names a claim that has been given. -/
def SlotsBelow (s : State) : Prop := ∀ d, ∀ x ∈ (s.port d).slot, x.claimant.below s.reads.nextClaim = true

/-- No read is listed, and no read claim is pending. -/
structure Unread (s : State) : Prop where
  list : s.reads.list = []
  claims : ∀ d, (s.port d).readClaims = []
  below : SlotsBelow s

theorem Unread.readsClaimed {s : State} (h : Unread s) : ReadsClaimed s := by
  obtain ⟨hlist, hclaims, hbelow⟩ := h
  refine ⟨fun d => ?_, ?_, ?_, ?_, hbelow, ?_⟩
  · rw [hclaims, hlist]; rfl
  all_goals simp [hlist]

theorem ReadsClaimed.unread {s : State} (h : ReadsClaimed s) (hlist : s.reads.list = []) : Unread s := by
  obtain ⟨hclaims, -, -, -, hbelow, -⟩ := h
  exact ⟨hlist, fun d => by rw [hclaims, hlist]; rfl, hbelow⟩

/-- Reads are listed in RUNNING, WAKING and SWITCHING only. -/
theorem ReadsClaimed.unread_of {s : State} (h : ReadsClaimed s)
    (hs : s.chan.partState ∉ [PartState.running, .waking, .switching]) : Unread s :=
  h.unread (by_contra fun hne => hs (h.2.2.2.2.2 hne))

/-- Emptied ports and withdrawn claims keep it. -/
theorem Unread.congr {s t : State} (h : Unread s) (hreads : t.reads = s.reads)
    (hports : ∀ d, ((t.port d).readClaims = (s.port d).readClaims ∨ (t.port d).readClaims = []) ∧
      ((t.port d).slot = (s.port d).slot ∨ (t.port d).slot = none)) : Unread t := by
  obtain ⟨hlist, hclaims, hbelow⟩ := h
  refine ⟨by rw [hreads, hlist], fun d => ?_, fun d x hx => ?_⟩
  · obtain ⟨hc | hc, -⟩ := hports d
    · rw [hc, hclaims]
    · exact hc
  · obtain ⟨-, hslot | hslot⟩ := hports d
    · rw [hslot] at hx
      rw [hreads]
      exact hbelow d x hx
    · rw [hslot] at hx
      cases hx

theorem Unread.of_touches {bs : List Block} {s t : State} (h : Unread s) (k : Touches bs s t)
    (hb : ∀ b ∈ [Block.reads, .ports], b ∉ bs) : Unread t := by
  refine h.congr (k.reads (hb .reads (by decide))) fun d => ?_
  rw [k.port (hb .ports (by decide))]
  exact ⟨.inl rfl, .inl rfl⟩

/-! ### The rule for each block -/

/-- The step from s to t keeps the read claims in order. -/
def ReadsKept (s t : State) : Prop := ReadsClaimed s → ReadsClaimed t

namespace ReadsKept

variable {s t u : State}

theorem refl (s : State) : ReadsKept s s := id

theorem trans (h : ReadsKept s t) (k : ReadsKept t u) : ReadsKept s u := k ∘ h

theorem forDies {f : DieId → State → State} (h : ∀ d t, ReadsKept t (f d t)) (s : State) :
    ReadsKept s (forDies f s) :=
  (((h 0 s).trans (h 1 _)).trans (h 2 _)).trans (h 3 _)

theorem forPresent {f : DieId → State → State} (h : ∀ d t, ReadsKept t (f d t)) (s : State) :
    ReadsKept s (s.forPresent f) :=
  .forDies (fun d t => by split <;> [exact h d t; exact .refl t]) s

end ReadsKept

theorem Touches.sameReads {bs : List Block} {s t : State} (h : Touches bs s t)
    (hb : ∀ b ∈ [Block.reads, .ports, .chan], b ∉ bs) : SameReads s t :=
  ⟨h.reads (hb .reads (by decide)), h.chan (hb .chan (by decide)),
    fun d => by rw [h.port (hb .ports (by decide))], fun d => by rw [h.port (hb .ports (by decide))]⟩

theorem Touches.readsKept {bs : List Block} {s t : State} (h : Touches bs s t)
    (hb : ∀ b ∈ [Block.reads, .ports, .chan], b ∉ bs) : ReadsKept s t := fun k => k.congr (h.sameReads hb)

theorem setPort_readsKept (s : State) (d : DieId) (p : Port)
    (h : (p.slot, p.readClaims) = ((s.port d).slot, (s.port d).readClaims)) : ReadsKept s (s.setPort d p) := by
  simp only [Prod.mk.injEq] at h
  exact fun k => k.congr (.setPort s d p h.1 h.2)

/-- Channel Control's state matters by DIE_COUNT and by the part states in which reads are listed. -/
theorem setChan_readsKept (s : State) (c : Channel)
    (hcount : s.reads.list ≠ [] → c.settings.dieCount = s.chan.settings.dieCount)
    (hup : s.reads.list ≠ [] → s.chan.partState ∈ [PartState.running, .waking, .switching] →
      c.partState ∈ [PartState.running, .waking, .switching]) : ReadsKept s (s.setChan c) := by
  rintro ⟨hclaims, hserved, hslots, hdies, hbelow, hlisted⟩
  refine ⟨hclaims, hserved, hslots, fun r hr => ?_, hbelow, fun hne => hup hne (hlisted hne)⟩
  rw [hdies r hr]
  simp only [State.dieIndex, State.setChan_chan]
  rw [hcount (List.ne_nil_of_mem hr)]

/-- The part state and DIE_COUNT stay. -/
theorem setChan_rest_readsKept (s : State) (c : Channel)
    (h : (c.partState, c.settings) = (s.chan.partState, s.chan.settings)) : ReadsKept s (s.setChan c) := by
  simp only [Prod.mk.injEq] at h
  exact setChan_readsKept s c (fun _ => by rw [h.2]) (fun _ hup => by rwa [h.1])

theorem setPartState_readsKept (s : State) (p : PartState) (phase : Option Phase)
    (hp : s.chan.partState ∈ [PartState.running, .waking, .switching] → p ∈ [PartState.running, .waking, .switching]) :
    ReadsKept s (s.setPartState p phase) :=
  setChan_readsKept s _ (fun _ => rfl) fun _ => hp

/-- Marks on the listed reads do not matter. -/
theorem markLost_readsKept (s : State) (line : LineAddr) : ReadsKept s (s.markLost line) := by
  rintro ⟨hclaims, hserved, hslots, hdies, hbelow, hlisted⟩
  have hmark (r : ReadRecord) : ∃ b, (if r.line = line then { r with lost := true } else r) = { r with lost := b } := by
    split <;> [exact ⟨true, rfl⟩; exact ⟨r.lost, rfl⟩]
  have hmem {q : ReadRecord} (hq : q ∈ (s.markLost line).reads.list) :
      ∃ r ∈ s.reads.list, ∃ b, q = { r with lost := b } := by
    obtain ⟨r, hr, rfl⟩ := List.mem_map.1 hq
    exact ⟨r, hr, hmark r⟩
  refine ⟨fun d => ?_, fun q hq ha => ?_, fun d x hx q hq hc => ?_, fun q hq => ?_, hbelow, fun hne => hlisted
      fun hnil => ?_⟩
  · refine (hclaims d).trans ?_
    show _ = ((s.reads.list.map fun r => if r.line = line then { r with lost := true } else r).filter _).map _
    rw [List.filter_map, List.map_map]
    have hfilter : (fun r : ReadRecord => r.die == d && r.state == .waiting) ∘
        (fun r => if r.line = line then { r with lost := true } else r) =
        fun r => r.die == d && r.state == .waiting := by
      funext r
      obtain ⟨b, hb⟩ := hmark r
      simp only [Function.comp_apply, hb]
    rw [hfilter]
    refine List.map_congr_left fun r _ => ?_
    obtain ⟨b, hb⟩ := hmark r
    simp only [Function.comp_apply, hb]
  · obtain ⟨r, hr, b, rfl⟩ := hmem hq
    exact hserved r hr ha
  · obtain ⟨r, hr, b, rfl⟩ := hmem hq
    exact hslots d x hx r hr hc
  · obtain ⟨r, hr, b, rfl⟩ := hmem hq
    exact hdies r hr
  · exact hne (by simp [State.markLost, hnil])

/-! ### Completions and answers -/

theorem emptySlot_port (s : State) (d e : DieId) :
    (s.emptySlot d).port e = if d = e then (s.port d).emptied else s.port e :=
  State.setPort_port s d e _

/-- An operation that serves no listed read leaves its slot. -/
theorem emptySlot_readsKept {s : State} {d : DieId} {x : Slot} (hslot : (s.port d).slot = some x)
    (hx : ∀ r ∈ s.reads.list, x.serves r = false) : ReadsKept s (s.emptySlot d) := by
  rintro ⟨hclaims, hserved, hslots, hdies, hbelow, hlisted⟩
  have hport {e : DieId} {y : Slot} (hy : y ∈ ((s.emptySlot d).port e).slot) : y ∈ (s.port e).slot := by
    rw [emptySlot_port] at hy
    split at hy
    · cases hy
    · exact hy
  refine ⟨fun e => ?_, fun r hr ha => ?_, fun e y hy => hslots e y (hport hy), hdies, fun e y hy => hbelow e y
      (hport hy),
    hlisted⟩
  · rw [emptySlot_port]
    split
    next he => subst he; exact hclaims d
    · exact hclaims e
  · have hr' := hserved r hr ha
    rw [emptySlot_port, if_neg]
    · exact hr'
    · rintro rfl
      rw [hslot] at hr'
      have hserves : x.serves r = true := hr'
      rw [hx r hr] at hserves
      cases hserves

/-- A listed read leaves the list with its claim, pending or in the slot d that its operation has left. -/
theorem ReadsClaimed.dropped {s t : State} (h : ReadsClaimed s) {r : ReadRecord}
    (hreads : t.reads = { s.reads with list := s.reads.list.filter (·.claim != r.claim) })
    (hclaims : ∀ d, (t.port d).readClaims = (s.port d).readClaims.filter (· != r.claim))
    (hslots : ∀ d, (t.port d).slot = (s.port d).slot ∨
      (t.port d).slot = none ∧ ∀ q ∈ s.reads.list, q.state = .atDie → q.die = d → q = r)
    (hchan : t.chan = s.chan) : ReadsClaimed t := by
  obtain ⟨hpending, hserved, hslot, hdies, hbelow, hlisted⟩ := h
  have hlist : t.reads.list = s.reads.list.filter (·.claim != r.claim) := by rw [hreads]
  have hmem {q : ReadRecord} (hq : q ∈ t.reads.list) : q ∈ s.reads.list ∧ q.claim ≠ r.claim := by
    rw [hlist, List.mem_filter] at hq
    exact ⟨hq.1, by simpa using hq.2⟩
  have hold {d : DieId} {x : Slot} (hx : x ∈ (t.port d).slot) : x ∈ (s.port d).slot := by
    obtain hs | ⟨hs, -⟩ := hslots d
    · rwa [hs] at hx
    · rw [hs] at hx; cases hx
  refine ⟨fun d => ?_, fun q hq ha => ?_, fun d x hx q hq hc => hslot d x (hold hx) q (hmem hq).1 hc, fun q hq => ?_,
    fun d x hx => ?_, fun hne => ?_⟩
  · rw [hclaims, hpending, hlist, List.filter_filter, List.filter_map, List.filter_filter]
    congr 1
    refine List.filter_congr fun q _ => ?_
    simp only [Function.comp_apply]
    exact Bool.and_comm _ _
  · obtain ⟨hqs, hqr⟩ := hmem hq
    obtain hs | ⟨-, honly⟩ := hslots q.die
    · rw [hs]; exact hserved q hqs ha
    · exact absurd (congrArg ReadRecord.claim (honly q hqs ha rfl)) hqr
  · rw [hdies q (hmem hq).1]
    simp only [State.dieIndex, hchan]
  · rw [hreads]; exact hbelow d x (hold hx)
  · rw [hchan]
    refine hlisted fun hnil => hne ?_
    rw [hlist, hnil]
    rfl

theorem dropRead_claims (s : State) (r : ReadRecord) (d : DieId) (hd : r.die ≠ d → r.claim ∉ (s.port d).readClaims) :
    ((s.dropRead r).port d).readClaims = (s.port d).readClaims.filter (· != r.claim) ∧
      ((s.dropRead r).port d).slot = (s.port d).slot := by
  have hport : (s.dropRead r).port d = if r.die = d then { s.port r.die with
      readClaims := (s.port r.die).readClaims.filter (· != r.claim) } else s.port d := State.setPort_port _ _ _ _
  rw [hport]
  split
  next he => subst he; exact ⟨rfl, rfl⟩
  next he =>
    refine ⟨(List.filter_eq_self.2 fun c hc => ?_).symm, rfl⟩
    rw [bne_iff_ne]
    rintro rfl
    exact hd he hc

/-- A pending read claim is at its record's die. -/
theorem ReadsClaimed.claim_die {s : State} (h : ReadsClaimed s) (hn : ClaimsNumbered s) {r : ReadRecord}
    (hr : r ∈ s.reads.list) {d : DieId} (hc : r.claim ∈ (s.port d).readClaims) : r.die = d := by
  rw [h.1 d, List.mem_map] at hc
  obtain ⟨q, hq, hqr⟩ := hc
  rw [List.mem_filter, Bool.and_eq_true, beq_iff_eq] at hq
  rw [← claim_unique hn.1 hq.1 hr hqr]
  exact hq.2.1

/-- A record that is answered at its deadline leaves no claim pending (R45, R53). -/
theorem deadlineExpired_readsClaimed {s : State} (hn : ClaimsNumbered s) {r : ReadRecord} (hr : r ∈ s.reads.list)
    (h : ReadsClaimed s) : ReadsClaimed (s.deadlineExpired r) := by
  have hdrop (d : DieId) := dropRead_claims s r d fun hne hc => hne (h.claim_die hn hr hc)
  exact h.dropped (r := r) rfl (fun d => (hdrop d).1) (fun d => .inl (hdrop d).2) rfl

theorem answerRead_dropRead (s : State) (r : ReadRecord) (data : Option LineData) :
    SameReads (s.dropRead r) (s.answerRead r data) := by
  unfold State.answerRead
  dsimp only
  split <;> exact ⟨rfl, rfl, fun _ => rfl, fun _ => rfl⟩

/-- The LINE READ that serves a listed record completes: the record leaves the list with it (R45, R48). -/
theorem answeredRead_readsClaimed {s : State} (hn : ClaimsNumbered s) {d : DieId} {l n : Nat} {ln : Option LineAddr}
    {r : ReadRecord} (hr : r ∈ s.reads.list) (hslot : (s.port d).slot = some ⟨.lineRead l n, .reads r.claim, ln⟩)
    (data : Option LineData) (h : ReadsClaimed s) : ReadsClaimed ((s.emptySlot d).answerRead r data) := by
  obtain ⟨-, hserved, hslots, -⟩ := id h
  have hclaims (e : DieId) : ((s.emptySlot d).port e).readClaims = (s.port e).readClaims := by
    rw [emptySlot_port]
    split
    next he => subst he; rfl
    · rfl
  have hdrop (e : DieId) := dropRead_claims (s.emptySlot d) r e fun hne hc =>
    hne (h.claim_die hn hr (hclaims e ▸ hc))
  have honly (q : ReadRecord) (hq : q ∈ s.reads.list) (ha : q.state = .atDie) (hd : q.die = d) : q = r := by
    have hserves := hserved q hq ha
    rw [hd, hslot] at hserves
    have hclaim : Claimant.reads r.claim = .reads q.claim := beq_iff_eq.1 hserves
    exact claim_unique hn.1 hq hr (Claimant.reads.inj hclaim).symm
  have hdropped : ReadsClaimed ((s.emptySlot d).dropRead r) := by
    refine h.dropped (r := r) rfl (fun e => (hdrop e).1.trans (by rw [hclaims])) (fun e => ?_) rfl
    rw [(hdrop e).2, emptySlot_port]
    split
    next he => subst he; exact .inr ⟨rfl, honly⟩
    · exact .inl rfl
  exact hdropped.congr (answerRead_dropRead _ r data)

/-! ### Channel Control -/

theorem setChannelClaim_readsKept (s : State) (d : DieId) (claim : Option ChannelOp) :
    ReadsKept s (s.setChannelClaim d claim) := setPort_readsKept s d _ (by rfl)

theorem setDrainClaim_readsKept (s : State) (d : DieId) (claim : Option DrainClaim) :
    ReadsKept s (s.setDrainClaim d claim) := setPort_readsKept s d _ (by rfl)

theorem setRecalOwed_readsKept (s : State) (d : DieId) (v : Bool) : ReadsKept s (s.setRecalOwed d v) :=
  setChan_rest_readsKept s _ (by rfl)

theorem becomeRunning_readsKept (s : State) : ReadsKept s s.becomeRunning :=
  (setPartState_readsKept s _ _ fun _ => by decide).trans (setChan_rest_readsKept _ _ (by rfl))

theorem endProcedure_readsKept (s : State) (st : Status) (w : BitVec 32) : ReadsKept s (s.endProcedure st w) := by
  have hset : ReadsKept s (s.setChan { s.chan with procedure := none }) := setChan_rest_readsKept s _ (by rfl)
  unfold State.endProcedure
  split
  · exact .refl s
  · dsimp only
    split
    · exact hset
    · exact hset.trans ((close_touches _ _).readsKept (by decide))

theorem bringupClaim_readsKept (s : State) (d : DieId) (op : ChannelOp) : ReadsKept s (s.bringupClaim d op) := by
  unfold State.bringupClaim
  split <;> [exact setChannelClaim_readsKept s d _; exact .refl s]

theorem claimForward_readsKept (s : State) (d : DieId) : ReadsKept s (s.claimForward d) := by
  unfold State.claimForward
  split <;> [exact setChannelClaim_readsKept s d _; exact .refl s]

theorem claimForwardNow_readsKept (s : State) : ReadsKept s s.claimForwardNow :=
  .forPresent (fun d t => by dsimp only; split <;> [exact claimForward_readsKept t d; exact .refl t]) s

theorem claimAll_readsKept (s : State) (op : State → ChannelOp) :
    ReadsKept s (s.forPresent fun d t => t.setChannelClaim d (some (op t))) :=
  .forPresent (fun d t => setChannelClaim_readsKept t d _) s

theorem wake_readsKept (s : State) : ReadsKept s s.wake := by
  unfold State.wake
  split
  · exact setPartState_readsKept s _ _ fun _ => by decide
  · exact .refl s

theorem endWake_readsKept (s : State) : ReadsKept s s.endWake := by
  unfold State.endWake
  split <;> [exact becomeRunning_readsKept s; exact .refl s]

theorem beginPhase_readsKept (s : State) (phase : Phase) (op : State → ChannelOp) :
    ReadsKept s (s.beginPhase phase op) :=
  (setPartState_readsKept s _ _ fun _ => by decide).trans (claimAll_readsKept _ op)

theorem endWakePhase_readsKept (s : State) : ReadsKept s s.endWakePhase := by
  unfold State.endWakePhase
  split <;> [exact beginPhase_readsKept s _ _; exact .refl s]

theorem endRecalPhase_readsKept (s : State) : ReadsKept s s.endRecalPhase := by
  unfold State.endRecalPhase
  split <;> [exact beginPhase_readsKept s _ _; exact .refl s]

theorem enterClock_readsKept (s : State) : ReadsKept s s.enterClock := by
  unfold State.enterClock
  split
  · refine ReadsKept.trans (.forPresent (fun d t => ?_) s) (setChan_rest_readsKept _ _ (by rfl))
    exact (setPort_readsKept t d _ (by rfl)).trans (setRecalOwed_readsKept _ d true)
  · exact .refl s

theorem allParked_readsKept (s : State) : ReadsKept s s.allParked := by
  unfold State.allParked
  split
  · split
    next h => exact setPartState_readsKept s _ _ fun hs => by rw [h] at hs; revert hs; decide
    · split <;> [exact enterClock_readsKept s; exact .refl s]
  · exact .refl s

theorem addFailed_readsKept (s : State) (d : DieId) : ReadsKept s (s.addFailed d) := by
  unfold State.addFailed
  split <;> [exact setChan_rest_readsKept s _ (by rfl); exact .refl s]

/-- A return of every port to OFF keeps an empty list and empty slots. -/
theorem abortBringup_unread {s : State} (h : Unread s) : Unread s.abortBringup := by
  have hset (t : State) (c : Channel) (ht : Unread t) : Unread (t.setChan c) := ⟨ht.list, ht.claims, ht.below⟩
  have hoff (d : DieId) (t : State) (ht : Unread t) :
      Unread (t.setPort d ((t.port d).toOff t.activePeriod)) := by
    refine ht.congr rfl fun e => ?_
    rw [State.setPort_port]
    split <;> [exact ⟨.inr rfl, .inr rfl⟩; exact ⟨.inl rfl, .inl rfl⟩]
  have hall : Unread (s.forPresent fun d t =>
      (t.setPort d ((t.port d).toOff t.activePeriod)).setChan
        { t.chan with shadow := t.chan.shadow.set d shadowUnknown }) := by
    have hone (d : DieId) (t : State) (ht : Unread t) : Unread
        (if t.present d then (t.setPort d ((t.port d).toOff t.activePeriod)).setChan
          { t.chan with shadow := t.chan.shadow.set d shadowUnknown } else t) := by
      split <;> [exact hset _ _ (hoff d t ht); exact ht]
    exact hone 3 _ (hone 2 _ (hone 1 _ (hone 0 _ h)))
  unfold State.abortBringup
  dsimp only
  split
  · exact (hset _ _ (hset _ _ hall)).of_touches (endProcedure_touches _ _ _) (by decide)
  · exact h

theorem abortBringup_readsKept (s : State) : ReadsKept s s.abortBringup := by
  intro h
  by_cases hb : s.chan.partState = .bringup
  · exact (abortBringup_unread (h.unread_of (by rw [hb]; decide))).readsClaimed
  · unfold State.abortBringup
    dsimp only
    rwa [if_neg fun hc => hb hc.1]

theorem endBringup_readsKept (s : State) (d : DieId) : ReadsKept s (s.endBringup d) := by
  have hdie : ReadsKept s
      ((((s.setPort d { s.port d with state := .idle }).setBalance d 0).clearRecal d).setRecalOwed d false) :=
    (((setPort_readsKept s d _ (by rfl)).trans ((setBalance_touches _ d 0).readsKept (by decide))).trans
      ((clearRecal_touches _ d).readsKept (by decide))).trans (setRecalOwed_readsKept _ d false)
  unfold State.endBringup
  dsimp only
  split
  · exact ((hdie.trans (becomeRunning_readsKept _)).trans (endProcedure_readsKept _ _ _)).trans
      ((setMaint_touches _ _).readsKept (by decide))
  · exact hdie

theorem endSwitch_readsKept (s : State) : ReadsKept s s.endSwitch := by
  unfold State.endSwitch
  split
  · exact ((ReadsKept.forPresent (fun d t => (setBalance_touches t d 0).readsKept (by decide)) s).trans
      (becomeRunning_readsKept _)).trans (endProcedure_readsKept _ _ _)
  · exact .refl s

theorem forwardSettled_readsKept (s : State) (d : DieId) (index : BitVec 4) (value : BitVec 16) :
    ReadsKept s (s.forwardSettled d index value) := by
  have hdone (p : Option Procedure) : ReadsKept s (s.setChan { s.chan with procedure := p }) :=
    setChan_rest_readsKept s _ (by rfl)
  unfold State.forwardSettled
  split
  · split
    · dsimp only
      split
      · exact (hdone _).trans (endProcedure_readsKept _ _ _)
      · exact hdone _
    · exact .refl s
  · exact .refl s

theorem settled_readsKept (s : State) (d : DieId) (index : BitVec 4) (value : BitVec 16) :
    ReadsKept s (s.settled d index value) := by
  unfold State.settled
  split
  · refine ReadsKept.trans ?_ (abortBringup_readsKept _)
    split
    · exact bringupClaim_readsKept s d _
    · exact endBringup_readsKept s d
  · split
    · exact setChannelClaim_readsKept s d _
    · exact endSwitch_readsKept s
  all_goals exact forwardSettled_readsKept s d index value

theorem settleExpired_readsKept (s : State) (d : DieId) : ReadsKept s (s.settleExpired d) := by
  have hport : ReadsKept s (s.setPort d (s.port d).afterSettle) := setPort_readsKept s d _ rfl
  unfold State.settleExpired
  dsimp only
  split
  · exact (hport.trans (setChan_rest_readsKept _ _ (by rfl))).trans (settled_readsKept _ d _ _)
  · exact hport

theorem longRecalDone_readsKept (s : State) (d : DieId) : ReadsKept s (State.longRecalDone d s) := by
  have hcleared : ReadsKept s ((s.clearRecal d).setRecalOwed d false) :=
    ((clearRecal_touches s d).readsKept (by decide)).trans (setRecalOwed_readsKept _ d false)
  unfold State.longRecalDone
  dsimp only
  split
  · exact (hcleared.trans (bringupClaim_readsKept _ d _)).trans (abortBringup_readsKept _)
  · exact hcleared.trans (endRecalPhase_readsKept _)
  all_goals exact hcleared

theorem parkExitDone_readsKept (s : State) (d : DieId) (mode : WakeMode) : ReadsKept s (State.parkExitDone d mode s) :=
  (((setBalance_touches s d _).readsKept (by decide)).trans (claimForward_readsKept _ d)).trans
    ((endWake_readsKept _).trans (endWakePhase_readsKept _))

/-! ### STOPPED and losses -/

/-- Withdrawing every read claim. -/
theorem withdrawReads_port (s : State) (d : DieId) :
    (forDies (fun d t => t.setPort d { t.port d with readClaims := [] }) s).port d =
      { s.port d with readClaims := [] } := by
  have hports := congrArg (fun t => t.port d) (forDies_setPort (fun _ p => { p with readClaims := [] }) s)
  exact hports.trans (Vector.getElem_ofFn d.isLt)

theorem withdrawReads_touches (s : State) :
    Touches [.ports] s (forDies (fun d t => t.setPort d { t.port d with readClaims := [] }) s) :=
  .forDies (fun d t => setPort_touches t d _) s

theorem stopReads_unread {s : State} (h : SlotsBelow s) : Unread s.stopReads := by
  have hanswers := closeAll_touches ((forDies (fun d t => t.setPort d { t.port d with readClaims := [] }) s).setReads
    { s.reads with list := [] }) (s.reads.list.map fun r => Answer.plain r.tag .stopped 0)
  have hreads : s.stopReads.reads = { s.reads with list := [] } := hanswers.reads (by decide)
  have hport (d : DieId) : s.stopReads.port d = { s.port d with readClaims := [] } :=
    (hanswers.port (by decide) d).trans (withdrawReads_port s d)
  refine ⟨by rw [hreads], fun d => by rw [hport], fun d x hx => ?_⟩
  rw [hport] at hx
  rw [hreads]
  exact h d x hx

theorem stopClaims_unread {s : State} (h : Unread s) : Unread s.stopClaims := by
  have hone (d : DieId) (t : State) (ht : Unread t) :
      Unread (if (t.port d).channelClaim = some .parkExit then t else t.setChannelClaim d none) := by
    split
    · exact ht
    · refine ht.congr rfl fun e => ?_
      rw [State.setChannelClaim, State.setPort_port]
      split
      next he => subst he; exact ⟨.inl rfl, .inl rfl⟩
      · exact ⟨.inl rfl, .inl rfl⟩
  exact hone 3 _ (hone 2 _ (hone 1 _ (hone 0 _ h)))

/-- An entry to STOPPED answers every listed read (R59, R131). -/
theorem halts_unread {s : State} (h : SlotsBelow s) (cause : StopCause) : Unread (s.halts cause) := by
  have hended := endProcedure_touches
    (s.setChan { s.chan with partState := .stopped, phase := none, stopCause := some cause }) .failed s.stopDetail
  have hbelow : SlotsBelow ((s.setChan
      { s.chan with partState := .stopped, phase := none, stopCause := some cause }).endProcedure .failed
        s.stopDetail) := by
    intro d x hx
    rw [hended.port (by decide)] at hx
    rw [hended.reads (by decide)]
    exact h d x hx
  exact stopClaims_unread ((stopReads_unread hbelow).of_touches (stopFlushes_touches _) (by decide))

theorem enterStopped_readsKept (s : State) (cause : StopCause) : ReadsKept s (s.enterStopped cause) := by
  intro h
  rw [enterStopped_eq]
  split
  · exact (halts_unread h.2.2.2.2.1 cause).readsClaimed
  · exact h

/-- The record of a failed die (R85 step 4, R166). -/
def State.failureNote (s : State) (d : DieId) (detail : Status) : LogNote :=
  { kind := .dieFailed, detail := detail.code, die := some d, line := (s.port d).slot.bind Slot.line
    tag := s.slotTag d }

/-- A failure's record, latch, port and reverted entries, before bring-up or the part takes it (R85). -/
def State.portFailed (s : State) (d : DieId) (detail : Status) : State :=
  (((s.logNote (s.failureNote d detail)).latch .dieFailed).setPort d (s.port d).fail).revertDie d

theorem portFailed_touches (s : State) (d : DieId) (detail : Status) :
    Touches [.errs, .ports, .table] s (s.portFailed d detail) :=
  (((noteAndLatch_touches s _ _).mono (by decide)).andThen (setPort_touches _ d _) (by decide)).andThen
    (revertDie_touches _ d) (by decide)

/-- In bring-up a failure joins the failed dies of the START; elsewhere it stops the part (R86, R118, R131). -/
theorem failPort_eq (s : State) (d : DieId) (detail : Status) :
    s.failPort d detail =
      if s.chan.partState = .bringup then ((s.portFailed d detail).addFailed d).abortBringup
      else (s.portFailed d detail).enterStopped .dieFailed := by
  have hport (n : LogNote) : ((s.logNote n).latch .dieFailed).port d = s.port d := rfl
  rw [← (portFailed_touches s d detail).chan (by decide)]
  unfold State.failPort State.portFailed State.failureNote
  dsimp only
  rw [hport]

theorem portFailed_port (s : State) (d : DieId) (detail : Status) (e : DieId) :
    (s.portFailed d detail).port e = if d = e then (s.port d).fail else s.port e :=
  ((revertDie_touches _ d).port (by decide) e).trans (State.setPort_port _ _ _ _)

/-- A failed port takes its claims with it; where reads are listed, the part stops (R85, R131). -/
theorem failPort_readsKept (s : State) (d : DieId) (detail : Status) : ReadsKept s (s.failPort d detail) := by
  intro h
  have htouch := portFailed_touches s d detail
  have hreads : (s.portFailed d detail).reads = s.reads := htouch.reads (by decide)
  have hbelow : SlotsBelow (s.portFailed d detail) := by
    intro e x hx
    rw [portFailed_port] at hx
    rw [hreads]
    split at hx
    · cases hx
    · exact h.2.2.2.2.1 e x hx
  have hunread (hs : s.chan.partState ∉ [PartState.running, .waking, .switching]) : Unread (s.portFailed d detail) := by
    refine (h.unread_of hs).congr hreads fun e => ?_
    rw [portFailed_port]
    split
    · exact ⟨.inr rfl, .inr rfl⟩
    · exact ⟨.inl rfl, .inl rfl⟩
  rw [failPort_eq]
  split
  next hb =>
    have hadded := (hunread (by rw [hb]; decide)).of_touches (addFailed_touches _ d) (by decide)
    exact (abortBringup_unread hadded).readsClaimed
  next hb =>
    rw [enterStopped_eq, htouch.chan (by decide)]
    split
    · exact (halts_unread hbelow _).readsClaimed
    next hup =>
      refine (hunread fun hs => hup ?_).readsClaimed
      revert hs
      cases s.chan.partState <;> decide

theorem lose_readsKept (s : State) (i : Fin 32) (cause : LossCause) : ReadsKept s (s.lose i cause) := by
  have hreport (line : LineAddr) (wsn : Wsn) : ReadsKept s (s.reportLoss line wsn cause) := by
    have hmark (t : State) (ht : ReadsKept s t) (n : LogNote) :
        ReadsKept s (((t.logNote n).latch .writeLost).markLost line) :=
      (ht.trans ((noteAndLatch_touches t n _).readsKept (by decide))).trans (markLost_readsKept _ line)
    have hlisted (b : Prop) [Decidable b] (e : Errors) : ReadsKept s (if b then s else s.setErrs e) := by
      split <;> [exact .refl s; exact (setErrs_touches s _).readsKept (by decide)]
    unfold State.reportLoss
    dsimp only
    split
    · exact ((hmark _ (hlisted _ _) _).trans ((noteAndLatch_touches _ _ _).readsKept (by decide))).trans
        (enterStopped_readsKept _ _)
    · exact hmark _ (hlisted _ _) _
  unfold State.lose
  dsimp only
  refine ReadsKept.trans ?_ ((leave_touches _ i true).readsKept (by decide))
  split
  · exact hreport _ _
  · exact .refl s

theorem takeWriteStep_readsKept (s : State) (d : DieId) (cl : Claimant) (stored : Bool) :
    ReadsKept s (s.takeWriteStep d cl stored) := by
  unfold State.takeWriteStep
  split
  · split
    · exact (leave_touches s _ false).readsKept (by decide)
    · unfold State.retryOrLose
      dsimp only
      split
      · exact ((setEntry_touches s _ _).readsKept (by decide)).trans (setDrainClaim_readsKept _ d _)
      · exact lose_readsKept s _ _
  all_goals exact .refl s

/-- A LINE READ answers the listed record that it serves, or is a drain's, or serves nothing (R47, R48). -/
theorem lineRead_readsClaimed {s : State} (hn : ClaimsNumbered s) {d : DieId} {l n : Nat} {cl : Claimant}
    {ln : Option LineAddr} (hslot : (s.port d).slot = some ⟨.lineRead l n, cl, ln⟩) (data : Option LineData)
    (h : ReadsClaimed s) : ReadsClaimed ((s.emptySlot d).takeLineRead d cl data) := by
  unfold State.takeLineRead
  split
  next claim =>
    split
    next r hf =>
      have hclaim : r.claim = claim := by simpa using List.find?_some hf
      subst hclaim
      exact answeredRead_readsClaimed hn (List.mem_of_find?_eq_some hf) hslot data h
    next hf =>
      refine emptySlot_readsKept hslot (fun r hr => ?_) h
      have hne := List.find?_eq_none.1 hf r hr
      simp only [Slot.serves, beq_eq_false_iff_ne, ne_eq, Claimant.reads.injEq]
      exact fun he => hne (by simp [he])
  next i =>
    have hempty : ReadsClaimed (s.emptySlot d) := emptySlot_readsKept hslot (fun r _ => by simp [Slot.serves]) h
    split
    · exact setDrainClaim_readsKept _ d _ ((setEntry_touches _ _ _).readsKept (by decide) hempty)
    · exact lose_readsKept _ _ _ hempty
  all_goals exact emptySlot_readsKept hslot (fun r _ => by simp [Slot.serves]) h

/-- A link reset empties the list and withdraws every read claim (R157). -/
theorem linkEmptied_unread {s : State} (h : SlotsBelow s) : Unread s.linkEmptied := by
  have hport (d : DieId) : s.linkEmptied.port d = { s.port d with readClaims := [] } := withdrawReads_port _ d
  have hnext : s.linkEmptied.reads.nextClaim = s.reads.nextClaim := by
    have hreads := (withdrawReads_touches (s.setLink { tags := [], answers := [], held := [] })).reads (by decide)
    exact (congrArg Reads.nextClaim hreads :)
  refine ⟨rfl, fun d => by rw [hport], fun d x hx => ?_⟩
  rw [hport] at hx
  rw [hnext]
  exact h d x hx

/-! ### Every command -/

theorem event_readsClaimed {s u : State} {touched : DieId → Bool} (h : Event s u touched) (hn : ClaimsNumbered s)
    (k : ReadsClaimed s) : ReadsClaimed u := by
  have hempty {d : DieId} {x : Slot} (hslot : (s.port d).slot = some x) (hx : ∀ r, x.serves r = false) :
      ReadsClaimed (s.emptySlot d) := emptySlot_readsKept hslot (fun r _ => hx r) k
  cases h with
  | linkReset => exact (linkEmptied_unread k.2.2.2.2.1).readsClaimed
  | park may =>
    have hlist : s.reads.list = [] := by
      simp only [State.mayPark, Bool.and_eq_true, List.isEmpty_iff] at may
      tauto
    have hset : ReadsClaimed (s.setChan { s.chan with partState := .parking, phase := none, parkDelay := none }) :=
      setChan_readsKept s _ (fun hne => absurd hlist hne) (fun hne => absurd hlist hne) k
    exact claimAll_readsKept _ (fun _ => .parkEnter) hset
  | relock => exact beginPhase_readsKept _ _ _ (setChan_rest_readsKept s _ (by rfl) k)
  | settle d => exact settleExpired_readsKept s d k
  | fail d detail => exact failPort_readsKept s d detail k
  | deadline r listed => exact deadlineExpired_readsClaimed hn listed k
  | refreshDue d => exact (refreshDebited_touches s d).readsKept (by decide) k
  | recalDue d => exact (setCare_touches s d _).readsKept (by decide) k
  | poll => exact (polled_touches s).readsKept (by decide) k
  | lineRead d _ _ _ _ _ slot => exact lineRead_readsClaimed hn slot _ k
  | lineWrite d _ _ _ _ _ _ _ _ slot => exact takeWriteStep_readsKept _ d _ _ (hempty slot fun _ => rfl)
  | maskedWrite d _ _ _ _ _ _ _ _ _ slot => exact takeWriteStep_readsKept _ d _ _ (hempty slot fun _ => rfl)
  | refresh d _ _ _ slot => exact (setBalance_touches _ d _).readsKept (by decide) (hempty slot fun _ => rfl)
  | shortRecal d _ _ _ slot => exact (clearRecal_touches _ d).readsKept (by decide) (hempty slot fun _ => rfl)
  | longRecal d _ _ _ slot => exact longRecalDone_readsKept _ d (hempty slot fun _ => rfl)
  | tempRead d _ _ _ slot => exact (takeBand_touches _ d _).readsKept (by decide) (hempty slot fun _ => rfl)
  | set d _ _ _ _ slot => exact setPort_readsKept _ d _ (by rfl) (hempty slot fun _ => rfl)
  | dieReset d _ _ slot =>
    exact abortBringup_readsKept _ (bringupClaim_readsKept _ d _ (hempty slot fun _ => rfl))
  | parkEnter d _ _ _ slot =>
    exact allParked_readsKept _ ((setBalance_touches _ d 0).readsKept (by decide)
      (setPort_readsKept _ d _ (by rfl) (hempty slot fun _ => rfl)))
  | parkExit d mode _ _ _ slot => exact parkExitDone_readsKept _ d mode (hempty slot fun _ => rfl)

theorem setClocks_readsKept (s : State) (period : Nat) : ReadsKept s (s.setClocks period) :=
  .forDies (fun d t => setPort_readsKept t d _ (by rfl)) s

theorem setProfile_readsKept (s : State) (p : ProfileId) (v : Profile) :
    ReadsKept s (s.setChan (s.chan.setProfile p v)) := by
  cases p <;> exact setChan_rest_readsKept s _ (by rfl)

/-- DIE_COUNT changes in CONFIG, where no read is listed (R137). -/
theorem accept_readsClaimed {bad : State → Nat → Bool} {configOnly : Bool} {accept : Nat → State → State}
    (k : Setting bad configOnly accept) (v : Nat) {s : State} (hn : ClaimsNumbered s)
    (config : configOnly = true → s.chan.partState = .config) (h : ReadsClaimed s) : ReadsClaimed (accept v s) := by
  have hset (c : Settings) (hc : c.dieCount = s.chan.settings.dieCount) : ReadsClaimed (s.setSettings c) :=
    setChan_readsKept s _ (fun _ => hc) (fun _ => id) h
  have hclosed (c : Settings) (hc : c.dieCount = s.chan.settings.dieCount) (before : State) (touched : DieId → Bool) :
      ReadsClaimed ((s.setSettings c).finish before touched) := 
    ReadsClaimed.finish (s := s.setSettings c) hn (hset c hc) before touched
  cases k with
  | highMark => exact hclosed _ (by rfl) _ _
  | lowMark => exact hclosed _ (by rfl) _ _
  | pullIn => exact hclosed _ (by rfl) _ _
  | idleDrainTime => exact ((setDrain_touches _ _).readsKept (by decide) (hset _ (by rfl))).relevel hn
  | dieCount =>
    have hlist := (h.unread_of (by rw [config rfl]; decide)).list
    refine setClocks_readsKept _ _ (setChan_readsKept s _ ?_ (fun _ => id) h)
    exact fun hne => absurd hlist hne
  | parkDelay => exact setChan_rest_readsKept _ _ (by rfl) (hset _ (by rfl))
  | granularity =>
    exact setProfile_readsKept _ _ _ (hset { s.chan.settings with granularity := v } rfl)
  | tempPoll => exact (setMaint_touches _ _).readsKept (by decide) (hset _ (by rfl))
  | checkPolicy => exact hset _ (by rfl)
  | readWaitLimit => exact hset _ (by rfl)
  | wakeMode => exact hset _ (by rfl)
  | maskedWrites => exact hset _ (by rfl)
  | dieLinesLog2 => exact hset _ (by rfl)
  | drainRetry => exact hset _ (by rfl)
  | dieOpLimit => exact hset _ (by rfl)

theorem writeField_readsKept (s : State) (p : ProfileId) (n : Fin 16) (v : BitVec 16) :
    ReadsKept s (s.writeField p n v) := by
  unfold State.writeField
  dsimp only
  split
  · exact (setProfile_readsKept s p _).trans (setClocks_readsKept _ _)
  · exact setProfile_readsKept s p _

/-- A new record is WAITING under a claim number that no slot names; the part is awake or wakes (R44, R46, R122). -/
theorem joinReads_readsClaimed {s : State} {r : ReadRecord} (hclaim : r.claim = s.reads.nextClaim)
    (hstate : r.state = .waiting) (hdie : r.die = s.dieIndex r.line)
    (up : s.chan.partState ∈ [PartState.running, .parking, .parked, .waking, .switching]) (h : ReadsClaimed s) :
    ReadsClaimed ((s.joinReads r).wake) := by
  obtain ⟨hclaims, hserved, hslots, hdies, hbelow, -⟩ := h
  have htouch := wake_touches (s.joinReads r)
  have hreads : (s.joinReads r).wake.reads = { list := s.reads.list ++ [r], nextClaim := s.reads.nextClaim + 1 } :=
    htouch.reads (by decide)
  have hport (d : DieId) : (s.joinReads r).wake.port d =
      if r.die = d then { s.port r.die with readClaims := (s.port r.die).readClaims ++ [r.claim] } else s.port d :=
    (htouch.port (by decide) d).trans (State.setPort_port _ _ _ _)
  have hslot (d : DieId) : ((s.joinReads r).wake.port d).slot = (s.port d).slot := by
    rw [hport]
    split
    next he => rw [he]
    · rfl
  have hcount (line : LineAddr) : (s.joinReads r).wake.dieIndex line = s.dieIndex line := by
    have hset := (htouch.settings (by decide)).1
    simp only [State.dieIndex, hset]
    rfl
  have hmem {q : ReadRecord} (hq : q ∈ (s.joinReads r).wake.reads.list) : q ∈ s.reads.list ∨ q = r := by
    rw [hreads] at hq
    simpa using hq
  refine ⟨fun d => ?_, fun q hq ha => ?_, fun d x hx q hq hc => ?_, fun q hq => ?_, fun d x hx => ?_, fun _ => ?_⟩
  · rw [hport, hreads, List.filter_append, List.map_append, ← hclaims]
    split
    next he => subst he; simp [hstate]
    next he => simp [he]
  · obtain hq | rfl := hmem hq
    · rw [hslot]; exact hserved q hq ha
    · rw [hstate] at ha; cases ha
  · rw [hslot] at hx
    obtain hq | rfl := hmem hq
    · exact hslots d x hx q hq hc
    · have hlt := hbelow d x hx
      rw [hc, hclaim] at hlt
      exact absurd (of_decide_eq_true hlt) (lt_irrefl _)
  · rw [hcount]
    obtain hq | rfl := hmem hq
    · exact hdies q hq
    · exact hdie
  · rw [hslot] at hx
    have hlt := hbelow d x hx
    rw [hreads]
    cases hc : x.claimant with
    | reads claim =>
      rw [hc] at hlt
      exact decide_eq_true (Nat.lt_succ_of_lt (of_decide_eq_true hlt))
    | channel => rfl
    | maintenance => rfl
    | drain i => rfl
  · have hpart : (s.joinReads r).chan = s.chan := rfl
    unfold State.wake
    rw [hpart]
    split
    · show PartState.waking ∈ [PartState.running, .waking, .switching]
      decide
    next hw =>
      rw [hpart]
      revert hw up
      cases s.chan.partState <;> decide

theorem reset_unread (s : State) : Unread s.poweredOn := by
  have hport (d : DieId) : s.poweredOn.port d = Port.atReset (if d = 0 then some 2500 else none) := reset_port d
  refine ⟨rfl, fun d => by rw [hport]; rfl, fun d x hx => ?_⟩
  rw [hport] at hx
  cases hx

theorem restarted_unread (s : State) : Unread s.restarted := by
  refine ⟨rfl, fun d => by rw [restarted_port]; rfl, fun d x hx => ?_⟩
  rw [restarted_port] at hx
  cases hx

theorem service_readsClaimed {s t : State} (h : Service s t) (hn : ClaimsNumbered s)
    (k : ReadsClaimed s) : ReadsClaimed t := by
  have hqueue (u : State) (a : Answer) : ReadsKept u (u.queue a) := (queue_touches u a).readsKept (by decide)
  have hbegin (kind : ProcedureKind) (tag : Tag) : ReadsClaimed (s.beginProcedure kind tag) :=
    (joinTag_touches _ tag).readsKept (by decide) (setChan_rest_readsKept s _ (by rfl) k)
  have hclosed {u : State} (hu : ReadsClaimed u) (hreads : u.reads = s.reads) (before : State)
      (touched : DieId → Bool) : ReadsClaimed (u.finish before touched) := hu.finish (hn.congr hreads) before touched
  cases h with
  | answer a => exact hqueue s a k
  | read h free up room =>
    have hjoined : ReadsClaimed ((s.joinReads (s.readRecord h)).wake) := joinReads_readsClaimed rfl rfl rfl up k
    have hnumbered : ClaimsNumbered (s.joinReads (s.readRecord h)) := joinReads_numbered hn rfl
    exact hjoined.finish (hnumbered.congr ((wake_touches _).reads (by decide))) _ _
  | writeRests a =>
    have hwoken : ReadsClaimed (s.queue a).wake := wake_readsKept _ (hqueue s a k)
    exact hclosed hwoken ((wake_touches _).reads (by decide)) _ _
  | writePosts a line m data i e =>
    have hpost := post_touches s i e line m
    have hwoken : ReadsClaimed ((s.post i e line m).queue a).wake :=
      wake_readsKept _ (hqueue _ a (hpost.readsKept (by decide) k))
    exact hclosed hwoken (((wake_touches _).reads (by decide)).trans (hpost.reads (by decide))) _ _
  | flush tag =>
    have hjoined : ReadsClaimed
        ((s.setFlushes (s.flushes ++ [{ tag := tag, boundary := s.table.nextWsn, loss := false }])).joinTag tag) :=
      (joinTag_touches _ tag).readsKept (by decide) ((setFlushes_touches s _).readsKept (by decide) k)
    exact hclosed hjoined rfl _ _
  | setting a v setting good config => exact hqueue _ a (accept_readsClaimed setting v hn config k)
  | field a p n v => exact hqueue _ a (writeField_readsKept s p n v k)
  | commit a p => exact hqueue _ a (setProfile_readsKept s p _ k)
  | start tag free config =>
    have hlist : s.reads.list = [] := (k.unread_of (by rw [config]; decide)).list
    have hbegun : ReadsClaimed ((s.beginProcedure (.start 0) tag).setPartState .bringup none) :=
      setChan_readsKept _ _ (fun hne => absurd hlist hne) (fun hne => absurd hlist hne) (hbegin _ tag)
    have hclaimed := claimAll_readsKept _ (fun _ => .dieReset) hbegun
    exact hclosed hclaimed ((claimAll_touches _ fun _ => .dieReset).reads (by decide)) _ _
  | rateSwitch target tag =>
    have hbegun : ReadsClaimed ((s.beginProcedure (.rateSwitch target) tag).setPartState .switching (some .quiesce)) :=
      setPartState_readsKept _ _ _ (fun _ => by decide) (hbegin _ tag)
    unfold State.beginSwitch
    dsimp only
    split
    · exact hclosed (enterClock_readsKept _ hbegun) ((enterClock_touches _).reads (by decide)) _ _
    · exact hclosed hbegun rfl _ _
  | clearErrors a mask => exact hqueue _ a ((setErrs_touches s _).readsKept (by decide) k)
  | restart a => exact hqueue _ a (restarted_unread s).readsClaimed
  | forward h =>
    unfold State.beginForward
    dsimp only
    have hclaimed (kind : ProcedureKind) : ReadsClaimed ((s.beginProcedure kind h.tag).wake.claimForwardNow) :=
      claimForwardNow_readsKept _ (wake_readsKept _ (hbegin kind h.tag))
    exact hclosed (hclaimed _) (((claimForwardNow_touches _).reads (by decide)).trans
        ((wake_touches _).reads (by decide)))
      _ _
  | log a => exact hqueue _ a ((setErrs_touches s _).readsKept (by decide) k)

/-- The Tag Set and Read Service's claims in order. -/
def Claimed (s : State) : Prop := Answerable s ∧ ReadsClaimed s

theorem claimed_execKeeps : ExecKeeps Claimed where
  held s l h := ⟨answerable_execKeeps.held s l h.1, (setLink_touches s _).readsKept (by decide) h.2⟩
  sent s h := ⟨answerable_execKeeps.sent s h.1, (setLink_touches s _).readsKept (by decide) h.2⟩
  headerFault s h := ⟨h.1, (noteAndLatch_touches s _ _).readsKept (by decide) h.2⟩
  arrive s h := by
    have hset : ReadsClaimed s.restartIdleDrain.restartParkDelay :=
      setChan_rest_readsKept _ _ (by rfl) ((setDrain_touches s _).readsKept (by decide) h.2)
    exact ⟨answerable_execKeeps.arrive s h.1, hset.relevel h.1.1.2⟩
  dataFault s r h := ⟨h.1, (noteAndLatch_touches s _ _).readsKept (by decide) h.2⟩
  service s t hp hs h :=
    have ht := service_answerable hp hs h.1
    ⟨ht, service_readsClaimed hs h.1.1.2 h.2⟩
  event s t hs h := by
    refine ⟨eventStep_answerable hs h.1, ?_⟩
    have hn : ClaimsNumbered s := h.1.1.2
    cases hs with
    | rests => exact h.2
    | powersOn => exact (reset_unread s).readsClaimed
    | delaysParking => exact setChan_rest_readsKept s _ (by rfl) h.2
    | idles =>
      exact ReadsClaimed.relevel (s := s.setDrain _) hn ((setDrain_touches s _).readsKept (by decide) h.2)
    | closes event =>
      exact (event_readsClaimed event hn h.2).finish ((event_tagsKept event).held h.1.1).2 _ _

/-- Settles O59: every request joins the Tag Set with its place and leaves it with its answer, and every read claim goes
from its port to its slot and out with its record. -/
theorem stepKeepsTagsHeld : Obligations.StepKeepsTagsHeld := by
  intro s t hx h
  have hs : Answerable s := (answerable_iff s).2 h
  have ht : Answerable t := answerable_execKeeps.step (fun _ _ k => k) hx hs
  refine ⟨(answerable_iff t).1 ht, fun k => ?_⟩
  have hclaimed : Claimed t := claimed_execKeeps.step (fun _ _ k => k) hx ⟨hs, k⟩
  exact hclaimed.2

end Sys2Proof.Machine
end

section
/-! SUPPORT. The SETUPs of part settings: the writes, what acts at once, and the refusals (R135 to R138). -/

namespace Sys2Proof.Machine

/-! ### An arrival at a state whose level is kept -/

theorem arrive_chan (s : State) : s.arrive.chan = s.arrived.chan := (arrive_internal s).chan

theorem arrive_partState (s : State) : s.arrive.chan.partState = s.chan.partState := by rw [arrive_chan]; rfl

theorem arrive_settings (s : State) : s.arrive.chan.settings = s.chan.settings := by rw [arrive_chan]; rfl

theorem arrive_link (s : State) : s.arrive.link = s.link := (arrive_internal s).link

theorem arrive_profile (s : State) (p : ProfileId) : s.arrive.chan.profile p = s.chan.profile p := by
  rw [arrive_chan]
  cases p <;> rfl

/-- What Channel Control does to its own state after an arrival is what it does to the arrived state. -/
theorem arrive_setChan {s : State} (h : LevelKept s) (c : Channel) :
    Internal (s.arrived.setChan c) (s.arrive.setChan c) := by
  obtain ⟨P, V, hform, hwithdrawn⟩ := arrive_form h
  rw [hform]
  exact internal_withdrawn (s.arrived.setChan c) P V hwithdrawn

theorem Internal.queue {u t : State} (h : Internal u t) (a : Answer) : Internal (u.queue a) (t.queue a) := by
  have hlink := h.link
  unfold State.queue
  rw [hlink]
  exact h.setLink_congr _

/-! ### The decision on a part setting -/

section
variable {c : Instr} {h : Header} {code : Byte} {bad : State → Nat → Bool} {configOnly : Bool}
  {accept : Nat → State → State} {s : State}

/-- A value out of range is refused BAD_SETTING (R135). -/
theorem setting_bad (hw : c.wf = true) (hr : requestOf c = some (Request.setup code anyValue h))
    (hs : served c = State.serveSetting h bad configOnly accept)
    (ha : Accepted s (Request.setup code anyValue h)) (hbad : bad s.arrive h.value.toNat = true) :
    CompletesAs c s (s.answered (Answer.plain h.tag .badSetting 0)) := by
  refine ⟨_, exec_accepted hw hr ha, ?_⟩
  rw [hs, State.serveSetting, if_pos hbad]
  exact arrive_reply_internal s _ _

/-- A value in range of a setting taken in CONFIG only is refused BAD_STATE elsewhere (R135). -/
theorem setting_badState (hw : c.wf = true) (hr : requestOf c = some (Request.setup code anyValue h))
    (hs : served c = State.serveSetting h bad true accept)
    (ha : Accepted s (Request.setup code anyValue h)) (hgood : bad s.arrive h.value.toNat = false)
    (hstate : s.chan.partState ≠ .config) :
    CompletesAs c s (s.answered (Answer.plain h.tag .badState 0)) := by
  refine ⟨_, exec_accepted hw hr ha, ?_⟩
  rw [hs, State.serveSetting, if_neg (by simp [hgood]), if_pos ⟨rfl, by rwa [arrive_partState]⟩]
  exact arrive_reply_internal s _ _

theorem setting_taken (hw : c.wf = true) (hr : requestOf c = some (Request.setup code anyValue h))
    (hs : served c = State.serveSetting h bad configOnly accept)
    (ha : Accepted s (Request.setup code anyValue h)) (hgood : bad s.arrive h.value.toNat = false)
    (hstate : configOnly = true → s.chan.partState = .config) :
    exec c s = .next ((accept h.value.toNat s.arrive).reply h.tag .ok) := by
  rw [exec_accepted hw hr ha, hs, State.serveSetting, if_neg (by simp [hgood]),
    if_neg (by rw [arrive_partState]; exact fun hn => hn.2 (hstate hn.1))]

/-- An accepted setting is answered OK after what its acceptance makes of the arrived state. -/
theorem setting_completes (hw : c.wf = true) (hr : requestOf c = some (Request.setup code anyValue h))
    (hs : served c = State.serveSetting h bad configOnly accept)
    (ha : Accepted s (Request.setup code anyValue h)) (hgood : bad s.arrive h.value.toNat = false)
    (hstate : configOnly = true → s.chan.partState = .config) {u : State}
    (hu : Internal u (accept h.value.toNat s.arrive)) :
    CompletesAs c s (u.queue (Answer.plain h.tag .ok 0)) :=
  ⟨_, setting_taken hw hr hs ha hgood hstate, hu.queue _⟩

end

theorem outside_true {lo hi v : Nat} {s : State} : outside lo hi s v = true ↔ v < lo ∨ hi < v := by
  simp [outside]

theorem notOneTwoFour_true {v : Nat} : notOneTwoFour v = true ↔ v ≠ 1 ∧ v ≠ 2 ∧ v ≠ 4 := by
  simp [notOneTwoFour, and_assoc]

theorem badHighMark_true (s : State) (v : Nat) :
    badHighMark s v = true ↔ v < 1 ∨ 32 < v ∨ v ≤ s.chan.settings.lowMark := by
  simp [badHighMark, outside, or_assoc]

theorem badLowMark_true (s : State) (v : Nat) :
    badLowMark s v = true ↔ 31 < v ∨ s.chan.settings.highMark ≤ v := by
  simp [badLowMark, outside]

theorem badGranularity_true (s : State) (v : Nat) :
    badGranularity s v = true ↔ (v ≠ 1 ∧ v ≠ 2 ∧ v ≠ 4) ∨
      ((s.chan.profile s.chan.active).valid = true ∧ (s.chan.profile s.chan.active).refreshRule v = false) := by
  rw [badGranularity, Bool.or_eq_true, notOneTwoFour_true, Bool.and_eq_true, Bool.not_eq_true']

theorem badGranularity_arrive (s : State) (v : Nat) : badGranularity s.arrive v = badGranularity s v := by
  have hactive : s.arrive.chan.active = s.chan.active := by rw [arrive_chan]; rfl
  simp only [badGranularity, arrive_profile, hactive]

/-- Settles O48: each command's test of its value, then, for the four settings taken in CONFIG only, the part state. -/
theorem refusedSettingsChangeNothing : Obligations.RefusedSettingsChangeNothing := by
  intro s h _ v c refused notOneTwoFour' breaksRule outsideConfig
  have hset := arrive_settings s
  refine ⟨?_, ?_, ?_, ?_, ?_, ?_, ?_, ?_, ?_, ?_, ?_, ?_, ?_, ?_, ?_, ?_, ?_, ?_, ?_⟩ <;> intro ha hbad
  · exact setting_bad rfl rfl rfl ha (outside_true.2 (.inr hbad))
  · exact setting_bad rfl rfl rfl ha ((badHighMark_true _ _).2 (hset ▸ hbad))
  · exact setting_bad rfl rfl rfl ha ((badLowMark_true _ _).2 (hset ▸ hbad))
  · exact setting_bad rfl rfl rfl ha (outside_true.2 (.inr hbad))
  · exact setting_bad rfl rfl rfl ha (outside_true.2 hbad)
  · exact setting_bad rfl rfl rfl ha (outside_true.2 (.inr hbad))
  · exact setting_bad rfl rfl rfl ha (outside_true.2 (.inr hbad))
  · exact setting_bad rfl rfl rfl ha (outside_true.2 (.inr hbad))
  · exact setting_bad rfl rfl rfl ha (outside_true.2 (.inr hbad))
  · exact setting_bad rfl rfl rfl ha (notOneTwoFour_true.2 hbad)
  · exact setting_bad rfl rfl rfl ha (outside_true.2 hbad)
  · exact setting_bad rfl rfl rfl ha ((badGranularity_arrive s _).trans ((badGranularity_true s _).2 hbad))
  · exact setting_bad rfl rfl rfl ha (outside_true.2 hbad)
  · exact setting_bad rfl rfl rfl ha (outside_true.2 (.inr hbad))
  · exact setting_bad rfl rfl rfl ha (outside_true.2 hbad)
  · exact setting_badState rfl rfl rfl ha (outside_false.2 ⟨Nat.zero_le _, hbad.1⟩) hbad.2
  · exact setting_badState rfl rfl rfl ha (Bool.eq_false_iff.2 (mt notOneTwoFour_true.1 hbad.1)) hbad.2
  · exact setting_badState rfl rfl rfl ha (outside_false.2 hbad.1) hbad.2
  · obtain ⟨hvalue, hrule, hstate⟩ := hbad
    refine setting_badState rfl rfl rfl ha ?_ hstate
    rw [badGranularity_arrive]
    exact Bool.eq_false_iff.2 (mt (badGranularity_true s _).1 (not_or.2 ⟨hvalue, hrule⟩))

/-! ### Settings that are read where they are used -/

theorem arrive_setSettings {s : State} (hl : LevelKept s) (f : Settings → Settings) :
    Internal (s.arrived.setSettings (f s.chan.settings)) (s.arrive.setSettings (f s.arrive.chan.settings)) := by
  unfold State.setSettings
  rw [arrive_chan]
  exact arrive_setChan hl _

/-- Settles O46: the setting's own field is written. A write of PULL_IN closes its event as well. -/
theorem acceptedSettingsAreWritten : Obligations.AcceptedSettingsAreWritten := by
  intro s h hl v c written
  have wrote (f : Settings → Settings) := arrive_setSettings hl f
  refine ⟨?_, ?_, ?_, ?_, ?_, ?_, ?_, ?_⟩ <;> intro ha hin
  · exact setting_completes (accept := acceptCheckPolicy) rfl rfl rfl ha (outside_false.2 ⟨Nat.zero_le _, hin⟩)
        Bool.noConfusion
      (wrote fun c => { c with checkPolicy := h.value.toNat })
  · exact setting_completes (accept := acceptReadWaitLimit) rfl rfl rfl ha (outside_false.2 hin) Bool.noConfusion
      (wrote fun c => { c with readWaitLimit := h.value.toNat })
  · exact setting_completes (accept := acceptWakeMode) rfl rfl rfl ha (outside_false.2 ⟨Nat.zero_le _, hin⟩)
        Bool.noConfusion
      (wrote fun c => { c with wakeMode := h.value.toNat })
  · exact setting_completes (accept := acceptPullIn) rfl rfl rfl ha (outside_false.2 ⟨Nat.zero_le _, hin⟩)
        Bool.noConfusion
      ((wrote fun c => { c with pullIn := h.value.toNat }).trans (finish_internal _ _ _))
  · exact setting_completes (accept := acceptMaskedWrites) rfl rfl rfl ha (outside_false.2 ⟨Nat.zero_le _, hin.1⟩)
        (fun _ => hin.2)
      (wrote fun c => { c with maskedWrites := h.value.toNat })
  · exact setting_completes (accept := acceptDieLinesLog2) rfl rfl rfl ha (outside_false.2 hin.1) (fun _ => hin.2)
      (wrote fun c => { c with dieLinesLog2 := h.value.toNat })
  · exact setting_completes (accept := acceptDrainRetry) rfl rfl rfl ha (outside_false.2 ⟨Nat.zero_le _, hin⟩)
        Bool.noConfusion
      (wrote fun c => { c with drainRetry := h.value.toNat })
  · exact setting_completes (accept := acceptDieOpLimit) rfl rfl rfl ha (outside_false.2 hin) Bool.noConfusion
      (wrote fun c => { c with dieOpLimit := h.value.toNat })

/-! ### Settings that act at once -/

/-- The test of the hysteresis flag against changed marks, at an event that touches no die (R23). -/
theorem finish_marks {s : State} (hl : LevelKept s) (c : Settings) (before : State) (touched : DieId → Bool) :
    ((s.arrive.setSettings c).finish before touched).drain.hysteresis =
      hysteresisAfter c (occupancy s.table) s.drain.hysteresis := by
  obtain ⟨P, V, hform, -⟩ := arrive_form hl
  rw [finish_hysteresis, hform]
  rfl

theorem otherProfile_eq (p : ProfileId) :
    otherProfile p = match p with
      | .a => .b
      | .b => .a := by
  cases p <;> rfl

/-- What a die's clock takes does not concern its claims. -/
theorem Withdrawn.setClock {p q : Port} (h : Withdrawn p q) (clock : Option Nat) :
    Withdrawn { p with clock := clock } { q with clock := clock } := by
  rcases h with rfl | ⟨hclaim, rfl⟩
  · exact .inl rfl
  · exact .inr ⟨hclaim, rfl⟩

/-- The clocks of the arrived state and of its arrival are set alike. -/
theorem arrive_setClocks {s : State} (hl : LevelKept s) (c : Channel) (period : Nat) :
    Internal ((s.arrived.setChan c).setClocks period) ((s.arrive.setChan c).setClocks period) := by
  obtain ⟨P, V, hform, hwithdrawn⟩ := arrive_form hl
  rw [hform, setClocks_eq, setClocks_eq]
  refine internal_withdrawn
    { s.arrived.setChan c with
      ports := Vector.ofFn fun d => { s.port d with clock := if (s.arrived.setChan c).present d then some period else
          none } }
    P (Vector.ofFn fun d => { V[d] with clock := if (s.arrived.setChan c).present d then some period else none })
    fun d => ?_
  simpa [State.port] using (hwithdrawn d).setClock _

theorem acceptDieCount_eq (v : Nat) (s : State) :
    acceptDieCount v s =
      (s.setChan { s.chan with settings := { s.chan.settings with dieCount := v } }).setClocks (s.activeField 0) := by
  unfold acceptDieCount State.setSettings State.activePeriod State.activeField
  dsimp only [State.setChan_chan]
  rw [settings_profile]

theorem acceptDieCount_arrive {s : State} (hl : LevelKept s) (v : Nat) :
    Internal
      ((s.arrived.setChan { s.arrived.chan with settings := { s.chan.settings with dieCount := v } }).setClocks
        (s.activeField 0))
      (acceptDieCount v s.arrive) := by
  have hperiod : s.arrive.activeField 0 = s.activeField 0 := by
    rw [State.activeField, arrive_profile, arrive_chan]
    rfl
  rw [acceptDieCount_eq, hperiod, arrive_chan]
  exact arrive_setClocks hl _ _

/-- Settles O47: what each setting acts on, after its arrival. -/
theorem acceptedSettingsActAtOnce : Obligations.AcceptedSettingsActAtOnce := by
  intro s h hl v c accepted ok wrote other
  have hwrote (f : Settings → Settings) :
      Internal (s.arrived.setSettings (f c)) (s.arrive.setSettings (f s.arrive.chan.settings)) :=
    arrive_setSettings hl f
  have hset := arrive_settings s
  refine ⟨fun ha hlow hhigh hmarks => ?highMark, fun ha hhigh hmarks => ?lowMark, fun ha hin => ?idleDrainTime,
    fun ha hin => ?parkDelay, fun ha hlow hhigh => ?tempPoll, fun ha hin hconfig => ?dieCount,
    fun ha hin hconfig hrule => ?granularity⟩
  case highMark =>
    have hgood : badHighMark s.arrive h.value.toNat = false := by
      refine Bool.eq_false_iff.2 fun hb => ?_
      rcases hset ▸ (badHighMark_true _ _).1 hb with hb | hb | hb
      · exact absurd hb (Nat.not_lt.2 hlow)
      · exact absurd hb (Nat.not_lt.2 hhigh)
      · exact absurd hb (Nat.not_le.2 hmarks)
    refine ⟨_, setting_taken (accept := acceptHighMark) rfl rfl rfl ha hgood Bool.noConfusion,
      ((hwrote fun c => { c with highMark := h.value.toNat }).trans (finish_internal _ _ _)).queue _, ?_⟩
    refine (finish_marks hl _ _ _).trans ?_
    rw [hset]
    rfl
  case lowMark =>
    have hgood : badLowMark s.arrive h.value.toNat = false := by
      refine Bool.eq_false_iff.2 fun hb => ?_
      rcases hset ▸ (badLowMark_true _ _).1 hb with hb | hb
      · exact absurd hb (Nat.not_lt.2 hhigh)
      · exact absurd hb (Nat.not_le.2 hmarks)
    refine ⟨_, setting_taken (accept := acceptLowMark) rfl rfl rfl ha hgood Bool.noConfusion,
      ((hwrote fun c => { c with lowMark := h.value.toNat }).trans (finish_internal _ _ _)).queue _, ?_⟩
    refine (finish_marks hl _ _ _).trans ?_
    rw [hset]
    rfl
  case idleDrainTime =>
    obtain ⟨P, V, hform, hwithdrawn⟩ := arrive_form hl
    refine setting_completes (accept := acceptIdleDrainTime) rfl rfl rfl ha (outside_false.2 ⟨Nat.zero_le _, hin⟩)
      Bool.noConfusion
      (u := (s.arrived.setSettings { c with idleDrainTime := h.value.toNat }).restartIdleDrain)
      (Internal.trans ?_ (relevel_internal _))
    rw [hform]
    exact internal_withdrawn (s.arrived.setSettings { c with idleDrainTime := h.value.toNat }).restartIdleDrain P V
      hwithdrawn
  case parkDelay =>
    refine setting_completes (accept := acceptParkDelay) rfl rfl rfl ha (outside_false.2 ⟨Nat.zero_le _, hin⟩)
      Bool.noConfusion
      (u := (s.arrived.setSettings { c with parkDelay := h.value.toNat }).restartParkDelay) ?_
    unfold acceptParkDelay State.setSettings
    rw [arrive_chan]
    exact arrive_setChan hl _
  case tempPoll =>
    obtain ⟨P, V, hform, hwithdrawn⟩ := arrive_form hl
    refine setting_completes (accept := acceptTempPoll) rfl rfl rfl ha (outside_false.2 ⟨hlow, hhigh⟩)
      Bool.noConfusion (u := acceptTempPoll h.value.toNat s.arrived) ?_
    rw [hform]
    exact internal_withdrawn (acceptTempPoll h.value.toNat s.arrived) P V hwithdrawn
  case dieCount =>
    have hgood : notOneTwoFour h.value.toNat = false :=
      Bool.eq_false_iff.2 fun hb => by have := notOneTwoFour_true.1 hb; omega
    have hu := setting_completes (accept := acceptDieCount) (c := .setupDieCount h) rfl rfl rfl ha hgood
        (fun _ => hconfig)
      (acceptDieCount_arrive hl h.value.toNat)
    simp only [setClocks_eq, State.present, decide_eq_true_eq] at hu
    exact hu
  case granularity =>
    have hgood : badGranularity s.arrive h.value.toNat = false := by
      rw [badGranularity_arrive]
      refine Bool.eq_false_iff.2 fun hb => ?_
      rcases (badGranularity_true s _).1 hb with hvalue | ⟨hvalid, hbroken⟩
      · omega
      · rw [hrule hvalid] at hbroken
        exact Bool.noConfusion hbroken
    refine setting_completes (accept := acceptGranularity) rfl rfl rfl ha hgood (fun _ => hconfig)
      (u := acceptGranularity h.value.toNat s.arrived) ?_
    unfold acceptGranularity State.setSettings
    rw [arrive_chan]
    exact arrive_setChan hl _

end Sys2Proof.Machine
end

section
/-! SUPPORT. The writes of profile fields and PROFILE_COMMIT (R140 to R142). -/

namespace Sys2Proof.Machine

/-! ### The write of a field -/

theorem arrive_active (s : State) : s.arrive.chan.active = s.chan.active := by rw [arrive_chan]; rfl

/-- A field write after an arrival is the field write of the arrived state. -/
theorem arrive_writeField {s : State} (hl : LevelKept s) (p : ProfileId) (n : Fin 16) (v : BitVec 16) :
    Internal (s.arrived.writeField p n v) (s.arrive.writeField p n v) := by
  unfold State.writeField
  dsimp only
  rw [arrive_chan]
  split
  · exact arrive_setClocks hl _ _
  · exact arrive_setChan hl _

theorem arrived_profile (s : State) (p : ProfileId) : s.arrived.chan.profile p = s.chan.profile p := by cases p <;> rfl

/-- A field write as one record update. -/
theorem writeField_eq (s : State) (p : ProfileId) (n : Fin 16) (v : BitVec 16) :
    s.writeField p n v =
      { s with
        chan := s.chan.setProfile p { fields := (s.chan.profile p).fields.set n v, valid := false }
        ports := Vector.ofFn fun d =>
          if p = s.chan.active ∧ n = 0 then
            { s.port d with clock := if s.present d then some v.toNat else none }
          else s.port d } := by
  unfold State.writeField
  dsimp only
  split
  next hclock =>
    simp only [setClocks_eq, State.present, State.setChan_chan, setProfile_settings]
    rfl
  next hclock =>
    have hports : (Vector.ofFn fun d => s.port d) = s.ports := by
      ext i hi
      simp [State.port]
    rw [hports]
    rfl

/-- Settles O49: a value above 65535 and a profile in use are refused; another write sets the field. -/
theorem profileFieldWriteClearsValidFlag : Obligations.ProfileFieldWriteClearsValidFlag := by
  intro s p n h hl ha refused
  have hx : exec (.profileFieldWrite p n h) s = .next (s.arrive.serveFieldWrite p n h) := exec_accepted rfl rfl ha
  have hrefuse {st : Status} (hst : s.arrive.serveFieldWrite p n h = s.arrive.reply h.tag st) : refused st :=
    ⟨_, hx.trans (congrArg _ hst), arrive_reply_internal s _ _⟩
  have hbusy : s.arrive.chan.partState = .switching ∨ (p = s.arrive.chan.active ∧ s.arrive.chan.partState ≠ .config) ↔
      s.chan.partState = .switching ∨ (p = s.chan.active ∧ s.chan.partState ≠ .config) := by
    rw [arrive_partState, arrive_active]
  split
  next hlarge => exact hrefuse (if_pos hlarge)
  next hlarge =>
  split
  next hstate => exact hrefuse ((if_neg hlarge).trans (if_pos (hbusy.2 hstate)))
  next hstate =>
    have hvalue : (h.value.setWidth 16).toNat = h.value.toNat := by
      rw [BitVec.toNat_setWidth]
      exact Nat.mod_eq_of_lt (Nat.lt_succ_of_le (Nat.not_lt.1 hlarge))
    refine ⟨_, hx.trans (congrArg _ ((if_neg hlarge).trans (if_neg (mt hbusy.1 hstate)))), ?_⟩
    have hwritten := (arrive_writeField hl p n (h.value.setWidth 16)).queue (Answer.plain h.tag .ok 0)
    rw [writeField_eq, hvalue, arrived_profile] at hwritten
    exact hwritten

/-! ### PROFILE_COMMIT -/

/-- The sixteen ranges one by one. -/
theorem commitRanges_iff (f : Fin 16 → Nat) :
    ((List.finRange 16).all fun n => decide ((commitRanges[n]).1 ≤ f n ∧ f n ≤ (commitRanges[n]).2)) = true ↔
      (625 ≤ f 0 ∧ f 0 ≤ 2500) ∧ (8 ≤ f 1 ∧ f 1 ≤ 32) ∧ (6 ≤ f 2 ∧ f 2 ≤ 24) ∧ (8 ≤ f 3 ∧ f 3 ≤ 32) ∧
        (1000 ≤ f 4 ∧ f 4 ≤ 15600) ∧ (50 ≤ f 5 ∧ f 5 ≤ 1000) ∧ (50 ≤ f 6 ∧ f 6 ≤ 1000) ∧
        (50 ≤ f 7 ∧ f 7 ≤ 1000) ∧ (50 ≤ f 8 ∧ f 8 ≤ 1000) ∧ (100 ≤ f 9 ∧ f 9 ≤ 10000) ∧
        (1 ≤ f 10 ∧ f 10 ≤ 1024) ∧ (10 ≤ f 11 ∧ f 11 ≤ 1000) ∧ (50 ≤ f 12 ∧ f 12 ≤ 2000) ∧
        (100 ≤ f 13 ∧ f 13 ≤ 5000) ∧ (50 ≤ f 14 ∧ f 14 ≤ 5000) ∧ (1 ≤ f 15 ∧ f 15 ≤ 100) := by
  rw [List.all_eq_true]
  simp only [List.mem_finRange, true_implies, decide_eq_true_iff]
  refine ⟨fun hall => ⟨hall 0, hall 1, hall 2, hall 3, hall 4, hall 5, hall 6, hall 7, hall 8, hall 9, hall 10, hall 11,
    hall 12, hall 13, hall 14, hall 15⟩, fun hall n => ?_⟩
  obtain ⟨h0, h1, h2, h3, h4, h5, h6, h7, h8, h9, h10, h11, h12, h13, h14, h15⟩ := hall
  fin_cases n <;> assumption

/-- The refresh rule of each of its four lengths. -/
theorem refreshRule_iff (p : Profile) (g : Nat) :
    p.refreshRule g = true ↔
      4 * p.window g ≤ p.field 4 / g / 2 ∧ 4 * p.field 8 ≤ p.field 4 / g / 2 ∧ 4 * p.field 11 ≤ p.field 4 / g / 2 ∧
        4 * p.field 12 ≤ p.field 4 / g / 2 := by
  rw [Profile.refreshRule, decide_eq_true_iff]
  omega

theorem window_eq (p : Profile) (g : Nat) :
    p.window g = if g = 1 then p.field 5 else if g = 2 then p.field 6 else p.field 7 := by
  unfold Profile.window
  split <;> simp_all

theorem profileOfValue_none {v : BitVec 32} (h : 1 < v.toNat) : profileOfValue v = none := by
  have h0 : v ≠ 0 := by rintro rfl; exact absurd h (by decide)
  have h1 : v ≠ 1 := by rintro rfl; exact absurd h (by decide)
  rw [profileOfValue, if_neg h0, if_neg h1]

theorem profileOfValue_some {v : BitVec 32} (h : ¬ 1 < v.toNat) :
    profileOfValue v = some (if v = 0 then .a else .b) := by
  have hv : v = 0 ∨ v = 1 := by
    rcases Nat.le_one_iff_eq_zero_or_eq_one.1 (Nat.not_lt.1 h) with h | h
    · exact .inl (BitVec.eq_of_toNat_eq h)
    · exact .inr (BitVec.eq_of_toNat_eq h)
  rcases hv with rfl | rfl <;> rfl

/-- Settles O50: the test is the conjunction of its ranges, orders and the refresh rule. -/
theorem profileCommitTestsProfile : Obligations.ProfileCommitTestsProfile := by
  intro s h hl ha refused p f g window passes
  have hx : exec (.profileCommit h) s = .next (s.arrive.serveCommit h) := exec_accepted rfl rfl ha
  have hrefuse {st : Status} (hst : s.arrive.serveCommit h = s.arrive.reply h.tag st) : refused st :=
    ⟨_, hx.trans (congrArg _ hst), arrive_reply_internal s _ _⟩
  have hsound : (s.chan.profile p).sound g = true ↔ passes := by
    have hwindow : (s.chan.profile p).window g = window := window_eq _ _
    simp only [Profile.sound, Bool.and_eq_true, commitRanges_iff, refreshRule_iff, decide_eq_true_iff, hwindow]
    simp only [passes, and_assoc]
    rfl
  split_ifs with hlarge hstate hpasses
  · exact hrefuse (by rw [State.serveCommit, profileOfValue_none hlarge])
  · exact hrefuse (by
      rw [State.serveCommit, profileOfValue_some hlarge]
      exact if_pos ((arrive_partState s).trans hstate))
  all_goals
    have hserve : s.arrive.serveCommit h =
        if (s.chan.profile p).sound g then
          (s.arrive.setChan (s.arrived.chan.setProfile p { s.chan.profile p with valid := true })).reply h.tag .ok
        else s.arrive.reply h.tag .badSetting := by
      rw [State.serveCommit, profileOfValue_some hlarge]
      dsimp only
      rw [if_neg (by rwa [arrive_partState]), arrive_profile, arrive_settings, arrive_chan]
  · rw [if_pos (hsound.2 hpasses)] at hserve
    exact ⟨_, hx.trans (congrArg _ hserve), (arrive_setChan hl _).queue _⟩
  · rw [if_neg (mt hsound.1 hpasses)] at hserve
    exact hrefuse hserve

end Sys2Proof.Machine
end

section
/-! SUPPORT. WRITE: posting into an OPEN or a FREE entry, or not at all, and the waking of a parked part (R5 to R12,
R122). -/

namespace Sys2Proof.Machine

/-! ### A state but for its level and selection claims -/

/-- What an arrival does beyond the arrived state: a level, and at a fall to NONE the selection claims withdrawn. -/
def Silenced (u t : State) : Prop :=
  ∃ P V, t = { u with drain := { u.drain with pressure := P }, ports := V } ∧ ∀ d : DieId, Withdrawn (u.port d) V[d]

theorem arrive_silenced {s : State} (hl : LevelKept s) : Silenced s.arrived s.arrive := arrive_form hl

theorem Silenced.internal {u t : State} (h : Silenced u t) : Internal u t := by
  obtain ⟨P, V, rfl, hwithdrawn⟩ := h
  exact internal_withdrawn u P V hwithdrawn

theorem Silenced.port {u t : State} (h : Silenced u t) (d : DieId) : Withdrawn (u.port d) (t.port d) := by
  obtain ⟨P, V, rfl, hwithdrawn⟩ := h
  exact hwithdrawn d

/-- A withdrawn selection claim leaves the port's state and slot. -/
theorem Withdrawn.stays {p q : Port} (h : Withdrawn p q) : q.state = p.state ∧ q.slot = p.slot := by
  rcases h with rfl | ⟨-, rfl⟩ <;> exact ⟨rfl, rfl⟩

section
variable {u t : State} (h : Silenced u t)
include h

theorem Silenced.queue (a : Answer) : Silenced (u.queue a) (t.queue a) := by
  obtain ⟨P, V, rfl, hwithdrawn⟩ := h
  exact ⟨P, V, rfl, hwithdrawn⟩

theorem Silenced.setTable (x : Table) : Silenced (u.setTable x) (t.setTable x) := by
  obtain ⟨P, V, rfl, hwithdrawn⟩ := h
  exact ⟨P, V, rfl, hwithdrawn⟩

theorem Silenced.setErrs (e : Errors) : Silenced (u.setErrs e) (t.setErrs e) := by
  obtain ⟨P, V, rfl, hwithdrawn⟩ := h
  exact ⟨P, V, rfl, hwithdrawn⟩

theorem Silenced.setChan (c : Channel) : Silenced (u.setChan c) (t.setChan c) := by
  obtain ⟨P, V, rfl, hwithdrawn⟩ := h
  exact ⟨P, V, rfl, hwithdrawn⟩

theorem Silenced.setFlushes (l : List FlushRecord) : Silenced (u.setFlushes l) (t.setFlushes l) := by
  obtain ⟨P, V, rfl, hwithdrawn⟩ := h
  exact ⟨P, V, rfl, hwithdrawn⟩

theorem Silenced.joinTag (tag : Tag) : Silenced (u.joinTag tag) (t.joinTag tag) := by
  obtain ⟨P, V, rfl, hwithdrawn⟩ := h
  exact ⟨P, V, rfl, hwithdrawn⟩

end

/-! ### Waking -/

theorem wake_eq (s : State) : s.wake = s.setChan s.chan.woken := by
  unfold State.wake Channel.woken
  split <;> rfl

theorem Silenced.wake {u t : State} (h : Silenced u t) : Silenced u.wake t.wake := by
  have hchan : t.chan = u.chan := h.internal.chan
  rw [wake_eq, wake_eq, hchan]
  exact h.setChan _

theorem woken_settings (c : Channel) : c.woken.settings = c.settings := by
  unfold Channel.woken
  split <;> rfl

/-- A command that wakes the part, whatever it makes of the procedure in progress (R122). -/
theorem wakes_of_woken {c : Instr} {s u b : State} {touched : DieId → Bool} {pr : Option Procedure}
    (hx : exec c s = .next (u.finish b touched)) (hb : b.chan.partState = s.chan.partState)
    (hchan : u.chan = ({ s.arrived.chan with procedure := pr } : Channel).woken)
    (hports : ∀ d, (u.port d).state = (s.port d).state ∧ (u.port d).slot = (s.port d).slot) : Wakes c s := by
  intro hparked
  have hwoken : u.chan = { s.arrived.chan with procedure := pr, partState := .waking, phase := none } :=
    hchan.trans (if_pos hparked)
  refine wakes_of hx hb (fun _ => by rw [hwoken]) (fun d => ?_) ?_ hports hparked
  · simp only [State.present, hwoken]
    rfl
  · simp only [State.wakeExit, State.activeField, hwoken]
    rfl

/-! ### The bytes of an entry -/

theorem maskFull_iff (m : Mask) : maskFull m = true ↔ m = BitVec.allOnes 64 := beq_iff_eq

theorem maskedBytes_eq (m : Mask) (data : LineData) :
    maskedBytes m data = Vector.ofFn fun k => if m.getLsbD k.val then data[k] else 0 := by
  have hzero (k : Fin 64) : zeroLine[k] = 0 := vector_replicate_getElem _ k
  simp only [maskedBytes, overlay, hzero]

theorem newGeneration_eq (s : State) (line : LineAddr)
    [Decidable (∃ j, (s.entry j).state = .draining ∧ (s.entry j).line = some line)] :
    s.newGeneration line =
      if ∃ j, (s.entry j).state = .draining ∧ (s.entry j).line = some line then .second else .first := by
  split
  next hd => exact (newGeneration_second_iff s line).2 hd
  next hd =>
    have := mt (newGeneration_second_iff s line).1 hd
    cases hg : s.newGeneration line <;> simp_all

theorem tooFar_iff (s : State) :
    s.tooFar = true ↔
      ∃ j, (s.entry j).state ≠ .free ∧ 2 ^ 31 - 1 ≤ (s.table.nextWsn - (s.entry j).firstWsn).toNat := by
  simp [State.tooFar, Entry.live, tooFarBehind]

/-- A posted write as one record update (R5, R12). -/
theorem post_eq (s : State) (i : Fin 32) (e : Entry) (line : LineAddr) (m : Mask) :
    s.post i e line m =
      { s with
        table := { entries := s.table.entries.set i e, nextWsn := s.table.nextWsn + 1 }
        errs :=
          if m = BitVec.allOnes 64 then { s.errs with poison := s.errs.poison.filter fun x => x.1 != line }
          else s.errs } := by
  unfold State.post
  dsimp only
  by_cases hfull : m = BitVec.allOnes 64
  · rw [if_pos ((maskFull_iff m).2 hfull), if_pos hfull]
    rfl
  · rw [if_neg (mt (maskFull_iff m).1 hfull), if_neg hfull]
    rfl

theorem Silenced.post {u t : State} (h : Silenced u t) (i : Fin 32) (e : Entry) (line : LineAddr) (m : Mask) :
    Silenced (u.post i e line m) (t.post i e line m) := by
  obtain ⟨P, V, rfl, hwithdrawn⟩ := h
  rw [post_eq, post_eq]
  exact ⟨P, V, rfl, hwithdrawn⟩

/-! ### The table's decision -/

section
variable {s : State} {line : LineAddr} {m : Mask} {data : LineData}

theorem posting_congr {t : State} (h : t.table = s.table) : t.posting line m data = s.posting line m data := by
  have hentry (i : Fin 32) : t.entry i = s.entry i := by simp only [State.entry, h]
  simp only [State.posting, State.tooFar, State.openEntry, State.freeEntry, State.newGeneration, State.drainingEntry,
    State.findEntry, hentry, h]

theorem openEntry_some {i : Fin 32} (hs : TableSound s) (ho : (s.entry i).state = .opened)
    (hline : (s.entry i).line = some line) : s.openEntry line = some i := by
  obtain ⟨-, hopen, -⟩ := hs
  refine findEntry_unique (by simp [ho, hline]) fun j hj => ?_
  simp only [Bool.and_eq_true, beq_iff_eq] at hj
  exact hopen j i hj.1 ho (hj.2.trans hline.symm)

theorem openEntry_none (h : ∀ j, ¬ ((s.entry j).state = .opened ∧ (s.entry j).line = some line)) :
    s.openEntry line = none := by
  refine findEntry_none fun j => Bool.eq_false_iff.2 fun hj => h j ?_
  simpa using hj

theorem posting_merges {i : Fin 32} (hm : m ≠ 0) (hfar : s.tooFar = false) (ho : s.openEntry line = some i) :
    s.posting line m data = .entry i ((s.entry i).merged m data s.table.nextWsn) := by
  simp only [State.posting, if_neg hm, hfar, ho, Bool.false_eq_true, if_false]

theorem posting_allocates {i : Fin 32} (hm : m ≠ 0) (hfar : s.tooFar = false) (ho : s.openEntry line = none)
    (hf : s.freeEntry = some i) :
    s.posting line m data = .entry i (Entry.allocated line (s.newGeneration line) m data s.table.nextWsn) := by
  simp only [State.posting, if_neg hm, hfar, ho, hf, Bool.false_eq_true, if_false]

theorem posting_unchanged (hm : m = 0) : s.posting line m data = .unchanged := if_pos hm

theorem posting_retries (hm : m ≠ 0)
    (h : (∃ j, (s.entry j).state ≠ .free ∧ 2 ^ 31 - 1 ≤ (s.table.nextWsn - (s.entry j).firstWsn).toNat) ∨
      ((∀ j, (s.entry j).state ≠ .free) ∧ ∀ j, ¬ ((s.entry j).state = .opened ∧ (s.entry j).line = some line))) :
    s.posting line m data = .retry := by
  by_cases hfar : s.tooFar = true
  · simp only [State.posting, if_neg hm, if_pos hfar]
  · obtain hfull | ⟨hlive, hno⟩ := h
    · exact absurd ((tooFar_iff s).2 hfull) hfar
    · have hfree : s.freeEntry = none := findEntry_none fun j => by simp [hlive j]
      simp only [State.posting, if_neg hm, if_neg hfar, openEntry_none hno, hfree]

end

/-! ### WRITE -/

/-- What the table's decision makes of a state, before the waking (R7). -/
def State.posted (s : State) (h : Header) (p : WritePayload) : Posting → State
  | .unchanged => s.reply h.tag .posted
  | .retry => s.reply h.tag .retry
  | .entry i e => (s.post i e h.line p.mask).reply h.tag .posted

theorem serveWrite_eq (s : State) (h : Header) (p : WritePayload) :
    s.serveWrite h p = ((s.posted h p (s.posting h.line p.mask p.data)).wake).finishAt s (s.dieIndex h.line) := by
  unfold State.serveWrite
  cases s.posting h.line p.mask p.data <;> rfl

theorem Silenced.posted {u t : State} (k : Silenced u t) (h : Header) (p : WritePayload) (o : Posting) :
    Silenced (u.posted h p o) (t.posted h p o) := by
  cases o with
  | unchanged => exact k.queue _
  | retry => exact k.queue _
  | entry i e => exact (k.post i e _ _).queue _

theorem posted_chan (s : State) (h : Header) (p : WritePayload) (o : Posting) : (s.posted h p o).chan = s.chan := by
  cases o with
  | unchanged => rfl
  | retry => rfl
  | entry i e => rw [State.posted, post_eq]; rfl

theorem posted_port (s : State) (h : Header) (p : WritePayload) (o : Posting) (d : DieId) :
    (s.posted h p o).port d = s.port d := by
  cases o with
  | unchanged => rfl
  | retry => rfl
  | entry i e => rw [State.posted, post_eq]; rfl

/-- An accepted WRITE: the table's decision on the arrived state, and the waking of the part (R7, R122). -/
theorem write_completes {s : State} {byte7 : Byte} {h : Header} {p : WritePayload} (hl : LevelKept s)
    (ha : Accepted s (Request.ofWrite byte7 h p)) {o : Posting} (ho : s.posting h.line p.mask p.data = o) :
    CompletesAs (.write byte7 h p) s ((s.arrived.posted h p o).setChan s.arrived.chan.woken) ∧
      Wakes (.write byte7 h p) s := by
  have hsilenced := (arrive_silenced hl).posted h p o
  have hposting : s.arrive.posting h.line p.mask p.data = o := by
    obtain ⟨P, V, hform, -⟩ := arrive_form hl
    exact (posting_congr (by rw [hform]; rfl)).trans ho
  have hx : exec (.write byte7 h p) s =
      .next (((s.arrive.posted h p o).wake).finishAt s.arrive (s.arrive.dieIndex h.line)) := by
    rw [exec_accepted rfl rfl ha]
    exact congrArg _ ((serveWrite_eq s.arrive h p).trans (by rw [hposting]))
  have hchan : (s.arrived.posted h p o).wake = (s.arrived.posted h p o).setChan s.arrived.chan.woken := by
    rw [wake_eq, posted_chan]
  refine ⟨⟨_, hx, hchan ▸ (hsilenced.wake.internal.trans (finishAt_internal _ _ _))⟩,
    wakes_of_woken (pr := s.chan.procedure) hx (arrive_partState s) ?_ fun d => ?_⟩
  · rw [wake_eq, posted_chan, arrive_chan]
    rfl
  · rw [wake_eq, State.setChan_port, posted_port]
    exact ((arrive_silenced hl).port d).stays

theorem tooFar_false {s : State}
    (h : ∀ j, (s.entry j).state ≠ .free → (s.table.nextWsn - (s.entry j).firstWsn).toNat < 2 ^ 31 - 1) :
    s.tooFar = false :=
  Bool.eq_false_iff.2 fun hfar =>
    have ⟨j, hlive, hbehind⟩ := (tooFar_iff s).1 hfar
    absurd hbehind (Nat.not_le.2 (h j hlive))

/-- Settles O12: the table finds the line's OPEN entry, of which a sound table has one. -/
theorem writeMergesIntoOpenEntry : Obligations.WriteMergesIntoOpenEntry := by
  intro s byte7 h p i hl hs ha hm hnear hopen hline
  have := write_completes hl ha (posting_merges hm (tooFar_false hnear) (openEntry_some hs hopen hline))
  rw [State.posted, post_eq] at this
  exact this

/-- Settles O13: the table finds no OPEN entry of the line, and the lowest FREE one. -/
theorem writeAllocatesLowestFreeEntry : Obligations.WriteAllocatesLowestFreeEntry := by
  intro s byte7 h p i hl ha hm hnear hno hfree hlow
  have hlowest : s.freeEntry = some i :=
    findEntry_lowest (by simp [hfree]) fun j hj => by simp [hlow j hj]
  have := write_completes hl ha (posting_allocates hm (tooFar_false hnear) (openEntry_none hno) hlowest)
  rw [State.posted, post_eq, Entry.allocated, maskedBytes_eq, newGeneration_eq] at this
  exact this

/-- Settles O14: an empty mask and the two reasons for RETRY leave the table as it is. -/
theorem writeLeavesTableUnchanged : Obligations.WriteLeavesTableUnchanged := by
  intro s byte7 h p hl ha
  exact ⟨fun hm => write_completes hl ha (posting_unchanged hm),
    fun hm hretry => write_completes hl ha (posting_retries hm hretry)⟩

end Sys2Proof.Machine
end

section
/-! SUPPORT. The capture of a line, READ and FLUSH at their arrival, and the beats of an answer (R19, R40 to R46, R55,
R63). -/

namespace Sys2Proof.Machine

/-! ### Beats -/

/-- Settles O17: each of the eight start beats, for each length and order. -/
theorem beatsFollowStartLengthOrder : Obligations.BeatsFollowStartLengthOrder := by
  intro st data s
  refine ⟨?fullLinear, ?fullPairwise, ?halfLinear, ?halfPairwise, fun _ _ => rfl, fun k j => ?beat⟩
  case fullLinear => revert st; decide
  case fullPairwise => revert st; decide
  case halfLinear => revert st; decide
  case halfPairwise => revert st; decide
  case beat =>
    show (beatOf data k)[j.val] = _
    rw [beatOf, Vector.getElem_ofFn]

/-! ### Capture -/

section
variable {s : State} {line : LineAddr}

theorem openEntry_iff (hs : TableSound s) (i : Fin 32) :
    s.openEntry line = some i ↔ (s.entry i).state = .opened ∧ (s.entry i).line = some line :=
  ⟨fun h => by simpa using findEntry_some h, fun ⟨ho, hline⟩ => openEntry_some hs ho hline⟩

theorem drainingEntry_iff (hs : TableSound s) (i : Fin 32) :
    s.drainingEntry line = some i ↔ (s.entry i).state = .draining ∧ (s.entry i).line = some line := by
  refine ⟨fun h => by simpa using findEntry_some h, fun ⟨hd, hline⟩ => ?_⟩
  obtain ⟨-, -, hdraining, -⟩ := hs
  refine findEntry_unique (by simp [hd, hline]) fun j hj => ?_
  simp only [Bool.and_eq_true, beq_iff_eq] at hj
  exact hdraining j i hj.1 hd (hj.2.trans hline.symm)

/-- An entry of a line is its OPEN or its DRAINING one. -/
theorem entry_of_line (hs : TableSound s) {i : Fin 32} (hline : (s.entry i).line = some line) :
    s.openEntry line = some i ∨ s.drainingEntry line = some i := by
  obtain ⟨hfree, -⟩ := id hs
  cases hstate : (s.entry i).state with
  | free => rw [(hfree i).1 hstate] at hline; cases hline
  | opened => exact .inl ((openEntry_iff hs i).2 ⟨hstate, hline⟩)
  | draining => exact .inr ((drainingEntry_iff hs i).2 ⟨hstate, hline⟩)

theorem captureMask_getLsbD (k : Nat) : (s.captureMask line).getLsbD k = true ↔
    (∃ i, s.drainingEntry line = some i ∧ (s.entry i).mask.getLsbD k = true) ∨
      ∃ i, s.openEntry line = some i ∧ (s.entry i).mask.getLsbD k = true := by
  rw [State.captureMask, BitVec.getLsbD_or, Bool.or_eq_true]
  cases s.drainingEntry line <;> cases s.openEntry line <;> simp

theorem overlay_getElem (m : Mask) (top bottom : LineData) (k : Fin 64) :
    (overlay m top bottom)[k] = if m.getLsbD k.val then top[k] else bottom[k] :=
  Vector.getElem_ofFn k.isLt

/-- The captured byte: the OPEN entry's, before the DRAINING entry's, before zero (R19, R41). -/
theorem captureData_getElem (k : Fin 64) :
    (s.captureData line)[k] =
      match (s.openEntry line).filter fun i => (s.entry i).mask.getLsbD k.val with
      | some i => (s.entry i).data[k]
      | none =>
        match (s.drainingEntry line).filter fun i => (s.entry i).mask.getLsbD k.val with
        | some i => (s.entry i).data[k]
        | none => 0 := by
  have hzero : zeroLine[k] = 0 := vector_replicate_getElem _ k
  have hunder : (match s.drainingEntry line with
      | some i => overlay (s.entry i).mask (s.entry i).data zeroLine
      | none => zeroLine)[k] =
      match (s.drainingEntry line).filter fun i => (s.entry i).mask.getLsbD k.val with
      | some i => (s.entry i).data[k]
      | none => 0 := by
    cases s.drainingEntry line with
    | none => exact hzero
    | some i =>
      dsimp only
      rw [overlay_getElem, Option.filter_some]
      split
      · rfl
      · exact hzero
  unfold State.captureData
  dsimp only
  cases s.openEntry line with
  | none => exact hunder
  | some i =>
    dsimp only
    rw [overlay_getElem, Option.filter_some]
    split
    · rfl
    · exact hunder

end

/-- Settles O15: under a sound table the look-ups name the line's entries, of which the OPEN one goes first. -/
theorem captureTakesNewestHeldBytes : Obligations.CaptureTakesNewestHeldBytes := by
  intro s line k hs
  refine ⟨⟨fun h => ?held, fun ⟨i, hline, hbit⟩ => ?masked⟩, fun i ho hline hbit => ?opened,
    fun i hd hline hbit hno => ?draining, fun h => ?zero⟩
  case held =>
    rcases (captureMask_getLsbD _).1 h with ⟨i, hi, hbit⟩ | ⟨i, hi, hbit⟩
    · exact ⟨i, ((drainingEntry_iff hs i).1 hi).2, hbit⟩
    · exact ⟨i, ((openEntry_iff hs i).1 hi).2, hbit⟩
  case masked =>
    exact (captureMask_getLsbD _).2 ((entry_of_line hs hline).symm.imp (fun h => ⟨i, h, hbit⟩) fun h => ⟨i, h, hbit⟩)
  case opened =>
    rw [captureData_getElem, (openEntry_iff hs i).2 ⟨ho, hline⟩, Option.filter_some, if_pos hbit]
  case draining =>
    have hopen : (s.openEntry line).filter (fun i => (s.entry i).mask.getLsbD k.val) = none := by
      cases hj : s.openEntry line with
      | none => rfl
      | some j =>
        obtain ⟨hstate, hjline⟩ := (openEntry_iff hs j).1 hj
        rw [Option.filter_some, hno j hstate hjline]
        rfl
    rw [captureData_getElem, hopen, (drainingEntry_iff hs i).2 ⟨hd, hline⟩, Option.filter_some, if_pos hbit]
  case zero =>
    have hnone {o : Option (Fin 32)} (ho : ∀ i, o = some i → ¬ (s.entry i).mask.getLsbD k.val = true) :
        o.filter (fun i => (s.entry i).mask.getLsbD k.val) = none := by
      cases o with
      | none => rfl
      | some i => rw [Option.filter_some, if_neg (ho i rfl)]
    have hbits := not_or.1 (mt (captureMask_getLsbD k.val).2 (Bool.eq_false_iff.1 h))
    rw [captureData_getElem, hnone fun i hi hbit => hbits.2 ⟨i, hi, hbit⟩,
      hnone fun i hi hbit => hbits.1 ⟨i, hi, hbit⟩]

/-! ### READ -/

theorem poisoned_iff (s : State) (line : LineAddr) : s.poisoned line = true ↔ ∃ x ∈ s.errs.poison, x.1 = line := by
  simp [State.poisoned]

/-- What a port's claims take is within what closing an event may change. -/
theorem internal_ports (u : State) (P : Pressure) (V : Vector Port 4)
    (h : ∀ d : DieId, PortKept (u.chan.settings.dieOpLimit * 1000) (u.port d) V[d]) :
    Internal u { u with drain := { u.drain with pressure := P }, ports := V } :=
  { Internal.refl u with ports := h }

section
variable {s t : State} {line : LineAddr}

theorem lookups_congr (h : t.table = s.table) :
    t.captureMask line = s.captureMask line ∧ t.captureData line = s.captureData line := by
  have hentry (i : Fin 32) : t.entry i = s.entry i := by simp only [State.entry, h]
  simp only [State.captureMask, State.captureData, State.openEntry, State.drainingEntry, State.findEntry, hentry,
    and_self]

end

/-- The record of a READ after its arrival. -/
theorem readRecord_arrive {s : State} (hl : LevelKept s) (h : Header) : s.arrive.readRecord h = s.readRecord h := by
  obtain ⟨P, V, hform, -⟩ := arrive_form hl
  have hlook := lookups_congr (s := s) (line := h.line) (show s.arrive.table = s.table by rw [hform]; rfl)
  have hsettings := arrive_settings s
  have hreads : s.arrive.reads = s.reads := by rw [hform]; rfl
  simp only [State.readRecord, State.dieIndex, hlook.1, hlook.2, hsettings, hreads]

/-- A READ that joins the Read Wait List: its record, its claim and tag, and the waking (R44, R46, R122). -/
theorem arrive_joinReads {s : State} (hl : LevelKept s) (r : ReadRecord) :
    Internal
      { s.outstanding r.tag with
        reads := { list := s.reads.list ++ [r], nextClaim := s.reads.nextClaim + 1 }
        chan := s.arrived.chan.woken }
      (s.arrive.joinReads r).wake := by
  obtain ⟨P, V, hform, hwithdrawn⟩ := arrive_form hl
  rw [wake_eq, hform]
  refine internal_ports _ P (V.set r.die { V[r.die] with readClaims := V[r.die].readClaims ++ [r.claim] }) fun d => ?_
  have hkept : PortKept (s.chan.settings.dieOpLimit * 1000) (s.port d) V[d] :=
    (internal_withdrawn s P V hwithdrawn).ports d
  rw [show ({ s.outstanding r.tag with
        reads := { list := s.reads.list ++ [r], nextClaim := s.reads.nextClaim + 1 }
        chan := s.arrived.chan.woken } : State).chan.settings = s.chan.settings from woken_settings _]
  show PortKept _ (s.port d) (V.set r.die _)[d]
  by_cases hd : r.die = d
  · subst hd
    rw [show (V.set r.die.val _ r.die.isLt)[r.die] = _ from Vector.getElem_set_self r.die.isLt]
    exact hkept
  · rw [show (V.set r.die.val _ r.die.isLt)[d] = V[d] from
      Vector.getElem_set_ne r.die.isLt d.isLt fun he => hd (Fin.ext he)]
    exact hkept

/-- Settles O16: Read Service's tests in their order. -/
theorem readAnsweredAtArrivalOrListed : Obligations.ReadAnsweredAtArrivalOrListed := by
  intro s byte7 h hl ha beats poisoned
  have hx : exec (.read byte7 h) s = .next (s.arrive.serveRead h) := exec_accepted rfl rfl ha
  obtain ⟨P, V, hform, hwithdrawn⟩ := arrive_form hl
  obtain ⟨hmask, hdata⟩ := lookups_congr (s := s) (line := h.line) (show s.arrive.table = s.table by rw [hform]; rfl)
  have hpoisoned : s.arrive.poisoned h.line = true ↔ poisoned := by
    rw [poisoned_iff, (arrive_internal s).errs]
    rfl
  have hfull : maskFull (s.arrive.captureMask h.line) = true ↔ s.captureMask h.line = BitVec.allOnes 64 := by
    rw [maskFull_iff, hmask]
  have hreads : s.arrive.reads = s.reads := by rw [hform]; rfl
  have hanswered (a : Answer) : Internal (s.answered a) (s.arrive.queue a) := (arrive_internal s).queue a
  refine ⟨fun hp => ?_, fun hp hm => ?_, fun hp hm hn => ?_, fun hp hm hn => ?_⟩
  · refine ⟨_, hx, ?_⟩
    rw [State.serveRead, if_pos (hpoisoned.2 hp), hdata]
    exact hanswered _
  all_goals have hserve := hx; rw [State.serveRead, if_neg (mt hpoisoned.1 hp)] at hserve
  · rw [if_pos (hfull.2 hm), hdata] at hserve
    exact ⟨_, hserve, hanswered _⟩
  all_goals rw [if_neg (mt hfull.1 hm)] at hserve
  · rw [if_pos (show Config.readRecords ≤ s.arrive.reads.list.length by rw [hreads]; exact hn)] at hserve
    exact ⟨_, hserve, hanswered _⟩
  · rw [if_neg (show ¬ Config.readRecords ≤ s.arrive.reads.list.length by rw [hreads]; exact Nat.not_le.2 hn),
      readRecord_arrive hl] at hserve
    have hdie : s.arrive.dieIndex h.line = s.dieIndex h.line := by simp only [State.dieIndex, arrive_settings]
    rw [hdie] at hserve
    refine ⟨⟨_, hserve, finish_readHeld (.inl ?claimed) _ _, (arrive_joinReads hl (s.readRecord h)).trans
      (finishAt_internal _ _ _)⟩, wakes_of_woken (pr := s.chan.procedure) hserve (arrive_partState s) ?_ fun d => ?_⟩
    case claimed =>
      rw [wake_eq, State.setChan_port, State.joinReads]
      dsimp only
      rw [State.joinTag, State.setLink_port]
      show _ ∈ ((State.setPort _ (s.readRecord h).die _).port (s.readRecord h).die).readClaims
      rw [State.setPort_port_self]
      exact List.mem_append_right _ (List.mem_singleton_self _)
    · rw [wake_eq]
      exact congrArg Channel.woken (arrive_chan s)
    · rw [wake_eq, State.setChan_port, State.joinReads]
      dsimp only
      rw [State.joinTag, State.setLink_port, State.setPort_port]
      have hstays := ((arrive_silenced hl).port d).stays
      split
      next hd => subst hd; exact hstays
      next => exact hstays

/-! ### FLUSH -/

theorem flushComplete_iff (s : State) (boundary : Wsn) :
    s.flushComplete boundary = true ↔
      ∀ i, (s.entry i).state ≠ .free → precedes (s.entry i).firstWsn boundary = false := by
  simp [State.flushComplete, Entry.live, or_iff_not_imp_left]

/-- Settles O18: the Flush Tracker's tests in their order. A listed record makes the level URGENT. -/
theorem flushDecidedAtArrival : Obligations.FlushDecidedAtArrival := by
  intro s byte7 h hl ha waits
  have hx : exec (.flush byte7 h) s = .next (s.arrive.serveFlush h) := exec_accepted rfl rfl ha
  obtain ⟨P, V, hform, -⟩ := arrive_form hl
  have htable : s.arrive.table = s.table := by rw [hform]; rfl
  have hflushes : s.arrive.flushes = s.flushes := by rw [hform]; rfl
  have hcomplete : s.arrive.flushComplete s.arrive.table.nextWsn = true ↔ ¬ waits := by
    rw [flushComplete_iff]
    simp only [State.entry, htable, waits]
    simp
  have hanswered (a : Answer) : Internal (s.answered a) (s.arrive.queue a) := (arrive_internal s).queue a
  refine ⟨fun hw => ?_, fun hw hn => ?_, fun hw hn => ?_⟩
  · refine ⟨_, hx, ?_⟩
    rw [State.serveFlush, if_pos (hcomplete.2 hw)]
    exact hanswered _
  all_goals
    rw [State.serveFlush] at hx
    rw [if_neg (fun hc => hcomplete.1 hc hw), hflushes] at hx
  · rw [if_pos (show Config.flushRecords ≤ s.flushes.length from hn)] at hx
    exact ⟨_, hx, hanswered _⟩
  · rw [if_neg (show ¬ Config.flushRecords ≤ s.flushes.length from Nat.not_le.2 hn), htable] at hx
    have hsilenced := ((arrive_silenced hl).setFlushes
      (s.flushes ++ [{ tag := h.tag, boundary := s.table.nextWsn, loss := false }])).joinTag h.tag
    refine ⟨_, hx, ?_, hsilenced.internal.trans (finish_internal _ _ _)⟩
    have hinternal := finish_internal ((s.arrive.setFlushes
      (s.flushes ++ [{ tag := h.tag, boundary := s.table.nextWsn, loss := false }])).joinTag h.tag) s.arrive
          fun _ => false
    refine (finish_level _ _ _).trans ?_
    unfold State.level levelOf
    rw [hinternal.flushes]
    refine if_pos (.inr ?_)
    show 0 < (s.flushes ++ [_]).length
    simp

end Sys2Proof.Machine
end

section
/-! SUPPORT. Draining: the completions of a drain's steps, a loss, and what leaves the table (R15, R16, R30 to R34,
R163). -/

namespace Sys2Proof.Machine

/-! ### A port that is vacated -/

theorem emptySlot_eq (s : State) (d : DieId) : s.emptySlot d = s.vacated d := rfl

theorem vacated_entry (s : State) (d : DieId) (i : Fin 32) : (s.vacated d).entry i = s.entry i := rfl

theorem vacated_steady (s : State) (d : DieId) : Steady (some d) s (s.vacated d) :=
  .setPort (some d) s d _ fun hne => absurd rfl hne

/-! ### A loss -/

theorem lose_eq {s : State} {i : Fin 32} {line : LineAddr} (hline : (s.entry i).line = some line) (cause : LossCause) :
    s.lose i cause = (s.reportLoss line (s.entry i).firstWsn cause).leave i true := by
  unfold State.lose
  dsimp only
  rw [hline]

/-- A completion that loses the drain of an entry (R16, R131, R163). -/
theorem loss_completes {c : Instr} {s : State} {d : DieId} {i : Fin 32} {line : LineAddr} {cause : LossCause}
    (hx : exec c s = .next (((s.vacated d).lose i cause).finishAt s d)) (hline : (s.entry i).line = some line) :
    CompletesAs c s (((s.vacated d).reportLoss line (s.entry i).firstWsn cause).leave i true) ∧
      Overflows c s line d := by
  rw [lose_eq (s := s.vacated d) hline] at hx
  refine ⟨⟨_, hx, finishAt_internal _ _ _⟩, fun hnew hfull hstate => ?_⟩
  obtain ⟨hsteady, hstopped⟩ := overflow_steady (s := s.vacated d) (some d) line (s.entry i).firstWsn cause hnew
      hfull hstate
  obtain ⟨hchan, hports⟩ := leave_chan ((s.vacated d).reportLoss line (s.entry i).firstWsn cause) i true
  have hleft : Steady (some d) s (((s.vacated d).reportLoss line (s.entry i).firstWsn cause).leave i true) :=
    ((vacated_steady s d).trans hsteady).trans
      (.of_ports _ hports (by rw [hchan]) (by rw [hchan]) (by rw [hchan]) (by rw [hchan]) (by rw [hchan]))
  have hnow : (((s.vacated d).reportLoss line (s.entry i).firstWsn cause).leave i true).chan.partState = .stopped := by
    rw [hchan, hstopped]
  refine ⟨_, hx, (congrArg Channel.partState (finishAt_internal _ _ _).chan).trans hnow,
    steady_carriesBack _ hleft hnow fun hs => ?_⟩
  rw [hs] at hstate
  simp at hstate

/-! ### A write step -/

/-- A completion that matches a drain's write step (R79). -/
theorem writeStep_exec {s : State} {d : DieId} {i : Fin 32} {op : Operation} {ln : Option LineAddr}
    {command : Completion → Instr} (hslot : (s.port d).slot = some ⟨op, .drain i, ln⟩)
    (hop : (∃ l data k w r, op = .lineWrite l data k w r ∧ command = .lineWriteCompletion d) ∨
      ∃ l m data k w r, op = .maskedWrite l m data k w r ∧ command = .maskedWriteCompletion d)
    {c : Completion} {stored : Bool} (hc : writeOutcome c = some stored) :
    exec (command c) s = .next (((s.vacated d).takeWriteStep d (.drain i) stored).finishAt s d) := by
  rcases hop with ⟨l, data, k, w, r, rfl, rfl⟩ | ⟨l, m, data, k, w, r, rfl, rfl⟩
  · show execLineWriteCompletion d c s = _
    rw [execLineWriteCompletion, hslot, hc]
    rfl
  · show execMaskedWriteCompletion d c s = _
    rw [execMaskedWriteCompletion, hslot, hc]
    rfl

/-- A claim that a drain goes on with is held when the event has closed (R34). -/
theorem continues_held {u : State} {d : DieId} {i : Fin 32} {e : Entry} {before : State} (he : e.state = .draining)
    (hdie : e.line.map u.dieIndex = some d) :
    ContinuationHeld
      (((u.setEntry i e).setDrainClaim d (some { entry := i, continuation := true })).finishAt before d) d i := by
  refine (Continues.finish ⟨?_, ?_, .inl ?_⟩ before _).held
  · rw [State.setDrainClaim, State.setPort_entry, State.setEntry_entry_self]
    exact he
  · rw [State.entryDie, State.setDrainClaim, State.setPort_entry, State.setEntry_entry_self]
    exact hdie
  · rw [State.setDrainClaim, State.setPort_port_self]

theorem continues_internal (u : State) (d : DieId) (c : Option DrainClaim) (before : State) :
    Internal u ((u.setDrainClaim d c).finishAt before d) :=
  (setDrainClaim_internal u d c).trans (finishAt_internal _ _ _)

theorem takeWriteStep_stored (s : State) (d : DieId) (i : Fin 32) :
    s.takeWriteStep d (.drain i) true = s.leave i false := rfl

theorem takeWriteStep_refused (s : State) (d : DieId) (i : Fin 32) :
    s.takeWriteStep d (.drain i) false = s.retryOrLose d i := rfl

/-- Settles O20: retirement; a retry, whose continuation claim the closing of the event keeps; a loss. -/
theorem writeStepRetiresRetriesOrLoses : Obligations.WriteStepRetiresRetriesOrLoses := by
  intro s d i op ln command hslot hop
  have hdone := writeStep_exec hslot hop (show writeOutcome (plain .done) = some true from rfl)
  have hfail := writeStep_exec hslot hop (show writeOutcome (plain .checkFail) = some false from rfl)
  rw [takeWriteStep_stored] at hdone
  rw [takeWriteStep_refused] at hfail
  refine ⟨⟨_, hdone, finishAt_internal _ _ _⟩, fun htries hdraining hdie => ?retry, fun line htries hline => ?lose⟩
  case retry =>
    rw [State.retryOrLose] at hfail
    rw [if_pos (show ((s.vacated d).entry i).attempts + 1 ≤ (s.vacated d).chan.settings.drainRetry
        from htries)] at hfail
    exact ⟨_, hfail, continues_held hdraining hdie, continues_internal _ _ _ _⟩
  case lose =>
    rw [State.retryOrLose] at hfail
    rw [if_neg (show ¬ ((s.vacated d).entry i).attempts + 1 ≤ (s.vacated d).chan.settings.drainRetry from
      Nat.not_le.2 htries)] at hfail
    exact loss_completes hfail hline

/-! ### The read of a read-modify-write -/

/-- A completion that matches a LINE READ (R79). -/
theorem lineRead_exec {s : State} {d : DieId} {l latency : Nat} {claimant : Claimant} {ln : Option LineAddr}
    (hslot : (s.port d).slot = some ⟨.lineRead l latency, claimant, ln⟩) {c : Completion} {data : Option LineData}
    (hc : lineReadOutcome c = some data) :
    exec (.lineReadCompletion d c) s = .next (((s.vacated d).takeLineRead d claimant data).finishAt s d) := by
  show execLineReadCompletion d c s = _
  rw [execLineReadCompletion, hslot, hc]
  rfl

theorem takeLineRead_fill (s : State) (d : DieId) (i : Fin 32) (data : LineData) :
    s.takeLineRead d (.drain i) (some data) = s.fill d i data := rfl

theorem takeLineRead_lose (s : State) (d : DieId) (i : Fin 32) :
    s.takeLineRead d (.drain i) none = s.lose i .uncorrectable := rfl

/-- Settles O21: the fill, whose continuation claim the closing of the event keeps, or a loss. -/
theorem rmwReadFillsOrLoses : Obligations.RmwReadFillsOrLoses := by
  intro s d i l latency ln hslot
  refine ⟨fun data hdraining hdie => ?_, fun line hline => ?_⟩
  · have hfill := lineRead_exec hslot (c := { outcome := .done, data := some data, band := none }) rfl
    rw [takeLineRead_fill, State.fill] at hfill
    exact ⟨_, hfill, continues_held hdraining hdie, continues_internal _ _ _ _⟩
  · have hlost := lineRead_exec hslot (c := plain .uncorrectable) rfl
    rw [takeLineRead_lose] at hlost
    exact loss_completes hlost hline

/-! ### Leaving the table -/

/-- A notice as one record update (R65, R66). -/
theorem notice_eq (s : State) (lost : Bool) (first : Wsn) :
    let records := s.flushes.map (·.flagged lost first)
    let complete := records.filter fun r => s.flushComplete r.boundary
    s.notice lost first =
      { s with
        flushes := records.filter fun r => !s.flushComplete r.boundary
        link :=
          { s.link with
            tags := s.link.tags.filter fun x => !(complete.map FlushRecord.tag).contains x
            answers := s.link.answers ++ complete.map FlushRecord.answer } } := by
  intro records complete
  show State.closeAll _ (complete.map FlushRecord.answer) = _
  rw [closeAll_eq, List.map_map]
  rfl

theorem promote_eq (s : State) (line : LineAddr) : s.promote line = { s with table := (s.promote line).table } := by
  unfold State.promote
  split <;> rfl

theorem promote_nextWsn (s : State) (line : LineAddr) : (s.promote line).table.nextWsn = s.table.nextWsn := by
  unfold State.promote
  split <;> rfl

/-- What an entry leaves before the Flush Tracker is notified: it is freed and its line's SECOND promoted. -/
def State.unlisted (s : State) (i : Fin 32) : State :=
  match (s.entry i).line with
  | some line => (s.setEntry i Entry.freed).promote line
  | none => s.setEntry i Entry.freed

theorem leave_eq (s : State) (i : Fin 32) (lost : Bool) :
    s.leave i lost = (s.unlisted i).notice lost (s.entry i).firstWsn := by
  unfold State.leave State.unlisted
  rfl

theorem unlisted_eq (s : State) (i : Fin 32) : s.unlisted i = { s with table := (s.unlisted i).table } := by
  unfold State.unlisted
  split
  next line _ => exact (promote_eq (s.setEntry i Entry.freed) line).trans rfl
  · rfl

theorem unlisted_nextWsn (s : State) (i : Fin 32) : (s.unlisted i).table.nextWsn = s.table.nextWsn := by
  unfold State.unlisted
  split
  next line _ => exact promote_nextWsn (s.setEntry i Entry.freed) line
  · rfl

theorem leave_table (s : State) (i : Fin 32) (lost : Bool) : (s.leave i lost).table = (s.unlisted i).table := by
  rw [leave_eq, notice_eq]

/-- Settles O22: the entries by the table's soundness, the flushes by the notice. -/
theorem leavingEntryPromotesAndAnswersFlushes : Obligations.LeavingEntryPromotesAndAnswersFlushes := by
  intro s i lost hs hdraining t records complete
  have hsound := (tableSound_iff s).1 hs
  obtain ⟨hself, hother⟩ := leave_entry hsound i lost
  have htable := leave_table s i lost
  have hcomplete (r : FlushRecord) :
      ({ s with table := (s.unlisted i).table } : State).flushComplete r.boundary = complete r := by
    rw [Bool.eq_iff_iff, flushComplete_iff, decide_eq_true_iff]
    simp only [t, State.entry, htable]
  have hnotice : t =
      { s with
        table := (s.unlisted i).table
        flushes := records.filter fun r => !complete r
        link :=
          { s.link with
            tags := s.link.tags.filter fun x => !((records.filter complete).map FlushRecord.tag).contains x
            answers := s.link.answers ++ (records.filter complete).map FlushRecord.answer } } := by
    show s.leave i lost = _
    rw [leave_eq, notice_eq, unlisted_eq]
    simp only [hcomplete]
    rfl
  refine ⟨fun j => ?_, ?_, ?_, ?_, ?_, ?_, ?_⟩
  · by_cases hj : j = i
    · rw [if_pos hj, hj]
      exact hself
    · rw [if_neg hj, hother j hj]
      have hgen : (s.entry j).gen = .second → (s.entry j).state = .opened := fun hg => (hs.2.2.2.2 j hg).1
      simp only [and_iff_right_of_imp fun h : _ ∧ _ => hgen h.1]
  all_goals rw [hnotice]
  · rfl
  · exact unlisted_nextWsn s i

end Sys2Proof.Machine
end

section
/-! SUPPORT. Reads that end: at a deadline, with their LINE READ, with the part's entry to STOPPED; and the Error Unit's
part in a loss (R47 to R50, R53, R131, R163). -/

namespace Sys2Proof.Machine

/-! ### Records by their key -/

/-- In a list whose keys are distinct the search by a key finds its record. -/
theorem find?_key {α κ : Type} [BEq κ] [LawfulBEq κ] {key : α → κ} {l : List α} (h : (l.map key).Nodup) {r : α}
    (hr : r ∈ l) : l.find? (fun x => key x == key r) = some r := by
  cases hf : l.find? (fun x => key x == key r) with
  | none => exact absurd (List.find?_eq_none.1 hf r hr) (by simp)
  | some q =>
    have hkey : key q = key r := by simpa using List.find?_some hf
    exact congrArg some (List.inj_on_of_nodup_map h (List.mem_of_find?_eq_some hf) hr hkey)

/-- The tags of the listed reads are distinct (R153). -/
theorem TagsHeld.readTags {s : State} (h : TagsHeld s) : (s.reads.list.map ReadRecord.tag).Nodup := by
  obtain ⟨hnodup, hperm, -⟩ := h
  exact (List.nodup_append.1 (List.nodup_append.1 (hperm.nodup hnodup)).1).1

/-- A record leaves the list; its claim's withdrawal is within what closing an event may change. -/
theorem dropRead_internal (s : State) (r : ReadRecord) :
    Internal { s with reads := { s.reads with list := s.reads.list.filter fun x => x.claim != r.claim } }
      (s.dropRead r) :=
  Internal.setPort _ r.die _ (.claims _ _ _ _ _ _ _ _)

/-! ### The deadline -/

/-- Settles O19: the tags of the listed reads are distinct, so that the search finds the record. -/
theorem deadlineExpiryAnswersTimeout : Obligations.DeadlineExpiryAnswersTimeout := by
  refine ⟨fun s r hheld hr => ?_, fun s tag hnone => ?_⟩
  · have hx : exec (.deadlineExpiry r.tag) s = .next (s.expireDeadline r) := by
      show execDeadlineExpiry r.tag s = _
      rw [execDeadlineExpiry, find?_key hheld.readTags hr]
    refine ⟨_, hx, finish_noClaim (s := s.deadlineExpired r) ?_ _ _,
      (dropRead_internal
        ((s.close (Answer.plain r.tag .timeout 0)).logNote
          { kind := .readTimeout, detail := 8, die := some r.die, line := some r.line, tag := some r.tag }) r).trans
        (finishAt_internal _ _ _)⟩
    rw [State.deadlineExpired, State.dropRead]
    dsimp only
    rw [State.setPort_port_self]
    simp
  · show execDeadlineExpiry tag s = _
    rw [execDeadlineExpiry, List.find?_eq_none.2 fun r hr => by simpa using hnone r hr]

/-! ### The completion of a LINE READ -/

theorem takeLineRead_reads (s : State) (d : DieId) (claim : Nat) (data : Option LineData) :
    s.takeLineRead d (.reads claim) data =
      match s.reads.list.find? fun r => r.claim == claim with
      | some r => s.answerRead r data
      | none => s := rfl

theorem answerRead_done (s : State) (r : ReadRecord) (data : LineData) :
    s.answerRead r (some data) =
      (s.close (Answer.ofRead r.tag r.lost
        (beatsOf r.startBeat r.half r.pairwise (overlay r.mask r.data data)))).dropRead r := rfl

theorem answerRead_uncorrectable (s : State) (r : ReadRecord) :
    s.answerRead r none =
      (((s.close (Answer.ofRead r.tag true (beatsOf r.startBeat r.half r.pairwise r.data))).logNote
        { kind := .readUncorrectable, die := some r.die, line := some r.line, tag := some r.tag }).latch
          .readUncorrectable).dropRead r := rfl

/-- Settles O24: Read Service finds the record of the claim, if it is still listed. -/
theorem lineReadAnswersListedRecord : Obligations.LineReadAnswersListedRecord := by
  intro s d claim l latency ln hslot done uncorrectable answered
  have hdone (data : LineData) :
      exec (done data) s = .next (((s.vacated d).takeLineRead d (.reads claim) (some data)).finishAt s d) :=
    lineRead_exec hslot rfl
  have huncorrectable :
      exec uncorrectable s = .next (((s.vacated d).takeLineRead d (.reads claim) none).finishAt s d) :=
    lineRead_exec hslot rfl
  simp only [takeLineRead_reads] at hdone huncorrectable
  refine ⟨fun r hr hclaim hnodup => ?_, fun hgone => ?_⟩
  · subst hclaim
    have hfind : (s.vacated d).reads.list.find? (fun x => x.claim == r.claim) = some r := find?_key hnodup hr
    simp only [hfind, answerRead_done, answerRead_uncorrectable] at hdone huncorrectable
    exact ⟨fun data => ⟨_, hdone data, (dropRead_internal ((s.vacated d).close (Answer.ofRead r.tag r.lost
        (beatsOf r.startBeat r.half r.pairwise (overlay r.mask r.data data)))) r).trans (finishAt_internal _ _ _)⟩,
      ⟨_, huncorrectable, (dropRead_internal
        ((((s.vacated d).close (Answer.ofRead r.tag true (beatsOf r.startBeat r.half r.pairwise r.data))).logNote
          { kind := .readUncorrectable, die := some r.die, line := some r.line, tag := some r.tag }).latch
            .readUncorrectable) r).trans (finishAt_internal _ _ _)⟩⟩
  · have hfind : (s.vacated d).reads.list.find? (fun x => x.claim == claim) = none :=
      List.find?_eq_none.2 fun r hr => by simpa using hgone r hr
    simp only [hfind] at hdone huncorrectable
    exact ⟨fun data => ⟨_, hdone data, finishAt_internal _ _ _⟩, ⟨_, huncorrectable, finishAt_internal _ _ _⟩⟩

/-! ### The Error Unit on a loss -/

/-- Settles O23: the three cases of the Poison List. -/
theorem lossPoisonsLineOrStopsPart : Obligations.LossPoisonsLineOrStopsPart := by
  intro s line wsn cause listed detail note marked recorded
  have hdetail : detail = cause.code := by cases cause <;> rfl
  have hlisted : s.poisoned line = true ↔ listed := poisoned_iff s line
  unfold State.reportLoss
  refine ⟨fun hl => ?_, fun hl hroom => ?_, fun hl hfull => ?_⟩
  · simp only [hlisted.2 hl, Bool.not_true, Bool.false_and, Bool.false_eq_true, if_false, true_or, if_true]
    simp only [recorded, note, hdetail]
    rfl
  all_goals have hnew : s.poisoned line = false := Bool.eq_false_iff.2 (mt hlisted.1 hl)
  · have hmore : decide (Config.poisonLines ≤ s.errs.poison.length) = false := decide_eq_false (Nat.not_le.2 hroom)
    simp only [hnew, hmore, Bool.and_false, Bool.false_eq_true, if_false, or_self]
    simp only [recorded, note, hdetail]
    rfl
  · have hmore : decide (Config.poisonLines ≤ s.errs.poison.length) = true := decide_eq_true hfull
    simp only [hnew, hmore, Bool.not_false, Bool.and_true, or_true, if_true]
    simp only [recorded, note, hdetail]
    rfl

/-! ### The entry to STOPPED -/

/-- The end of the procedure in progress, if there is one, answers the tags it holds (R115). -/
theorem endProcedure_tags (s : State) (status : Status) (detail : BitVec 32) :
    s.endProcedure status detail =
      { s with
        chan := { s.chan with procedure := none }
        link :=
          { s.link with
            tags := s.link.tags.filter fun x => !s.procedureTags.contains x
            answers := s.link.answers ++ s.procedureTags.map fun tag => Answer.plain tag status detail } } := by
  have hkeep : (s.link.tags.filter fun x => !([] : List Tag).contains x) = s.link.tags := by simp
  unfold State.endProcedure
  cases hp : s.chan.procedure with
  | none =>
    have hchan : { s.chan with procedure := none } = s.chan := by rw [← hp]
    have htags : s.procedureTags = [] := by rw [State.procedureTags, hp]
    rw [htags, hkeep, hchan, List.map_nil, List.append_nil]
  | some pr =>
    dsimp only
    split
    next hs =>
      have htags : s.procedureTags = [] := by rw [State.procedureTags, hp]; exact if_pos hs
      rw [htags, hkeep, List.map_nil, List.append_nil]
      rfl
    next hs =>
      have htags : s.procedureTags = [pr.tag] := by rw [State.procedureTags, hp]; exact if_neg hs
      have hone : (fun x : Tag => !([pr.tag] : List Tag).contains x) = (· != pr.tag) := by
        funext x
        simp only [List.contains_cons, List.contains_nil, Bool.or_false]
        rfl
      rw [htags, hone]
      rfl

/-- Every read claim is withdrawn and every listed READ answered (R59). -/
theorem stopReads_eq (s : State) :
    s.stopReads =
      { s with
        ports := Vector.ofFn fun d => { s.port d with readClaims := [] }
        reads := { s.reads with list := [] }
        link :=
          { s.link with
            tags := s.link.tags.filter fun x => !(s.reads.list.map ReadRecord.tag).contains x
            answers := s.link.answers ++ s.reads.list.map fun r => Answer.plain r.tag .stopped 0 } } := by
  unfold State.stopReads
  rw [closeAll_eq, forDies_setPort (fun _ p => { p with readClaims := [] }), List.map_map]
  rfl

theorem stopFlushes_eq (s : State) :
    s.stopFlushes =
      { s with
        flushes := []
        link :=
          { s.link with
            tags := s.link.tags.filter fun x => !(s.flushes.map FlushRecord.tag).contains x
            answers := s.link.answers ++ s.flushes.map fun r => Answer.plain r.tag .stopped 0 } } := by
  unfold State.stopFlushes
  rw [closeAll_eq, List.map_map]
  rfl

/-- Channel Control's claims but PARK EXIT are withdrawn (R131). -/
theorem stopClaims_eq (s : State) :
    s.stopClaims =
      { s with
        ports := Vector.ofFn fun d =>
          { s.port d with
            channelClaim := if (s.port d).channelClaim = some .parkExit then some .parkExit else none } } := by
  refine Eq.trans (forDies_congr (P := fun _ => True) _ _ trivial fun d t _ => ⟨?_, trivial⟩)
    (forDies_setPort
      (fun _ p => { p with channelClaim := if p.channelClaim = some .parkExit then some .parkExit else none }) s)
  split
  next hexit =>
    have hport : { t.port d with channelClaim := some .parkExit } = t.port d := by rw [← hexit]
    rw [hport, State.setPort_same]
  · rfl

theorem stopDetail_eq (s : State) :
    s.stopDetail =
      match s.chan.procedure with
      | some ⟨.rateSwitch _, _, _⟩ =>
        (match s.chan.phase with
          | some .quiesce => 1
          | some .clock => 2
          | some .wake => 3
          | some .recal => 4
          | some .apply => 5
          | none => 0)
      | some ⟨.dieSetting _ _ _ done, _, _⟩ => done.setWidth 32
      | some ⟨.start _, _, _⟩ | none => 0 := by
  unfold State.stopDetail
  cases hp : s.chan.procedure with
  | none => rfl
  | some pr =>
    obtain ⟨kind, tag, sup⟩ := pr
    cases kind with
    | start failed => rfl
    | dieSetting m i v done => rfl
    | rateSwitch target =>
      cases hphase : s.chan.phase with
      | none => rfl
      | some phase => cases phase <;> rfl

/-- Every outstanding request is a listed read, a listed flush or the procedure, so that none is left (R153). -/
theorem TagsHeld.all_answered {s : State} (h : TagsHeld s) :
    (((s.link.tags.filter fun x => !s.procedureTags.contains x).filter fun x =>
      !(s.reads.list.map ReadRecord.tag).contains x).filter fun x =>
        !(s.flushes.map FlushRecord.tag).contains x) = [] := by
  obtain ⟨-, hperm, -⟩ := h
  rw [List.filter_filter, List.filter_filter, List.filter_eq_nil_iff]
  intro x hx
  have hmem := hperm.subset hx
  simp only [List.mem_append] at hmem
  rcases hmem with (hmem | hmem) | hmem <;> simp [hmem]

/-- Settles O25: the entry to STOPPED as one record update. -/
theorem enteringStoppedAnswersAllOutstanding : Obligations.EnteringStoppedAnswersAllOutstanding := by
  intro s cause t detail
  have hdetail : s.stopDetail = detail := stopDetail_eq s
  have ht : t = _ := enterStopped_eq s cause
  split
  next hstate =>
    rw [if_pos hstate, State.halts, endProcedure_tags, stopReads_eq, stopFlushes_eq, stopClaims_eq, hdetail] at ht
    rw [ht]
    refine ⟨rfl, rfl, rfl, rfl, fun h => h.all_answered, rfl, fun d => ?_, rfl, rfl, rfl, rfl, rfl⟩
    simp only [State.port, Fin.getElem_fin, Vector.getElem_ofFn]
    rfl
  next hstate => rw [ht, if_neg hstate]

end Sys2Proof.Machine
end

section
/-! SUPPORT. The failure of a port: the reverted entries, and the completions and expiries that fail it (R18, R83 to
R86). -/

namespace Sys2Proof.Machine

/-! ### The revert of one entry -/

section
variable {s : State} {i j : Fin 32}

theorem secondEntry_some (h : EntriesSound s.entry) {line : LineAddr} (hgen : (s.entry j).gen = .second)
    (hline : (s.entry j).line = some line) : s.secondEntry line = some j := by
  have hopen := (h.second j hgen).1
  refine findEntry_unique (by simp [hopen, hgen, hline]) fun k hk => ?_
  simp only [Bool.and_eq_true, beq_iff_eq] at hk
  exact h.opened k j hk.1.1 hopen (hk.2.trans hline.symm)

/-- A DRAINING entry has a line. -/
theorem draining_line (h : EntriesSound s.entry) (hi : (s.entry i).state = .draining) :
    ∃ line, (s.entry i).line = some line :=
  Option.ne_none_iff_exists'.1 fun hnone => by rw [(h.free i).2 hnone] at hi; cases hi

/-- A reverting entry without a SECOND one beside it (R18). -/
theorem revert_alone (hno : ∀ j, (s.entry j).gen = .second → (s.entry j).line ≠ (s.entry i).line) :
    (s.revert i).entry i = { s.entry i with state := .opened, step := none, gen := .first } := by
  have hnone : (s.entry i).line.bind s.secondEntry = none := by
    cases hline : (s.entry i).line with
    | none => rfl
    | some line =>
      show s.secondEntry line = none
      refine findEntry_none fun j => Bool.eq_false_iff.2 fun hj => ?_
      simp only [Bool.and_eq_true, beq_iff_eq] at hj
      exact hno j hj.1.2 (hj.2.trans hline.symm)
  unfold State.revert
  dsimp only
  rw [hnone]
  exact State.setEntry_entry_self s i _

/-- A reverting entry absorbs the SECOND one of its line (R18). -/
theorem revert_absorbs (h : EntriesSound s.entry) (hi : (s.entry i).state = .draining)
    (hgen : (s.entry j).gen = .second)
    (hline : (s.entry j).line = (s.entry i).line) :
    (s.revert i).entry i =
      ({ s.entry i with state := .opened, step := none, gen := .first } : Entry).absorbed (s.entry j) := by
  have hji : j ≠ i := by
    rintro rfl
    rw [(h.second j hgen).1] at hi
    cases hi
  obtain ⟨line, hiline⟩ := draining_line h hi
  have hsome : (s.entry i).line.bind s.secondEntry = some j := by
    rw [hiline, Option.bind_some]
    exact secondEntry_some h hgen (hline.trans hiline)
  unfold State.revert
  dsimp only
  rw [hsome]
  dsimp only
  rw [State.setEntry_entry, if_neg hji, State.setEntry_entry_self]

end

/-! ### The reverts of a die -/

/-- The revert of an entry, if it drains on the die. -/
def State.revertStep (d : DieId) (t : State) (i : Fin 32) : State :=
  if (t.entry i).state = .draining ∧ t.entryDie i = some d then t.revert i else t

theorem revertDie_eq (s : State) (d : DieId) : s.revertDie d = (List.finRange 32).foldl (State.revertStep d) s := rfl

theorem dieIndex_congr {s t : State} (h : t.chan = s.chan) : t.dieIndex = s.dieIndex := by
  funext line
  simp only [State.dieIndex, h]

section
variable {s t : State} {d : DieId} {i : Fin 32}

theorem revertStep_sound (h : EntriesSound t.entry) : EntriesSound (t.revertStep d i).entry := by
  unfold State.revertStep
  split
  next hi =>
    obtain ⟨⟨hopen, hline, hfirst, -⟩, hother⟩ := revert_entry h i hi.1
    exact h.reverted i hi.1 ⟨hopen, hline, hfirst⟩ hother
  · exact h

theorem revertStep_chan (t : State) (d : DieId) (i : Fin 32) : (t.revertStep d i).chan = t.chan := by
  unfold State.revertStep
  split
  · exact (revert_chan t i).1
  · rfl

/-- An entry that neither drains on the die nor is a SECOND one on it is left alone. -/
theorem reverts_leave (l : List (Fin 32)) {k : Fin 32} (h : EntriesSound t.entry)
    (hdraining : (t.entry k).state = .draining → t.entryDie k ≠ some d)
    (hsecond : (t.entry k).gen = .second → t.entryDie k ≠ some d) :
    (l.foldl (State.revertStep d) t).entry k = t.entry k := by
  induction l generalizing t with
  | nil => rfl
  | cons i l ih =>
    have hstep : (t.revertStep d i).entry k = t.entry k := by
      unfold State.revertStep
      split
      next hi =>
        have hki : k ≠ i := by rintro rfl; exact hdraining hi.1 hi.2
        rw [(revert_entry h i hi.1).2 k hki, if_neg]
        rintro ⟨-, hgen, hline⟩
        refine hsecond hgen ?_
        rw [State.entryDie, hline]
        exact hi.2
      · rfl
    have hdie : (t.revertStep d i).entryDie k = t.entryDie k := by
      rw [State.entryDie, State.entryDie, hstep, dieIndex_congr (revertStep_chan t d i)]
    rw [List.foldl_cons, ih (revertStep_sound h) (by rwa [hstep, hdie]) (by rwa [hstep, hdie]), hstep]

/-- The entries of one line are the same in two states. -/
def LineAgrees (s t : State) (line : Option LineAddr) : Prop :=
  ∀ j, (s.entry j).line = line ∨ (t.entry j).line = line → t.entry j = s.entry j

/-- Before its own turn the line of a DRAINING entry is left alone by the other reverts. -/
theorem LineAgrees.revertStep {k : Fin 32} (ha : LineAgrees s t (s.entry i).line) (h : EntriesSound t.entry)
    (hi : (s.entry i).state = .draining) (hki : k ≠ i) : LineAgrees s (t.revertStep d k) (s.entry i).line := by
  have hti : t.entry i = s.entry i := ha i (.inl rfl)
  unfold State.revertStep
  split
  next hk =>
    obtain ⟨⟨-, hline, -⟩, hother⟩ := revert_entry h k hk.1
    have hkline : (t.entry k).line ≠ (s.entry i).line := fun he =>
      hki (h.draining k i hk.1 (hti ▸ hi) (he.trans (hti ▸ rfl)))
    intro j hj
    by_cases hjk : j = k
    · subst hjk
      rcases hj with hj | hj
      · exact absurd ((congrArg Entry.line (ha j (.inl hj))).trans hj) hkline
      · exact absurd (hline.symm.trans hj) hkline
    · rw [hother j hjk] at hj ⊢
      have hjline : (s.entry j).line = (s.entry i).line ∨ (t.entry j).line = (s.entry i).line := by
        refine hj.imp_right fun hj => ?_
        split at hj
        next hfreed =>
          obtain ⟨line, hline⟩ := draining_line (s := t) (i := i) h (by rw [hti]; exact hi)
          rw [hti] at hline
          rw [hline] at hj
          cases hj
        · exact hj
      have hjt := ha j hjline
      rw [if_neg, hjt]
      rintro ⟨-, -, hl⟩
      rw [← hl, hjt] at hkline
      rw [hjt] at hjline
      exact hkline (hjline.elim id id)
  · exact ha

/-- A DRAINING entry of the die reverts in its turn, when the entries of its line are still as they were. -/
theorem reverts_revert (l : List (Fin 32)) (h : EntriesSound t.entry) (hchan : t.chan = s.chan)
    (ha : LineAgrees s t (s.entry i).line) (hi : (s.entry i).state = .draining) (hd : s.entryDie i = some d)
        (hl : i ∈ l) :
    ∃ u : State, EntriesSound u.entry ∧ LineAgrees s u (s.entry i).line ∧
      (l.foldl (State.revertStep d) t).entry i = (u.revert i).entry i ∧
      ∀ j, (s.entry j).gen = .second → (s.entry j).line = (s.entry i).line →
        (l.foldl (State.revertStep d) t).entry j = Entry.freed := by
  induction l generalizing t with
  | nil => cases hl
  | cons k l ih =>
    rw [List.foldl_cons]
    by_cases hki : k = i
    · subst hki
      have htk : t.entry k = s.entry k := ha k (.inl rfl)
      have hdie : t.entryDie k = some d := by
        rw [State.entryDie, htk, dieIndex_congr hchan]
        exact hd
      have hdraining : (t.entry k).state = .draining := by rw [htk]; exact hi
      have hstep : t.revertStep d k = t.revert k := if_pos ⟨hdraining, hdie⟩
      obtain ⟨⟨hopen, -, hfirst, -⟩, hother⟩ := revert_entry h k hdraining
      have hsound : EntriesSound (t.revert k).entry := hstep ▸ revertStep_sound (d := d) (i := k) h
      rw [hstep]
      refine ⟨t, h, ha, reverts_leave l hsound (fun hs => ?_) fun hs => ?_, fun j hgen hline => ?_⟩
      · rw [hopen] at hs; cases hs
      · rw [hfirst] at hs; cases hs
      · have htj : t.entry j = s.entry j := ha j (.inl hline)
        have hopened : (t.entry j).state = .opened := (h.second j (by rw [htj]; exact hgen)).1
        have hjk : j ≠ k := by rintro rfl; rw [hopened] at hdraining; cases hdraining
        have hfreed : (t.revert k).entry j = Entry.freed := by
          rw [hother j hjk, if_pos ⟨hopened, by rw [htj]; exact hgen, by rw [htj, htk]; exact hline⟩]
        rw [reverts_leave l hsound (fun hs => ?_) fun hs => ?_, hfreed]
        · rw [hfreed] at hs; cases hs
        · rw [hfreed] at hs; cases hs
    · exact ih (revertStep_sound h) ((revertStep_chan t d k).trans hchan) (ha.revertStep h hi hki)
        (List.mem_of_ne_of_mem (Ne.symm hki) hl)

/-- What the die's failure makes of a DRAINING entry on it and of the SECOND entry of its line (R18). -/
theorem revertDie_reverts (h : EntriesSound s.entry) (hi : (s.entry i).state = .draining) (hd : s.entryDie i = some d) :
    ∃ u : State, EntriesSound u.entry ∧ LineAgrees s u (s.entry i).line ∧
      (s.revertDie d).entry i = (u.revert i).entry i ∧
      ∀ j, (s.entry j).gen = .second → (s.entry j).line = (s.entry i).line → (s.revertDie d).entry j = Entry.freed :=
  reverts_revert _ h rfl (fun _ _ => rfl) hi hd (List.mem_finRange i)

end

/-! ### The failed port -/

theorem revertDie_nextWsn (s : State) (d : DieId) : (s.revertDie d).table.nextWsn = s.table.nextWsn := by
  rw [revertDie_eq]
  refine List.foldlRecOn (motive := fun t : State => t.table.nextWsn = s.table.nextWsn) _ _ rfl fun t ht i _ => ?_
  unfold State.revertStep
  split
  · refine Eq.trans ?_ ht
    unfold State.revert
    dsimp only
    split <;> rfl
  · exact ht

theorem addFailed_eq (s : State) (d : DieId) :
    s.addFailed d =
      { s with
        chan :=
          { s.chan with
            procedure :=
              match s.chan.procedure with
              | some ⟨.start failed, tag, suppressed⟩ =>
                some ⟨.start (failed ||| BitVec.twoPow 4 d.val), tag, suppressed⟩
              | other => other } } := by
  have hsame (pr : Option Procedure) (hp : s.chan.procedure = pr) :
      s = { s with chan := { s.chan with procedure := pr } } := by rw [← hp]
  unfold State.addFailed
  cases hp : s.chan.procedure with
  | none => exact hsame _ hp
  | some pr =>
    obtain ⟨kind, tag, sup⟩ := pr
    cases kind with
    | start failed => rfl
    | rateSwitch target => exact hsame _ hp
    | dieSetting m i v done => exact hsame _ hp

/-- A state that differs in the table, the ports and the Error Unit alone. -/
theorem Touches.failure_form {s t : State} (h : Touches [.errs, .ports, .table] s t) :
    t = { s with table := t.table, ports := t.ports, errs := t.errs } := by
  have hlink := h.link (by decide)
  have hdrain := h.drain (by decide)
  have hreads := h.reads (by decide)
  have hflushes := h.flushes (by decide)
  have hmaint := h.maint (by decide)
  have hchan := h.chan (by decide)
  have hpending := h.pending
  obtain ⟨pending, link, table, drain, reads, flushes, ports, maint, chan, errs⟩ := t
  simp only at hlink hdrain hreads hflushes hmaint hchan hpending ⊢
  subst hlink hdrain hreads hflushes hmaint hchan hpending
  rfl

/-- Settles O26: each entry of the failed die reverts in its turn, and the reverts of one line concern no other. -/
theorem failedPortRevertsEntriesAndStopsPart : Obligations.FailedPortRevertsEntriesAndStopsPart := by
  intro s d detail hs joined
  have hsound := (tableSound_iff s).1 hs
  have htouch := portFailed_touches s d detail
  have hchan : (s.portFailed d detail).chan = s.chan := htouch.chan (by decide)
  let y : State := ((s.logNote (s.failureNote d detail)).latch .dieFailed).setPort d (s.port d).fail
  have hy : s.portFailed d detail = y.revertDie d := rfl
  refine ⟨s.portFailed d detail, ?fails, ?form, ?nextWsn, ?errs, fun e => ?port,
    fun i hi hd hno => ?alone, fun i j hi hd hgen hline => ?absorbs, fun k hdraining hsecond => ?leaves⟩
  case fails =>
    rw [failPort_eq, addFailed_eq, hchan] <;> rfl
  case form => exact htouch.failure_form
  case nextWsn => rw [hy, revertDie_nextWsn]; rfl
  case errs => rw [hy, (revertDie_touches y d).errs (by decide)]; rfl
  case port =>
    rw [portFailed_port]
    by_cases he : e = d
    · rw [if_pos he, if_pos he.symm]; rfl
    · rw [if_neg he, if_neg (Ne.symm he)]
  case alone =>
    obtain ⟨u, -, hagrees, hrevert, -⟩ := revertDie_reverts (s := y) (i := i) hsound hi hd
    have hui : u.entry i = s.entry i := hagrees i (.inl rfl)
    rw [hy]
    refine hrevert.trans ((revert_alone fun j hgen hline => ?_).trans (by rw [hui]))
    have huj : u.entry j = s.entry j := hagrees j (.inr (hline.trans (congrArg Entry.line hui)))
    exact hno j (huj ▸ hgen) (by rw [← huj, ← hui]; exact hline)
  case absorbs =>
    obtain ⟨u, husound, hagrees, hrevert, hfreed⟩ := revertDie_reverts (s := y) (i := i) hsound hi hd
    have hui : u.entry i = s.entry i := hagrees i (.inl rfl)
    have huj : u.entry j = s.entry j := hagrees j (.inl hline)
    rw [hy]
    refine ⟨hrevert.trans ?_, hfreed j hgen hline⟩
    rw [revert_absorbs husound (by rw [hui]; exact hi) (by rw [huj]; exact hgen) (by rw [huj, hui]; exact hline),
        hui, huj]
    rfl
  case leaves =>
    rw [hy]
    exact reverts_leave (t := y) _ hsound hdraining hsecond

/-! ### What fails a port -/

/-- A failure that closes its event; where it stops the part, the other dies are carried back (R85, R131, R132). -/
theorem failPort_completes {c : Instr} {s : State} {d : DieId} {detail : Status}
    (hx : exec c s = .next ((s.failPort d detail).finishAt s d)) :
    CompletesAs c s (s.failPort d detail) ∧ Stops c s d := by
  refine ⟨⟨_, hx, finishAt_internal _ _ _⟩, fun hstate => ?_⟩
  obtain ⟨hsteady, hstopped⟩ := failPort_steady d detail hstate
  refine ⟨_, hx, (congrArg Channel.partState (finishAt_internal _ _ _).chan).trans hstopped,
    steady_carriesBack _ hsteady hstopped fun hs => ?_⟩
  rw [hs] at hstate
  simp at hstate

/-- Settles O27: a FAIL completion of the operation in the slot, and an expiry of a running op-limit timer, fail the
port. -/
theorem failAndOpLimitFailPort : Obligations.FailAndOpLimitFailPort := by
  refine fun s d => ⟨fun op cl ln c hslot hop => failPort_completes ?_, fun n hn => failPort_completes ?_, fun hn => ?_⟩
  · have hfail (done : State → State) : Host.Outcome.next (s.controlCompletion d (plain .fail) done) =
        (.next ((s.failPort d .failed).finishAt s d) : Host.Outcome State Fault Refusal) := by
      rw [controlCompletion_fail]
      rfl
    rcases hop with ⟨rfl, rfl⟩ | ⟨w, rfl, rfl⟩ | ⟨w, rfl, rfl⟩ | ⟨w, rfl, rfl⟩ | ⟨i, v, rfl, rfl⟩ | ⟨w, rfl, rfl⟩ |
      ⟨m, w, rfl, rfl⟩
    · show execDieResetCompletion d _ s = _
      rw [execDieResetCompletion, hslot]
      exact hfail _
    · show execRefreshCompletion d _ s = _
      rw [execRefreshCompletion, hslot]
      exact hfail _
    · show execShortRecalCompletion d _ s = _
      rw [execShortRecalCompletion, hslot]
      exact hfail _
    · show execLongRecalCompletion d _ s = _
      rw [execLongRecalCompletion, hslot]
      exact hfail _
    · show execSetCompletion d _ s = _
      rw [execSetCompletion, hslot]
      exact hfail _
    · show execParkEnterCompletion d _ s = _
      rw [execParkEnterCompletion, hslot]
      exact hfail _
    · show execParkExitCompletion d _ s = _
      rw [execParkExitCompletion, hslot]
      exact hfail _
  · show execOpLimitExpiry d s = _
    rw [execOpLimitExpiry, hn]
  · show execOpLimitExpiry d s = _
    rw [execOpLimitExpiry, hn]

end Sys2Proof.Machine
end

section
/-! SUPPORT. The Maintenance Unit: completions of its operations, due events, the thermal poll, conditions and claims
(R95 to R105). -/

namespace Sys2Proof.Machine

/-! ### Completions -/

section
variable {s : State} {d : DieId} {w : Nat} {cl : Claimant} {ln : Option LineAddr}

theorem refresh_exec (h : (s.port d).slot = some ⟨.refresh w, cl, ln⟩) :
    exec (.refreshCompletion d (plain .done)) s = .next (((s.vacated d).refreshDone d).finishAt s d) := by
  show execRefreshCompletion d _ s = _
  rw [execRefreshCompletion, h]
  dsimp only
  rw [controlCompletion_done]

theorem shortRecal_exec (h : (s.port d).slot = some ⟨.shortRecal w, cl, ln⟩) :
    exec (.shortRecalCompletion d (plain .done)) s = .next (((s.vacated d).clearRecal d).finishAt s d) := by
  show execShortRecalCompletion d _ s = _
  rw [execShortRecalCompletion, h]
  dsimp only
  rw [controlCompletion_done]

theorem tempRead_exec (h : (s.port d).slot = some ⟨.tempRead, cl, ln⟩) (band : Band) :
    exec (.tempReadCompletion d { outcome := .done, data := none, band := some band }) s =
      .next (((s.vacated d).takeBand d band).finishAt s d) := by
  show execTempReadCompletion d _ s = _
  rw [execTempReadCompletion, h]
  rfl

end

theorem vacated_care (s : State) (d e : DieId) : (s.vacated d).care e = s.care e := rfl

/-- A REFRESH raises a balance that is not above +8 (R96). -/
theorem refreshDone_eq {s : State} {d : DieId} (h : (s.care d).balance ≤ 8) :
    s.refreshDone d = s.setCare d { s.care d with balance := min ((s.care d).balance + 1) 8 } := by
  have hmin : (if (s.care d).balance < 8 then (s.care d).balance + 1 else (s.care d).balance) =
      min ((s.care d).balance + 1) 8 := by omega
  rw [State.refreshDone, hmin]
  rfl

theorem takeBand_eq (s : State) (d : DieId) (band : Band) :
    s.takeBand d band =
      { s.setCare d { s.care d with tempPending := false, band := band } with
        errs :=
          if band = .critical then
            ((s.logNote { kind := .thermalCritical, die := some d }).latch .thermalCritical).errs
          else s.errs } := by
  unfold State.takeBand
  dsimp only
  split <;> rfl

/-- In QUIESCE the PARK ENTER claim follows the balance that a REFRESH leaves, and one of 0 or more has it granted
(R125). -/
theorem refreshed_parks {s : State} {d : DieId} (hp : s.present d = true) (b : Int)
    (hb : -1 ≤ (s.care d).balance → 0 ≤ b) :
    let t := ((s.vacated d).setCare d { s.care d with balance := b }).finishAt s d
    ParkEnterKept t d ∧
      (s.chan.partState = .switching → s.chan.phase = some .quiesce → (s.port d).state = .busy →
        -1 ≤ (s.care d).balance → ChannelOperates t d (.parkEnter (s.activeField 12))) := by
  intro t
  obtain ⟨u, hu⟩ : ∃ u, u = (s.vacated d).setCare d { s.care d with balance := b } := ⟨_, rfl⟩
  have hchan : u.chan = s.chan := by rw [hu]; rfl
  have hfield : u.activeField 12 = s.activeField 12 := by simp only [State.activeField, hchan]
  have hpresent : u.present d = true := by simpa only [State.present, hchan] using hp
  have ht : t = u.finishAt s d := by rw [hu]
  rw [ht]
  refine ⟨finish_parkEnter s _ (.inr ⟨hpresent, .inl (beq_self_eq_true d)⟩), fun hpart hphase hbusy hlow => ?_⟩
  rw [← hfield]
  refine finish_parks hpresent (hchan ▸ hpart) (hchan ▸ hphase) ?_ ?_ ?_ s _ (.inl (beq_self_eq_true d))
  · rw [hu, State.setCare_port, State.vacated_port, hbusy]
    rfl
  · rw [hu, State.setCare_port, State.vacated_port]
  · rw [hu, State.setCare_care_self]
    exact hb hlow

/-- Settles O29: what each completion does to the die; a REFRESH that pays the balance up offers the die's PARK
ENTER. -/
theorem maintenanceCompletionsUpdateDie : Obligations.MaintenanceCompletionsUpdateDie := by
  intro s d cl ln
  refine ⟨fun w hslot hb => ?refresh, fun w hslot => ⟨_, shortRecal_exec hslot, finishAt_internal _ _ _⟩,
    fun band hslot => ⟨_, tempRead_exec hslot band, ?temp⟩⟩
  case temp =>
    rw [takeBand_eq]
    exact finishAt_internal _ _ _
  case refresh =>
    have hx := refresh_exec hslot
    rw [refreshDone_eq (s := s.vacated d) hb] at hx
    refine ⟨_, hx, finishAt_internal _ _ _, fun hp => refreshed_parks hp (min ((s.care d).balance + 1) 8)
        fun hlow => ?_⟩
    omega

/-! ### Conditions and claims -/

theorem parkSuspended_iff (p : Port) :
    p.parkSuspended = true ↔
      p.state = .parked ∨
        ∃ op cl ln, p.slot = some ⟨op, cl, ln⟩ ∧ ((∃ n, op = .parkEnter n) ∨ ∃ m n, op = .parkExit m n) := by
  rw [Port.parkSuspended, Bool.or_eq_true, beq_iff_eq]
  refine or_congr_right ?_
  split
  next n cl ln h => exact ⟨fun _ => ⟨_, _, _, h, .inl ⟨n, rfl⟩⟩, fun _ => rfl⟩
  next m n cl ln h => exact ⟨fun _ => ⟨_, _, _, h, .inr ⟨m, n, rfl⟩⟩, fun _ => rfl⟩
  next hne hnx =>
    refine ⟨fun h => Bool.noConfusion h, ?_⟩
    rintro ⟨op, cl, ln, hslot, ⟨n, rfl⟩ | ⟨m, n, rfl⟩⟩
    · exact absurd hslot (hne _ _ _)
    · exact absurd hslot (hnx _ _ _ _)

theorem phaseSuspends_iff (s : State) :
    s.phaseSuspends = true ↔
      s.chan.partState = .switching ∧ s.chan.phase ∈ [some Phase.clock, some .wake, some .recal, some .apply] := by
  rw [State.phaseSuspends, Bool.and_eq_true, beq_iff_eq]
  refine and_congr_right fun _ => ?_
  cases s.chan.phase with
  | none => simp
  | some phase => cases phase <;> simp

theorem conditionOf_stopped {s : State} {d : DieId} (h : (s.port d).state ∈ [PortState.off, .init, .failed]) :
    s.conditionOf d = .stopped := by
  unfold State.conditionOf
  dsimp only
  split <;> simp_all

theorem conditionOf_running {s : State} {d : DieId} (h : (s.port d).state ∉ [PortState.off, .init, .failed]) :
    s.conditionOf d = if (s.port d).parkSuspended || s.phaseSuspends then .suspended else .active := by
  unfold State.conditionOf
  dsimp only
  split <;> simp_all

theorem dueInterval_eq (s : State) (d : DieId) :
    s.dueInterval d =
      if (s.care d).band = .hot ∨ (s.care d).band = .critical then
        s.activeField 4 / s.chan.settings.granularity / 2
      else s.activeField 4 / s.chan.settings.granularity := by
  unfold State.dueInterval
  dsimp only
  split <;> simp_all

theorem retest_same {s : State} {d : DieId} (h : s.conditionOf d = (s.care d).condition) : s.retest d = s :=
  if_pos h

theorem retest_changes {s : State} {d : DieId} (h : s.conditionOf d ≠ (s.care d).condition) :
    s.retest d =
      s.setCare d
        (if s.conditionOf d = .active then
          { s.care d with
            condition := .active, refreshDue := some (s.dueInterval d), recalDue := some s.recalPeriod
            coolSkip := false }
        else { s.care d with condition := s.conditionOf d, refreshDue := none, recalDue := none }) := by
  unfold State.retest
  dsimp only
  rw [if_neg h]
  split
  next ha => rw [ha]
  · rfl

/-- The claims of an ACTIVE die stand while they are owed and not in flight (R99, R103, R104). -/
theorem wantsRefresh_iff (s : State) (d : DieId) :
    s.wantsRefresh d = true ↔ (s.care d).condition = .active ∧
      (¬ ∃ n cl ln, (s.port d).slot = some ⟨.refresh n, cl, ln⟩) ∧
      ((s.care d).balance < 0 ∨ (s.chan.settings.pullIn = 1 ∧ (s.care d).balance < 8)) := by
  unfold State.wantsRefresh
  dsimp only
  split
  next n cl ln h => simp [h]
  next hne =>
    have hidle : ¬ ∃ n cl ln, (s.port d).slot = some ⟨.refresh n, cl, ln⟩ := fun ⟨n, cl, ln, h⟩ => hne n cl ln h
    simp only [hidle, not_false_eq_true, true_and, Bool.not_false, Bool.and_true, Bool.and_eq_true, beq_iff_eq,
      Bool.or_eq_true, decide_eq_true_iff]

theorem wantsRecal_iff (s : State) (d : DieId) :
    s.wantsRecal d = true ↔ (s.care d).condition = .active ∧ (s.care d).recalPending = true ∧
      ∀ n cl ln, (s.port d).slot ≠ some ⟨.shortRecal n, cl, ln⟩ := by
  unfold State.wantsRecal
  dsimp only
  split
  next n cl ln h => simp [h]
  next hne =>
    have hidle : ∀ n cl ln, (s.port d).slot ≠ some ⟨.shortRecal n, cl, ln⟩ := fun n cl ln h => hne n cl ln h
    simp only [Bool.not_false, Bool.and_true, Bool.and_eq_true, beq_iff_eq, and_iff_left hidle]

theorem wantsTemp_iff (s : State) (d : DieId) :
    s.wantsTemp d = true ↔ (s.care d).condition = .active ∧ (s.care d).tempPending = true ∧
      ∀ cl ln, (s.port d).slot ≠ some ⟨.tempRead, cl, ln⟩ := by
  unfold State.wantsTemp
  dsimp only
  split
  next cl ln h => simp [h]
  next hne =>
    have hidle : ∀ cl ln, (s.port d).slot ≠ some ⟨.tempRead, cl, ln⟩ := fun cl ln h => hne cl ln h
    simp only [Bool.not_false, Bool.and_true, Bool.and_eq_true, beq_iff_eq, and_iff_left hidle]

/-! ### Due events -/

theorem counts_iff (c : DieCare) : c.counts = true ↔ c.band ≠ .cool ∨ c.coolSkip = false := by
  simp [DieCare.counts]

theorem nextToggle_eq (c : DieCare) : c.nextToggle = decide (c.band = .cool ∧ c.coolSkip = false) := by
  rw [Bool.eq_iff_iff, decide_eq_true_iff]
  simp [DieCare.nextToggle]

/-- A refresh due event before its event closes, as one record update (R96 to R98). -/
theorem refreshDebited_eq (s : State) (d : DieId) [Decidable ((s.care d).band ≠ .cool ∨ (s.care d).coolSkip = false)] :
    s.refreshDebited d =
      { s.setCare d
          { s.care d with
            balance :=
              if ((s.care d).band ≠ .cool ∨ (s.care d).coolSkip = false) ∧ -8 < (s.care d).balance then
                (s.care d).balance - 1
              else (s.care d).balance
            coolSkip := decide ((s.care d).band = .cool ∧ (s.care d).coolSkip = false)
            refreshDue := some (s.dueInterval d) } with
        errs :=
          if ((s.care d).band ≠ .cool ∨ (s.care d).coolSkip = false) ∧ (s.care d).balance ≤ -8 then
            (s.logNote { kind := .refreshOverrun, die := some d }).errs
          else s.errs } := by
  unfold State.refreshDebited
  simp only [nextToggle_eq, Bool.and_eq_true, counts_iff, decide_eq_true_iff]
  split <;> rfl

/-- What a due event that leaves the condition makes of a die whose condition follows its port: its values are kept
while it stays ACTIVE, and its timers stop when it leaves ACTIVE (R95). -/
theorem finishAt_careEnds {s u : State} {d : DieId} (hf : CareFollows s d)
    (hu : (u.care d).condition = (s.care d).condition) (hchan : u.chan = s.chan) (hport : u.port d = s.port d) :
    CareEnds (u.care d) ((u.finishAt s d).care d) := by
  refine (finish_follows ?_ s _).ends
  rw [hu, hf.1]
  exact (conditionOf_congr hchan (by rw [hport]) (by rw [hport])).symm

/-- What a refresh due event makes of the die before its event closes. -/
theorem refreshDebited_care (s : State) (d : DieId) :
    ∃ b, (s.refreshDebited d).care d =
      { s.care d with
        balance := b
        coolSkip := decide ((s.care d).band = .cool ∧ (s.care d).coolSkip = false)
        refreshDue := some (s.dueInterval d) } := by
  have hcare := congrArg (fun t : State => t.care d) (refreshDebited_eq s d)
  exact ⟨_, hcare.trans (State.setCare_care_self s d _)⟩

/-- The event's own effect leaves the condition, so that the closing of the event keeps the toggle, and the timer while
the die stays ACTIVE. -/
theorem refreshDebited_follows {s : State} {d : DieId} (hf : CareFollows s d) :
    let t := (s.refreshDebited d).finishAt s d
    (t.care d).coolSkip = decide ((s.care d).band = .cool ∧ (s.care d).coolSkip = false) ∧
      ((s.care d).condition = .active →
        (t.care d).refreshDue = if (t.care d).condition = .active then some (s.dueInterval d) else none) := by
  intro t
  obtain ⟨b, hcare⟩ := refreshDebited_care s d
  have hends : CareEnds ((s.refreshDebited d).care d) (t.care d) :=
    finishAt_careEnds hf (by rw [hcare]) (by rw [refreshDebited_eq]; rfl) (by rw [refreshDebited_eq]; rfl)
  rw [hcare] at hends
  rcases hends with hsame | ⟨hleft, hstops⟩
  · rw [hsame]
    exact ⟨rfl, fun ha => (if_pos ha).symm⟩
  · rw [if_neg hleft, hstops]
    exact ⟨rfl, fun _ => rfl⟩

/-- Settles O30: the event, and the tests by which the unit re-tests a condition and keeps a refresh claim. -/
theorem refreshDueEventDebitsDie : Obligations.RefreshDueEventDebitsDie := by
  intro s d c p counted full interval toggle moving suspended refreshing
  have hinterval : s.dueInterval d = interval := dueInterval_eq s d
  refine ⟨fun n hn => ?event, fun hn => ?stopped, conditionOf_stopped, fun hrun => ?running, retest_same,
    fun hne => ?retest, wantsRefresh_iff s d⟩
  case event =>
    have hx : exec (.refreshDueEvent d) s = .next ((s.refreshDebited d).finishAt s d) := by
      show execRefreshDueEvent d s = _
      rw [execRefreshDueEvent, hn]
      rfl
    refine ⟨_, hx, ?_, fun hp => finish_parkEnter s _ (.inr ⟨?_, .inl (beq_self_eq_true d)⟩), fun hf => ?_⟩
    · have hinternal := finishAt_internal (s.refreshDebited d) s d
      rw [refreshDebited_eq, hinterval] at hinternal
      rw [refreshDebited_eq, hinterval]
      exact hinternal
    · rw [refreshDebited_eq]
      exact hp
    · obtain ⟨htoggle, htimer⟩ := refreshDebited_follows hf
      rw [hinterval] at htimer
      exact ⟨htoggle, htimer⟩
  case stopped =>
    show execRefreshDueEvent d s = _
    rw [execRefreshDueEvent, hn]
  case running =>
    have hsuspended : ((s.port d).parkSuspended || s.phaseSuspends) = true ↔ suspended := by
      rw [Bool.or_eq_true, parkSuspended_iff, phaseSuspends_iff, or_assoc]
    rw [conditionOf_running hrun]
    exact ⟨fun h => if_pos (hsuspended.2 h), fun h => if_neg (mt hsuspended.1 h)⟩
  case retest =>
    rw [retest_changes hne, hinterval]
    rfl

/-! ### Recal due events and the thermal poll -/

theorem recalCalled_follows {s : State} {d : DieId} (hf : CareFollows s d) (ha : (s.care d).condition = .active) :
    let t := (s.recalCalled d).finishAt s d
    (t.care d).recalDue = if (t.care d).condition = .active then some s.recalPeriod else none := by
  intro t
  have hcare : (s.recalCalled d).care d =
      { s.care d with
        recalDue := some s.recalPeriod, recalPending := true
        recalForced := (s.care d).recalForced || (s.care d).recalPending } := State.setCare_care_self s d _
  have hends : CareEnds ((s.recalCalled d).care d) (t.care d) := finishAt_careEnds hf (by rw [hcare]) rfl rfl
  rw [hcare] at hends
  rcases hends with hsame | ⟨hleft, hstops⟩
  · rw [hsame]
    exact (if_pos ha).symm
  · rw [if_neg hleft, hstops]

/-- A thermal poll sets TEMP READ pending at the ACTIVE dies (R102). -/
theorem polled_eq (s : State) :
    s.polled =
      { s with
        maint :=
          { dies := Vector.ofFn fun d =>
              if (s.care d).condition = .active then { s.care d with tempPending := true } else s.care d
            pollTimer := some (pollLength s.chan.settings.tempPoll) } } := by
  refine Eq.trans (forDies_congr (P := fun _ => True) _ _ trivial fun d t _ => ⟨?_, trivial⟩)
    (forDies_setCare (fun _ c => if c.condition = .active then { c with tempPending := true } else c) _)
  split
  · rfl
  · rw [State.setCare_same]

/-- Settles O31: the two events and the tests by which the unit keeps its recal and TEMP READ claims. -/
theorem recalDueAndPollSetPendingFlags : Obligations.RecalDueAndPollSetPendingFlags := by
  intro s period
  refine ⟨fun d n hn => ?recal, fun d hn => ?recalStopped, fun n hn => ?poll, fun hn => ?pollStopped,
    fun d => ⟨wantsRecal_iff s d, wantsTemp_iff s d⟩⟩
  case recal =>
    have hx : exec (.recalDueEvent d) s = .next ((s.recalCalled d).finishAt s d) := by
      show execRecalDueEvent d s = _
      rw [execRecalDueEvent, hn]
      rfl
    exact ⟨_, hx, finishAt_internal _ _ _, recalCalled_follows⟩
  case recalStopped =>
    show execRecalDueEvent d s = _
    rw [execRecalDueEvent, hn]
  case poll =>
    have hx : exec .thermalPollExpiry s = .next (s.polled.finish s fun _ => true) := by
      show execThermalPollExpiry s = _
      rw [execThermalPollExpiry, hn]
      rfl
    rw [polled_eq] at hx
    exact ⟨_, hx, finish_internal _ _ _⟩
  case pollStopped =>
    show execThermalPollExpiry s = _
    rw [execThermalPollExpiry, hn]

end Sys2Proof.Machine
end

section
/-! SUPPORT. The steps of bring-up and of a switch at a port: DIE RESET, SET and LONG RECAL (R74, R77, R105, R117,
R127). -/

namespace Sys2Proof.Machine

/-! ### Completions of control operations -/

section
variable {s : State} {d : DieId} {cl : Claimant} {ln : Option LineAddr}

theorem dieReset_exec (h : (s.port d).slot = some ⟨.dieReset, cl, ln⟩) :
    exec (.dieResetCompletion d (plain .done)) s =
      .next ((((s.vacated d).bringupClaim d .longRecal).abortBringup).finishAt s d) := by
  show execDieResetCompletion d _ s = _
  rw [execDieResetCompletion, h]
  dsimp only
  rw [controlCompletion_done]

theorem set_exec {index : BitVec 4} {value : BitVec 16} (h : (s.port d).slot = some ⟨.set index value, cl, ln⟩) :
    exec (.setCompletion d (plain .done)) s = .next (((s.vacated d).setDone d index value).finishAt s d) := by
  show execSetCompletion d _ s = _
  rw [execSetCompletion, h]
  dsimp only
  rw [controlCompletion_done]

theorem longRecal_exec {w : Nat} (h : (s.port d).slot = some ⟨.longRecal w, cl, ln⟩) :
    exec (.longRecalCompletion d (plain .done)) s = .next (((s.vacated d).longRecalDone d).finishAt s d) := by
  show execLongRecalCompletion d _ s = _
  rw [execLongRecalCompletion, h]
  dsimp only
  rw [controlCompletion_done]

theorem parkEnter_exec {w : Nat} (h : (s.port d).slot = some ⟨.parkEnter w, cl, ln⟩) :
    exec (.parkEnterCompletion d (plain .done)) s = .next (((s.vacated d).parkEnterDone d).finishAt s d) := by
  show execParkEnterCompletion d _ s = _
  rw [execParkEnterCompletion, h]
  dsimp only
  rw [controlCompletion_done]

theorem parkExit_exec {mode : WakeMode} {w : Nat} (h : (s.port d).slot = some ⟨.parkExit mode w, cl, ln⟩) :
    exec (.parkExitCompletion d (plain .done)) s = .next (((s.vacated d).parkExitDone d mode).finishAt s d) := by
  show execParkExitCompletion d _ s = _
  rw [execParkExitCompletion, h]
  dsimp only
  rw [controlCompletion_done]

end

/-! ### A claim placed at one die -/

theorem setPort_setPort (s : State) (d : DieId) (p q : Port) : (s.setPort d p).setPort d q = s.setPort d q := by
  show State.mk .. = State.mk ..
  simp only [State.setPort, Vector.set_set]

theorem setChannelClaim_port (s : State) (d : DieId) (c : Option ChannelOp) :
    (s.setChannelClaim d c).port d = { s.port d with channelClaim := c } := State.setPort_port_self s d _

/-- A claim that the port state and the part state permit is offered where it is placed. -/
theorem offers_claimed {s : State} {d : DieId} {op : ChannelOp} (present : s.present d = true)
    (slot : (s.port d).slot = none) (permits : s.permits (.channel op) = true) (stays : ClaimStays s d op)
    (state : ((s.port d).state = .off ∧ op = .dieReset) ∨ ((s.port d).state = .init ∧ (s.port d).settle = none) ∨
      ((s.port d).state = .parked ∧ op = .parkExit) ∨ (s.port d).state = .idle) :
    Offers (s.setChannelClaim d (some op)) d op := by
  have hport := setChannelClaim_port s d (some op)
  refine ⟨present, by rw [hport], by rw [hport]; exact slot, permits, ?_, by rw [hport]; exact state⟩
  unfold ClaimStays at stays ⊢
  rw [hport]
  exact stays

/-- The claim is granted as the event closes, which changes nothing else beyond what closings may change. -/
theorem claimed_operates {s : State} {d : DieId} {op : ChannelOp} (h : Offers (s.setChannelClaim d (some op)) d op)
    (before : State) :
    ChannelOperates ((s.setChannelClaim d (some op)).finishAt before d) d (s.channelOperation op) :=
  finish_grants h before _ (.inl (beq_self_eq_true d))

theorem claimed_internal (s : State) (d : DieId) (c : Option ChannelOp) (before : State) :
    Internal s ((s.setChannelClaim d c).finishAt before d) :=
  (setChannelClaim_internal s d c).trans (finishAt_internal _ _ _)

/-! ### Bring-up -/

theorem startFailed_congr {s t : State} (h : t.chan.procedure = s.chan.procedure) : t.startFailed = s.startFailed := by
  simp only [State.startFailed, h]

/-- Without a failed die there is no START to end (R118). -/
theorem abortBringup_unfailed {s : State} (h : s.startFailed = 0) : s.abortBringup = s :=
  if_neg fun ⟨_, hfailed, _⟩ => hfailed h

theorem bringupClaim_unfailed {s : State} (h : s.startFailed = 0) (d : DieId) (op : ChannelOp) :
    (s.bringupClaim d op).abortBringup = s.setChannelClaim d (some op) := by
  rw [State.bringupClaim, if_pos h]
  exact abortBringup_unfailed h

theorem bringupClaim_failed {s : State} (h : s.startFailed ≠ 0) (d : DieId) (op : ChannelOp) :
    s.bringupClaim d op = s :=
  if_neg h

/-- In bring-up an INIT port whose settle timer is stopped has its next step granted (R74). -/
theorem offers_bringup {s : State} {d : DieId} {op : ChannelOp} (hpart : s.chan.partState = .bringup)
    (hop : op = .longRecal ∨ ∃ i v, op = .set i v) (hp : s.present d = true) (hslot : (s.port d).slot = none)
    (hinit : (s.port d).state = .init) (hsettle : (s.port d).settle = none) :
    Offers (s.setChannelClaim d (some op)) d op := by
  refine offers_claimed hp hslot ?_ ?_ (.inr (.inl ⟨hinit, hsettle⟩))
  · unfold State.permits
    rw [hpart]
    rcases hop with rfl | ⟨i, v, rfl⟩ <;> rfl
  · rw [ClaimStays, hpart]
    trivial

/-- Settles O32: the LONG RECAL claim that follows a DIE RESET, and the settle timer that follows a SET. -/
theorem dieResetAndSetDoneGoOn : Obligations.DieResetAndSetDoneGoOn := by
  intro s d cl ln
  refine ⟨fun hslot => ?reset, fun index value hslot => ⟨_, set_exec hslot, ?set⟩⟩
  case reset =>
    have hx := dieReset_exec hslot
    refine ⟨fun hunfailed => ?_, fun hfailed => ?_⟩
    · rw [bringupClaim_unfailed (s := s.vacated d) hunfailed] at hx
      refine ⟨_, hx, claimed_internal _ d _ _, fun hpart hp hinit hsettle => ?_⟩
      refine claimed_operates (offers_bringup (s := s.vacated d) hpart (.inl rfl) hp ?_ ?_ ?_) s
      · rw [State.vacated_port]
      · rw [State.vacated_port, hinit]
        rfl
      · rw [State.vacated_port]
        exact hsettle
    · rw [bringupClaim_failed (s := s.vacated d) hfailed] at hx
      exact ⟨_, hx, finishAt_internal _ _ _⟩
  case set =>
    have hdone : (s.vacated d).setDone d index value =
        s.setPort d
          { s.port d with
            slot := none, opLimit := none, state := if (s.port d).state = .init then .init else .settling
            settle := some (s.activeField 11), settling := some (index, value) } := by
      have hstate : (if (if (s.port d).state = .init then PortState.init else .idle) = .init then PortState.init
          else .settling) = if (s.port d).state = .init then .init else .settling := by
        split <;> rfl
      unfold State.setDone
      rw [State.vacated_port]
      dsimp only
      rw [hstate]
      exact setPort_setPort _ _ _ _
    rw [hdone]
    exact finishAt_internal _ _ _

/-! ### LONG RECAL -/

/-- A LONG RECAL's own effect on the die's flags (R105). -/
def State.recalDone (s : State) (d : DieId) : State := ((s.vacated d).clearRecal d).setRecalOwed d false

theorem longRecalDone_eq (s : State) (d : DieId) :
    (s.vacated d).longRecalDone d =
      match s.chan.partState with
      | .bringup => ((s.recalDone d).bringupClaim d (.set 0 ((s.recalDone d).dieSettingValue 0))).abortBringup
      | .switching => (s.recalDone d).endRecalPhase
      | .config | .running | .parking | .parked | .waking | .stopped => s.recalDone d := rfl

theorem recalDone_port (s : State) (d e : DieId) : (s.recalDone d).port e = (s.vacated d).port e := rfl

theorem dieSettingValue_congr {s t : State} (hset : t.chan.settings = s.chan.settings)
    (ha : t.chan.active = s.chan.active) (hA : t.chan.profileA = s.chan.profileA)
    (hB : t.chan.profileB = s.chan.profileB) (index : BitVec 4) :
        t.dieSettingValue index = s.dieSettingValue index := by
  have hprofile : t.chan.profile t.chan.active = s.chan.profile s.chan.active := by
    rw [ha]
    cases s.chan.active <;> assumption
  simp only [State.dieSettingValue, hprofile, hset]

/-- What bring-up and phase APPLY write to die setting 0 (R117, R127). -/
def State.setZero (s : State) : ChannelOp := .set 0 ((s.chan.profile s.chan.active).fields[1])

theorem recalDone_setZero (s : State) (d : DieId) :
    ChannelOp.set 0 ((s.recalDone d).dieSettingValue 0) = s.setZero :=
  congrArg (ChannelOp.set 0) (dieSettingValue_congr (s := s) (t := s.recalDone d) rfl rfl rfl rfl 0)

/-- No present die owes a clock recal after this one's (R127). -/
theorem recalDone_paid (s : State) (d : DieId) :
    ((s.recalDone d).allPresent fun e => !(s.recalDone d).chan.recalOwed[e]) = true ↔
      ∀ e : DieId, s.present e = true → e = d ∨ s.chan.recalOwed[e] = false := by
  rw [allPresent_iff]
  refine forall_congr' fun e => ?_
  have howed : (s.recalDone d).chan.recalOwed[e] = if d = e then false else s.chan.recalOwed[e] := by
    show (s.chan.recalOwed.set d.val false d.isLt)[e.val] = _
    rw [Vector.getElem_set]
    simp only [Fin.ext_iff]
    rfl
  refine imp_congr_right fun _ => ?_
  rw [howed, Bool.not_eq_true']
  by_cases he : e = d
  · simp [he]
  · simp [he, Ne.symm he]

theorem endRecalPhase_ends {s : State} (hpart : s.chan.partState = .switching) (hphase : s.chan.phase = some .recal)
    (hpaid : (s.allPresent fun e => !s.chan.recalOwed[e]) = true) :
    s.endRecalPhase = s.beginPhase .apply fun t => .set 0 (t.dieSettingValue 0) := if_pos ⟨hpart, hphase, hpaid⟩

theorem beginPhase_internal (s : State) (phase : Phase) (op : State → ChannelOp) :
    Internal (s.setPartState .switching (some phase)) (s.beginPhase phase op) :=
  .forPresent _ _ fun d t => setChannelClaim_internal t d _

/-- Phase APPLY at the end of phase RECAL: its SET is granted at every IDLE port (R127). -/
theorem endRecalPhase_grants {s : State} (d : DieId) (hphase : s.chan.phase = some .recal) {e : DieId}
    (hp : s.present e = true) (hidle : ((s.recalDone d).port e).state = .idle ∧ ((s.recalDone d).port e).slot = none) :
    ChannelOperates
      (((s.recalDone d).beginPhase .apply fun t => .set 0 (t.dieSettingValue 0)).finishAt s d) e
      (.set 0 ((s.chan.profile s.chan.active).fields[1])) := by
  have hop (t : State) (ht : t.chan = ((s.recalDone d).setPartState .switching (some .apply)).chan) :
      ChannelOp.set 0 (t.dieSettingValue 0) = s.setZero :=
    congrArg (ChannelOp.set 0) (dieSettingValue_congr (by rw [ht]; rfl) (by rw [ht]; rfl) (by rw [ht]; rfl)
      (by rw [ht]; rfl) 0)
  have hoffers := beginPhase_offers (s.recalDone d) .apply (fun t => .set 0 (t.dieSettingValue 0)) s.setZero hop
    (.inr (.inr rfl)) e hp hidle.2 (.inl hidle.1)
  refine finish_grants hoffers s _ (.inr (.inr ?_))
  rw [(beginPhase_internal _ _ _).chan, hphase]
  exact fun h => nomatch h

/-- Settles O33: the SET of die setting 0 follows in bring-up at the die, and at the end of phase RECAL at every die. -/
theorem longRecalDoneClearsFlagsAndGoesOn : Obligations.LongRecalDoneClearsFlagsAndGoesOn := by
  intro s d w cl ln hslot cleared lastOfPhase setZero command
  have hx := longRecal_exec hslot
  rw [longRecalDone_eq] at hx
  have hcleared : s.recalDone d = cleared := rfl
  refine ⟨fun hpart hunfailed => ?bringup, fun hpart hfailed => ?failed, fun hlast => ?last, fun hpart hlast => ?rest⟩
  case bringup =>
    simp only [hpart, bringupClaim_unfailed (s := s.recalDone d) hunfailed, recalDone_setZero] at hx
    refine ⟨_, hx, claimed_internal _ d _ _, fun hp hinit hsettle => ?_⟩
    refine claimed_operates (offers_bringup (s := s.recalDone d) hpart (.inr ⟨_, _, rfl⟩) hp ?_ ?_ ?_) s
    · rw [recalDone_port, State.vacated_port]
    · rw [recalDone_port, State.vacated_port, hinit]
      rfl
    · rw [recalDone_port, State.vacated_port]
      exact hsettle
  case failed =>
    simp only [hpart, bringupClaim_failed (s := s.recalDone d) hfailed] at hx
    exact ⟨_, hx, finishAt_internal _ _ _⟩
  case last =>
    obtain ⟨hpart, hphase, hpaid⟩ := hlast
    simp only [hpart, endRecalPhase_ends (s := s.recalDone d) hpart hphase ((recalDone_paid s d).2 hpaid)] at hx
    have hbegun := (beginPhase_internal (s.recalDone d) .apply fun t => .set 0 (t.dieSettingValue 0)).trans
      (finishAt_internal _ s d)
    have hchan : (s.recalDone d).setPartState .switching (some .apply) =
        { cleared with chan := { cleared.chan with phase := some .apply } } := by
      rw [← hcleared, ← show (s.recalDone d).chan.partState = .switching from hpart]
      rfl
    rw [hchan] at hbegun
    exact ⟨_, hx, hbegun, fun e hp hidle => endRecalPhase_grants d hphase hp hidle⟩
  case rest =>
    have hstays : (s.recalDone d).endRecalPhase = s.recalDone d :=
      if_neg fun ⟨hp, hphase, hpaid⟩ => hlast ⟨hp, hphase, (recalDone_paid s d).1 hpaid⟩
    rw [hstays] at hx
    refine ⟨_, hx, ?_⟩
    rw [← hcleared]
    cases hp : s.chan.partState with
    | bringup => exact absurd hp hpart
    | switching => exact finishAt_internal _ _ _
    | config => exact finishAt_internal _ _ _
    | running => exact finishAt_internal _ _ _
    | parking => exact finishAt_internal _ _ _
    | parked => exact finishAt_internal _ _ _
    | waking => exact finishAt_internal _ _ _
    | stopped => exact finishAt_internal _ _ _

end Sys2Proof.Machine
end

section
/-! SUPPORT. Parking and waking at a port, and what the last port makes of the part (R78, R107, R108, R121 to R127). -/

namespace Sys2Proof.Machine

/-! ### PARK ENTER -/

/-- A PARK ENTER's own effect on its port and die (R78, R107). -/
def State.parkedAt (s : State) (d : DieId) : State :=
  (s.setPort d { s.port d with slot := none, opLimit := none, state := .parked }).setCare d
    { s.care d with balance := 0 }

theorem parkEnterDone_eq (s : State) (d : DieId) : (s.vacated d).parkEnterDone d = (s.parkedAt d).allParked := by
  unfold State.parkEnterDone
  rw [State.vacated_port]
  unfold State.vacated
  rw [setPort_setPort]
  rfl

theorem parkedAt_port (s : State) (d e : DieId) :
    (s.parkedAt d).port e =
      if d = e then { s.port d with slot := none, opLimit := none, state := .parked } else s.port e :=
  State.setPort_port s d e _

theorem parkedAt_last (s : State) (d : DieId) :
    (s.parkedAt d).portsAll (fun p => p.state == .parked) = true ↔
      ∀ e, s.present e = true → e = d ∨ (s.port e).state = .parked := by
  rw [portsAll_iff]
  refine forall_congr' fun e => imp_congr_right fun _ => ?_
  rw [parkedAt_port, beq_iff_eq]
  by_cases he : d = e
  · simp [he]
  · simp [he, Ne.symm he]

/-- The last present port ends PARKING in PARKED (R121). -/
theorem allParked_parks {s : State} (hlast : s.portsAll (fun p => p.state == .parked) = true)
    (hpart : s.chan.partState = .parking) : s.allParked = s.setPartState .parked none := by
  rw [State.allParked, if_pos hlast, if_pos hpart]

/-- The last present port ends QUIESCE in CLOCK (R125). -/
theorem allParked_clocks {s : State} (hlast : s.portsAll (fun p => p.state == .parked) = true)
    (hpart : s.chan.partState = .switching) (hphase : s.chan.phase = some .quiesce) : s.allParked = s.enterClock := by
  rw [State.allParked, if_pos hlast, if_neg (by rw [hpart]; exact fun h => nomatch h), if_pos ⟨hpart, hphase⟩]

theorem allParked_stays {s : State}
    (h : ¬ s.portsAll (fun p => p.state == .parked) = true ∨
      (s.chan.partState ≠ .parking ∧ ¬ (s.chan.partState = .switching ∧ s.chan.phase = some .quiesce))) :
    s.allParked = s := by
  unfold State.allParked
  rcases h with h | ⟨hpart, hphase⟩
  · rw [if_neg h]
  · rw [if_neg hpart, if_neg hphase]
    split <;> rfl

/-- Settles O34: the last PARK ENTER ends PARKING or QUIESCE; in WAKING and STOPPED a PARKED port is carried on. -/
theorem parkEnterDoneParksPortAndPart : Obligations.ParkEnterDoneParksPortAndPart := by
  intro s d w cl ln hslot parked last command
  have hx := parkEnter_exec hslot
  rw [parkEnterDone_eq] at hx
  have hlast : (s.parkedAt d).portsAll (fun p => p.state == .parked) = true ↔ last := parkedAt_last s d
  refine ⟨fun hl hpart => ?parks, fun target tag sup hl hpart hphase hproc => ?clocks, fun hstay => ?stays,
    fun hpart hp => ?carried⟩
  case parks =>
    rw [allParked_parks (hlast.2 hl) hpart] at hx
    exact ⟨_, hx, finishAt_internal _ _ _⟩
  case clocks =>
    rw [allParked_clocks (hlast.2 hl) hpart hphase, enterClock_eq (s.parkedAt d) target tag sup hproc] at hx
    exact ⟨_, hx, finishAt_internal _ _ _⟩
  case stays =>
    rw [allParked_stays (s := s.parkedAt d) (hstay.imp_left (mt hlast.1))] at hx
    exact ⟨_, hx, finishAt_internal _ _ _⟩
  case carried =>
    have hother : s.chan.partState ≠ .parking ∧ s.chan.partState ≠ .switching := by
      rcases hpart with hpart | hpart <;> rw [hpart] <;> exact ⟨nofun, nofun⟩
    rw [allParked_stays (s := s.parkedAt d) (.inr ⟨hother.1, fun h => hother.2 h.1⟩)] at hx
    have hport := parkedAt_port s d d
    rw [if_pos rfl] at hport
    have hcarried : Carried (s.parkedAt d) d .parkExit :=
      ⟨hp, by rw [hport], .inl ⟨hpart, by rw [hport], rfl⟩⟩
    have hgranted := finish_carries hcarried s (fun x => x == d) (.inl (beq_self_eq_true d))
    rw [channelOperation_parkExit (s := s.parkedAt d) hother.2] at hgranted
    exact ⟨_, hx, hgranted⟩

/-! ### PARK EXIT -/

/-- A PARK EXIT's own effect on its port and die, by the mode of the exit (R108). -/
def State.wokenAt (s : State) (d : DieId) (mode : WakeMode) : State :=
  (s.vacated d).setCare d
    { s.care d with
      balance := match mode with
        | .normal => 0
        | .quick => -1 }

theorem parkExitDone_eq (s : State) (d : DieId) (mode : WakeMode) :
    (s.vacated d).parkExitDone d mode = (((s.wokenAt d mode).claimForward d).endWake).endWakePhase := by
  cases mode <;> rfl

section
variable {s : State} {d : DieId} {mode : WakeMode}

theorem wokenAt_port (hbusy : (s.port d).state = .busy) (e : DieId) :
    (s.wokenAt d mode).port e =
      if d = e then { s.port d with slot := none, opLimit := none, state := .idle } else s.port e := by
  show (s.vacated d).port e = _
  unfold State.vacated
  rw [State.setPort_port, hbusy]
  rfl

/-- The forward's SET claim is placed at the die, or nothing is (R145). -/
theorem claimForward_eq (s : State) (d : DieId) :
    s.claimForward d = s.setChannelClaim d ((s.forwardSet d).elim (s.port d).channelClaim fun x => some
        (.set x.1 x.2)) := by
  unfold State.claimForward
  cases s.forwardSet d with
  | none => exact (State.setPort_same s d).symm
  | some x => rfl

theorem claimForward_chan (s : State) (d : DieId) : (s.claimForward d).chan = s.chan := by rw [claimForward_eq]; rfl

theorem claimForward_internal (s : State) (d : DieId) : Internal s (s.claimForward d) := by
  rw [claimForward_eq]
  exact setChannelClaim_internal _ _ _

theorem claimForward_port (s : State) (d e : DieId) :
    (s.claimForward d).port e =
      if d = e then
        { s.port d with channelClaim := (s.forwardSet d).elim (s.port d).channelClaim fun x => some (.set x.1 x.2) }
      else s.port e := by
  rw [claimForward_eq]
  exact State.setPort_port _ _ _ _

/-- The wake ends when no other present port is PARKED or moving (R123). -/
theorem wokenAt_wakes (hbusy : (s.port d).state = .busy) (hclaim : (s.port d).channelClaim = none) :
    ((s.wokenAt d mode).claimForward d).portsAll (fun p => p.state != .parked && !p.moving) = true ↔
      ∀ e, s.present e = true → e = d ∨ ((s.port e).state ≠ .parked ∧ (s.port e).moving = false) := by
  rw [portsAll_iff]
  refine forall_congr' fun e => ?_
  have hp : ((s.wokenAt d mode).claimForward d).present e = s.present e := by
    simp only [State.present, claimForward_chan]
    rfl
  rw [hp]
  refine imp_congr_right fun _ => ?_
  rw [claimForward_port, wokenAt_port hbusy, wokenAt_port hbusy, if_pos rfl, Bool.and_eq_true, bne_iff_ne,
    Bool.not_eq_true']
  by_cases he : d = e
  · rw [if_pos he, hclaim]
    refine iff_of_true ⟨nofun, ?_⟩ (.inl he.symm)
    cases (s.wokenAt d mode).forwardSet d <;> rfl
  · rw [if_neg he, if_neg he]
    exact ⟨.inr, fun h => h.resolve_left (Ne.symm he)⟩

theorem wokenAt_idle (hbusy : (s.port d).state = .busy) :
    ((s.wokenAt d mode).claimForward d).portsAll (fun p => p.state == .idle) = true ↔
      ∀ e, s.present e = true → e = d ∨ (s.port e).state = .idle := by
  rw [portsAll_iff]
  refine forall_congr' fun e => ?_
  have hp : ((s.wokenAt d mode).claimForward d).present e = s.present e := by
    simp only [State.present, claimForward_chan]
    rfl
  rw [hp]
  refine imp_congr_right fun _ => ?_
  rw [claimForward_port, wokenAt_port hbusy, wokenAt_port hbusy, if_pos rfl, beq_iff_eq]
  by_cases he : d = e
  · rw [if_pos he]
    exact iff_of_true rfl (.inl he.symm)
  · rw [if_neg he, if_neg he]
    exact ⟨.inr, fun h => h.resolve_left (Ne.symm he)⟩

end

theorem becomeRunning_eq (s : State) :
    s.becomeRunning =
      s.setChan
        { s.chan with partState := .running, phase := none, parkDelay := usTimer s.chan.settings.parkDelay } := rfl

theorem endWake_ends {s : State} (hpart : s.chan.partState = .waking)
    (hall : s.portsAll (fun p => p.state != .parked && !p.moving) = true) : s.endWake = s.becomeRunning :=
  if_pos ⟨hpart, hall⟩

theorem endWakePhase_stays {s : State} (h : ¬ (s.chan.partState = .switching ∧ s.chan.phase = some .wake ∧
    s.portsAll (fun p => p.state == .idle) = true)) : s.endWakePhase = s := if_neg h

theorem endWakePhase_ends {s : State} (hpart : s.chan.partState = .switching) (hphase : s.chan.phase = some .wake)
    (hall : s.portsAll (fun p => p.state == .idle) = true) :
    s.endWakePhase = s.beginPhase .recal fun _ => .longRecal := if_pos ⟨hpart, hphase, hall⟩

/-- The end of a wake: RUNNING, whatever claims stand (R119, R123). -/
theorem wokenAt_running (s : State) (d : DieId) (mode : WakeMode) :
    Internal
      { s.wokenAt d mode with
        chan :=
          { s.chan with partState := .running, phase := none, parkDelay := usTimer s.chan.settings.parkDelay } }
      ((s.wokenAt d mode).claimForward d).becomeRunning := by
  rw [becomeRunning_eq, claimForward_chan]
  exact (claimForward_internal _ d).setChan_congr _ rfl

section
variable {s : State} {d : DieId} {mode : WakeMode}

/-- What follows the exit and the forward's claim: the end of a wake, of phase WAKE, or nothing. -/
theorem parkExitDone_wakes (hbusy : (s.port d).state = .busy) (hclaim : (s.port d).channelClaim = none)
    (hpart : s.chan.partState = .waking)
    (hall : ∀ e, s.present e = true → e = d ∨ ((s.port e).state ≠ .parked ∧ (s.port e).moving = false)) :
    (s.vacated d).parkExitDone d mode = ((s.wokenAt d mode).claimForward d).becomeRunning := by
  have hwaking : ((s.wokenAt d mode).claimForward d).chan.partState = .waking := by rw [claimForward_chan]; exact hpart
  rw [parkExitDone_eq, endWake_ends hwaking ((wokenAt_wakes hbusy hclaim).2 hall)]
  exact endWakePhase_stays fun h => nomatch h.1

theorem parkExitDone_unwoken (hbusy : (s.port d).state = .busy) (hclaim : (s.port d).channelClaim = none)
    (hwake : ¬ (s.chan.partState = .waking ∧
      ∀ e, s.present e = true → e = d ∨ ((s.port e).state ≠ .parked ∧ (s.port e).moving = false))) :
    (s.vacated d).parkExitDone d mode = ((s.wokenAt d mode).claimForward d).endWakePhase := by
  rw [parkExitDone_eq]
  refine congrArg State.endWakePhase (if_neg fun ⟨hpart, hall⟩ => hwake ⟨?_, (wokenAt_wakes hbusy hclaim).1 hall⟩)
  rw [claimForward_chan] at hpart
  exact hpart

theorem parkExitDone_rests (hbusy : (s.port d).state = .busy) (hclaim : (s.port d).channelClaim = none)
    (hwake : ¬ (s.chan.partState = .waking ∧
      ∀ e, s.present e = true → e = d ∨ ((s.port e).state ≠ .parked ∧ (s.port e).moving = false)))
    (hphase : ¬ (s.chan.partState = .switching ∧ s.chan.phase = some .wake ∧
      ∀ e, s.present e = true → e = d ∨ (s.port e).state = .idle)) :
    (s.vacated d).parkExitDone d mode = (s.wokenAt d mode).claimForward d := by
  rw [parkExitDone_unwoken hbusy hclaim hwake]
  refine endWakePhase_stays fun ⟨hpart, hp, hall⟩ => hphase ?_
  rw [claimForward_chan] at hpart hp
  exact ⟨hpart, hp, (wokenAt_idle hbusy).1 hall⟩

/-- The SET of a forward that the die still needs is offered once the die is awake (R145). -/
theorem offers_forward {x : State} (hbusy : (s.port d).state = .busy) {index : BitVec 4} {value : BitVec 16}
    (hset : s.forwardSet d = some (index, value)) (hp : x.present d = true)
    (hport : x.port d = ((s.wokenAt d mode).claimForward d).port d)
    (hpart : x.chan.partState = .running ∨ x.chan.partState = .waking) : Offers x d (.set index value) := by
  have hset' : (s.wokenAt d mode).forwardSet d = some (index, value) := hset
  rw [claimForward_port, if_pos rfl, hset', wokenAt_port hbusy, if_pos rfl] at hport
  refine ⟨hp, by rw [hport]; rfl, by rw [hport], ?_, ?_, .inr (.inr (.inr (by rw [hport])))⟩
  · unfold State.permits
    rcases hpart with h | h <;> rw [h]
  · unfold ClaimStays
    rcases hpart with h | h <;> rw [h]
    · trivial
    · rw [hport]
      exact fun hparked => nomatch hparked

end

/-- Settles O35: the wake's end, phase WAKE's end, the forward's SET, and in STOPPED the LONG RECAL that is owed. -/
theorem parkExitDoneWakesPortAndPart : Obligations.ParkExitDoneWakesPortAndPart := by
  intro s d mode w cl ln hslot hbusy hclaim woken wakeEnds phaseEnds command
  have hx := parkExit_exec hslot
  have hwoken : s.wokenAt d mode = woken := rfl
  refine ⟨fun ⟨hpart, hall⟩ => ?wakes, fun ⟨hpart, hphase, hall⟩ => ?phase, fun hwake hphase => ?rests,
    fun mask index value done tag sup hproc hpart hp hmask hdone => ?forward, fun hpart hp howed => ?stopped⟩
  case wakes =>
    rw [parkExitDone_wakes hbusy hclaim hpart hall] at hx
    exact ⟨_, hx, (wokenAt_running s d mode).trans (finishAt_internal _ _ _)⟩
  case phase =>
    have hchan := claimForward_chan (s.wokenAt d mode) d
    rw [parkExitDone_unwoken hbusy hclaim (by rw [hpart]; exact fun h => nomatch h.1),
      endWakePhase_ends (by rw [hchan]; exact hpart) (by rw [hchan]; exact hphase) ((wokenAt_idle hbusy).2 hall)] at hx
    refine ⟨_, hx, ?_, fun e hp hempty => ?_⟩
    · refine Internal.trans ?_ ((beginPhase_internal _ _ _).trans (finishAt_internal _ _ _))
      rw [State.setPartState, hchan, ← show (s.wokenAt d mode).chan.partState = .switching from hpart]
      exact (claimForward_internal _ d).setChan_congr _ rfl
    · have hidle : (((s.wokenAt d mode).claimForward d).port e).state = .idle :=
        ((portsAll_iff _ _).1 ((wokenAt_idle (mode := mode) hbusy).2 hall) e (by
          rw [← hp]
          simp only [State.present, hchan]
          rfl)) |> beq_iff_eq.1
      have hslot' : (((s.wokenAt d mode).claimForward d).port e).slot = none := by
        rw [← hempty, ← hwoken, claimForward_port]
        split
        · next he => rw [he]
        · rfl
      have hoffers := beginPhase_offers ((s.wokenAt d mode).claimForward d) .recal (fun _ => .longRecal) .longRecal
        (fun _ _ => rfl) (.inr (.inl rfl)) e (by
          rw [← hp]
          simp only [State.present, hchan]
          rfl) hslot' (.inl hidle)
      have hgranted := finish_grants hoffers s (fun x => x == d) (.inr (.inr (by
        rw [(beginPhase_internal _ _ _).chan, hphase]
        exact fun h => nomatch h)))
      rw [channelOperation_congr (beginPhase_internal _ _ _).chan] at hgranted
      have hfield : (((s.wokenAt d mode).claimForward d).setPartState .switching (some .recal)).channelOperation
          .longRecal = .longRecal (s.activeField 9) := by
        rw [State.setPartState, hchan]
        rfl
      rw [hfield] at hgranted
      exact hgranted
  case rests =>
    rw [parkExitDone_rests hbusy hclaim hwake hphase] at hx
    exact ⟨_, hx, (claimForward_internal _ d).trans (finishAt_internal _ _ _)⟩
  case forward =>
    have hset : s.forwardSet d = some (index, value) := by
      rw [State.forwardSet, hproc]
      exact if_pos (by rw [hmask, hdone]; rfl)
    by_cases hwake : s.chan.partState = .waking ∧
        ∀ e, s.present e = true → e = d ∨ ((s.port e).state ≠ .parked ∧ (s.port e).moving = false)
    · rw [parkExitDone_wakes hbusy hclaim hwake.1 hwake.2] at hx
      have hport : ((s.wokenAt d mode).claimForward d).becomeRunning.port d =
          ((s.wokenAt d mode).claimForward d).port d := rfl
      have hrun : ((s.wokenAt d mode).claimForward d).becomeRunning.chan.partState = .running := rfl
      refine ⟨_, hx, finish_grants (offers_forward hbusy hset ?_ hport (.inl hrun)) s (fun x => x == d)
        (.inl (beq_self_eq_true d))⟩
      rw [← hp, becomeRunning_eq]
      simp only [State.present, claimForward_chan]
      rfl
    · rw [parkExitDone_rests hbusy hclaim hwake (by rw [hpart]; exact fun h => nomatch h.1)] at hx
      refine ⟨_, hx, finish_grants (offers_forward (mode := mode) hbusy hset ?_ rfl (.inr ?_)) s _
        (.inl (beq_self_eq_true d))⟩
      · rw [← hp]
        simp only [State.present, claimForward_chan]
        rfl
      · rw [claimForward_chan]
        exact hpart
  case stopped =>
    rw [parkExitDone_rests hbusy hclaim (by rw [hpart]; exact fun h => nomatch h.1)
      (by rw [hpart]; exact fun h => nomatch h.1)] at hx
    have hchan : ((s.wokenAt d mode).claimForward d).chan = s.chan := claimForward_chan _ _
    have hport := claimForward_port (s.wokenAt d mode) d d
    rw [if_pos rfl, wokenAt_port hbusy, if_pos rfl] at hport
    have hcarried : Carried ((s.wokenAt d mode).claimForward d) d .longRecal := by
      refine ⟨?_, by rw [hport], .inr ⟨?_, by rw [hport], ?_, rfl⟩⟩
      · rw [← hp]
        simp only [State.present, hchan]
      · rw [hchan]
        exact hpart
      · rw [hchan]
        exact howed
    have hgranted := finish_carries hcarried s (fun x => x == d) (.inl (beq_self_eq_true d))
    rw [channelOperation_congr hchan] at hgranted
    exact ⟨_, hx, hgranted⟩

end Sys2Proof.Machine
end

section
/-! SUPPORT. The expiry of a settle timer, and what Channel Control makes of a settled SET (R74, R77, R117, R127,
R143). -/

namespace Sys2Proof.Machine

/-- The port after the expiry, and the shadow with the settled value (R77, R143). -/
def State.recorded (s : State) (d : DieId) (index : BitVec 4) (value : BitVec 16) : State :=
  (s.setPort d (s.port d).afterSettle).recordShadow d index value

section
variable {s : State} {d : DieId} {n : Nat} {index : BitVec 4} {value : BitVec 16}

theorem settle_exec (hruns : (s.port d).settle = some n) :
    exec (.settleTimerExpiry d) s = .next ((s.settleExpired d).finishAt s d) := by
  show execSettleTimerExpiry d s = _
  rw [execSettleTimerExpiry, hruns]
  rfl

theorem settleExpired_unset (hnone : (s.port d).settling = none) :
    s.settleExpired d = s.setPort d (s.port d).afterSettle := by
  rw [State.settleExpired, hnone]

/-- A settled SET goes on by the part state, with its value recorded. -/
theorem settleExpired_set (hset : (s.port d).settling = some (index, value)) :
    s.settleExpired d =
      match s.chan.partState with
      | .bringup =>
        (if index.toNat < 3 then
            (s.recorded d index value).bringupClaim d
              (.set (index + 1) ((s.recorded d index value).dieSettingValue (index + 1)))
          else (s.recorded d index value).endBringup d).abortBringup
      | .switching =>
        if index.toNat < 3 then (s.recorded d index value).claimSet d (index + 1)
        else (s.recorded d index value).endSwitch
      | .config | .running | .parking | .parked | .waking | .stopped =>
        (s.recorded d index value).forwardSettled d index value := by
  rw [State.settleExpired, hset]
  rfl

theorem recorded_port (s : State) (d : DieId) (index : BitVec 4) (value : BitVec 16) :
    (s.recorded d index value).port d = (s.port d).afterSettle := State.setPort_port_self s d _

/-- The die setting after index 0, 1 or 2, with the value that the part writes to it (R117). -/
theorem recorded_next (hindex : index.toNat < 3) :
    (s.recorded d index value).dieSettingValue (index + 1) =
      if index = 0 then (s.chan.profile s.chan.active).fields[2]
      else if index = 1 then (s.chan.profile s.chan.active).fields[3]
      else BitVec.ofNat 16 s.chan.settings.granularity := by
  rw [dieSettingValue_congr (s := s) (t := s.recorded d index value) rfl rfl rfl rfl]
  have hcases : index = 0 ∨ index = 1 ∨ index = 2 := by
    simp only [← BitVec.toNat_inj]
    change index.toNat = 0 ∨ index.toNat = 1 ∨ index.toNat = 2
    omega
  rcases hcases with rfl | rfl | rfl <;> rfl

/-- In phase APPLY the next SET is offered at a port that has just settled (R127). -/
theorem offers_apply (hpart : s.chan.partState = .switching) (hphase : s.chan.phase = some .apply)
    (hp : s.present d = true) (hslot : (s.port d).slot = none) (hidle : (s.port d).state = .idle) (i : BitVec 4)
    (v : BitVec 16) : Offers (s.setChannelClaim d (some (.set i v))) d (.set i v) := by
  refine offers_claimed hp hslot ?_ ?_ (.inr (.inr (.inr hidle)))
  · unfold State.permits
    rw [hpart, hphase]
  · rw [ClaimStays, hpart, hphase]
    exact nofun

end

/-- Settles O36: a settled SET is recorded, then bring-up, phase APPLY or a forward goes on. -/
theorem settleExpiryRecordsShadowAndGoesOn : Obligations.SettleExpiryRecordsShadowAndGoesOn := by
  intro s d rested recorded nextValue
  refine ⟨fun hstopped => ?stopped, fun n hruns => ⟨fun hnone => ?unset, fun index value hset => ?set⟩⟩
  case stopped =>
    show execSettleTimerExpiry d s = _
    rw [execSettleTimerExpiry, hstopped]
  case unset =>
    have hx := settle_exec hruns
    rw [settleExpired_unset hnone] at hx
    exact ⟨_, hx, finishAt_internal _ _ _⟩
  case set =>
    have hx := settle_exec hruns
    rw [settleExpired_set hset] at hx
    have hrecorded : s.recorded d index value = recorded index value := rfl
    have hport := recorded_port s d index value
    refine ⟨fun hpart hindex hunfailed => ?_, fun hpart hindex hfailed => ?_, fun hpart hindex => ?_,
      fun hpart hindex => ?_, fun hpart hindex => ?_, fun hbringup hswitching => ?_⟩
    · simp only [hpart, if_pos hindex, bringupClaim_unfailed (s := s.recorded d index value) hunfailed,
        recorded_next hindex] at hx
      refine ⟨_, hx, claimed_internal _ d _ _, fun hp hinit hslot => ?_⟩
      refine claimed_operates (offers_bringup (s := s.recorded d index value) hpart (.inr ⟨_, _, rfl⟩) hp ?_ ?_ ?_) s
      · rw [hport]
        exact hslot
      · rw [hport, Port.afterSettle, hinit]
        rfl
      · rw [hport]
        rfl
    · simp only [hpart, if_pos hindex, bringupClaim_failed (s := s.recorded d index value) hfailed] at hx
      exact ⟨_, hx, finishAt_internal _ _ _⟩
    · simp only [hpart, if_neg (Nat.not_lt.2 hindex)] at hx
      exact ⟨_, hx, finishAt_internal _ _ _⟩
    · simp only [hpart, if_pos hindex, State.claimSet, recorded_next hindex] at hx
      refine ⟨_, hx, claimed_internal _ d _ _, fun hp hphase hsettling hslot => ?_⟩
      refine claimed_operates (offers_apply (s := s.recorded d index value) hpart hphase hp ?_ ?_ _ _) s
      · rw [hport]
        exact hslot
      · rw [hport, Port.afterSettle, hsettling]
        rfl
    · simp only [hpart, if_neg (Nat.not_lt.2 hindex)] at hx
      exact ⟨_, hx, finishAt_internal _ _ _⟩
    · refine ⟨((s.recorded d index value).forwardSettled d index value).finishAt s d, ?_, finishAt_internal _ _ _⟩
      rw [hx]
      cases hp : s.chan.partState with
      | bringup => exact absurd hp hbringup
      | switching => exact absurd hp hswitching
      | config | running | parking | parked | waking | stopped => rfl

end Sys2Proof.Machine
end

section
/-! SUPPORT. How the procedures end: START, RATE_SWITCH and the DIE_SETTING forward (R106, R117, R118, R128, R146). -/

namespace Sys2Proof.Machine

theorem setCare_setCare (s : State) (d : DieId) (c c' : DieCare) : (s.setCare d c).setCare d c' = s.setCare d c' := by
  unfold State.setCare State.setMaint
  simp only [Vector.set_set]

/-- Without a START in progress no die of one has failed (R118). -/
theorem startFailed_none {s : State} (h : ∀ failed tag sup, s.chan.procedure ≠ some ⟨.start failed, tag, sup⟩) :
    s.startFailed = 0 := by
  unfold State.startFailed
  split
  · next failed tag sup hproc => exact absurd hproc (h failed tag sup)
  · rfl

theorem startFailed_some {s : State} {failed : BitVec 4} {tag : Tag} {sup : Bool}
    (h : s.chan.procedure = some ⟨.start failed, tag, sup⟩) : s.startFailed = failed := by
  rw [State.startFailed, h]

theorem forwardSettled_unneeded {s : State} {d : DieId} {index : BitVec 4} {value : BitVec 16}
    (h : s.forwardSet d ≠ some (index, value)) : s.forwardSettled d index value = s := by
  unfold State.forwardSettled
  split
  · exact if_neg h
  · rfl

/-- The forward's SET that a die still needs is that of a selected die not yet done (R145). -/
theorem forwardSet_some {s : State} {d : DieId} {index : BitVec 4} {value : BitVec 16} :
    s.forwardSet d = some (index, value) ↔
      ∃ mask done tag sup, s.chan.procedure = some ⟨.dieSetting mask index value done, tag, sup⟩ ∧
        mask.getLsbD d.val = true ∧ done.getLsbD d.val = false := by
  unfold State.forwardSet
  split
  · next mask i v done tag sup hproc =>
    rw [hproc]
    constructor
    · intro h
      obtain ⟨hneeds, hpair⟩ := Option.ite_none_right_eq_some.1 h
      rw [Bool.and_eq_true, Bool.not_eq_true'] at hneeds
      cases hpair
      exact ⟨mask, done, tag, sup, rfl, hneeds⟩
    · rintro ⟨_, _, _, _, heq, hmask, hdone⟩
      cases heq
      exact if_pos (by rw [hmask, hdone]; rfl)
  · next hother => exact iff_of_false nofun fun ⟨mask, done, tag, sup, heq, _⟩ => hother _ _ _ _ _ _ heq

/-- The die's own part of the end of its bring-up (R106, R117). -/
def State.broughtUp (s : State) (d : DieId) : State :=
  { (s.setPort d { s.port d with state := .idle }).setCare d
      { s.care d with balance := 0, recalPending := false, recalForced := false } with
    chan := { s.chan with recalOwed := s.chan.recalOwed.set d false } }

theorem broughtUp_eq (s : State) (d : DieId) :
    (((s.setPort d { s.port d with state := .idle }).setBalance d 0).clearRecal d).setRecalOwed d false =
      s.broughtUp d := by
  have hcare : ((s.setPort d { s.port d with state := .idle }).setBalance d 0).clearRecal d =
      (s.setPort d { s.port d with state := .idle }).setCare d
        { s.care d with balance := 0, recalPending := false, recalForced := false } := by
    unfold State.clearRecal State.setBalance
    rw [setCare_setCare, State.setCare_care_self]
    rfl
  rw [hcare]
  rfl

theorem broughtUp_last (s : State) (d : DieId) :
    (s.broughtUp d).portsAll (fun p => p.state == .idle) = true ↔
      ∀ e, s.present e = true → e = d ∨ (s.port e).state = .idle := by
  rw [portsAll_iff]
  refine forall_congr' fun e => imp_congr_right fun _ => ?_
  have hport : (s.broughtUp d).port e = if d = e then { s.port d with state := .idle } else s.port e :=
    State.setPort_port s d e _
  rw [hport, beq_iff_eq]
  by_cases he : d = e
  · simp [he]
  · simp [he, Ne.symm he]

theorem endBringup_last {s : State} {d : DieId}
    (hlast : (s.broughtUp d).portsAll (fun p => p.state == .idle) = true) :
    s.endBringup d =
      ((s.broughtUp d).becomeRunning.endProcedure .ok 0).setMaint
        { ((s.broughtUp d).becomeRunning.endProcedure .ok 0).maint with
          pollTimer := some (pollLength ((s.broughtUp d).becomeRunning.endProcedure .ok 0).chan.settings.tempPoll)
              } := by
  rw [← broughtUp_eq] at hlast ⊢
  exact if_pos hlast

theorem endBringup_more {s : State} {d : DieId}
    (hmore : ¬ (s.broughtUp d).portsAll (fun p => p.state == .idle) = true) : s.endBringup d = s.broughtUp d := by
  rw [← broughtUp_eq] at hmore ⊢
  exact if_neg hmore

/-- A failed START waits for every slot and every settle timer (R118). -/
theorem abortQuiet_iff (s : State) :
    s.portsAll (fun p => p.slot.isNone && p.settle.isNone) = true ↔
      ∀ e, s.present e = true → (s.port e).slot = none ∧ (s.port e).settle = none := by
  rw [portsAll_iff]
  refine forall_congr' fun e => imp_congr_right fun _ => ?_
  rw [Bool.and_eq_true, Option.isNone_iff_eq_none, Option.isNone_iff_eq_none]

theorem switchEnds_iff (s : State) :
    s.portsAll (fun p => p.state == .idle && p.channelClaim.isNone) = true ↔
      ∀ e, s.present e = true → (s.port e).state = .idle ∧ (s.port e).channelClaim = none := by
  rw [portsAll_iff]
  refine forall_congr' fun e => imp_congr_right fun _ => ?_
  rw [Bool.and_eq_true, beq_iff_eq, Option.isNone_iff_eq_none]

theorem switchBalances_eq (s : State) :
    (s.forPresent fun d t => t.setBalance d 0) =
      { s with
        maint :=
          { s.maint with
            dies := Vector.ofFn fun e => if s.present e then { s.care e with balance := 0 } else s.care e } } :=
  forPresent_setCare (fun _ c => { c with balance := 0 }) s

/-- Settles O37: each procedure's end, one equation per case. -/
theorem proceduresEndWithTheirAnswers : Obligations.ProceduresEndWithTheirAnswers := by
  refine ⟨fun s hnone => abortBringup_unfailed (startFailed_none hnone), fun s d index value hnone => ?unneeded,
    ?ends⟩
  case unneeded =>
    refine forwardSettled_unneeded fun hset => ?_
    obtain ⟨mask, done, tag, sup, hproc, hmask, hdone⟩ := forwardSet_some.1 hset
    rcases hnone mask done tag sup hproc with hclear | hset
    · rw [hmask] at hclear
      cases hclear
    · rw [hdone] at hset
      cases hset
  case ends =>
    intro s d kind tag suppressed hproc ended brought lastDie quiet switched
    have hbrought : s.broughtUp d = brought := rfl
    refine ⟨fun hlast => ?_, fun hmore => ?_, fun failed hkind hpart hfailed hquiet => ?_, fun failed hkind hnot => ?_,
      fun hswitched => ?_, fun hnot => ?_, fun mask index value done hkind hmask hdone => ?_⟩
    · rw [endBringup_last ((broughtUp_last s d).2 hlast),
        endProcedure_eq (s.broughtUp d).becomeRunning .ok 0 kind tag suppressed hproc]
      rfl
    · exact endBringup_more (mt (broughtUp_last s d).1 hmore)
    · subst hkind
      have hfailed' := startFailed_some hproc
      rw [State.abortBringup]
      dsimp only
      rw [hfailed', if_pos ⟨hpart, hfailed, (abortQuiet_iff s).2 hquiet⟩, toOffAll_eq]
      refine Eq.trans (endProcedure_eq _ _ _ (.start failed) tag suppressed ?_) ?_
      · exact hproc
      · rfl
    · subst hkind
      have hfailed' := startFailed_some hproc
      refine if_neg fun ⟨hpart, hfail, hquiet⟩ => ?_
      rw [hfailed'] at hfail
      rcases hnot with h | h | h
      · exact h hpart
      · exact hfail h
      · exact h ((abortQuiet_iff s).1 hquiet)
    · rw [State.endSwitch, if_pos ((switchEnds_iff s).2 hswitched), switchBalances_eq]
      refine Eq.trans (endProcedure_eq _ _ _ kind tag suppressed ?_) ?_
      · exact hproc
      · rfl
    · exact if_neg (mt (switchEnds_iff s).1 hnot)
    · subst hkind
      have hset := forwardSet_some.2 ⟨mask, done, tag, suppressed, hproc, hmask, hdone⟩
      rw [State.forwardSettled, hproc]
      dsimp only
      rw [if_pos hset]
      refine if_congr Iff.rfl ?_ rfl
      rw [endProcedure_eq _ .ok 0 _ tag suppressed rfl]
      rfl

end Sys2Proof.Machine
end

section
/-! SUPPORT. The expiries of the idle-drain, relock and park-delay timers, and the selection of drains (R22 to R27,
R107, R120, R126, R127). -/

namespace Sys2Proof.Machine

/-! ### The level -/

theorem takeLevel_drain (s : State) : s.takeLevel.drain = { s.drain with pressure := s.level } := by
  rw [takeLevel_eq]

/-- A re-evaluation gives the scheduler its level and nothing else (R22). -/
theorem relevel_drain (s : State) : s.relevel.drain = { s.drain with pressure := s.level } := by
  rw [State.relevel]
  dsimp only
  split
  · exact (SameLevel.forDies _ (fun d t => arbitrate_sameLevel t d) _).drain.trans (takeLevel_drain s)
  · exact takeLevel_drain s

theorem occupancy_pos_iff (t : Table) : 0 < occupancy t ↔ ∃ i : Fin 32, t.entries[i].live = true := by
  rw [occupancy, List.countP_pos_iff]
  constructor
  · rintro ⟨e, he, hlive⟩
    obtain ⟨i, hi, rfl⟩ := Vector.mem_iff_getElem.1 (Vector.mem_toList_iff.1 he)
    exact ⟨⟨i, hi⟩, hlive⟩
  · rintro ⟨i, hlive⟩
    exact ⟨_, Vector.mem_toList_iff.2 (Vector.getElem_mem i.isLt), hlive⟩

/-- With an entry to drain, the idle flag gives a level above NONE (R22). -/
theorem level_of_idleFlag {s : State} (hflag : s.drain.idleFlag = true) (hocc : 0 < occupancy s.table) :
    s.level ≠ .none := by
  rw [State.level, levelOf, hflag]
  split
  · exact nofun
  · split
    · exact nofun
    · rw [if_pos ⟨rfl, hocc⟩]
      exact nofun

theorem eligible_live {s : State} {i : Fin 32} (h : s.eligible i = true) : 0 < occupancy s.table := by
  obtain ⟨hopened, _⟩ := (eligible_iff s i).1 h
  refine (occupancy_pos_iff _).2 ⟨i, ?_⟩
  show (s.entry i).live = true
  rw [Entry.live, hopened]
  decide

theorem dieDraining_false {s : State} {d : DieId} (h : ¬ Drains s d) : s.dieDraining d = false := by
  rw [← Bool.not_eq_true, dieDraining_iff]
  exact h

/-! ### The idle-drain timer -/

theorem idleDrain_exec {s : State} {n : Nat} (hruns : s.drain.idleTimer = some n) :
    exec .idleDrainTimerExpiry s = .next s.expireIdleDrain := by
  show execIdleDrainTimerExpiry s = _
  rw [execIdleDrainTimerExpiry, hruns]

theorem expireIdleDrain_pressure (s : State) :
    s.expireIdleDrain.drain.pressure = levelOf (occupancy s.table) s.flushes.length s.drain.hysteresis true := by
  rw [State.expireIdleDrain, relevel_drain]
  rfl

theorem expireIdleDrain_selects {s : State} (hcalm : s.drain.pressure = .none) {d : DieId} {i : Fin 32}
    (hp : s.present d = true) (hd : ¬ Drains s d) (h : OldestEligible s d i) :
    SelectionHeld s.expireIdleDrain d i :=
  relevel_selects (s := s.setDrain { s.drain with idleTimer := none, idleFlag := true }) hcalm
    (level_of_idleFlag rfl (eligible_live h.1)) hp (dieDraining_false hd) h

/-! ### The relock timer -/

theorem relock_exec {s : State} {n : Nat} (hruns : s.chan.relock = some n) :
    exec .relockTimerExpiry s = .next s.expireRelock := by
  show execRelockTimerExpiry s = _
  rw [execRelockTimerExpiry, hruns]

theorem expireRelock_internal (s : State) :
    Internal { s with chan := { s.chan with relock := none, partState := .switching, phase := some .wake } }
      s.expireRelock :=
  (beginPhase_internal (s.setChan { s.chan with relock := none }) .wake _).trans (finish_internal _ _ _)

/-- Phase WAKE wakes every PARKED port in mode NORMAL (R126, R127). -/
theorem expireRelock_grants {s : State} {d : DieId} (hp : s.present d = true) (hparked : (s.port d).state = .parked)
    (hslot : (s.port d).slot = none) : ChannelOperates s.expireRelock d (.parkExit .normal (s.activeField 13)) := by
  have hoffers := beginPhase_offers (s.setChan { s.chan with relock := none }) .wake (fun _ => .parkExit) .parkExit
    (fun _ _ => rfl) (.inl rfl) d hp hslot (.inr ⟨hparked, rfl⟩)
  have hgranted := finish_grants hoffers s (fun _ => true) (.inl rfl)
  rw [channelOperation_congr (beginPhase_internal _ _ _).chan] at hgranted
  exact hgranted

/-! ### What a change of level does to the claims -/

theorem takeLevel_claims (s : State) (d : DieId) :
    s.takeLevel.port d =
      if s.present d = true ∧ s.drain.pressure ≠ .none ∧ s.level = .none then
        { s.port d with drainClaim := (s.port d).drainClaim.filter DrainClaim.continuation }
      else if s.present d = true ∧ s.drain.pressure = .none ∧ s.level ≠ .none then
        (({ s with drain := { s.drain with pressure := s.level } } : State).select d).port d
      else s.port d := by
  rw [takeLevel_port, leveledClaim]
  split
  · rfl
  · split
    · rw [select_eq]
      exact (State.setPort_port_self _ d _).symm
    · rfl

/-- Settles O38: the two expiries, and the rules of selection that they lead to. -/
theorem idleDrainAndRelockExpiries : Obligations.IdleDrainAndRelockExpiries := by
  intro s draining continuing
  refine ⟨fun hstopped => ?_, fun n hruns => ⟨_, idleDrain_exec hruns, expireIdleDrain_pressure s, relevel_internal _⟩,
    fun hstopped => ?_,
    fun n hruns => ⟨_, relock_exec hruns, expireRelock_internal s, fun d hp => expireRelock_grants hp⟩,
    fun n hruns _ hcalm => ⟨_, idleDrain_exec hruns, fun d i hp hd h => expireIdleDrain_selects hcalm hp hd h⟩,
    eligible_iff s, ?_, ?_⟩
  · show execIdleDrainTimerExpiry s = _
    rw [execIdleDrainTimerExpiry, hstopped]
  · show execRelockTimerExpiry s = _
    rw [execRelockTimerExpiry, hstopped]
  · intro d claimed
    have hclaim : ∀ c, selectedClaim s d (s.port d).drainClaim = c → claimed c := fun c hc => by
      rw [← hc]
      exact select_eq s d
    refine ⟨fun hd => hclaim _ ?_, fun hd => ⟨fun hcalm => hclaim _ ?_, fun hpressure => ⟨fun i h => hclaim _ ?_,
      fun h => hclaim _ ?_⟩⟩⟩
    · exact if_pos ((dieDraining_iff s d).2 hd)
    · rw [selectedClaim, dieDraining_false hd]
      exact if_pos hcalm
    · exact selectedClaim_oldest _ (dieDraining_false hd) hpressure h
    · exact selectedClaim_empty _ (dieDraining_false hd) h
  · exact ⟨takeLevel_eq s ▸ rfl, takeLevel_claims s⟩

end Sys2Proof.Machine
end

section
/-! SUPPORT. The park conditions and the beginning of parking (R107, R119, R120). -/

namespace Sys2Proof.Machine

theorem live_false_iff (e : Entry) : e.live = false ↔ e.state = .free := by
  cases hs : e.state <;> simp [Entry.live, hs]

/-- Occupancy is 0 when every entry is FREE (R3). -/
theorem occupancy_zero_iff (s : State) : occupancy s.table = 0 ↔ ∀ i, (s.entry i).state = .free := by
  rw [← Nat.le_zero, ← Nat.not_lt, occupancy_pos_iff, not_exists]
  refine forall_congr' fun i => ?_
  rw [Bool.not_eq_true]
  exact live_false_iff _

theorem mayPark_iff (s : State) :
    s.mayPark = true ↔
      s.chan.partState = .running ∧ (∀ i, (s.entry i).state = .free) ∧ s.reads.list = [] ∧ s.flushes = [] ∧
        s.chan.procedure = none ∧ ∀ d, s.present d = true → (s.port d).state = .idle ∧ 0 ≤ (s.care d).balance := by
  rw [State.mayPark]
  simp only [Bool.and_eq_true, beq_iff_eq, List.isEmpty_iff, Option.isNone_iff_eq_none, allPresent_iff,
    decide_eq_true_eq, occupancy_zero_iff, and_assoc]

theorem parkDelay_exec {s : State} {n : Nat} (hruns : s.chan.parkDelay = some n) :
    exec .parkDelayTimerExpiry s = .next (if s.mayPark then s.beginParking else s.restartParkDelay) := by
  show execParkDelayTimerExpiry s = _
  rw [execParkDelayTimerExpiry, hruns]

theorem parkingBegun_eq (s : State) :
    s.parkingBegun =
      { s with
        chan := { s.chan with partState := .parking, phase := none, parkDelay := none }
        ports := Vector.ofFn fun d =>
          if s.present d then { s.port d with channelClaim := some .parkEnter } else s.port d } :=
  claimAll_eq (s.setChan { s.chan with partState := .parking, phase := none, parkDelay := none })
    (fun _ => .parkEnter) .parkEnter fun _ _ => rfl

theorem parkingBegun_chan (s : State) :
    s.parkingBegun.chan = { s.chan with partState := .parking, phase := none, parkDelay := none } := by
  rw [parkingBegun_eq]

theorem parkingBegun_port {s : State} {d : DieId} (hp : s.present d = true) :
    s.parkingBegun.port d = { s.port d with channelClaim := some .parkEnter } := by
  rw [parkingBegun_eq]
  show (Vector.ofFn _)[d.val] = _
  rw [Vector.getElem_ofFn]
  exact if_pos hp

theorem beginParking_internal (s : State) :
    Internal { s with chan := { s.chan with partState := .parking, phase := none, parkDelay := none } }
      s.beginParking := by
  have hclaims : Internal (s.setChan { s.chan with partState := .parking, phase := none, parkDelay := none })
      s.parkingBegun := .forPresent _ _ fun d t => setChannelClaim_internal t d _
  exact hclaims.trans (finish_internal s.parkingBegun s fun _ => true)

/-- The PARK ENTER of every IDLE port is granted as parking begins (R120). -/
theorem beginParking_grants {s : State} {d : DieId} (hp : s.present d = true) (hidle : (s.port d).state = .idle)
    (hslot : (s.port d).slot = none) : ChannelOperates s.beginParking d (.parkEnter (s.activeField 12)) := by
  have hchan := parkingBegun_chan s
  have hport := parkingBegun_port hp
  have hoffers : Offers s.parkingBegun d .parkEnter := by
    refine ⟨?_, by rw [hport], by rw [hport]; exact hslot, ?_, ?_, .inr (.inr (.inr (by rw [hport]; exact hidle)))⟩
    · simp only [State.present, hchan]
      exact hp
    · unfold State.permits
      rw [hchan]
    · rw [ClaimStays, hchan]
      trivial
  have hgranted := finish_grants hoffers s (fun _ => true) (.inl rfl)
  rw [channelOperation_congr (s := s.setChan _) (by rw [hchan]; rfl)] at hgranted
  exact hgranted

/-- Settles O39: the park conditions decide between parking and a restarted timer. -/
theorem parkDelayExpiryParksOrRestarts : Obligations.ParkDelayExpiryParksOrRestarts := by
  intro s parks
  refine ⟨fun hstopped => ?stopped, fun n hruns => ⟨fun hparks => ?begins, fun hnot => ?restarts⟩⟩
  case stopped =>
    show execParkDelayTimerExpiry s = _
    rw [execParkDelayTimerExpiry, hstopped]
  case begins =>
    have hx := parkDelay_exec hruns
    rw [if_pos ((mayPark_iff s).2 hparks)] at hx
    obtain ⟨_, _, _, _, _, hidle⟩ := hparks
    exact ⟨_, hx, beginParking_internal s, fun d hp => beginParking_grants hp (hidle d hp).1⟩
  case restarts =>
    rw [parkDelay_exec hruns, if_neg (mt (mayPark_iff s).1 hnot)]
    rfl

end Sys2Proof.Machine
end

section
/-! SUPPORT. The Die Arbiter: the permitted classes, the grant order, the grants and what follows them (R14, R28, R29,
R46, R73 to R75, R78, R81, R82, R88 to R91, R108). -/

namespace Sys2Proof.Machine

/-! ### Permitted classes -/

/-- The classes that each part state permits (R91). -/
theorem permits_iff (s : State) (c : ClaimClass) :
    s.permits c = true ↔
      match s.chan.partState with
      | .config | .parked => False
      | .bringup => c = .channel .dieReset ∨ c = .channel .longRecal ∨ ∃ i v, c = .channel (.set i v)
      | .running | .waking => True
      | .parking => ∃ op, c = .channel op
      | .switching =>
        (s.chan.phase = some .quiesce ∧ (c = .forcedRefresh ∨ c = .owedRefresh ∨ ∃ op, c = .channel op)) ∨
          (s.chan.phase ∈ [some Phase.wake, some .recal, some .apply] ∧ ∃ op, c = .channel op)
      | .stopped =>
        c ∈ [ClaimClass.channel .parkExit, .channel .longRecal, .forcedRefresh, .owedRefresh, .pullIn, .recal, .temp,
          .drain] := by
  unfold State.permits
  cases s.chan.partState with
  | config | parked => simp
  | running | waking => simp
  | parking => cases c <;> simp
  | bringup =>
    cases c with
    | channel op => cases op <;> simp
    | _ => simp
  | stopped =>
    cases c with
    | channel op => cases op <;> simp
    | _ => simp
  | switching =>
    cases s.chan.phase with
    | none => simp
    | some phase => cases phase <;> cases c <;> simp

theorem permits_open {s : State} (h : s.chan.partState = .running ∨ s.chan.partState = .waking) (c : ClaimClass) :
    s.permits c = true := by
  rw [permits_iff]
  rcases h with h | h <;> rw [h] <;> trivial

/-! ### Place 3 -/

/-- The claim of place 3 among a read and an urgent drain: they alternate under urgent pressure (R90). -/
def State.thirdPlace (s : State) (d : DieId) (read drain : Option Pick) : Option Pick :=
  if s.drain.pressure = .urgent then
    match (s.port d).alternation with
    | .read => if drain.isSome then drain else read
    | .drain => if read.isSome then read else drain
  else read

theorem ite_isSome (a b : Option Pick) : (if a.isSome then a else b) = (a <|> b) := by cases a <;> rfl

theorem placeThree_eq (s : State) (d : DieId) :
    s.placeThree d =
      s.thirdPlace d (if s.permits .read = true then (s.readClaimant d).map Pick.read else none)
        (if s.permits .drain = true then (s.drainClaimant d).map fun c => Pick.drain c true else none) := by
  have hmap {α : Type} (p : Prop) [Decidable p] (x : Option α) (f : α → Pick) :
      (if p then x else none).map f = if p then x.map f else none := by split <;> rfl
  unfold State.placeThree State.thirdPlace
  dsimp only
  rw [hmap, hmap]
  cases (s.port d).alternation with
  | read | drain =>
    by_cases hurgent : s.drain.pressure = .urgent
    · simp only [hurgent, and_true, if_true, ite_isSome]
    · simp [hurgent]

/-! ### The grant order -/

theorem findSome?_id_cons (a : Option Pick) (l : List (Option Pick)) :
    (a :: l).findSome? id = (a <|> l.findSome? id) := by
  cases a <;> rfl

theorem ite_some_orElse (p : Prop) [Decidable p] (a : Pick) (b : Option Pick) :
    ((if p then some a else none) <|> b) = if p then some a else b := by
  split <;> rfl

theorem orElse_nothing (a : Option Pick) : (a <|> none) = a := by cases a <;> rfl

/-- A claim of a class that the part state permits (R91). -/
def State.permitted (s : State) (c : ClaimClass) (claim : Option Pick) : Option Pick :=
  if s.permits c = true then claim else none

/-- The refresh claim in a place whose balances reach from low to high (R89). -/
def State.refreshPlace (s : State) (d : DieId) (c : ClaimClass) (low high : Int) : Option Pick :=
  if (s.port d).refreshClaim = true ∧ low ≤ (s.care d).balance ∧ (s.care d).balance ≤ high then
    s.permitted c (some .refresh)
  else none

def State.recalPlace (s : State) (d : DieId) (forced : Bool) : Option Pick :=
  if (s.port d).recalClaim = true ∧ (s.care d).recalForced = forced then s.permitted .recal (some .recal) else none

/-- The nine places of the grant order (R89). -/
def State.places (s : State) (d : DieId) : List (Option Pick) :=
  [(s.port d).channelClaim.bind fun op => s.permitted (.channel op) (some (.channel op)),
    s.refreshPlace d .forcedRefresh (-8) (-7), s.recalPlace d true,
    s.thirdPlace d (s.permitted .read ((s.readClaimant d).map Pick.read))
      (s.permitted .drain ((s.drainClaimant d).map fun c => Pick.drain c true)),
    s.refreshPlace d .owedRefresh (-6) (-1), s.recalPlace d false,
    if (s.port d).tempClaim = true then s.permitted .temp (some .temp) else none,
    if s.drain.pressure = .urgent then none
    else s.permitted .drain ((s.drainClaimant d).map fun c => Pick.drain c false),
    s.refreshPlace d .pullIn 0 8]

section
variable {s : State} {d : DieId}

theorem ite_permitted {c : ClaimClass} {pending : Bool} {q : Prop} [Decidable q] (hq : pending = true ↔ q)
    (pick : Pick) :
    (if (pending && s.permits c) = true then some pick else none) = if q then s.permitted c (some pick) else none := by
  cases pending with
  | false => rw [if_neg fun h => nomatch hq.2 h]; rfl
  | true => rw [if_pos (hq.1 rfl)]; rfl

theorem bind_permitted (claim : Option ChannelOp) :
    (claim.bind fun op => if (true && s.permits (.channel op)) = true then some (Pick.channel op) else none) =
      claim.bind fun op => s.permitted (.channel op) (some (.channel op)) := by
  cases claim <;> rfl

theorem laterDrain_eq :
    (if s.permits .drain = true ∧ s.drain.pressure ≠ .urgent then s.drainClaimant d else none).map
        (Pick.drain · false) =
      if s.drain.pressure = .urgent then none
      else s.permitted .drain ((s.drainClaimant d).map fun c => Pick.drain c false) := by
  by_cases hurgent : s.drain.pressure = .urgent
  · rw [if_pos hurgent, if_neg fun h => h.2 hurgent]
    rfl
  · rw [if_neg hurgent, State.permitted]
    by_cases hpermits : s.permits .drain = true
    · rw [if_pos ⟨hpermits, hurgent⟩, if_pos hpermits]
    · rw [if_neg fun h => hpermits h.1, if_neg hpermits]
      rfl

/-- The arbiter grants the first of the nine places that holds a permitted claim (R89, R91). -/
theorem firstInOrder_eq (low : -8 ≤ (s.care d).balance) (high : (s.care d).balance ≤ 8) :
    s.firstInOrder d = (s.places d).findSome? id := by
  have hforced : ((s.port d).refreshClaim && decide ((s.care d).balance ≤ -7)) = true ↔
      (s.port d).refreshClaim = true ∧ -8 ≤ (s.care d).balance ∧ (s.care d).balance ≤ -7 := by
    rw [Bool.and_eq_true, decide_eq_true_iff, and_iff_right low]
  have howed : ((s.port d).refreshClaim && decide (-7 < (s.care d).balance) && decide ((s.care d).balance < 0)) = true ↔
      (s.port d).refreshClaim = true ∧ -6 ≤ (s.care d).balance ∧ (s.care d).balance ≤ -1 := by
    rw [Bool.and_eq_true, Bool.and_eq_true, decide_eq_true_iff, decide_eq_true_iff, and_assoc]
    exact and_congr_right fun _ => ⟨fun h => by omega, fun h => by omega⟩
  have hpullIn : ((s.port d).refreshClaim && decide (0 ≤ (s.care d).balance)) = true ↔
      (s.port d).refreshClaim = true ∧ 0 ≤ (s.care d).balance ∧ (s.care d).balance ≤ 8 := by
    rw [Bool.and_eq_true, decide_eq_true_iff, and_iff_left high]
  have hrecalForced : ((s.port d).recalClaim && (s.care d).recalForced) = true ↔
      (s.port d).recalClaim = true ∧ (s.care d).recalForced = true := by
    rw [Bool.and_eq_true]
  have hrecal : ((s.port d).recalClaim && !(s.care d).recalForced) = true ↔
      (s.port d).recalClaim = true ∧ (s.care d).recalForced = false := by
    rw [Bool.and_eq_true, Bool.not_eq_true']
  have htemp : (s.port d).tempClaim = true ↔ (s.port d).tempClaim = true := .rfl
  rw [State.places]
  simp only [findSome?_id_cons, List.findSome?_nil]
  rw [State.firstInOrder]
  dsimp only
  rw [ite_permitted hforced, ite_permitted howed, ite_permitted hpullIn, ite_permitted hrecalForced,
    ite_permitted hrecal, ite_permitted htemp, bind_permitted, placeThree_eq, laterDrain_eq,
    orElse_nothing (s.refreshPlace d .pullIn 0 8)]
  rfl

theorem laterDrain_open (hopen : ∀ c, s.permits c = true) :
    (if s.permits .drain = true ∧ s.drain.pressure ≠ .urgent then s.drainClaimant d else none).map
        (Pick.drain · false) =
      if s.drain.pressure = .urgent then none else (s.drainClaimant d).map fun c => Pick.drain c false := by
  rw [laterDrain_eq, State.permitted, if_pos (hopen .drain)]

/-- Where every class is permitted the order is a chain of alternatives (R89). -/
theorem firstInOrder_open (hopen : ∀ c, s.permits c = true) :
    s.firstInOrder d =
      match (s.port d).channelClaim with
      | some op => some (.channel op)
      | none =>
        let drain (urgent : Bool) := (s.drainClaimant d).map fun c => Pick.drain c urgent
        let third := s.thirdPlace d ((s.readClaimant d).map Pick.read) (drain true)
        if (s.port d).refreshClaim = true ∧ (s.care d).balance ≤ -7 then some .refresh
        else if (s.port d).recalClaim = true ∧ (s.care d).recalForced = true then some .recal
        else if third.isSome then third
        else if (s.port d).refreshClaim = true ∧ (s.care d).balance < 0 then some .refresh
        else if (s.port d).recalClaim = true then some .recal
        else if (s.port d).tempClaim = true then some .temp
        else if s.drain.pressure ≠ .urgent ∧ (drain false).isSome then drain false
        else if (s.port d).refreshClaim = true then some .refresh
        else none := by
  rw [State.firstInOrder, placeThree_eq]
  cases (s.port d).channelClaim with
  | some op => simp [hopen]
  | none =>
    rw [laterDrain_open hopen]
    simp only [hopen, Option.bind_none, Bool.and_true, if_true]
    simp only [ite_some_orElse]
    rw [← ite_isSome (s.thirdPlace _ _ _), ← ite_isSome (if s.drain.pressure = .urgent then none else _)]
    refine if_ctx_congr (by simp) (fun _ => rfl) fun hunforced => ?_
    refine if_ctx_congr (by simp) (fun _ => rfl) fun hunforcedRecal => ?_
    refine if_congr .rfl rfl ?_
    have howed :
        ((s.port d).refreshClaim && decide (-7 < (s.care d).balance) && decide ((s.care d).balance < 0)) = true ↔
        (s.port d).refreshClaim = true ∧ (s.care d).balance < 0 := by
      rw [Bool.and_eq_true, Bool.and_eq_true, decide_eq_true_iff, decide_eq_true_iff, and_assoc]
      exact and_congr_right fun hclaim => and_iff_right_of_imp fun _ => by_contra fun h =>
        hunforced ⟨hclaim, by omega⟩
    refine if_ctx_congr howed (fun _ => rfl) fun hpaid => ?_
    have hrecal : ((s.port d).recalClaim && !(s.care d).recalForced) = true ↔ (s.port d).recalClaim = true := by
      rw [Bool.and_eq_true, Bool.not_eq_true']
      exact and_iff_left_of_imp fun hclaim => Bool.not_eq_true _ ▸ fun h => hunforcedRecal ⟨hclaim, h⟩
    refine if_ctx_congr hrecal (fun _ => rfl) fun _ => ?_
    refine if_congr .rfl rfl ?_
    have hdrain : (if s.drain.pressure = .urgent then none
        else (s.drainClaimant d).map fun c => Pick.drain c false).isSome = true ↔
          s.drain.pressure ≠ .urgent ∧ ((s.drainClaimant d).map fun c => Pick.drain c false).isSome = true := by
      by_cases hurgent : s.drain.pressure = .urgent
      · simp [hurgent]
      · simp [hurgent]
    refine if_ctx_congr hdrain (fun h => if_neg h.1) fun _ => ?_
    have hpullIn : ((s.port d).refreshClaim && decide (0 ≤ (s.care d).balance)) = true ↔
        (s.port d).refreshClaim = true := by
      rw [Bool.and_eq_true, decide_eq_true_iff]
      exact and_iff_left_of_imp fun hclaim => by_contra fun h => hpaid ⟨hclaim, by omega⟩
    exact if_congr hpullIn rfl rfl

end

end Sys2Proof.Machine
end

section
/-! SUPPORT. The arbiter's decision by port state, and what each grant does (R14, R28, R29, R46, R73 to R75, R78, R81,
R82, R88, R90, R95, R108). -/

namespace Sys2Proof.Machine

section
variable {s : State} {d : DieId}

/-! ### The decision -/

theorem decision_filled (h : (s.port d).slot.isSome = true ∨ (s.port d).state ∈ [PortState.busy, .settling, .failed]) :
    s.decision d = none := by
  unfold State.decision
  dsimp only
  by_cases hslot : (s.port d).slot.isSome = true
  · rw [if_pos hslot]
  · rw [if_neg hslot]
    have hstate := h.resolve_left hslot
    simp only [List.mem_cons, List.not_mem_nil, or_false] at hstate
    rcases hstate with hstate | hstate | hstate <;> simp [hstate]

theorem ite_bind_permitted (op : ChannelOp) (claim : Option ChannelOp) :
    (if claim = some op ∧ s.permits (.channel op) = true then some (Pick.channel op) else none) =
      if claim = some op then claim.bind fun op => s.permitted (.channel op) (some (.channel op)) else none := by
  by_cases hclaim : claim = some op
  · rw [hclaim]
    simp [State.permitted]
  · rw [if_neg hclaim, if_neg fun h => hclaim h.1]

theorem decision_off (hslot : (s.port d).slot = none) (hstate : (s.port d).state = .off) :
    s.decision d =
      if (s.port d).channelClaim = some .dieReset then
        (s.port d).channelClaim.bind fun op => s.permitted (.channel op) (some (.channel op))
      else none := by
  rw [← ite_bind_permitted]
  simp [State.decision, hslot, hstate]

theorem decision_parkedPort (hslot : (s.port d).slot = none) (hstate : (s.port d).state = .parked) :
    s.decision d =
      if (s.port d).channelClaim = some .parkExit then
        (s.port d).channelClaim.bind fun op => s.permitted (.channel op) (some (.channel op))
      else none := by
  rw [← ite_bind_permitted]
  simp [State.decision, hslot, hstate]

theorem decision_init (hslot : (s.port d).slot = none) (hstate : (s.port d).state = .init) :
    s.decision d =
      if (s.port d).settle = none then
        (s.port d).channelClaim.bind fun op => s.permitted (.channel op) (some (.channel op))
      else none := by
  cases hsettle : (s.port d).settle <;> simp [State.decision, hslot, hstate, hsettle, State.permitted]

theorem decision_idle (hslot : (s.port d).slot = none) (hstate : (s.port d).state = .idle) :
    s.decision d = s.firstInOrder d := by
  simp [State.decision, hslot, hstate]

theorem readClaimant_empty (h : (s.port d).readClaims = []) : s.readClaimant d = none := by
  rw [State.readClaimant, h]
  rfl

/-- The claim at the head of the list is that of the oldest record (R46). -/
theorem readClaimant_head {r : ReadRecord} {rest : List Nat} (h : (s.port d).readClaims = r.claim :: rest)
    (hr : r ∈ s.reads.list) (hnodup : (s.reads.list.map ReadRecord.claim).Nodup) : s.readClaimant d = some r := by
  rw [State.readClaimant, h, List.findSome?_cons, find?_key hnodup hr]

theorem drainClaimant_iff (c : DrainClaim) :
    s.drainClaimant d = some c ↔
      (s.port d).drainClaim = some c ∧ (c.continuation = true ∨ s.eligible c.entry = true) := by
  rw [State.drainClaimant, Option.filter_eq_some_iff, Bool.or_eq_true]

/-! ### The grants -/

/-- A grant's slot, op-limit timer and port state (R73, R75). -/
def State.filled (s : State) (d : DieId) (op : Operation) (claimant : Claimant) (line : Option LineAddr) (q : Port) :
    State :=
  s.setPort d
    { q with
      slot := some ⟨op, claimant, line⟩, opLimit := some (s.chan.settings.dieOpLimit * 1000)
      state := if (s.port d).state = .off ∨ (s.port d).state = .init then .init else .busy }

theorem granted_eq (p : PortState) : p.granted = if p = .off ∨ p = .init then .init else .busy := by
  cases p <;> rfl

theorem fillSlot_eq {op : Operation} {claimant : Claimant} {line : Option LineAddr} {q : Port}
    (hstate : q.state = (s.port d).state) : s.fillSlot d ⟨op, claimant, line⟩ q = s.filled d op claimant line q := by
  rw [State.fillSlot, granted_eq, hstate]
  rfl

theorem refreshWindow_eq (s : State) :
    s.refreshWindow =
      if s.chan.settings.granularity = 1 then s.activeField 5
      else if s.chan.settings.granularity = 2 then s.activeField 6 else s.activeField 7 := by
  unfold State.refreshWindow
  split <;> simp_all

/-- A PARK EXIT takes mode NORMAL in a rate switch, WAKE_MODE otherwise (R108, R127). -/
theorem exitOperation_eq (s : State) :
    s.channelOperation .parkExit =
      if s.chan.partState = .switching then .parkExit .normal (s.activeField 13) else s.wakeExit := by
  by_cases hpart : s.chan.partState = .switching
  · simp [State.channelOperation, State.exitMode, hpart]
  · rw [channelOperation_parkExit hpart, if_neg hpart]

theorem firstStep_eq (s : State) (e : Entry) :
    s.firstStep e =
      if e.mask = BitVec.allOnes 64 then .fullWrite
      else if s.chan.settings.maskedWrites = 1 then .maskedWrite
      else .rmwRead := if_congr (maskFull_iff e.mask) rfl rfl

theorem grant_channel (op : ChannelOp) :
    s.grant d (.channel op) =
      s.filled d
        (match op with
          | .dieReset => .dieReset
          | .longRecal => .longRecal (s.activeField 9)
          | .set i v => .set i v
          | .parkEnter => .parkEnter (s.activeField 12)
          | .parkExit => if s.chan.partState = .switching then .parkExit .normal (s.activeField 13) else s.wakeExit)
        .channel none { s.port d with channelClaim := none } := by
  have hfill : s.grant d (.channel op) =
      s.filled d (s.channelOperation op) .channel none { s.port d with channelClaim := none } := fillSlot_eq rfl
  cases op with
  | parkExit => rw [hfill, exitOperation_eq]
  | _ => exact hfill

theorem grant_refresh (s : State) (d : DieId) :
    s.grant d .refresh =
      s.filled d
        (.refresh
          (if s.chan.settings.granularity = 1 then s.activeField 5
          else if s.chan.settings.granularity = 2 then s.activeField 6 else s.activeField 7))
        .maintenance none { s.port d with refreshClaim := false } := by
  rw [← refreshWindow_eq]
  exact fillSlot_eq rfl

/-- The grant of a read claim: the record becomes AT_DIE, and the next contested grant is a drain's (R46, R90). -/
theorem grant_read (s : State) (d : DieId) (r : ReadRecord) :
    s.grant d (.read r) =
      { s.filled d (.lineRead (s.dieLine r.line) (s.activeField 1)) (.reads r.claim) (some r.line)
          { s.port d with
            readClaims := (s.port d).readClaims.filter fun c => c != r.claim, alternation := .read } with
        reads :=
          { s.reads with
            list := s.reads.list.map fun x => if x.claim = r.claim then { x with state := .atDie } else x } } := by
  have hgrant := fillSlot_eq (s := s) (d := d) (op := .lineRead (s.dieLine r.line) (s.activeField 1))
    (claimant := .reads r.claim) (line := some r.line)
    (q := { s.port d with readClaims := (s.port d).readClaims.filter (· != r.claim), alternation := .read }) rfl
  show State.setReads (s.fillSlot d _ _) _ = _
  rw [hgrant]
  rfl

theorem drainOperation_eq {e : Entry} {line : LineAddr} (hline : e.line = some line) (step : DrainStep) :
    s.drainOperation e step =
      match step with
      | .fullWrite | .rmwWrite =>
        .lineWrite (s.dieLine line) e.data (dataCheck e.data.toList) (s.activeField 2) (s.activeField 3)
      | .maskedWrite =>
        .maskedWrite (s.dieLine line) e.mask e.data (dataCheck (maskBytes e.mask ++ e.data.toList)) (s.activeField 2)
          (s.activeField 3)
      | .rmwRead => .lineRead (s.dieLine line) (s.activeField 1) := by
  unfold State.drainOperation
  rw [hline]
  cases step <;> rfl

/-- The grant of a drain claim: the entry's own step on a continuation, its first step otherwise (R14, R28, R29). -/
theorem grant_drainClaim {c : DrainClaim} {contested : Bool} {line : LineAddr} {step : DrainStep}
    (hline : (s.entry c.entry).line = some line) (hcont : c.continuation = true → (s.entry c.entry).step = some step)
    (hfirst : c.continuation = false → step = s.firstStep (s.entry c.entry)) :
    s.grant d (.drain c contested) =
      (s.filled d (s.drainOperation (s.entry c.entry) step) (.drain c.entry) (some line)
        { s.port d with
          drainClaim := none, alternation := if contested = true then .drain else (s.port d).alternation }).setEntry
        c.entry
        (if c.continuation = true then s.entry c.entry
        else { s.entry c.entry with state := .draining, step := some step, attempts := 0 }) := by
  have hgetD (e : Entry) (hstep : e.step = some step) : e.step.getD (s.firstStep (s.entry c.entry)) = step := by
    rw [hstep]
    rfl
  cases hc : c.continuation with
  | true =>
    simp only [State.grant, hc, if_true, hgetD _ (hcont hc), hline]
    exact congrArg (fun t : State => t.setEntry c.entry _) (fillSlot_eq (s := s) (d := d) (q := { s.port d with
      drainClaim := none, alternation := if contested = true then .drain else (s.port d).alternation }) rfl)
  | false =>
    simp only [State.grant, hc, Bool.false_eq_true, if_false, Option.getD_some, ← hfirst hc]
    rw [hline]
    exact congrArg (fun t : State => t.setEntry c.entry _) (fillSlot_eq (s := s) (d := d) (q := { s.port d with
      drainClaim := none, alternation := if contested = true then .drain else (s.port d).alternation }) rfl)

/-! ### What follows a grant -/

/-- The arbitration of a present port: its decision is granted, then its die's condition and claims follow (R88,
R95). -/
theorem arbitrated_eq {pick : Pick} (hp : s.present d = true) (hdecision : s.decision d = some pick) :
    s.arbitrate d =
      { s.grant d pick with
        maint := ((s.grant d pick).retest d).maint
        ports := (s.grant d pick).ports.set d
          { (s.grant d pick).port d with
            refreshClaim := ((s.grant d pick).retest d).wantsRefresh d
            recalClaim := ((s.grant d pick).retest d).wantsRecal d
            tempClaim := ((s.grant d pick).retest d).wantsTemp d
            drainClaim := selectedClaim (s.grant d pick) d ((s.grant d pick).port d).drainClaim } } := by
  rw [arbitrate_grants hp hdecision, after_grant]

theorem retest_maint (s : State) (d : DieId) :
    (s.retest d).maint = { s.maint with dies := (s.retest d).maint.dies } := by
  rcases retest_shape s d with h | ⟨c, h⟩
  · rw [h]
  · rw [h]
    rfl

/-- After its re-test a die's condition is the one that R95 gives. -/
theorem retest_condition (s : State) (d : DieId) : ((s.retest d).care d).condition = s.conditionOf d := by
  rcases retest_cases s d with ⟨h, k⟩ | ⟨-, h, k⟩ | ⟨-, -, k⟩
  · rw [k, h]
  · rw [k, State.setCare_care_self, h]
  · rw [k, State.setCare_care_self]

/-- The unit's claims read the die's maintenance values, the slot and PULL_IN (R99, R103, R104). -/
theorem wants_congr {s t : State} {d : DieId} (hcare : t.care d = s.care d) (hslot : (t.port d).slot = (s.port d).slot)
    (hset : t.chan.settings = s.chan.settings) :
    t.wantsRefresh d = s.wantsRefresh d ∧ t.wantsRecal d = s.wantsRecal d ∧ t.wantsTemp d = s.wantsTemp d := by
  refine ⟨?_, ?_, ?_⟩
  · rw [State.wantsRefresh, State.wantsRefresh, hcare, hslot, hset]
  · rw [State.wantsRecal, State.wantsRecal, hcare, hslot]
  · rw [State.wantsTemp, State.wantsTemp, hcare, hslot]

theorem arbitrated_frame {pick : Pick} (hp : s.present d = true) (hdecision : s.decision d = some pick) :
    s.arbitrate d =
      { s.grant d pick with
        ports := (s.arbitrate d).ports
        maint := { (s.grant d pick).maint with dies := (s.arbitrate d).maint.dies } } := by
  rw [arbitrated_eq hp hdecision, retest_maint]

theorem arbitrated_port {pick : Pick} (hp : s.present d = true) (hdecision : s.decision d = some pick) :
    (s.arbitrate d).port d =
      { (s.grant d pick).port d with
        refreshClaim := ((s.grant d pick).retest d).wantsRefresh d
        recalClaim := ((s.grant d pick).retest d).wantsRecal d
        tempClaim := ((s.grant d pick).retest d).wantsTemp d
        drainClaim := selectedClaim (s.grant d pick) d ((s.grant d pick).port d).drainClaim } := by
  rw [arbitrated_eq hp hdecision]
  exact State.setPort_port_self _ _ _

theorem arbitrated_port_other {pick : Pick} (hp : s.present d = true) (hdecision : s.decision d = some pick) {e : DieId}
    (he : e ≠ d) : (s.arbitrate d).port e = (s.grant d pick).port e := by
  rw [arbitrated_eq hp hdecision]
  exact (State.setPort_port (s.grant d pick) d e _).trans (if_neg (Ne.symm he))

theorem arbitrated_care {pick : Pick} (hp : s.present d = true) (hdecision : s.decision d = some pick) (e : DieId) :
    (s.arbitrate d).care e = ((s.grant d pick).retest d).care e := by
  rw [arbitrated_eq hp hdecision]
  rfl

/-- After its arbitration a die's condition and claims follow its port (R95, R99, R103, R104). -/
theorem arbitrated_follows {pick : Pick} (hp : s.present d = true) (hdecision : s.decision d = some pick) :
    CareFollows (s.arbitrate d) d := by
  have hcare := arbitrated_care hp hdecision d
  have hport := arbitrated_port hp hdecision
  have hchan : (s.arbitrate d).chan = (s.grant d pick).chan := by rw [arbitrated_eq hp hdecision]
  have hretest : ((s.grant d pick).retest d).chan = (s.grant d pick).chan := (retest_internal _ d).chan
  have hslot : ((s.arbitrate d).port d).slot = (((s.grant d pick).retest d).port d).slot := by
    rw [hport]
    simp only [State.port, retest_ports]
  obtain ⟨hrefresh, hrecal, htemp⟩ := wants_congr hcare hslot (by rw [hchan, hretest])
  refine ⟨?_, by rw [hrefresh, hport], by rw [hrecal, hport], by rw [htemp, hport]⟩
  rw [hcare, retest_condition, conditionOf_congr hchan (by rw [hport]) (by rw [hport])]

end

/-- Settles O40: the arbiter's order, its decision in each port state, its grants and what follows them. -/
theorem arbiterFollowsGrantOrder : Obligations.ArbiterFollowsGrantOrder := by
  intro s d p f balance place3 read drain permitted channel refresh recal die filled
  refine ⟨fun hpart hidle hslot => ?order, permits_iff s, decision_filled, fun hslot => ?states, readClaimant_empty,
    fun r rest => readClaimant_head, drainClaimant_iff, fun op => grant_channel op, grant_refresh s d, fillSlot_eq rfl,
    fillSlot_eq rfl, grant_read s d, ?drains, arbitrate_rests, ?arbitrated⟩
  case order =>
    rw [decision_idle hslot hidle, firstInOrder_open (permits_open hpart)]
    rfl
  case states =>
    refine ⟨decision_off hslot, decision_init hslot, decision_parkedPort hslot, fun hidle low high => ?_⟩
    rw [decision_idle hslot hidle, firstInOrder_eq low high]
    rfl
  case drains =>
    intro c contested line step hline e hcont hfirst
    rw [grant_drainClaim hline hcont fun hc => (hfirst hc).trans (firstStep_eq s e).symm, drainOperation_eq hline]
    cases step <;> rfl
  case arbitrated =>
    intro pick hp hdecision granted t
    refine ⟨?_, arbitrated_follows hp hdecision, ?_, fun e he => ⟨arbitrated_port_other hp hdecision he, ?_⟩, ?_⟩
    · exact arbitrated_frame hp hdecision
    · rw [arbitrated_care hp hdecision]
      exact (retest_internal _ d).care d
    · rw [arbitrated_care hp hdecision, retest_care_other _ (Ne.symm he)]
    · rw [arbitrated_port hp hdecision]

end Sys2Proof.Machine
end

section
/-! SUPPORT. The SETUP actions START, RATE_SWITCH, DIE_SETTING and RESTART (R108, R116, R122, R124 to R126, R133, R144,
R145). -/

namespace Sys2Proof.Machine

/-- A message that its block answers at once. -/
theorem replied_completes {c : Instr} {s : State} {r : Request} {tag : Tag} {st : Status} (hw : c.wf = true)
    (hr : requestOf c = some r) (ha : Accepted s r) (hserved : served c s.arrive = s.arrive.reply tag st) :
    CompletesAs c s (s.answered (Answer.plain tag st 0)) :=
  ⟨_, (exec_accepted hw hr ha).trans (congrArg _ hserved), arrive_reply_internal s _ _⟩

/-- A procedure's record is made after the arrival (R115). -/
theorem beginProcedure_silenced {s : State} (hl : LevelKept s) (kind : ProcedureKind) (tag : Tag) :
    Silenced (s.arrived.beginProcedure kind tag) (s.arrive.beginProcedure kind tag) := by
  unfold State.beginProcedure
  rw [arrive_chan]
  exact ((arrive_silenced hl).setChan _).joinTag tag

/-- A granted slot comes with the granted port state (R73, R75). -/
theorem Internal.granted_state {u t : State} (h : Internal u t) {d : DieId} {op : Operation}
    (hslot : (u.port d).slot = none) (hop : ChannelOperates t d op) : (t.port d).state = (u.port d).state.granted := by
  obtain ⟨-, -, -, ⟨hsame, -⟩ | ⟨-, -, -, hstate, -⟩⟩ := h.ports d
  · cases (hsame.symm.trans hop).symm.trans hslot
  · exact hstate

/-- An arrival leaves a port's state and slot. -/
theorem arrive_stays {s : State} (hl : LevelKept s) (d : DieId) :
    (s.arrive.port d).state = (s.port d).state ∧ (s.arrive.port d).slot = (s.port d).slot :=
  ((arrive_silenced hl).port d).stays

theorem arrive_present (s : State) (d : DieId) : s.arrive.present d = s.present d := by
  simp only [State.present, arrive_settings]

/-! ### START -/

theorem serveStart_refuses (h : Header) {s : State}
    (hready : ¬ (s.chan.partState = .config ∧ (s.chan.profile s.chan.active).valid = true)) :
    State.serveStart h s = s.reply h.tag .badState :=
  if_pos (by rw [← not_and_or]; exact hready)

/-- START's own effect: its procedure, BRINGUP, and a DIE RESET claim at every present port (R74, R116). -/
def State.started (s : State) (tag : Tag) : State :=
  ((s.beginProcedure (.start 0) tag).setPartState .bringup none).forPresent fun d t =>
    t.setChannelClaim d (some .dieReset)

theorem serveStart_begins (h : Header) {s : State}
    (hready : s.chan.partState = .config ∧ (s.chan.profile s.chan.active).valid = true) :
    State.serveStart h s = (s.started h.tag).finish s fun _ => true :=
  if_neg fun hn => hn.elim (fun hn => hn hready.1) fun hn => hn hready.2

theorem started_chan (s : State) (tag : Tag) :
    (s.started tag).chan =
      { s.chan with procedure := some ⟨.start 0, tag, false⟩, partState := .bringup, phase := none } := by
  rw [State.started, claimAll_eq _ (fun _ => .dieReset) .dieReset fun _ _ => rfl]
  rfl

theorem started_port {s : State} {d : DieId} (tag : Tag) (hp : s.present d = true) :
    (s.started tag).port d = { s.port d with channelClaim := some .dieReset } := by
  rw [State.started, claimAll_eq _ (fun _ => .dieReset) .dieReset fun _ _ => rfl]
  show (Vector.ofFn _)[d.val] = _
  rw [Vector.getElem_ofFn]
  exact if_pos hp

theorem offers_dieReset {s : State} {d : DieId} (tag : Tag) (hp : s.present d = true) (hoff : (s.port d).state = .off)
    (hslot : (s.port d).slot = none) : Offers (s.started tag) d .dieReset := by
  have hchan := started_chan s tag
  have hport := started_port tag hp
  refine ⟨?_, by rw [hport], by rw [hport]; exact hslot, ?_, ?_, .inl ⟨by rw [hport]; exact hoff, rfl⟩⟩
  · simp only [State.present, hchan]
    exact hp
  · unfold State.permits
    rw [hchan]
  · rw [ClaimStays, hchan]
    trivial

/-- Settles O41: START begins bring-up in CONFIG with a valid profile, and is refused otherwise. -/
theorem startBeginsBringup : Obligations.StartBeginsBringup := by
  intro s h r hr hl ha ready
  cases hr
  have hx := exec_accepted (c := .start h) rfl rfl ha
  have harrived : (s.arrive.chan.partState = .config ∧ (s.arrive.chan.profile s.arrive.chan.active).valid = true) ↔
      ready := by
    rw [arrive_partState, arrive_profile, arrive_active]
  refine ⟨fun hready => ?begins, fun hnot =>
    replied_completes rfl rfl ha (serveStart_refuses h (mt harrived.1 hnot))⟩
  case begins =>
    have hserved : served (.start h) s.arrive = (s.arrive.started h.tag).finish s.arrive fun _ => true :=
      serveStart_begins h (harrived.2 hready)
    rw [hserved] at hx
    have hbegun : Internal
        ((s.arrived.beginProcedure (.start 0) h.tag).setPartState .bringup none) (s.arrive.started h.tag) := by
      refine Internal.trans ?_ (.forPresent _ _ fun d t => setChannelClaim_internal t d _)
      have hmade := beginProcedure_silenced hl (.start 0) h.tag
      unfold State.setPartState
      rw [hmade.internal.chan]
      exact (hmade.setChan _).internal
    refine ⟨_, hx, hbegun.trans (finish_internal _ _ _), fun d hp hoff hslot => ?_⟩
    obtain ⟨hstate, hempty⟩ := arrive_stays hl d
    have hpresent := (arrive_present s d).trans hp
    have hoffers := offers_dieReset h.tag hpresent (hstate.trans hoff) (hempty.trans hslot)
    have hgranted := finish_grants hoffers s.arrive (fun _ => true) (.inl rfl)
    have hport := started_port h.tag hpresent
    refine ⟨hgranted, ((finish_internal _ s.arrive _).granted_state ?_ hgranted).trans ?_⟩
    · rw [hport]
      exact hempty.trans hslot
    · rw [hport]
      exact congrArg PortState.granted (hstate.trans hoff)

end Sys2Proof.Machine
end

section
/-! SUPPORT. RATE_SWITCH: its checks, phase QUIESCE from RUNNING and phase CLOCK from PARKED (R124 to R126). -/

namespace Sys2Proof.Machine

/-- One change of every port that does not concern the claims. -/
theorem Silenced.mapPorts {u t : State} (h : Silenced u t) (f : DieId → Port → Port)
    (hf : ∀ d p q, Withdrawn p q → Withdrawn (f d p) (f d q)) :
    Silenced { u with ports := Vector.ofFn fun d => f d (u.port d) }
      { t with ports := Vector.ofFn fun d => f d (t.port d) } := by
  obtain ⟨P, V, rfl, hwithdrawn⟩ := h
  refine ⟨P, _, rfl, fun d => ?_⟩
  simpa [State.port] using hf d _ _ (hwithdrawn d)

theorem Silenced.enterClock {u t : State} (h : Silenced u t) {target : ProfileId} {tag : Tag} {sup : Bool}
    (hproc : u.chan.procedure = some ⟨.rateSwitch target, tag, sup⟩) : Silenced u.enterClock t.enterClock := by
  have hchan := h.internal.chan
  have hpresent (d : DieId) : t.present d = u.present d := by simp only [State.present, hchan]
  rw [enterClock_eq u target tag sup hproc, enterClock_eq t target tag sup (hchan ▸ hproc)]
  simp only [hchan, hpresent]
  refine (h.mapPorts (fun d p => if u.present d then { p with clock := some ((u.chan.profile target).field 0) } else p)
    fun d p q hpq => ?_).setChan _
  split
  · exact hpq.setClock _
  · exact hpq

theorem forwarding_iff (s : State) :
    s.forwarding = true ↔ ∃ mask index value done tag sup,
      s.chan.procedure = some ⟨.dieSetting mask index value done, tag, sup⟩ := by
  unfold State.forwarding
  split
  · next mask index value done tag sup h => exact iff_of_true rfl ⟨mask, index, value, done, tag, sup, h⟩
  · next hother =>
    exact iff_of_false nofun fun ⟨mask, index, value, done, tag, sup, h⟩ => hother mask index value done tag sup h

/-- The profile that a RATE_SWITCH names (R124). -/
def switchTarget (h : Header) : ProfileId := if h.value = 0 then .a else .b

/-- The checks of a RATE_SWITCH in their order (R124). -/
theorem serveRateSwitch_eq (h : Header) (s : State) :
    State.serveRateSwitch h s =
      if 1 < h.value.toNat ∨ (s.chan.profile (switchTarget h)).valid = false ∨ switchTarget h = s.chan.active then
        s.reply h.tag .badSetting
      else if s.chan.partState ≠ .running ∧ s.chan.partState ≠ .parked then s.reply h.tag .badState
      else if s.forwarding = true then s.reply h.tag .retry
      else s.beginSwitch (switchTarget h) h.tag := by
  unfold State.serveRateSwitch
  by_cases hvalue : 1 < h.value.toNat
  · rw [profileOfValue_none hvalue, if_pos (.inl hvalue)]
  · rw [profileOfValue_some hvalue]
    refine if_congr ?_ rfl rfl
    rw [or_iff_right hvalue, Bool.not_eq_true]
    rfl

/-- A switch's own effect: its procedure and phase QUIESCE. -/
def State.switchBegun (s : State) (target : ProfileId) (tag : Tag) : State :=
  (s.beginProcedure (.rateSwitch target) tag).setPartState .switching (some .quiesce)

theorem switchBegun_silenced {s : State} (hl : LevelKept s) (target : ProfileId) (tag : Tag) :
    Silenced (s.arrived.switchBegun target tag) (s.arrive.switchBegun target tag) := by
  have hmade := beginProcedure_silenced hl (.rateSwitch target) tag
  unfold State.switchBegun State.setPartState
  rw [hmade.internal.chan]
  exact hmade.setChan _

/-- From RUNNING: the PARK ENTER claims of phase QUIESCE (R124, R125). -/
theorem beginSwitch_quiesces {s : State} (hl : LevelKept s) (target : ProfileId) (tag : Tag)
    (hpart : s.chan.partState = .running) :
    Internal (s.arrived.switchBegun target tag) (s.arrive.beginSwitch target tag) ∧
      ∀ d, s.present d = true → ParkEnterKept (s.arrive.beginSwitch target tag) d ∧
        ((s.port d).state = .idle → (s.port d).slot = none → 0 ≤ (s.care d).balance →
          ChannelOperates (s.arrive.beginSwitch target tag) d (.parkEnter (s.activeField 12))) := by
  have hbegun := switchBegun_silenced hl target tag
  have hform : s.arrive.beginSwitch target tag = (s.arrive.switchBegun target tag).finish s.arrive fun _ => true := by
    rw [State.beginSwitch, if_neg (by rw [arrive_partState, hpart]; exact nofun)]
    rfl
  rw [hform]
  refine ⟨hbegun.internal.trans (finish_internal _ _ _), fun d hp => ⟨?_, fun hidle hslot hpaid => ?_⟩⟩
  · exact finish_parkEnter s.arrive _ (.inr ⟨(arrive_present s d).trans hp, .inl rfl⟩)
  · obtain ⟨hstate, hempty⟩ := arrive_stays hl d
    have hbalance : (s.arrive.care d).balance = (s.care d).balance := ((arrive_internal s).care d).1
    have hgranted := finish_parks (s := s.arrive.switchBegun target tag) ((arrive_present s d).trans hp) rfl rfl
      (hstate.trans hidle) (hempty.trans hslot) (by rw [← hbalance] at hpaid; exact hpaid) s.arrive (fun _ => true)
          (.inl rfl)
    have hfield : (s.arrive.switchBegun target tag).activeField 12 = s.activeField 12 := by
      rw [State.activeField, hbegun.internal.chan]
      rfl
    rw [hfield] at hgranted
    exact hgranted

/-- From PARKED: phase CLOCK at once (R124, R126). -/
theorem beginSwitch_clocks {s : State} (hl : LevelKept s) (target : ProfileId) (tag : Tag)
    (hpart : s.chan.partState = .parked) :
    Internal (s.arrived.switchBegun target tag).enterClock (s.arrive.beginSwitch target tag) := by
  have hform : s.arrive.beginSwitch target tag =
      (s.arrive.switchBegun target tag).enterClock.finish s.arrive fun _ => true := by
    rw [State.beginSwitch, if_pos (by rw [arrive_partState, hpart])]
    rfl
  rw [hform]
  exact ((switchBegun_silenced hl target tag).enterClock rfl).internal.trans (finish_internal _ _ _)

/-- Settles O42: the checks of RATE_SWITCH, then QUIESCE from RUNNING or CLOCK from PARKED. -/
theorem rateSwitchBeginsAtQuiesceOrClock : Obligations.RateSwitchBeginsAtQuiesceOrClock := by
  intro s h r hr hl ha refused target
  cases hr
  have hx := exec_accepted (c := .rateSwitch h) rfl rfl ha
  have hserved : served (.rateSwitch h) s.arrive = _ := serveRateSwitch_eq h s.arrive
  have htarget : switchTarget h = target := rfl
  have hreply (st : Status) (hst : served (.rateSwitch h) s.arrive = s.arrive.reply h.tag st) : refused st :=
    replied_completes rfl rfl ha hst
  have hforwarding : s.arrive.forwarding = true ↔ ∃ mask index value done tag sup,
      s.chan.procedure = some ⟨.dieSetting mask index value done, tag, sup⟩ := by
    rw [forwarding_iff, arrive_chan]
    rfl
  simp only [htarget, arrive_profile, arrive_partState, arrive_active, hforwarding] at hserved
  split
  next hbad => exact hreply _ (hserved.trans (if_pos hbad))
  next hgood =>
    rw [if_neg hgood] at hserved
    split
    next hstate => exact hreply _ (hserved.trans (if_pos hstate))
    next hstate =>
      rw [if_neg hstate] at hserved
      split
      next hforward => exact hreply _ (hserved.trans (if_pos hforward))
      next hforward =>
        rw [hserved, if_neg hforward] at hx
        split
        next hrunning => exact ⟨_, hx, beginSwitch_quiesces hl target h.tag hrunning⟩
        next hrunning =>
          have hparked : s.chan.partState = .parked := by
            by_contra hparked
            exact hstate ⟨hrunning, hparked⟩
          have hclock := beginSwitch_clocks hl target h.tag hparked
          rw [enterClock_eq (s.arrived.switchBegun target h.tag) target h.tag false rfl] at hclock
          exact ⟨_, hx, hclock⟩

end Sys2Proof.Machine
end

section
/-! SUPPORT. DIE_SETTING: its checks, and the claims of an accepted forward (R108, R122, R144, R145). -/

namespace Sys2Proof.Machine

theorem allDies_iff (p : DieId → Bool) : allDies p = true ↔ ∀ d, p d = true := by
  simp only [allDies, Bool.and_eq_true]
  refine ⟨fun ⟨⟨⟨h0, h1⟩, h2⟩, h3⟩ d => ?_, fun h => ⟨⟨⟨h 0, h 1⟩, h 2⟩, h 3⟩⟩
  match d with
  | 0 => exact h0
  | 1 => exact h1
  | 2 => exact h2
  | 3 => exact h3

theorem badForward_iff (s : State) (h : Header) :
    s.badForward h = true ↔
      settingIndex h < 4 ∨ 15 < settingIndex h ∨ h.dieMask = 0 ∨
        ∃ d : DieId, h.dieMask.getLsbD d.val = true ∧ s.present d = false := by
  rw [State.badForward, Bool.or_eq_true, Bool.or_eq_true, Bool.or_eq_true, decide_eq_true_iff, decide_eq_true_iff,
    beq_iff_eq, Bool.not_eq_true', ← Bool.not_eq_true, allDies_iff, not_forall, or_assoc, or_assoc]
  refine or_congr_right (or_congr_right (or_congr_right (exists_congr fun d => ?_)))
  cases h.dieMask.getLsbD d.val <;> cases s.present d <;> simp

/-- The procedure of an accepted forward (R144). -/
def forwardKind (h : Header) : ProcedureKind :=
  .dieSetting h.dieMask (BitVec.ofNat 4 (settingIndex h)) (h.value.extractLsb' 0 16) 0

/-- The checks of a DIE_SETTING in their order (R144). -/
theorem serveDieSetting_eq (h : Header) (s : State) :
    State.serveDieSetting h s =
      if s.badForward h = true then s.reply h.tag .badSetting
      else if s.chan.partState ∈ [PartState.config, .bringup, .switching, .stopped] then s.reply h.tag .badState
      else if s.forwarding = true then s.reply h.tag .retry
      else s.beginForward h := by
  unfold State.serveDieSetting
  refine if_congr .rfl rfl ?_
  cases s.chan.partState <;> rfl

theorem claimForwardNow_internal (s : State) : Internal s s.claimForwardNow :=
  .forPresent _ _ fun d t => by
    dsimp only
    split
    · exact claimForward_internal t d
    · exact .refl t

theorem claimForwardNow_chan (s : State) : s.claimForwardNow.chan = s.chan := (claimForwardNow_internal s).chan

theorem forwardSet_congr {s t : State} (h : t.chan = s.chan) (d : DieId) : t.forwardSet d = s.forwardSet d := by
  rw [State.forwardSet, State.forwardSet, h]

/-- A port with the claim of the forward that its die still needs, if it takes one (R145). -/
def Port.forwarded (p : Port) (set : Option (BitVec 4 × BitVec 16)) : Port :=
  if (p.state = .idle ∨ p.state = .busy ∨ p.state = .settling) ∧ ¬ p.moving then
    { p with channelClaim := set.elim p.channelClaim fun x => some (.set x.1 x.2) }
  else p

theorem claimForwardNow_port (s : State) (d : DieId) :
    s.claimForwardNow.port d = if s.present d then (s.port d).forwarded (s.forwardSet d) else s.port d := by
  refine forPresent_view (fun t => t.port d) (fun t => t.chan = s.chan) _ d
      (fun p => p.forwarded (s.forwardSet d)) s rfl
    (fun e t ht => ?_) (fun t ht => ?_) (fun t ht => ?_) fun e t he => ?_
  · dsimp only
    split
    · exact (claimForward_chan t e).trans ht
    · exact ht
  · simp only [State.present, ht]
  · dsimp only [Port.forwarded]
    split
    · rw [claimForward_port, if_pos rfl, forwardSet_congr ht]
    · rfl
  · dsimp only
    split
    · rw [claimForward_port, if_neg he]
    · rfl

theorem forwarded_stays (p : Port) (set : Option (BitVec 4 × BitVec 16)) :
    (p.forwarded set).state = p.state ∧ (p.forwarded set).slot = p.slot := by
  unfold Port.forwarded
  split <;> exact ⟨rfl, rfl⟩

theorem claimForwardNow_stays (s : State) (d : DieId) :
    (s.claimForwardNow.port d).state = (s.port d).state ∧ (s.claimForwardNow.port d).slot = (s.port d).slot := by
  rw [claimForwardNow_port]
  split
  · exact forwarded_stays _ _
  · exact ⟨rfl, rfl⟩

/-! ### An accepted forward -/

/-- The forward's own effect: its procedure, the waking of a parked part, and its claims (R122, R144, R145). -/
def State.forwardBegun (s : State) (h : Header) : State :=
    ((s.beginProcedure (forwardKind h) h.tag).wake).claimForwardNow

section
variable {s : State} {h : Header}

theorem beginForward_eq (s : State) (h : Header) :
    s.beginForward h = (s.forwardBegun h).finish s fun d => h.dieMask.getLsbD d.val := rfl

theorem forwardBegun_chan (s : State) (h : Header) :
    (s.forwardBegun h).chan =
      ({ s.chan with procedure := some ⟨forwardKind h, h.tag, false⟩ } : Channel).woken := by
  rw [State.forwardBegun, claimForwardNow_chan, wake_eq]
  rfl

theorem forwardBegun_stays (s : State) (h : Header) (d : DieId) :
    ((s.forwardBegun h).port d).state = (s.port d).state ∧ ((s.forwardBegun h).port d).slot = (s.port d).slot := by
  rw [State.forwardBegun, wake_eq]
  exact claimForwardNow_stays _ d

theorem woken_procedure (c : Channel) : c.woken.procedure = c.procedure := by
  unfold Channel.woken
  split <;> rfl

/-- A forward runs or wakes the part (R122, R144). -/
theorem woken_runs {c : Channel} (hpart : c.partState ∉ [PartState.config, .bringup, .switching, .stopped]) :
    c.woken.partState = .running ∨ c.woken.partState = .waking := by
  unfold Channel.woken
  split
  · exact .inr rfl
  · next hneither =>
    cases hp : c.partState <;> simp_all

/-- The claim is placed at every selected port that takes it (R145). -/
theorem forwardBegun_claims {d : DieId} (hp : s.present d = true) (hmask : h.dieMask.getLsbD d.val = true)
    (hstate : (s.port d).state = .idle ∨ (s.port d).state = .busy ∨ (s.port d).state = .settling)
    (hmoving : (s.port d).moving = false) :
    (s.forwardBegun h).port d =
      { s.port d with
        channelClaim := some (.set (BitVec.ofNat 4 (settingIndex h)) (h.value.extractLsb' 0 16)) } := by
  obtain ⟨t, ht⟩ : ∃ t, t = (s.beginProcedure (forwardKind h) h.tag).wake := ⟨_, rfl⟩
  have hport : t.port d = s.port d := by rw [ht, wake_eq]; rfl
  have hpresent : t.present d = true := by
    rw [← hp, ht, wake_eq]
    simp only [State.present, State.setChan_chan, woken_settings]
    rfl
  have hset : t.forwardSet d = some (BitVec.ofNat 4 (settingIndex h), h.value.extractLsb' 0 16) := by
    refine forwardSet_some.2 ⟨h.dieMask, 0, h.tag, false, ?_, hmask, BitVec.getLsbD_zero⟩
    rw [ht, wake_eq, State.setChan_chan, woken_procedure]
    rfl
  rw [State.forwardBegun, ← ht, claimForwardNow_port, if_pos hpresent, hport, hset, Port.forwarded,
    if_pos ⟨hstate, by rw [hmoving]; exact nofun⟩]
  rfl

/-- At an IDLE port the SET is granted as the event closes (R145). -/
theorem forwardBegun_offers {d : DieId} (hp : s.present d = true) (hmask : h.dieMask.getLsbD d.val = true)
    (hpart : s.chan.partState ∉ [PartState.config, .bringup, .switching, .stopped])
    (hidle : (s.port d).state = .idle) (hslot : (s.port d).slot = none) (hmoving : (s.port d).moving = false) :
    Offers (s.forwardBegun h) d (.set (BitVec.ofNat 4 (settingIndex h)) (h.value.extractLsb' 0 16)) := by
  have hchan := forwardBegun_chan s h
  have hport := forwardBegun_claims hp hmask (.inl hidle) hmoving
  have hruns := woken_runs (c := { s.chan with procedure := some ⟨forwardKind h, h.tag, false⟩ }) hpart
  rw [← hchan] at hruns
  refine ⟨?_, by rw [hport], by rw [hport]; exact hslot, permits_open hruns _, ?_,
    .inr (.inr (.inr (by rw [hport]; exact hidle)))⟩
  · rw [← hp]
    simp only [State.present, hchan, woken_settings]
  · rw [ClaimStays]
    rcases hruns with hr | hr <;> rw [hr]
    · trivial
    · rw [hport]
      exact fun hparked => nomatch hidle.symm.trans hparked

/-- At a BUSY or SETTLING port the claim waits (R145). -/
theorem forwardBegun_waits {d : DieId} (hp : s.present d = true) (hmask : h.dieMask.getLsbD d.val = true)
    (hpart : s.chan.partState ∉ [PartState.config, .bringup, .switching, .stopped])
    (hstate : (s.port d).state = .busy ∨ (s.port d).state = .settling) (hmoving : (s.port d).moving = false) :
    Waits (s.forwardBegun h) d (.set (BitVec.ofNat 4 (settingIndex h)) (h.value.extractLsb' 0 16)) := by
  have hport := forwardBegun_claims hp hmask (.inr hstate) hmoving
  refine ⟨by rw [hport]; exact hstate, by rw [hport], ?_⟩
  rw [forwardBegun_chan]
  exact woken_runs (c := { s.chan with procedure := some ⟨forwardKind h, h.tag, false⟩ }) hpart

end

theorem Withdrawn.moving {p q : Port} (h : Withdrawn p q) : q.moving = p.moving := by
  rcases h with rfl | ⟨-, rfl⟩ <;> rfl

theorem badForward_arrive (s : State) (h : Header) : s.arrive.badForward h = s.badForward h := by
  simp only [State.badForward, arrive_present]

/-- Settles O43: the checks of DIE_SETTING, then the forward with its claims and the waking of a parked part. -/
theorem dieSettingBeginsForward : Obligations.DieSettingBeginsForward := by
  intro s h r hr hl ha refused index value
  cases hr
  have hx := exec_accepted (c := .dieSetting h) rfl rfl ha
  have hserved : served (.dieSetting h) s.arrive = _ := serveDieSetting_eq h s.arrive
  have hreply (st : Status) (hst : served (.dieSetting h) s.arrive = s.arrive.reply h.tag st) : refused st :=
    replied_completes rfl rfl ha hst
  have hforwarding : s.arrive.forwarding = true ↔ ∃ mask index value done tag sup,
      s.chan.procedure = some ⟨.dieSetting mask index value done, tag, sup⟩ := by
    rw [forwarding_iff, arrive_chan]
    rfl
  have hindex : settingIndex h = index := rfl
  simp only [badForward_arrive, badForward_iff, arrive_partState, hforwarding, hindex] at hserved
  split
  next hbad => exact hreply _ (hserved.trans (if_pos hbad))
  next hgood =>
    rw [if_neg hgood] at hserved
    split
    next hstate => exact hreply _ (hserved.trans (if_pos hstate))
    next hstate =>
      rw [if_neg hstate] at hserved
      split
      next hforward => exact hreply _ (hserved.trans (if_pos hforward))
      next hforward =>
        rw [hserved, if_neg hforward, beginForward_eq] at hx
        have hpart : s.arrive.chan.partState ∉ [PartState.config, .bringup, .switching, .stopped] := by
          rw [arrive_partState]
          exact hstate
        have hselected (d : DieId) (hmask : h.dieMask.getLsbD d.val = true) : s.arrive.present d = true := by
          rw [arrive_present, ← Bool.not_eq_false]
          exact fun habsent => hgood (.inr (.inr (.inr ⟨d, hmask, habsent⟩)))
        have hmoves (d : DieId) : (s.arrive.port d).moving = (s.port d).moving := ((arrive_silenced hl).port d).moving
        refine ⟨_, hx, ?_, fun d hmask hidle hslot hmoving => ?_, fun d hmask hbusy hmoving => ?_, ?_⟩
        · have hbegun := ((beginProcedure_silenced hl (forwardKind h) h.tag).wake).internal
          rw [wake_eq] at hbegun
          exact (hbegun.trans (claimForwardNow_internal _)).trans (finish_internal _ _ _)
        · obtain ⟨hstays, hempty⟩ := arrive_stays hl d
          exact finish_grants (forwardBegun_offers (hselected d hmask) hmask hpart (hstays.trans hidle)
            (hempty.trans hslot) ((hmoves d).trans hmoving)) s.arrive _ (.inl hmask)
        · obtain ⟨hstays, -⟩ := arrive_stays hl d
          exact (finish_waits (forwardBegun_waits (hselected d hmask) hmask hpart (by rw [hstays]; exact hbusy)
            ((hmoves d).trans hmoving)) s.arrive _).claim
        · refine wakes_of_woken (pr := some ⟨forwardKind h, h.tag, false⟩) hx (arrive_partState s) ?_ fun d => ?_
          · rw [forwardBegun_chan, arrive_chan]
          · obtain ⟨hstate', hslot'⟩ := forwardBegun_stays s.arrive h d
            obtain ⟨hstays, hempty⟩ := arrive_stays hl d
            exact ⟨hstate'.trans hstays, hslot'.trans hempty⟩

end Sys2Proof.Machine
end

section
/-! SUPPORT. RESTART: its checks and what it keeps (R21, R93, R111, R133, R168). -/

namespace Sys2Proof.Machine

theorem operating_iff (s : State) : s.operating = true ↔ ∃ d, s.present d = true ∧ (s.port d).slot ≠ none := by
  rw [State.operating, Bool.not_eq_true', ← Bool.not_eq_true, portsAll_iff]
  simp only [Option.isNone_iff_eq_none]
  push Not
  rfl

theorem operating_arrive {s : State} (hl : LevelKept s) : s.arrive.operating = s.operating := by
  rw [Bool.eq_iff_iff, operating_iff, operating_iff]
  refine exists_congr fun d => ?_
  rw [arrive_present, (arrive_stays hl d).2]

/-- A restart after an arrival keeps what R133 names and the two restarted timers (R24, R119). -/
theorem arrive_restarted {s : State} (hl : LevelKept s) :
    s.arrive.restarted =
      { State.reset with
        pending := s.pending
        link := { s.link with tags := [] }
        drain := { State.reset.drain with idleTimer := usTimer s.chan.settings.idleDrainTime }
        ports := Vector.ofFn fun d => Port.atReset (if s.present d then some (s.chan.profileA.field 0) else none)
        chan :=
          { State.reset.chan with
            settings := s.chan.settings, profileA := s.chan.profileA, profileB := s.chan.profileB
            parkDelay := usTimer s.chan.settings.parkDelay }
        errs := { (s.logNote { kind := .restart, detail := occupancy s.table }).errs with poison := [] } } := by
  obtain ⟨P, V, hform, -⟩ := arrive_form hl
  rw [hform]
  rfl

/-- Settles O44: RESTART by part state, and in STOPPED by what is in flight. -/
theorem restartReturnsPartToConfig : Obligations.RestartReturnsPartToConfig := by
  intro s h r hr hl ha operating
  cases hr
  have hx := exec_accepted (c := .restart h) rfl rfl ha
  have hserved : served (.restart h) s.arrive = State.serveRestart h s.arrive := rfl
  have hoperating : s.arrive.operating = true ↔ operating := by rw [operating_arrive hl, operating_iff]
  rw [State.serveRestart, arrive_partState] at hserved
  refine ⟨fun hready => ?restarts, fun hstopped hbusy => ?retry, fun hconfig hstopped => ?badState⟩
  case restarts =>
    have hrestarts : served (.restart h) s.arrive = s.arrive.restarted.reply h.tag .ok := by
      rw [hserved]
      rcases hready with hconfig | ⟨hstopped, hidle⟩
      · rw [hconfig]
      · simp only [hstopped, if_neg (mt hoperating.1 hidle)]
    rw [hrestarts, arrive_restarted hl] at hx
    exact ⟨_, hx, rfl⟩
  case retry =>
    refine replied_completes rfl rfl ha (hserved.trans ?_)
    simp only [hstopped, if_pos (hoperating.2 hbusy)]
  case badState =>
    refine replied_completes rfl rfl ha (hserved.trans ?_)
    cases hp : s.chan.partState with
    | config => exact absurd hp hconfig
    | stopped => exact absurd hp hstopped
    | bringup | running | parking | parked | waking | switching => rfl

end Sys2Proof.Machine
end

section
/-! SUPPORT. The link reset (R60, R70, R115, R157). -/

namespace Sys2Proof.Machine

theorem linkEmptied_eq (s : State) :
    s.linkEmptied =
      { s with
        link := { tags := [], answers := [], held := [] }
        ports := Vector.ofFn fun d => { s.port d with readClaims := [] }
        reads := { s.reads with list := [] }
        flushes := []
        chan := { s.chan with procedure := s.chan.procedure.map Procedure.suppress } } := by
  unfold State.linkEmptied
  dsimp only
  rw [forDies_setPort (fun _ p => { p with readClaims := [] })]
  rfl

theorem linkEmptied_port (s : State) (d : DieId) : s.linkEmptied.port d = { s.port d with readClaims := [] } := by
  rw [linkEmptied_eq]
  show (Vector.ofFn _)[d.val] = _
  rw [Vector.getElem_ofFn]

/-- The withdrawn read claims are within what the closing of the event may change. -/
theorem linkEmptied_internal (s : State) :
    Internal
      { s with
        link := { tags := [], answers := [], held := [] }
        reads := { s.reads with list := [] }
        flushes := []
        chan := { s.chan with procedure := s.chan.procedure.map Procedure.suppress } }
      s.linkEmptied := by
  have hports (d : DieId) := linkEmptied_port s d
  rw [linkEmptied_eq] at hports ⊢
  refine { Internal.refl _ with ports := fun d => ?_ }
  rw [hports]
  exact ⟨rfl, rfl, rfl, .inl ⟨rfl, rfl, rfl, rfl⟩⟩

/-- No claim comes into an empty list while an event closes. -/
theorem finish_readClaims_nil {s : State} {d : DieId} (h : (s.port d).readClaims = []) (before : State)
    (touched : DieId → Bool) : ((s.finish before touched).port d).readClaims = [] :=
  List.eq_nil_iff_forall_not_mem.2 fun claim => finish_noClaim (by rw [h]; exact List.not_mem_nil) before touched

/-- Settles O52: the link's state and what it carries go, and no read claim stays. -/
theorem linkResetEmptiesLinkState : Obligations.LinkResetEmptiesLinkState := by
  intro s
  have hx : exec .linkReset s = .next (s.linkEmptied.finish s s.readOf) := rfl
  refine ⟨_, hx, (linkEmptied_internal s).trans (finish_internal _ _ _), fun d => finish_readClaims_nil ?_ s _⟩
  rw [linkEmptied_port]

end Sys2Proof.Machine
end

section
/-! SUPPORT. The QUERYs: what they answer, the lengths and layouts of their payloads, and an answer's header (R155,
R156, R164, R167, R170, R172). -/

namespace Sys2Proof.Machine

/-! ### Codes as places in a list (section 11.4) -/

theorem partState_code_eq (x : PartState) :
    x.code = [PartState.config, .bringup, .running, .parking, .parked, .waking, .switching, .stopped].idxOf x := by
  cases x <;> rfl

theorem phase_code_eq (x : Option Phase) :
    (x.map Phase.code).getD 0 =
      [none, some Phase.quiesce, some .clock, some .wake, some .recal, some .apply].idxOf x := by
  rcases x with _ | x
  · rfl
  · cases x <;> rfl

theorem portState_code_eq (x : PortState) :
    x.code = [PortState.off, .init, .idle, .busy, .settling, .parked, .failed].idxOf x := by
  cases x <;> rfl

theorem condition_code_eq (x : Condition) : x.code = [Condition.stopped, .active, .suspended].idxOf x := by
  cases x <;> rfl

theorem entryState_code_eq (x : EntryState) : x.code = [EntryState.free, .opened, .draining].idxOf x := by
  cases x <;> rfl

theorem logKind_code_eq (x : LogKind) :
    x.code =
      [LogKind.headerCheck, .dataCheck, .writeLost, .readUncorrectable, .readTimeout, .refreshOverrun, .thermalCritical,
        .dieFailed, .poisonFull, .restart].idxOf x + 1 := by
  cases x <;> rfl

theorem status_code_eq (x : Status) :
    x.code =
      [Status.ok, .posted, .retry, .notReady, .range, .malformed, .dataCheck, .tagInUse, .timeout, .halted, .stopped,
        .badSetting, .badState, .failed, .loss].idxOf x := by
  cases x <;> rfl

theorem profileCode_eq (x : ProfileId) : profileCode x = [ProfileId.a, .b].idxOf x := by
  cases x <;> rfl

theorem stopCauseCode_eq (x : Option StopCause) :
    stopCauseCode x = [none, some StopCause.dieFailed, some .poisonFull].idxOf x := by
  rcases x with _ | x
  · rfl
  · cases x <;> rfl

/-! ### Bytes with flags -/

theorem twoFlags_eq (a b : Bool) :
    bitByte a 0 ||| bitByte b 1 = BitVec.ofNat 8 ((if a = true then 1 else 0) + 2 * if b = true then 1 else 0) := by
  cases a <;> cases b <;> rfl

theorem fourFlags_eq (a b c d : Bool) :
    bitByte a 0 ||| bitByte b 1 ||| bitByte c 2 ||| bitByte d 3 =
      BitVec.ofNat 8 ((if a = true then 1 else 0) + (2 * if b = true then 1 else 0) + (4 * if c = true then 1 else 0) +
        8 * if d = true then 1 else 0) := by
  cases a <;> cases b <;> cases c <;> cases d <;> rfl

theorem pressureByte_eq (p : Pressure) (b : Bool) :
    byteOf p.code ||| bitByte b 2 =
      BitVec.ofNat 8 ([Pressure.none, .idle, .active, .urgent].idxOf p + 4 * if b = true then 1 else 0) := by
  cases p <;> cases b <;> rfl

theorem bandByte_eq (x : Band) (a b : Bool) :
    byteOf (bandCode x) ||| bitByte a 2 ||| bitByte b 3 =
      BitVec.ofNat 8 ([Band.cool, .normal, .hot, .critical].idxOf x + (4 * if a = true then 1 else 0) +
        8 * if b = true then 1 else 0) := by
  cases x <;> cases a <;> cases b <;> rfl

theorem stepByte_eq (g : Generation) (x : Option DrainStep) :
    bitByte (g == .second) 0 ||| byteOf (2 * (x.map DrainStep.code).getD 0) =
      BitVec.ofNat 8 ([Generation.first, .second].idxOf g +
        2 * [none, some DrainStep.maskedWrite, some .rmwRead, some .rmwWrite, some .fullWrite].idxOf x) := by
  rcases x with _ | x
  · cases g <;> rfl
  · cases g <;> cases x <;> rfl

theorem toNat_flag (b : Bool) : b.toNat = if b = true then 1 else 0 := by
  cases b <;> rfl

/-! ### Vectors as lists of bytes -/

theorem toList_flatten {α : Type} {n : Nat} (v : Vector α n) (f : α → List Byte) :
    (v.toList.map f).flatten = (List.finRange n).flatMap fun i => f v[i] := by
  have hlist : v.toList = (List.finRange n).map fun i => v[i] := by
    refine List.ext_getElem (by simp) fun i h1 h2 => ?_
    simp
  rw [hlist, List.map_map]
  rfl

theorem flatMap_length {α : Type} (l : List α) {f : α → List Byte} {k : Nat} (h : ∀ x, (f x).length = k) :
    (l.flatMap f).length = k * l.length := by
  rw [List.length_flatMap, funext h, List.map_const', List.sum_replicate, smul_eq_mul, Nat.mul_comm]

/-! ### Lengths and layouts -/

theorem statusBytes_length (s : State) : s.statusBytes.length = 36 := by
  have hdie (d : DieId) : (s.dieStatus d).length = 4 := by
    unfold State.dieStatus
    dsimp only
    split <;> rfl
  simp only [State.statusBytes, List.length_append, hdie]
  rfl

theorem poisonBytes_eq (lines : List (LineAddr × DieId)) :
    poisonBytes lines =
      [byteOf lines.length, 0, 0, 0] ++ lines.flatMap fun x => lineBytes (some x.1) ++ [byteOf x.2.val, 0, 0, 0] := rfl

theorem poisonBytes_length (lines : List (LineAddr × DieId)) : (poisonBytes lines).length = 4 + 8 * lines.length := by
  rw [poisonBytes_eq, List.length_append, flatMap_length (k := 8) _ fun _ => rfl]
  rfl

theorem profileBytes_eq (s : State) (p : ProfileId) :
    s.profileBytes p =
      [byteOf (profileCode p), bitByte (s.chan.profile p).valid 0 ||| bitByte (p == s.chan.active) 1, 0, 0] ++
        (List.finRange 16).flatMap fun n => leBytes16 (s.chan.profile p).fields[n] := by
  rw [State.profileBytes, toList_flatten]

theorem profileBytes_length (s : State) (p : ProfileId) : (s.profileBytes p).length = 36 := by
  rw [profileBytes_eq, List.length_append, flatMap_length (k := 2) _ fun _ => rfl]
  rfl

theorem shadowBytes_eq (s : State) (d : DieId) :
    s.shadowBytes d =
      [byteOf d.val, 0] ++ leBytes16 (BitVec.ofFnLE fun i : Fin 16 => (s.chan.shadow[d][i]).known) ++
        (List.finRange 16).flatMap fun i => leBytes16 (s.chan.shadow[d][i]).value := by
  rw [State.shadowBytes, toList_flatten (s.chan.shadow[d]) fun e => leBytes16 e.value]

theorem shadowBytes_length (s : State) (d : DieId) : (s.shadowBytes d).length = 36 := by
  rw [shadowBytes_eq, List.length_append, List.length_append, flatMap_length (k := 2) _ fun _ => rfl]
  rfl

theorem logBytes_eq (records : List LogRecord) (overwrite : Bool) :
    logBytes records overwrite =
      [byteOf records.length, bitByte overwrite 0, 0, 0] ++ records.flatMap LogRecord.bytes := rfl

theorem logBytes_length (records : List LogRecord) (overwrite : Bool) :
    (logBytes records overwrite).length = 4 + 16 * records.length := by
  rw [logBytes_eq, List.length_append, flatMap_length (k := 16) _ fun _ => rfl]
  rfl

theorem dieStatus_eq (s : State) (d : DieId) :
    s.dieStatus d =
      if d.val < s.chan.settings.dieCount then
        [byteOf ([PortState.off, .init, .idle, .busy, .settling, .parked, .failed].idxOf (s.port d).state),
          byteOf ([Condition.stopped, .active, .suspended].idxOf (s.care d).condition),
          BitVec.ofInt 8 (s.care d).balance,
          BitVec.ofNat 8 ([Band.cool, .normal, .hot, .critical].idxOf (s.care d).band +
            (4 * if (s.care d).recalPending = true then 1 else 0) + 8 * if (s.care d).recalForced = true then 1 else 0)]
      else [0, 0, 0, 0] := by
  rw [State.dieStatus, portState_code_eq, condition_code_eq, bandByte_eq]
  exact if_congr (decide_eq_true_iff) rfl rfl

/-! ### The QUERYs -/

/-- A QUERY is answered at once with what the state shows after the arrival (R155; log 8). -/
theorem query_reports {c : Instr} {s : State} {r : Request} {h : Header} {payload : State → List Byte} {length : Nat}
    (hw : c.wf = true) (hr : requestOf c = some r) (hs : ∀ t, served c t = t.answerQuery h (payload t))
    (hpayload : ∀ (t : State) (bytes : List Byte), payload (t.answerQuery h bytes) = payload t)
    (hlength : (payload s.arrive).length = length) (ha : Accepted s r) :
    ∃ t, exec c s = .next t ∧ Internal (s.answered (Answer.ofQuery h.tag (payload t))) t ∧ (payload t).length =
        length := by
  refine ⟨_, (exec_accepted hw hr ha).trans (congrArg _ (hs _)), ?_, ?_⟩
  · rw [hpayload]
    exact (arrive_internal s).queue _
  · rw [hpayload]
    exact hlength

theorem query_limit {s : State} {code : Byte} {limit : Nat} {h : Header}
    (ha : Accepted s (Request.query code limit h)) :
    h.value.toNat ≤ limit := by
  obtain ⟨-, -, -, hrefusal⟩ := ha
  obtain ⟨-, -, -, -, hvalue⟩ := (setupMalformed_iff h limit).1 (refusal_none hrefusal).1
  exact hvalue

/-- A LOG query's own effect on the Log (R167). -/
theorem queryLog_completes {s : State} {h : Header} (hl : LevelKept s) (ha : Accepted s (Request.query 1 0 h)) :
    CompletesAs (.queryLog h) s
      { s.answered (Answer.ofQuery h.tag (logBytes (s.errs.log.take 4) s.errs.overwrite)) with
        errs := { s.errs with log := s.errs.log.drop 4, overwrite := false } } := by
  have herrs : s.arrive.errs = s.errs := (arrive_internal s).errs
  have hserved : served (.queryLog h) s.arrive =
      (s.arrive.setErrs { s.errs with log := s.errs.log.drop 4, overwrite := false }).queue
        (Answer.ofQuery h.tag (logBytes (s.errs.log.take 4) s.errs.overwrite)) := by
    rw [← herrs]
    rfl
  exact ⟨_, (exec_accepted rfl rfl ha).trans (congrArg _ hserved), (((arrive_silenced hl).setErrs _).queue _).internal⟩

/-! ### The layouts (section 11.3) -/

theorem entryBytes_eq (i : Nat) (e : Entry) :
    entryBytes i e =
      [byteOf i, byteOf ([EntryState.free, .opened, .draining].idxOf e.state),
        BitVec.ofNat 8 ([Generation.first, .second].idxOf e.gen +
          2 * [none, some DrainStep.maskedWrite, some .rmwRead, some .rmwWrite, some .fullWrite].idxOf e.step),
        byteOf e.attempts] ++
        lineBytes e.line ++ ((List.range 8).map fun j => e.mask.extractLsb' (8 * j) 8) ++ leBytes32 e.firstWsn ++
        leBytes32 e.lastWsn ++ leBytes16 (BitVec.ofNat 16 e.merges) ++ [0, 0] := by
  rw [entryBytes, entryState_code_eq, stepByte_eq]
  rfl

theorem logRecord_bytes_eq (r : LogRecord) :
    r.bytes =
      [r.number,
        byteOf ([LogKind.headerCheck, .dataCheck, .writeLost, .readUncorrectable, .readTimeout, .refreshOverrun,
          .thermalCritical, .dieFailed, .poisonFull, .restart].idxOf r.kind + 1),
        byteOf ([PartState.config, .bringup, .running, .parking, .parked, .waking, .switching, .stopped].idxOf r.part),
        BitVec.ofNat 8 ((if r.die.isSome = true then 1 else 0) + (2 * if r.line.isSome = true then 1 else 0) +
          (4 * if r.tag.isSome = true then 1 else 0) + 8 * if r.wsn.isSome = true then 1 else 0),
        byteOf ((r.die.map Fin.val).getD 0), (r.tag.getD 0).setWidth 8] ++
        lineBytes r.line ++ leBytes32 (r.wsn.getD 0) ++ leBytes16 r.detail := by
  rw [LogRecord.bytes, logKind_code_eq, partState_code_eq, fourFlags_eq]

theorem oneFlag_eq (b : Bool) : bitByte b 0 = BitVec.ofNat 8 (if b = true then 1 else 0) := by
  cases b <;> rfl

/-- Settles O51: each QUERY's answer, and each payload's layout. -/
theorem queriesReportState : Obligations.QueriesReportState := by
  intro s h hl answer reports
  refine ⟨?status, ?entry, ?poison, ?profile, ?shadow, ?settings, fun ha => queryLog_completes hl ha, ?logLength,
      ?layouts⟩
  case status => exact query_reports rfl rfl (fun _ => rfl) (fun _ _ => rfl) (statusBytes_length _)
  case entry =>
    intro ha
    refine query_reports rfl rfl (fun t => ?_) (fun _ _ => rfl) rfl ha
    have hvalue : (Fin.ofNat 32 h.value.toNat).val = h.value.toNat :=
      Nat.mod_eq_of_lt (Nat.lt_succ_of_le (query_limit ha))
    exact congrArg (fun i => t.answerQuery h (entryBytes i (t.entry (Fin.ofNat 32 h.value.toNat)))) hvalue
  case poison =>
    refine query_reports (payload := fun t => poisonBytes t.errs.poison) rfl rfl (fun _ => rfl) (fun _ _ => rfl) ?_
    rw [poisonBytes_length, (arrive_internal s).errs]
    rfl
  case profile => exact query_reports rfl rfl (fun _ => rfl) (fun _ _ => rfl) (profileBytes_length _ _)
  case shadow => exact query_reports rfl rfl (fun _ => rfl) (fun _ _ => rfl) (shadowBytes_length _ _)
  case settings => exact query_reports rfl rfl (fun _ => rfl) (fun _ _ => rfl) rfl
  case logLength => rw [logBytes_length, List.length_take]
  case layouts =>
    intro c byte bit half word line partCode die procedure
    refine ⟨?_, fun i e => entryBytes_eq i.val e, fun records overwrite => ?_, fun lines => poisonBytes_eq lines,
      fun p => ?_, fun d => ⟨_, fun i => ?_, shadowBytes_eq s d⟩, rfl, fun a => ?_⟩
    · rw [State.statusBytes, partState_code_eq, phase_code_eq, profileCode_eq, stopCauseCode_eq, twoFlags_eq,
        pressureByte_eq, dieStatus_eq, dieStatus_eq, dieStatus_eq, dieStatus_eq]
      rfl
    · rw [logBytes_eq, oneFlag_eq, funext logRecord_bytes_eq]
      rfl
    · rw [profileBytes_eq, profileCode_eq, twoFlags_eq]
      rfl
    · exact (BitVec.getLsbD_ofFnLE _ _).trans (dif_pos i.isLt)
    · rw [Answer.header, status_code_eq, toNat_flag, toNat_flag]
      rfl

end Sys2Proof.Machine
end

section
/-! SUPPORT. A request message's bytes read back: the fields of the header, the payload of a WRITE, and the codes of
SETUP and QUERY (section 11.1, R169). -/

namespace Sys2Proof

/-! ### Fields joined and cut apart -/

theorem extract_low {m n : Nat} (a : BitVec m) (b : BitVec n) : (a ++ b).extractLsb' 0 n = b := by
  rw [BitVec.extractLsb'_append_eq_of_add_le (Nat.zero_add n).le, BitVec.extractLsb'_eq_self]

theorem extract_high {m n : Nat} (a : BitVec m) (b : BitVec n) : (a ++ b).extractLsb' n m = a := by
  rw [BitVec.extractLsb'_append_eq_of_le (Nat.le_refl n), Nat.sub_self, BitVec.extractLsb'_eq_self]

theorem join16 (w : BitVec 16) : w.extractLsb' 8 8 ++ w.extractLsb' 0 8 = w := BitVec.extractLsb'_append_extractLsb'

/-- One more byte above the lowest k bits. -/
theorem join_low {n : Nat} (w : BitVec n) (k : Nat) :
    w.extractLsb' k 8 ++ w.extractLsb' 0 k = w.extractLsb' 0 (8 + k) :=
  BitVec.extractLsb'_append_extractLsb'_eq_extractLsb' (Nat.zero_add k).symm

theorem join_byte {n : Nat} (w : BitVec n) {k : Nat} {low : BitVec k} (h : low = w.extractLsb' 0 k) :
    w.extractLsb' k 8 ++ low = w.extractLsb' 0 (8 + k) := by rw [h, join_low]

theorem join32 (w : BitVec 32) :
    w.extractLsb' 24 8 ++ (w.extractLsb' 16 8 ++ (w.extractLsb' 8 8 ++ w.extractLsb' 0 8)) = w :=
  (join_byte w (join_byte w (join_low w 8))).trans BitVec.extractLsb'_eq_self

theorem join64 (w : BitVec 64) :
    w.extractLsb' 56 8 ++ (w.extractLsb' 48 8 ++ (w.extractLsb' 40 8 ++ (w.extractLsb' 32 8 ++
      (w.extractLsb' 24 8 ++ (w.extractLsb' 16 8 ++ (w.extractLsb' 8 8 ++ w.extractLsb' 0 8)))))) = w :=
  (join_byte w (join_byte w (join_byte w (join_byte w (join_byte w (join_byte w (join_low w 8))))))).trans
    BitVec.extractLsb'_eq_self

/-! ### Header and payload -/

/-- The command that a kind code, byte 7, a header and the bytes after it spell. -/
def spelled (kind : BitVec 3) (byte7 : Byte) (h : Header) (rest : List Byte) : Option Instr :=
  if kind = kindWrite then (readPayload rest).map (.write byte7 h ·)
  else if rest ≠ [] then none
  else if kind = kindRead then some (.read byte7 h)
  else if kind = kindFlush then some (.flush byte7 h)
  else if kind = kindSetup then some (setupOfCode byte7 h)
  else if kind = kindQuery then some (queryOfCode byte7 h)
  else some (.undefinedKind kind byte7 h)

/-- The beat fields of byte 6. -/
theorem beatByte_fields (rsvd : BitVec 3) (pairwise half : Bool) (beat : BitVec 3) :
    let b : BitVec 8 := rsvd ++ (BitVec.ofBool pairwise ++ (BitVec.ofBool half ++ beat))
    b.extractLsb' 0 3 = beat ∧ b.getLsbD 3 = half ∧ b.getLsbD 4 = pairwise ∧ b.extractLsb' 5 3 = rsvd := by
  refine ⟨?_, ?_, ?_, extract_high _ _⟩
  · rw [BitVec.extractLsb'_append_eq_of_add_le (by decide), BitVec.extractLsb'_append_eq_of_add_le (by decide),
      extract_low]
  · rw [BitVec.getLsbD_append, if_pos (by decide), BitVec.getLsbD_append, if_pos (by decide), BitVec.getLsbD_append,
      if_neg (by decide)]
    exact BitVec.getLsbD_ofBool half 0
  · rw [BitVec.getLsbD_append, if_pos (by decide), BitVec.getLsbD_append, if_neg (by decide)]
    exact BitVec.getLsbD_ofBool pairwise 0

/-- A header reads back from its bytes (section 11.1). -/
theorem parseMessage_headerBytes (kind : BitVec 3) (byte7 : Byte) (h : Header) (rest : List Byte) :
    parseMessage (headerBytes kind byte7 h ++ [h.check] ++ rest) = spelled kind byte7 h rest := by
  obtain ⟨hbeat, hhalf, hpairwise, hbeatRsvd⟩ := beatByte_fields h.beatRsvd h.pairwise h.half h.startBeat
  simp only [headerBytes, leBytes32, leBytes16, List.cons_append, List.nil_append, parseMessage, join32, join16,
    extract_low, extract_high, hbeat, hhalf, hpairwise, hbeatRsvd]
  rfl

/-- A WRITE's payload reads back from its 74 bytes (section 11.1). -/
theorem readPayload_payloadBytes (p : WritePayload) :
    readPayload (maskBytes p.mask ++ p.data.toList ++ [p.check.extractLsb' 8 8, p.check.extractLsb' 0 8]) = some p := by
  have hlength : (p.data.toList ++ [p.check.extractLsb' 8 8, p.check.extractLsb' 0 8]).length = 66 := by
    rw [List.length_append, Vector.length_toList]
    rfl
  rw [List.append_assoc]
  simp only [maskBytes, List.cons_append, List.nil_append, readPayload, dif_pos hlength, join64]
  have hdata : (Vector.ofFn fun i : Fin 64 =>
      (p.data.toList ++ [p.check.extractLsb' 8 8, p.check.extractLsb' 0 8])[i.val]'(by omega)) = p.data := by
    ext i hi
    simp
  have hhigh : (p.data.toList ++ [p.check.extractLsb' 8 8, p.check.extractLsb' 0 8])[64]'(by omega) =
      p.check.extractLsb' 8 8 := by simp
  have hlow : (p.data.toList ++ [p.check.extractLsb' 8 8, p.check.extractLsb' 0 8])[65]'(by omega) =
      p.check.extractLsb' 0 8 := by simp
  rw [hdata, hhigh, hlow, join16]

/-! ### Codes -/

theorem setupOfCode_field (p : ProfileId) (n : Fin 16) (h : Header) :
    setupOfCode (fieldCode p n) h = .profileFieldWrite p n h := by
  cases p <;> fin_cases n <;> rfl

theorem setupOfCode_undefined {code : Byte} (hcode : settingCodeDefined code = false) (h : Header) :
    setupOfCode code h = .undefinedSettingCode code h := by
  have hnone : (code.toNat = 0 ∨ 21 < code.toNat) ∧ ¬ (0x20 ≤ code.toNat ∧ code.toNat ≤ 0x2F) ∧
      ¬ (0x40 ≤ code.toNat ∧ code.toNat ≤ 0x4F) := by
    simp only [settingCodeDefined, Bool.or_eq_false_iff, Bool.and_eq_false_iff, decide_eq_false_iff_not] at hcode
    omega
  unfold setupOfCode
  split
  case h_22 => rw [if_neg hnone.2.1, if_neg hnone.2.2]
  all_goals omega

theorem queryOfCode_undefined {code : Byte} (hcode : queryCodeDefined code = false) (h : Header) :
    queryOfCode code h = .undefinedQueryCode code h := by
  have hnone : ¬ code.toNat ≤ 6 := of_decide_eq_false hcode
  unfold queryOfCode
  split
  case h_8 => rfl
  all_goals omega

theorem spelled_undefinedKind {kind : BitVec 3} (hkind : kindCodeDefined kind = false) (byte7 : Byte) (h : Header) :
    spelled kind byte7 h [] = some (.undefinedKind kind byte7 h) := by
  have hnone : ¬ kind.toNat ≤ 4 := of_decide_eq_false hkind
  have hother (k : BitVec 3) (hk : k.toNat ≤ 4) : kind ≠ k := fun heq => hnone (heq ▸ hk)
  rw [spelled, if_neg (hother kindWrite (by decide)), if_neg fun h => h rfl, if_neg (hother kindRead (by decide)),
    if_neg (hother kindFlush (by decide)), if_neg (hother kindSetup (by decide)), if_neg (hother kindQuery (by decide))]

/-- What a well-formed message command puts on the link spells that command (section 11.1). -/
theorem spelled_message {c : Instr} {kind : BitVec 3} {byte7 : Byte} {h : Header} (hw : c.wf = true)
    (hm : c.message? = some (kind, byte7, h)) : spelled kind byte7 h c.payloadBytes = some c := by
  cases c <;> cases hm
  case write.refl p => exact congrArg (Option.map (Instr.write byte7 h)) (readPayload_payloadBytes p)
  case undefinedKind.refl => exact spelled_undefinedKind (by simpa only [Instr.wf, Bool.not_eq_true'] using hw) byte7 h
  case profileFieldWrite.refl p n => exact congrArg some (setupOfCode_field p n h)
  case undefinedSettingCode.refl =>
    exact congrArg some (setupOfCode_undefined (by simpa only [Instr.wf, Bool.not_eq_true'] using hw) h)
  case undefinedQueryCode.refl =>
    exact congrArg some (queryOfCode_undefined (by simpa only [Instr.wf, Bool.not_eq_true'] using hw) h)
  all_goals rfl

namespace Machine

/-- Settles O6: header, payload and code of each command read back. -/
theorem requestBytesRoundTrip : Obligations.RequestBytesRoundTrip := by
  intro c bytes hw hbytes
  obtain ⟨⟨kind, byte7, h⟩, hm, rfl⟩ := Option.map_eq_some_iff.1 hbytes
  rw [parseMessage_headerBytes, spelled_message hw hm]

end Machine

end Sys2Proof
end

section
/-! SUPPORT. What every command does with the pressure level and the hysteresis flag (R22, R23, R136). -/

namespace Sys2Proof.Machine

/-! ### The flag from one state to another -/

/-- The flag, the occupancy and the two marks stay. -/
structure FlagKept (s t : State) : Prop where
  flag : t.drain.hysteresis = s.drain.hysteresis
  occupied : occupancy t.table = occupancy s.table
  high : t.chan.settings.highMark = s.chan.settings.highMark
  low : t.chan.settings.lowMark = s.chan.settings.lowMark

/-- The marks stay or are in order; the flag stays with the occupancy and the marks, or is tested, or is cleared with
the table (R23, R136). -/
structure FlagStep (s t : State) : Prop where
  marks : s.chan.settings.lowMark < s.chan.settings.highMark → t.chan.settings.lowMark < t.chan.settings.highMark
  flag : FlagKept s t ∨
    t.drain.hysteresis = hysteresisAfter t.chan.settings (occupancy t.table) s.drain.hysteresis ∨
    (occupancy t.table = 0 ∧ t.drain.hysteresis = false)

theorem hysteresisAfter_between {c : Settings} {occ : Nat} (hlow : c.lowMark < occ) (hhigh : occ < c.highMark)
    (flag : Bool) : hysteresisAfter c occ flag = flag := by
  rw [hysteresisAfter, if_neg (Nat.not_le.2 hhigh), if_neg (Nat.not_le.2 hlow)]

theorem hysteresisAfter_above {c : Settings} {occ : Nat} (h : c.highMark ≤ occ) (flag : Bool) :
    hysteresisAfter c occ flag = true := if_pos h

theorem hysteresisAfter_below {c : Settings} {occ : Nat} (hmarks : c.lowMark < c.highMark) (h : occ ≤ c.lowMark)
    (flag : Bool) : hysteresisAfter c occ flag = false := by
  rw [hysteresisAfter, if_neg (Nat.not_le.2 (Nat.lt_of_le_of_lt h hmarks)), if_pos h]

theorem FlagKept.refl (s : State) : FlagKept s s := ⟨rfl, rfl, rfl, rfl⟩

theorem FlagKept.trans {s t u : State} (h : FlagKept s t) (k : FlagKept t u) : FlagKept s u :=
  ⟨k.flag.trans h.flag, k.occupied.trans h.occupied, k.high.trans h.high, k.low.trans h.low⟩

theorem Touches.flagKept {bs : List Block} {s t : State} (h : Touches bs s t)
    (hb : ∀ b ∈ [Block.table, .drain, .settings], b ∉ bs) : FlagKept s t :=
  ⟨by rw [h.drain (hb .drain (by decide))], by rw [h.table (hb .table (by decide))],
    by rw [(h.settings (hb .settings (by decide))).1], by rw [(h.settings (hb .settings (by decide))).1]⟩

theorem relevel_flagKept (s : State) : FlagKept s s.relevel :=
  have k := relevel_internal s
  ⟨by rw [relevel_drain], k.occupancy, by rw [k.chan], by rw [k.chan]⟩

namespace FlagStep

variable {s t u : State}

theorem kept (h : FlagKept s t) : FlagStep s t := ⟨fun k => by rwa [h.low, h.high], .inl h⟩

theorem after (h : FlagKept s t) (k : FlagStep t u) : FlagStep s u := by
  obtain ⟨hmarks, hkept | htested | hcleared⟩ := k
  · exact kept (h.trans hkept)
  · exact ⟨fun hs => hmarks (by rwa [h.low, h.high]), .inr (.inl (by rw [htested, h.flag]))⟩
  · exact ⟨fun hs => hmarks (by rwa [h.low, h.high]), .inr (.inr hcleared)⟩

theorem between (h : FlagStep s t) (hlow : t.chan.settings.lowMark < occupancy t.table)
    (hhigh : occupancy t.table < t.chan.settings.highMark) : t.drain.hysteresis = s.drain.hysteresis := by
  obtain ⟨-, hkept | htested | ⟨hempty, -⟩⟩ := h
  · exact hkept.flag
  · rw [htested, hysteresisAfter_between hlow hhigh]
  · omega

theorem follows (h : FlagStep s t) (k : HysteresisFollows s) : HysteresisFollows t := by
  obtain ⟨hmarks, habove, hbelow⟩ := k
  have hm := h.marks hmarks
  refine ⟨hm, ?_⟩
  obtain ⟨-, hkept | htested | ⟨hempty, hflag⟩⟩ := h
  · rw [hkept.occupied, hkept.high, hkept.low, hkept.flag]
    exact ⟨habove, hbelow⟩
  · rw [htested]
    exact ⟨fun hocc => hysteresisAfter_above hocc _, fun hocc => hysteresisAfter_below hm hocc _⟩
  · rw [hempty, hflag]
    exact ⟨fun hocc => by omega, fun _ => rfl⟩

end FlagStep

/-! ### The level and the flag together -/

/-- A command's part keeps the level and treats the flag as R23 has it. -/
structure LevelStep (s t : State) : Prop where
  level : LevelKept s → LevelKept t
  flag : FlagStep s t

namespace LevelStep

variable {s t u : State}

theorem still {bs : List Block} (h : Touches bs s t) (hb : ∀ b ∈ [Block.table, .drain, .flushes, .settings], b ∉ bs) :
    LevelStep s t := by
  have hdrain := h.drain (hb .drain (by decide))
  refine ⟨fun k => ?_, .kept (h.flagKept fun b hm => hb b ?_)⟩
  · unfold LevelKept State.level at k ⊢
    rw [hdrain, h.table (hb .table (by decide)), h.flushes (hb .flushes (by decide))]
    exact k
  · revert b
    decide

/-- Settings other than the marks may change, but not the marks. -/
theorem setChan (s : State) (c : Channel) (hhigh : c.settings.highMark = s.chan.settings.highMark)
    (hlow : c.settings.lowMark = s.chan.settings.lowMark) : LevelStep s (s.setChan c) :=
  ⟨fun k => k, .kept ⟨rfl, rfl, hhigh, hlow⟩⟩

theorem andStill {bs : List Block} (h : LevelStep s t) (k : Touches bs t u)
    (hb : ∀ b ∈ [Block.table, .drain, .flushes, .settings], b ∉ bs) : LevelStep s u := by
  have hu := still k hb
  have hdrain := k.drain (hb .drain (by decide))
  have htable := k.table (hb .table (by decide))
  have hset := (k.settings (hb .settings (by decide))).1
  refine ⟨fun hs => hu.level (h.level hs), ⟨fun hs => by rw [hset]; exact h.flag.marks hs, ?_⟩⟩
  rw [hdrain, htable, hset]
  exact h.flag.flag.imp (fun f => ⟨by rw [hdrain, f.flag], by rw [htable, f.occupied], by rw [hset, f.high],
    by rw [hset, f.low]⟩) id

theorem queue (h : LevelStep s t) (a : Answer) : LevelStep s (t.queue a) := h.andStill (queue_touches t a) (by decide)

/-- A closed event tests the flag and takes the level (R22, R23). -/
theorem closed (before : State) (touched : DieId → Bool) (hflag : u.drain.hysteresis = s.drain.hysteresis)
    (hmarks : s.chan.settings.lowMark < s.chan.settings.highMark →
      u.chan.settings.lowMark < u.chan.settings.highMark) : LevelStep s (u.finish before touched) := by
  have k := finish_internal u before touched
  refine ⟨fun _ => finish_level u before touched, ⟨fun hs => by rw [k.chan]; exact hmarks hs, .inr (.inl ?_)⟩⟩
  rw [finish_hysteresis, k.occupancy, k.chan, hflag]

theorem closes {bs : List Block} (h : Touches bs s u) (hb : ∀ b ∈ [Block.drain, .settings], b ∉ bs) (before : State)
    (touched : DieId → Bool) : LevelStep s (u.finish before touched) :=
  closed before touched (by rw [h.drain (hb .drain (by decide))])
    (fun hs => by rwa [(h.settings (hb .settings (by decide))).1])

theorem relevels (h : FlagKept s u) : LevelStep s u.relevel :=
  ⟨fun _ => relevel_level u, .kept (h.trans (relevel_flagKept u))⟩

end LevelStep

theorem reset_occupancy : occupancy State.reset.table = 0 := by decide

theorem reset_marks : State.reset.chan.settings.lowMark < State.reset.chan.settings.highMark := by decide

/-- A reset table with its flags cleared is at level NONE. -/
theorem reset_level {t : State} (htable : t.table = State.reset.table) (hflushes : t.flushes = [])
    (hflag : t.drain.hysteresis = false) (hpressure : t.drain.pressure = .none) : LevelKept t := by
  rw [LevelKept, State.level, htable, reset_occupancy, hflushes, hflag, hpressure]
  simp [levelOf, Config.tableEntries]

theorem arrive_levelStep (s : State) : LevelStep s s.arrive := .relevels ⟨rfl, rfl, rfl, rfl⟩

theorem headerFault_levelStep (s : State) : LevelStep s s.headerFault :=
  .still (noteAndLatch_touches s _ _) (by decide)

theorem dataFault_levelStep (s : State) (r : Request) : LevelStep s (s.dataFault r) :=
  .still (noteAndLatch_touches s _ _) (by decide)

/-! ### Services -/

theorem setProfile_levelStep (s : State) (p : ProfileId) (v : Profile) :
    LevelStep s (s.setChan (s.chan.setProfile p v)) := .setChan s _ (by cases p <;> rfl) (by cases p <;> rfl)

theorem accept_levelStep {bad : State → Nat → Bool} {configOnly : Bool} {accept : Nat → State → State}
    (k : Setting bad configOnly accept) {v : Nat} {s : State} (good : bad s v = false) : LevelStep s (accept v s) := by
  have hset (c : Settings) (hhigh : c.highMark = s.chan.settings.highMark)
      (hlow : c.lowMark = s.chan.settings.lowMark) :
      LevelStep s (s.setSettings c) := .setChan s _ hhigh hlow
  cases k with
  | highMark =>
    have hgood := (badHighMark_true s v).not.1 (by simp [good])
    exact .closed s _ rfl fun _ => by show s.chan.settings.lowMark < v; omega
  | lowMark =>
    have hgood := (badLowMark_true s v).not.1 (by simp [good])
    exact .closed s _ rfl fun _ => by show v < s.chan.settings.highMark; omega
  | pullIn => exact .closed s _ rfl fun hs => hs
  | idleDrainTime => exact .relevels ⟨rfl, rfl, rfl, rfl⟩
  | parkDelay =>
    exact (hset { s.chan.settings with parkDelay := v } rfl rfl).andStill (setChan_touches _ _ (by rfl)) (by decide)
  | dieCount =>
    exact (hset { s.chan.settings with dieCount := v } rfl rfl).andStill (setClocks_touches _ _) (by decide)
  | granularity =>
    exact .setChan s _ ((congrArg Settings.highMark (setProfile_settings _ _ _)).trans (by rfl))
      ((congrArg Settings.lowMark (setProfile_settings _ _ _)).trans (by rfl))
  | tempPoll =>
    exact (hset { s.chan.settings with tempPoll := v } rfl rfl).andStill (setMaint_touches _ _) (by decide)
  | checkPolicy => exact hset _ rfl rfl
  | readWaitLimit => exact hset _ rfl rfl
  | wakeMode => exact hset _ rfl rfl
  | maskedWrites => exact hset _ rfl rfl
  | dieLinesLog2 => exact hset _ rfl rfl
  | drainRetry => exact hset _ rfl rfl
  | dieOpLimit => exact hset _ rfl rfl

theorem writeField_levelStep (s : State) (p : ProfileId) (n : Fin 16) (v : BitVec 16) :
    LevelStep s (s.writeField p n v) := by
  unfold State.writeField
  dsimp only
  split
  · exact (setProfile_levelStep s p _).andStill (setClocks_touches _ _) (by decide)
  · exact setProfile_levelStep s p _

theorem restarted_levelStep (s : State) : LevelStep s s.restarted :=
  ⟨fun _ => reset_level rfl rfl rfl rfl, ⟨fun hs => hs, .inr (.inr ⟨reset_occupancy, rfl⟩)⟩⟩

theorem service_levelStep {s t : State} (h : Service s t) : LevelStep s t := by
  cases h with
  | answer a => exact .still (queue_touches s a) (by decide)
  | read h =>
    have hjoin : Touches [.reads, .ports, .link, .chan] s (s.joinReads (s.readRecord h)) :=
      (((setReads_touches s _).mono (by decide)).andThen (setPort_touches _ _ _) (by decide)).andThen
        (joinTag_touches _ _) (by decide)
    exact .closes (hjoin.andThen (wake_touches _) (by decide)) (by decide) s _
  | writeRests a =>
    have hqueue : Touches [.link, .chan] s (s.queue a) := (queue_touches s a).mono (by decide)
    exact .closes (hqueue.andThen (wake_touches _) (by decide)) (by decide) s _
  | writePosts a line m data i e =>
    have hpost :
        Touches [.table, .errs, .link, .chan] s (s.post i e line m) := (post_touches s i e line m).mono (by decide)
    exact .closes ((hpost.andThen (queue_touches _ a) (by decide)).andThen (wake_touches _) (by decide)) (by decide) s _
  | flush tag =>
    have hflush : Touches [.flushes, .link] s
        (s.setFlushes (s.flushes ++ [{ tag := tag, boundary := s.table.nextWsn, loss := false }])) :=
      (setFlushes_touches s _).mono (by decide)
    exact .closes (hflush.andThen (joinTag_touches _ tag) (by decide)) (by decide) s _
  | setting a v setting good => exact (accept_levelStep setting good).queue a
  | field a p n v => exact (writeField_levelStep s p n v).queue a
  | commit a p => exact (setProfile_levelStep s p _).queue a
  | start tag =>
    have hbegun : Touches [.chan, .link, .ports] s ((s.beginProcedure (.start 0) tag).setPartState .bringup none) :=
      ((beginProcedure_touches s _ tag).mono (by decide)).andThen (setPartState_touches _ _ _) (by decide)
    exact .closes (hbegun.andThen (claimAll_touches _ fun _ => .dieReset) (by decide)) (by decide) s _
  | rateSwitch target tag =>
    have hbegun : Touches [.chan, .link, .ports] s
        ((s.beginProcedure (.rateSwitch target) tag).setPartState .switching (some .quiesce)) :=
      ((beginProcedure_touches s _ tag).mono (by decide)).andThen (setPartState_touches _ _ _) (by decide)
    unfold State.beginSwitch
    refine LevelStep.closes (bs := [.chan, .link, .ports]) ?_ (by decide) s _
    split
    · exact hbegun.andThen (enterClock_touches _) (by decide)
    · exact hbegun
  | clearErrors a mask =>
    exact LevelStep.queue (.still (setErrs_touches s _) (by decide)) a
  | restart a => exact (restarted_levelStep s).queue a
  | forward h =>
    unfold State.beginForward
    have hbegun (kind : ProcedureKind) : Touches [.chan, .link, .ports] s (s.beginProcedure kind h.tag) :=
      (beginProcedure_touches s kind h.tag).mono (by decide)
    exact .closes (((hbegun _).andThen (wake_touches _) (by decide)).andThen (claimForwardNow_touches _) (by decide))
      (by decide) s _
  | log a => exact LevelStep.queue (.still (setErrs_touches s _) (by decide)) a

theorem eventStep_levelStep {s t : State} (h : EventStep s t) : LevelStep s t := by
  cases h with
  | rests => exact .still (.refl [] s) (by decide)
  | powersOn =>
    exact ⟨fun _ => reset_level rfl rfl rfl rfl, ⟨fun _ => reset_marks, .inr (.inr ⟨reset_occupancy, rfl⟩)⟩⟩
  | delaysParking => exact .still (setChan_touches s _ (by rfl)) (by decide)
  | idles => exact .relevels ⟨rfl, rfl, rfl, rfl⟩
  | closes event => exact .closes (event_touches event) (by decide) s _

/-! ### Commands and steps -/

theorem levelKept_execKeeps : ExecKeeps LevelKept where
  held _ _ h := h
  sent _ h := h
  headerFault s h := (headerFault_levelStep s).level h
  arrive s h := (arrive_levelStep s).level h
  dataFault s r h := (dataFault_levelStep s r).level h
  service _ _ _ hs h := (service_levelStep hs).level h
  event _ _ hs h := (eventStep_levelStep hs).level h

theorem hysteresisFollows_execKeeps : ExecKeeps HysteresisFollows where
  held _ _ h := h
  sent _ h := h
  headerFault s h := (headerFault_levelStep s).flag.follows h
  arrive s h := (arrive_levelStep s).flag.follows h
  dataFault s r h := (dataFault_levelStep s r).flag.follows h
  service _ _ _ hs h := (service_levelStep hs).flag.follows h
  event _ _ hs h := (eventStep_levelStep hs).flag.follows h

theorem arrive_flagKept (s : State) : FlagKept s s.arrive :=
  (⟨rfl, rfl, rfl, rfl⟩ : FlagKept s s.restartIdleDrain.restartParkDelay).trans (relevel_flagKept _)

/-- The Intake tests the flag once at most. -/
theorem intake_flagStep {c : Instr} {r : Request} (hr : requestOf c = some r) (s : State) :
    FlagStep s (s.intake r (served c)) := by
  cases hok : r.headerOk
  · rw [intake_fault _ hok]
    exact (headerFault_levelStep s).flag
  · refine .after (arrive_flagKept s) ?_
    cases hst : s.refusal r with
    | none =>
      rw [intake_served _ hok hst]
      exact (service_levelStep (served_service hr ((refusal_arrive s r).trans hst))).flag
    | some st =>
      by_cases hd : st = .dataCheck
      · rw [intake_dataFault _ hok (hst.trans (congrArg some hd))]
        exact ((dataFault_levelStep _ r).queue _).flag
      · rw [intake_refused _ hok hst hd]
        exact (service_levelStep (.answer _)).flag

theorem takeHeld_flagStep (c : Instr) (s : State) : FlagStep s (takeHeld c s) := by
  cases hr : requestOf c with
  | some r =>
    rw [takeHeld_eq hr]
    exact intake_flagStep hr s
  | none =>
    have hs : takeHeld c s = s := by cases c <;> cases hr <;> rfl
    rw [hs]
    exact .kept (.refl s)

/-- One held message at most is taken. -/
theorem answerSent_flagStep {s : State} (h : s.link.held.length ≤ 1) : FlagStep s s.answerSent := by
  have hsent : FlagKept s (s.setLink { s.link with answers := s.link.answers.tail }) := ⟨rfl, rfl, rfl, rfl⟩
  unfold State.answerSent
  match hl : s.link.held, h with
  | [], _ => exact .kept hsent
  | [c], _ =>
    unfold takeAllHeld
    split
    · have htaken : FlagKept s ((s.setLink { s.link with answers := s.link.answers.tail }).setLink
          { s.link with answers := s.link.answers.tail, held := [] }) := ⟨rfl, rfl, rfl, rfl⟩
      exact .after htaken (takeHeld_flagStep c _)
    · exact .kept hsent

/-- A command tests the flag once at most, unless it takes several held messages. -/
theorem exec_flagStep {c : Instr} {s t : State} (hx : exec c s = .next t)
    (hheld : c = .answerSent → s.link.held.length ≤ 1) : FlagStep s t := by
  cases hr : requestOf c with
  | some r =>
    rw [exec_message (wf_of_next hx) hr] at hx
    obtain rfl := Host.Outcome.next.inj hx
    unfold State.deliver
    split
    · exact intake_flagStep hr s
    · exact .kept ⟨rfl, rfl, rfl, rfl⟩
  | none =>
    by_cases ha : c = .answerSent
    · have hlen := hheld ha
      subst ha
      have hx : execAnswerSent s = .next t := hx
      unfold execAnswerSent at hx
      split at hx <;> obtain rfl := Host.Outcome.next.inj hx
      · exact .kept (.refl s)
      · exact answerSent_flagStep hlen
    · exact (eventStep_levelStep (event_step hr ha hx)).flag

theorem step_flagStep {s t : State} (hx : step s = .next t)
    (hheld : s.pending.head? = some .answerSent → s.link.held.length ≤ 1) : FlagStep s t := by
  unfold step at hx
  split at hx
  · rw [← Host.Outcome.next.inj hx]
    exact .kept (.refl s)
  next c rest hp =>
    exact .after (⟨rfl, rfl, rfl, rfl⟩ : FlagKept s { s with pending := rest })
      (exec_flagStep hx fun hc => hheld (by rw [hp, hc]; rfl))

end Sys2Proof.Machine
end

section
/-! SUPPORT. What an event's own effect may change without disordering the Drain Scheduler's claims: a part at rest, a
die that stays as it was, and an effect that leaves entries, drain claims and drains in slots alone (R25 to R28,
R34). -/

namespace Sys2Proof.Machine

/-! ### A part at rest -/

/-- The part is in CONFIG or BRINGUP, where the table is empty. -/
def Resting (s : State) : Prop := s.chan.partState = .config ∨ s.chan.partState = .bringup

/-- No entry is in use, no drain claim pending and no drain in a slot. -/
structure Undrained (s : State) : Prop where
  entries : ∀ i, (s.entry i).state = .free
  claims : ∀ d, (s.port d).drainClaim = none
  slots : ∀ d, ∀ x ∈ (s.port d).slot, ∀ i, x.claimant ≠ .drain i

theorem not_eligible_of_free {s : State} {i : Fin 32} (h : (s.entry i).state = .free) : s.eligible i ≠ true := by
  intro he
  obtain ⟨hopened, -⟩ := (eligible_iff s i).1 he
  rw [h] at hopened
  cases hopened

theorem Undrained.placed {s : State} (h : Undrained s) : DrainsPlaced s := by
  have hdraining (i : Fin 32) : (s.entry i).state ≠ .draining := by rw [h.entries i]; decide
  exact ⟨fun i _ hi => absurd hi (hdraining i), fun _ i hi => absurd hi (hdraining i),
    fun d x hx i hxi => absurd hxi (h.slots d x hx i), fun d c hc => (nomatch (h.claims d).symm.trans hc),
    fun _ => h.entries⟩

theorem Undrained.right {s : State} (h : Undrained s) (d : DieId) : SelectionRight s d :=
  ⟨fun _ hc => (nomatch (h.claims d).symm.trans hc), fun i _ _ ho => absurd ho.1 (not_eligible_of_free (h.entries i))⟩

theorem Undrained.drainsClaimed {s : State} (h : Undrained s) : DrainsClaimed s :=
  (drainsClaimed_iff s).2 ⟨h.placed, h.right⟩

theorem DrainsClaimed.undrained {s : State} (h : DrainsClaimed s) (hr : Resting s) : Undrained s := by
  obtain ⟨hplaced, hright⟩ := (drainsClaimed_iff s).1 h
  have hfree := hplaced.rest hr
  have hdraining (i : Fin 32) : (s.entry i).state ≠ .draining := by rw [hfree i]; decide
  refine ⟨hfree, fun d => ?_, fun d x hx i hxi => hdraining i (hplaced.slots d x hx i hxi).2.1⟩
  cases hc : (s.port d).drainClaim with
  | none => rfl
  | some c =>
    cases hk : c.continuation with
    | true => exact absurd (hplaced.continues d c hc hk).2 (hdraining _)
    | false => exact absurd ((hright d).claim c hc hk).2.1 (not_eligible_of_free (hfree _))

/-! ### A die that stays as it was -/

/-- No listed read is of the line. -/
def Unheld (s : State) (line : LineAddr) : Prop := ∀ r ∈ s.reads.list, r.line ≠ line

/-- Entry i is in use and lies on die d. -/
def LiveAt (s : State) (d : DieId) (i : Fin 32) : Prop := (s.entry i).state ≠ .free ∧ s.entryDie i = some d

theorem dieIndex_of_count {s t : State} (h : t.chan.settings.dieCount = s.chan.settings.dieCount) :
    t.dieIndex = s.dieIndex := by
  funext line
  simp only [State.dieIndex, h]

theorem entryDie_some {s : State} {i : Fin 32} {d : DieId} :
    s.entryDie i = some d ↔ ∃ line, (s.entry i).line = some line ∧ s.dieIndex line = d := Option.map_eq_some_iff

/-- Nothing that a die's selection reads has changed, nor the die's drain claim. -/
structure DieSame (s u : State) (d : DieId) : Prop where
  part : u.chan.partState = s.chan.partState
  count : u.chan.settings.dieCount = s.chan.settings.dieCount
  pressure : u.drain.pressure = s.drain.pressure
  claim : (u.port d).drainClaim = (s.port d).drainClaim
  state : (u.port d).state = (s.port d).state
  held : ∀ line, s.dieIndex line = d → (Unheld u line ↔ Unheld s line)
  entries : ∀ i, LiveAt s d i ∨ LiveAt u d i → u.entry i = s.entry i

namespace DieSame

variable {s u : State} {d : DieId}

theorem symm (h : DieSame s u d) : DieSame u s d := by
  refine ⟨h.part.symm, h.count.symm, h.pressure.symm, h.claim.symm, h.state.symm, fun line hl => (h.held line ?_).symm,
    fun i hi => (h.entries i hi.symm).symm⟩
  rw [← dieIndex_of_count h.count, hl]

theorem entryDie (h : DieSame s u d) {i : Fin 32} (hi : LiveAt s d i) : u.entryDie i = some d := by
  rw [State.entryDie, h.entries i (.inl hi), dieIndex_of_count h.count]
  exact hi.2

theorem live (h : DieSame s u d) {i : Fin 32} (hi : LiveAt s d i) : LiveAt u d i :=
  ⟨by rw [h.entries i (.inl hi)]; exact hi.1, h.entryDie hi⟩

theorem drains (h : DieSame s u d) (k : Drains s d) : Drains u d := by
  obtain ⟨i, hi, hd⟩ := k
  have hlive : LiveAt s d i := ⟨by rw [hi]; decide, hd⟩
  exact ⟨i, by rw [h.entries i (.inl hlive)]; exact hi, h.entryDie hlive⟩

theorem eligible (h : DieSame s u d) {i : Fin 32} (hd : s.entryDie i = some d) (he : s.eligible i = true) :
    LiveAt s d i ∧ u.eligible i = true := by
  obtain ⟨hopened, hfirst, line, hline, hheld, hport, hpart⟩ := (eligible_iff s i).1 he
  have hlive : LiveAt s d i := ⟨by rw [hopened]; decide, hd⟩
  have hdie : s.dieIndex line = d := by
    obtain ⟨l, hl, hd⟩ := entryDie_some.1 hd
    rw [hline] at hl
    cases hl
    exact hd
  have hsame := h.entries i (.inl hlive)
  refine ⟨hlive, (eligible_iff u i).2 ⟨by rw [hsame, hopened], by rw [hsame, hfirst], line, by rw [hsame, hline],
    (h.held line hdie).2 hheld, ?_, by rw [h.part]; exact hpart⟩⟩
  rw [dieIndex_of_count h.count, hdie, h.state, ← hdie]
  exact hport

theorem oldest (h : DieSame s u d) {i : Fin 32} (k : OldestEligible s d i) : OldestEligible u d i := by
  obtain ⟨hel, hd, hfirst⟩ := k
  obtain ⟨hlive, hu⟩ := h.eligible hd hel
  refine ⟨hu, h.entryDie hlive, fun j hj hej hdj => ?_⟩
  obtain ⟨hlivej, hsj⟩ := h.symm.eligible hdj hej
  rw [h.entries i (.inl hlive), h.entries j (.inr hlivej)]
  exact hfirst j hj hsj (h.symm.entryDie hlivej)

theorem right (h : DieSame s u d) (k : SelectionRight s d) : SelectionRight u d := by
  refine ⟨fun c hc hk => ?_, fun i hp hd ho => ?_⟩
  · rw [h.claim] at hc
    obtain ⟨hdie, hel, hp, hd⟩ := k.claim c hc hk
    obtain ⟨hlive, hu⟩ := h.eligible hdie hel
    exact ⟨h.entryDie hlive, hu, by rwa [h.pressure], fun hdu => hd (h.symm.drains hdu)⟩
  · rw [h.claim]
    exact k.oldest i (by rwa [← h.pressure]) (fun hds => hd (h.drains hds)) (h.symm.oldest ho)

end DieSame

/-- A die that is absent has neither entries nor claims of its own, if it had none. -/
theorem SelectionRight.absent {s u : State} {d : DieId} (hn : s.chan.settings.dieCount ∈ [1, 2, 4])
    (hcount : u.chan.settings.dieCount = s.chan.settings.dieCount) (hd : u.present d = false)
    (hclaim : (u.port d).drainClaim = (s.port d).drainClaim) (h : DrainsClaimed s) : SelectionRight u d := by
  have hdie {v : State} (hv : v.chan.settings.dieCount = s.chan.settings.dieCount) (i : Fin 32) :
      v.entryDie i ≠ some d := by
    intro hi
    have hp := entryDie_present (hv ▸ hn) hi
    rw [State.present, hv, ← hcount] at hp
    rw [State.present] at hd
    rw [hd] at hp
    cases hp
  obtain ⟨-, hright⟩ := (drainsClaimed_iff s).1 h
  refine ⟨fun c hc hk => ?_, fun i _ _ ho => absurd ho.2.1 (hdie hcount i)⟩
  rw [hclaim] at hc
  exact absurd ((hright d).claim c hc hk).1 (hdie rfl c.entry)

/-! ### An effect that leaves drains alone -/

/-- Entries, drain claims and drains in slots stay, the level too; port states and the holds of lines change at most at
the dies x. In a part at rest, ports may be emptied. -/
structure Calm (x : DieId → Bool) (s u : State) : Prop where
  entries : u.table.entries = s.table.entries
  count : u.chan.settings.dieCount = s.chan.settings.dieCount
  pressure : u.drain.pressure = s.drain.pressure
  claim : ∀ d, (u.port d).drainClaim = (s.port d).drainClaim ∨ Resting s ∧ (u.port d).drainClaim = none
  slotOf : ∀ d i y, y.claimant = .drain i → (u.port d).slot = some y → (s.port d).slot = some y
  slotStays : ∀ d i y, y.claimant = .drain i → (s.port d).slot = some y → (u.port d).slot = some y ∨ Resting s
  state : ∀ d, x d = false → (u.port d).state = (s.port d).state ∨ Resting s
  held : ∀ line, x (s.dieIndex line) = false → (Unheld u line ↔ Unheld s line)
  rest : Resting u → Resting s

namespace Calm

variable {x y : DieId → Bool} {s t u : State}

theorem refl (x : DieId → Bool) (s : State) : Calm x s s :=
  ⟨rfl, rfl, rfl, fun _ => .inl rfl, fun _ _ _ _ => id, fun _ _ _ _ => .inl, fun _ _ => .inl rfl, fun _ _ =>
      Iff.rfl, id⟩

theorem trans (h : Calm x s t) (k : Calm x t u) : Calm x s u := by
  refine ⟨k.entries.trans h.entries, k.count.trans h.count, k.pressure.trans h.pressure, fun d => ?_,
    fun d i y hy hu => h.slotOf d i y hy (k.slotOf d i y hy hu), fun d i y hy hs => ?_, fun d hd => ?_,
    fun line hl => ?_, fun hr => h.rest (k.rest hr)⟩
  · rcases k.claim d with hk | ⟨hr, hk⟩
    · rw [hk]; exact h.claim d
    · exact .inr ⟨h.rest hr, hk⟩
  · rcases h.slotStays d i y hy hs with ht | hr
    · exact (k.slotStays d i y hy ht).imp id h.rest
    · exact .inr hr
  · rcases k.state d hd with hk | hr
    · rw [hk]; exact h.state d hd
    · exact .inr (h.rest hr)
  · refine (k.held line ?_).trans (h.held line hl)
    rwa [dieIndex_of_count h.count]

theorem mono (h : Calm x s t) (hxy : ∀ d, y d = false → x d = false) : Calm y s t :=
  { h with state := fun d hd => h.state d (hxy d hd), held := fun line hl => h.held line (hxy _ hl) }

theorem forDies {f : DieId → State → State} (h : ∀ d t, Calm x t (f d t)) (s : State) : Calm x s (forDies f s) :=
  (((h 0 s).trans (h 1 _)).trans (h 2 _)).trans (h 3 _)

theorem forPresent {f : DieId → State → State} (h : ∀ d t, Calm x t (f d t)) (s : State) :
    Calm x s (s.forPresent f) :=
  .forDies (fun d t => by split <;> [exact h d t; exact .refl x t]) s

theorem undrained (h : Calm x s u) (k : Undrained s) : Undrained u := by
  refine ⟨fun i => by rw [entry_congr h.entries]; exact k.entries i, fun d => ?_,
    fun d z hz i hi => k.slots d z (h.slotOf d i z hi hz) i hi⟩
  rcases h.claim d with hc | ⟨-, hc⟩
  · rw [hc]; exact k.claims d
  · exact hc

theorem placed (h : Calm x s u) (hr : ¬ Resting s) (k : DrainsPlaced s) : DrainsPlaced u := by
  have hentry := entry_congr h.entries
  have hdie (i : Fin 32) : u.entryDie i = s.entryDie i := by
    rw [State.entryDie, hentry, dieIndex_of_count h.count]
    rfl
  have hclaim (d : DieId) := (h.claim d).resolve_right fun hc => hr hc.1
  constructor
  · simp only [hentry, hdie]
    exact k.one
  · simp only [hentry, hdie]
    intro d i hi hd
    refine (k.held d i hi hd).imp (fun hc => (hclaim d).trans hc) fun hs => ?_
    obtain ⟨y, hy, hyi⟩ := Option.map_eq_some_iff.1 hs
    rw [(h.slotStays d i y hyi hy).resolve_right hr, Option.map_some, hyi]
  · simp only [hentry, hdie]
    exact fun d y hy i hi => k.slots d y (h.slotOf d i y hi hy) i hi
  · simp only [hentry, hdie, hclaim]
    exact k.continues
  · exact fun hu => absurd (h.rest hu) hr

theorem dieSame (h : Calm x s u) (hr : ¬ Resting s) (hp : u.chan.partState = s.chan.partState) {d : DieId}
    (hd : x d = false) : DieSame s u d :=
  ⟨hp, h.count, h.pressure, (h.claim d).resolve_right fun hc => hr hc.1, (h.state d hd).resolve_right hr,
    fun line hl => h.held line (by rwa [hl]), fun i _ => entry_congr h.entries i⟩

/-- Such an effect closes with the scheduler's claims in order, if the dies x are touched or the part moves. -/
theorem finish (h : Calm x s u) (hn : s.chan.settings.dieCount ∈ [1, 2, 4]) (k : DrainsClaimed s)
    {touched : DieId → Bool}
    (hx : ∀ d, x d = true → touched d = true ∨ u.chan.partState ≠ s.chan.partState ∨ u.chan.phase ≠ s.chan.phase) :
    DrainsClaimed (u.finish s touched) := by
  have hnu : u.chan.settings.dieCount ∈ [1, 2, 4] := h.count ▸ hn
  by_cases hr : Resting s
  · have hu := h.undrained (k.undrained hr)
    exact finish_drains s touched hnu hu.placed fun d => .inl (hu.right d)
  obtain ⟨hplaced, hright⟩ := (drainsClaimed_iff s).1 k
  refine finish_drains s touched hnu (h.placed hr hplaced) fun d => ?_
  cases hd : u.present d with
  | false => exact .inl (.absent hn h.count hd ((h.claim d).resolve_right fun hc => hr hc.1) k)
  | true =>
    cases hxd : x d with
    | true => exact .inr ⟨rfl, hx d hxd⟩
    | false =>
      by_cases hp : u.chan.partState = s.chan.partState
      · exact .inl ((h.dieSame hr hp hxd).right (hright d))
      · exact .inr ⟨rfl, .inr (.inl hp)⟩

end Calm

/-! ### Single updates -/

theorem Touches.calm {bs : List Block} {s t : State} (h : Touches bs s t)
    (hb : ∀ b ∈ [Block.table, .drain, .reads, .ports, .chan, .settings], b ∉ bs) (x : DieId → Bool) : Calm x s t := by
  have hport (d : DieId) := h.port (hb .ports (by decide)) d
  have hchan := h.chan (hb .chan (by decide))
  refine ⟨by rw [h.table (hb .table (by decide))], by rw [hchan], by rw [h.drain (hb .drain (by decide))],
    fun d => .inl (by rw [hport]), fun d i y _ hy => by rwa [← hport], fun d i y _ hy => .inl (by rwa [hport]),
    fun d _ => .inl (by rw [hport]), fun line _ => ?_, fun hr => ?_⟩
  · rw [Unheld, Unheld, h.reads (hb .reads (by decide))]
  · rwa [Resting, hchan] at hr

theorem setPort_calm (s : State) (d : DieId) (p : Port) {x : DieId → Bool}
    (hclaim : p.drainClaim = (s.port d).drainClaim)
    (hslot : ∀ i y, y.claimant = .drain i → (p.slot = some y ↔ (s.port d).slot = some y))
    (hstate : x d = true ∨ p.state = (s.port d).state) : Calm x s (s.setPort d p) := by
  have hport (e : DieId) := State.setPort_port s d e p
  refine ⟨rfl, rfl, rfl, fun e => .inl ?_, fun e i y hy hs => ?_, fun e i y hy hs => .inl ?_, fun e he => .inl ?_,
    fun _ _ => Iff.rfl, id⟩
  all_goals
    by_cases hde : d = e
    · subst hde
      simp_all
    · simp_all

/-- What claims and timers other than the scheduler's do to a port. -/
theorem setPort_same_calm (s : State) (d : DieId) (p : Port) (x : DieId → Bool)
    (h : (p.drainClaim, p.slot, p.state) = ((s.port d).drainClaim, (s.port d).slot, (s.port d).state)) :
    Calm x s (s.setPort d p) := by
  simp only [Prod.mk.injEq] at h
  obtain ⟨hclaim, hslot, hstate⟩ := h
  exact setPort_calm s d p hclaim (fun _ _ _ => by rw [hslot]) (.inr hstate)

/-- What a completion or an expiry does to a port's state. -/
theorem setPort_state_calm (s : State) (d : DieId) (p : Port) {x : DieId → Bool} (hd : x d = true)
    (h : (p.drainClaim, p.slot) = ((s.port d).drainClaim, (s.port d).slot)) : Calm x s (s.setPort d p) := by
  simp only [Prod.mk.injEq] at h
  obtain ⟨hclaim, hslot⟩ := h
  exact setPort_calm s d p hclaim (fun _ _ _ => by rw [hslot]) (.inl hd)

theorem setChan_calm (s : State) (c : Channel) (x : DieId → Bool)
    (hcount : c.settings.dieCount = s.chan.settings.dieCount) (hrest : Resting (s.setChan c) → Resting s) :
    Calm x s (s.setChan c) :=
  ⟨rfl, hcount, rfl, fun _ => .inl rfl, fun _ _ _ _ => id, fun _ _ _ _ => .inl, fun _ _ => .inl rfl, fun _ _ => Iff.rfl,
    hrest⟩

/-- The part state and the settings stay. -/
theorem setChan_rest_calm (s : State) (c : Channel) (x : DieId → Bool)
    (h : (c.partState, c.settings) = (s.chan.partState, s.chan.settings)) : Calm x s (s.setChan c) := by
  simp only [Prod.mk.injEq] at h
  refine setChan_calm s c x (by rw [h.2]) fun hr => ?_
  unfold Resting at hr ⊢
  rwa [← h.1]

theorem setPartState_calm (s : State) (p : PartState) (phase : Option Phase) (x : DieId → Bool)
    (hp : p ∉ [PartState.config, .bringup]) : Calm x s (s.setPartState p phase) :=
  setChan_calm s _ x rfl fun hr => absurd (List.mem_cons.2 (hr.imp id List.mem_singleton.2)) hp

/-- Reads leave the list or join it at the dies x. -/
theorem setReads_calm (s : State) (r : Reads) {x : DieId → Bool}
    (h : ∀ line, x (s.dieIndex line) = false → (Unheld (s.setReads r) line ↔ Unheld s line)) :
    Calm x s (s.setReads r) :=
  ⟨rfl, rfl, rfl, fun _ => .inl rfl, fun _ _ _ _ => id, fun _ _ _ _ => .inl, fun _ _ => .inl rfl, h, id⟩

/-- A part at rest may empty a port. -/
theorem Calm.emptied {x : DieId → Bool} {s t : State} (h : Calm x s t) (hr : Resting s) (d : DieId) (p : Port)
    (hclaim : p.drainClaim = none) (hslot : p.slot = none) : Calm x s (t.setPort d p) := by
  have hport (e : DieId) := State.setPort_port t d e p
  refine ⟨h.entries, h.count, h.pressure, fun e => ?_, fun e i y hy hs => ?_, fun e _ _ _ _ => .inr hr, fun _ _ =>
      .inr hr,
    h.held, fun _ => hr⟩
  · rw [hport]
    split
    · exact .inr ⟨hr, hclaim⟩
    · exact h.claim e
  · rw [hport] at hs
    split at hs
    · rw [hslot] at hs; cases hs
    · exact h.slotOf e i y hy hs

/-- A part at rest may go from one part state of rest to the other. -/
theorem Calm.restful {x : DieId → Bool} {s t : State} (h : Calm x s t) (hr : Resting s) (c : Channel)
    (hcount : c.settings.dieCount = t.chan.settings.dieCount) : Calm x s (t.setChan c) :=
  { h with count := hcount.trans h.count, rest := fun _ => hr }

/-- An operation that is no drain leaves its slot. -/
theorem emptySlot_calm {s : State} {d : DieId} {z : Slot} (hslot : (s.port d).slot = some z)
    (hz : ∀ i, z.claimant ≠ .drain i) : Calm (fun e => e == d) s (s.emptySlot d) := by
  refine setPort_calm s d _ rfl (fun i y hy => ⟨nofun, fun hs => ?_⟩) (.inl (beq_self_eq_true d))
  rw [hslot] at hs
  cases hs
  exact absurd hy (hz i)

end Sys2Proof.Machine
end

section
/-! SUPPORT. Channel Control, Read Service and the Maintenance Unit leave the Drain Scheduler's claims alone (R25,
R88). -/

namespace Sys2Proof.Machine

variable (x : DieId → Bool)

/-! ### Channel Control's claims and part states -/

theorem setChannelClaim_calm (s : State) (d : DieId) (c : Option ChannelOp) : Calm x s (s.setChannelClaim d c) :=
  setPort_same_calm s d _ x (by rfl)

theorem setRecalOwed_calm (s : State) (d : DieId) (v : Bool) : Calm x s (s.setRecalOwed d v) :=
  setChan_rest_calm s _ x (by rfl)

theorem becomeRunning_calm (s : State) : Calm x s s.becomeRunning :=
  (setPartState_calm s .running none x (by decide)).trans (setChan_rest_calm _ _ x (by rfl))

theorem endProcedure_calm (s : State) (st : Status) (w : BitVec 32) : Calm x s (s.endProcedure st w) := by
  have hset : Calm x s (s.setChan { s.chan with procedure := none }) := setChan_rest_calm s _ x (by rfl)
  unfold State.endProcedure
  split
  · exact .refl x s
  · dsimp only
    split
    · exact hset
    · exact hset.trans ((close_touches _ _).calm (by decide) x)

theorem bringupClaim_calm (s : State) (d : DieId) (op : ChannelOp) : Calm x s (s.bringupClaim d op) := by
  unfold State.bringupClaim
  split <;> [exact setChannelClaim_calm x s d _; exact .refl x s]

theorem claimForward_calm (s : State) (d : DieId) : Calm x s (s.claimForward d) := by
  unfold State.claimForward
  split <;> [exact setChannelClaim_calm x s d _; exact .refl x s]

theorem claimForwardNow_calm (s : State) : Calm x s s.claimForwardNow :=
  .forPresent (fun d t => by dsimp only; split <;> [exact claimForward_calm x t d; exact .refl x t]) s

theorem claimAll_calm (s : State) (op : State → ChannelOp) :
    Calm x s (s.forPresent fun d t => t.setChannelClaim d (some (op t))) :=
  .forPresent (fun d t => setChannelClaim_calm x t d _) s

theorem wake_calm (s : State) : Calm x s s.wake := by
  unfold State.wake
  split <;> [exact setPartState_calm s .waking none x (by decide); exact .refl x s]

theorem endWake_calm (s : State) : Calm x s s.endWake := by
  unfold State.endWake
  split <;> [exact becomeRunning_calm x s; exact .refl x s]

theorem beginPhase_calm (s : State) (phase : Phase) (op : State → ChannelOp) : Calm x s (s.beginPhase phase op) :=
  (setPartState_calm s .switching (some phase) x (by decide)).trans (claimAll_calm x _ op)

theorem endWakePhase_calm (s : State) : Calm x s s.endWakePhase := by
  unfold State.endWakePhase
  split <;> [exact beginPhase_calm x s _ _; exact .refl x s]

theorem endRecalPhase_calm (s : State) : Calm x s s.endRecalPhase := by
  unfold State.endRecalPhase
  split <;> [exact beginPhase_calm x s _ _; exact .refl x s]

theorem enterClock_calm (s : State) : Calm x s s.enterClock := by
  unfold State.enterClock
  split
  · refine Calm.trans (.forPresent (fun d t => ?_) s) (setChan_rest_calm _ _ x (by rfl))
    exact (setPort_same_calm t d _ x (by rfl)).trans (setRecalOwed_calm x _ d true)
  · exact .refl x s

theorem allParked_calm (s : State) : Calm x s s.allParked := by
  unfold State.allParked
  split
  · split
    · exact setPartState_calm s .parked none x (by decide)
    · split <;> [exact enterClock_calm x s; exact .refl x s]
  · exact .refl x s

/-! ### Bring-up -/

theorem addFailed_calm (s : State) (d : DieId) : Calm x s (s.addFailed d) := by
  unfold State.addFailed
  split <;> [exact setChan_rest_calm s _ x (by rfl); exact .refl x s]

/-- A failed START returns the ports of a part at rest to OFF (R118). -/
theorem abortBringup_calm (s : State) : Calm x s s.abortBringup := by
  by_cases hb : s.chan.partState = .bringup
  · have hr : Resting s := .inr hb
    have hone (d : DieId) (t : State) (ht : Calm x s t) : Calm x s
        (if t.present d then (t.setPort d ((t.port d).toOff t.activePeriod)).setChan
          { t.chan with shadow := t.chan.shadow.set d shadowUnknown } else t) := by
      split
      · exact (ht.emptied hr d _ rfl rfl).trans (setChan_rest_calm _ _ x (by rfl))
      · exact ht
    have hall : Calm x s (s.forPresent fun d t =>
        (t.setPort d ((t.port d).toOff t.activePeriod)).setChan
          { t.chan with shadow := t.chan.shadow.set d shadowUnknown }) :=
      hone 3 _ (hone 2 _ (hone 1 _ (hone 0 _ (.refl x s))))
    unfold State.abortBringup
    dsimp only
    split
    · refine Calm.trans ?_ (endProcedure_calm x _ _ _)
      exact (hall.restful hr _ (by rfl)).restful hr _ (by rfl)
    · exact .refl x s
  · unfold State.abortBringup
    dsimp only
    rw [if_neg fun hc => hb hc.1]
    exact .refl x s

variable {x}

theorem endBringup_calm (s : State) {d : DieId} (hd : x d = true) : Calm x s (s.endBringup d) := by
  have hdie : Calm x s
      ((((s.setPort d { s.port d with state := .idle }).setBalance d 0).clearRecal d).setRecalOwed d false) :=
    (((setPort_state_calm s d _ hd (by rfl)).trans ((setBalance_touches _ d 0).calm (by decide) x)).trans
      ((clearRecal_touches _ d).calm (by decide) x)).trans (setRecalOwed_calm x _ d false)
  unfold State.endBringup
  dsimp only
  split
  · exact ((hdie.trans (becomeRunning_calm x _)).trans (endProcedure_calm x _ _ _)).trans
      ((setMaint_touches _ _).calm (by decide) x)
  · exact hdie

/-! ### Completions and expiries -/

theorem endSwitch_calm (s : State) : Calm x s s.endSwitch := by
  unfold State.endSwitch
  split
  · exact ((Calm.forPresent (fun d t => (setBalance_touches t d 0).calm (by decide) x) s).trans
      (becomeRunning_calm x _)).trans (endProcedure_calm x _ _ _)
  · exact .refl x s

theorem forwardSettled_calm (s : State) (d : DieId) (index : BitVec 4) (value : BitVec 16) :
    Calm x s (s.forwardSettled d index value) := by
  have hdone (p : Option Procedure) : Calm x s (s.setChan { s.chan with procedure := p }) :=
    setChan_rest_calm s _ x (by rfl)
  unfold State.forwardSettled
  split
  · split
    · dsimp only
      split
      · exact (hdone _).trans (endProcedure_calm x _ _ _)
      · exact hdone _
    · exact .refl x s
  · exact .refl x s

theorem settled_calm (s : State) {d : DieId} (hd : x d = true) (index : BitVec 4) (value : BitVec 16) :
    Calm x s (s.settled d index value) := by
  unfold State.settled
  split
  · refine Calm.trans ?_ (abortBringup_calm x _)
    split
    · exact bringupClaim_calm x s d _
    · exact endBringup_calm s hd
  · split
    · exact setChannelClaim_calm x s d _
    · exact endSwitch_calm s
  all_goals exact forwardSettled_calm s d index value

theorem settleExpired_calm (s : State) {d : DieId} (hd : x d = true) : Calm x s (s.settleExpired d) := by
  have hport : Calm x s (s.setPort d (s.port d).afterSettle) := setPort_state_calm s d _ hd (by rfl)
  unfold State.settleExpired
  dsimp only
  split
  · exact (hport.trans (setChan_rest_calm _ _ x (by rfl))).trans (settled_calm _ hd _ _)
  · exact hport

theorem longRecalDone_calm (s : State) (d : DieId) : Calm x s (State.longRecalDone d s) := by
  have hcleared : Calm x s ((s.clearRecal d).setRecalOwed d false) :=
    ((clearRecal_touches s d).calm (by decide) x).trans (setRecalOwed_calm x _ d false)
  unfold State.longRecalDone
  dsimp only
  split
  · exact (hcleared.trans (bringupClaim_calm x _ d _)).trans (abortBringup_calm x _)
  · exact hcleared.trans (endRecalPhase_calm x _)
  all_goals exact hcleared

theorem parkEnterDone_calm (s : State) {d : DieId} (hd : x d = true) : Calm x s (State.parkEnterDone d s) :=
  ((setPort_state_calm s d _ hd (by rfl)).trans ((setBalance_touches _ d 0).calm (by decide) x)).trans
    (allParked_calm x _)

theorem parkExitDone_calm (s : State) (d : DieId) (mode : WakeMode) : Calm x s (State.parkExitDone d mode s) :=
  (((setBalance_touches s d _).calm (by decide) x).trans (claimForward_calm x _ d)).trans
    ((endWake_calm x _).trans (endWakePhase_calm x _))

/-! ### Reads -/

/-- A record leaves the list: the lines of other dies are held as before. -/
theorem dropRead_calm {s : State} {r : ReadRecord} {d : DieId} (hd : x d = true)
    (hdie : ∀ q ∈ s.reads.list, q.claim = r.claim → s.dieIndex q.line = d) : Calm x s (s.dropRead r) := by
  have hlist : Calm x s (s.setReads { s.reads with list := s.reads.list.filter (·.claim != r.claim) }) := by
    refine setReads_calm s _ fun line hline => ⟨fun h q hq hl => ?_, fun h q hq => h q (List.mem_filter.1 hq).1⟩
    by_cases hc : q.claim = r.claim
    · rw [← hl, hdie q hq hc, hd] at hline
      cases hline
    · exact h q (List.mem_filter.2 ⟨hq, bne_iff_ne.2 hc⟩) hl
  exact hlist.trans (setPort_same_calm _ _ _ x (by rfl))

theorem answerRead_calm {s : State} {r : ReadRecord} {d : DieId} (hd : x d = true)
    (hdie : ∀ q ∈ s.reads.list, q.claim = r.claim → s.dieIndex q.line = d) (data : Option LineData) :
    Calm x s (s.answerRead r data) := by
  unfold State.answerRead
  dsimp only
  split
  · exact ((close_touches s _).calm (by decide) x).trans (dropRead_calm hd hdie)
  · exact (((close_touches s _).calm (by decide) x).trans ((noteAndLatch_touches _ _ _).calm (by decide) x)).trans
      (dropRead_calm hd hdie)

theorem joinReads_calm (s : State) (r : ReadRecord) (hd : x (s.dieIndex r.line) = true) : Calm x s (s.joinReads r) := by
  have hlist : Calm x s (s.setReads { list := s.reads.list ++ [r], nextClaim := s.reads.nextClaim + 1 }) := by
    refine setReads_calm s _ fun line hline =>
      ⟨fun h q hq => h q (List.mem_append_left _ hq), fun h q hq hl => ?_⟩
    rcases List.mem_append.1 hq with hq | hq
    · exact h q hq hl
    · rw [List.mem_singleton.1 hq] at hl
      rw [← hl, hd] at hline
      cases hline
  exact (hlist.trans (setPort_same_calm _ _ _ x (by rfl))).trans ((joinTag_touches _ _).calm (by decide) x)

/-- A link reset empties the list (R157). -/
theorem linkEmptied_calm {s : State} (hdie : ∀ r ∈ s.reads.list, r.die = s.dieIndex r.line) :
    Calm s.readOf s s.linkEmptied := by
  have hports : Calm s.readOf s
      (forDies (fun d t => t.setPort d { t.port d with readClaims := [] })
        (s.setLink { tags := [], answers := [], held := [] })) :=
    ((setLink_touches s _).calm (by decide) _).trans (.forDies (fun d t => setPort_same_calm t d _ _ (by rfl)) _)
  have hreads := (withdrawReads_touches (s.setLink { tags := [], answers := [], held := [] })).reads (by decide)
  refine ((hports.trans (setReads_calm _ _ fun line hline =>
      ⟨fun _ r hr hl => ?_, fun _ _ hr => absurd hr List.not_mem_nil⟩)).trans
    ((setFlushes_touches _ []).calm (by decide) _)).trans (setChan_rest_calm _ _ _ (by rfl))
  rw [hreads] at hr
  have hr : r ∈ s.reads.list := hr
  have hof : s.readOf (s.dieIndex line) = true := by
    refine List.any_eq_true.2 ⟨r, hr, ?_⟩
    rw [hdie r hr, hl]
    exact beq_self_eq_true _
  rw [dieIndex_of_count hports.count, hof] at hline
  cases hline

end Sys2Proof.Machine
end

section
/-! SUPPORT. An event that has left a continuation claim of a retired entry pending at a die that it touches closes with
the scheduler's claims in order all the same: the die's selection withdraws the claim (R25, R34). -/

namespace Sys2Proof.Machine

theorem setDrainClaim_port (s : State) (d : DieId) (c : Option DrainClaim) (e : DieId) :
    (s.setDrainClaim d c).port e =
      { s.port e with drainClaim := if d = e then c else (s.port e).drainClaim } := by
  rw [State.setDrainClaim, State.setPort_port]
  split
  next h => subst h; rfl
  · rfl

/-! ### Selections and levels keep continuation claims -/

/-- Only drain claims change: the continuation claims of a die that drains stay, and none is placed. -/
structure ContinuationsKept (s t : State) : Prop where
  entries : t.table.entries = s.table.entries
  reads : t.reads = s.reads
  chan : t.chan = s.chan
  state : ∀ d, (t.port d).state = (s.port d).state
  slot : ∀ d, (t.port d).slot = (s.port d).slot
  keep : ∀ d i, Drains s d → (s.port d).drainClaim = some { entry := i, continuation := true } →
    (t.port d).drainClaim = some { entry := i, continuation := true }
  less : ∀ d c, (t.port d).drainClaim = some c → c.continuation = true → (s.port d).drainClaim = some c

namespace ContinuationsKept

variable {s t u : State}

theorem drains (h : ContinuationsKept s t) (d : DieId) : Drains t d ↔ Drains s d :=
  (setDrainClaims_congr h.entries h.reads h.chan h.state).2.2.1 d

theorem trans (h : ContinuationsKept s t) (k : ContinuationsKept t u) : ContinuationsKept s u :=
  ⟨k.entries.trans h.entries, k.reads.trans h.reads, k.chan.trans h.chan, fun d => (k.state d).trans (h.state d),
    fun d => (k.slot d).trans (h.slot d), fun d i hd hc => k.keep d i ((h.drains d).2 hd) (h.keep d i hd hc),
    fun d c hc hk => h.less d c (k.less d c hc hk) hk⟩

end ContinuationsKept

theorem SameDrains.continuationsKept {s t : State} (h : SameDrains s t) : ContinuationsKept s t :=
  ⟨h.table, h.reads, h.chan, h.state, h.slot, fun d _ _ hc => (h.claim d).trans hc, fun d _ hc _ =>
      (h.claim d).symm.trans hc⟩

theorem select_continuationsKept (s : State) (d : DieId) : ContinuationsKept s (s.select d) := by
  rw [select_eq]
  have hport := setDrainClaim_port s d (selectedClaim s d (s.port d).drainClaim)
  refine ⟨rfl, rfl, rfl, fun e => by rw [hport], fun e => by rw [hport], fun e i hd hc => ?_, fun e c hc hk => ?_⟩
  · rw [hport]
    dsimp only
    split
    next he =>
      subst he
      rw [hc]
      exact selectedClaim_continues ((drains_iff s d).1 hd) rfl
    · exact hc
  · rw [hport] at hc
    dsimp only at hc
    split at hc
    next he =>
      subst he
      rcases selectedClaim_some hc with ⟨-, -, hold⟩ | ⟨-, hfalse, -⟩
      · exact hold
      · rw [hk] at hfalse; cases hfalse
    · exact hc

theorem takeLevel_continuationsKept (s : State) : ContinuationsKept s s.takeLevel := by
  have hport := takeLevel_port s
  refine ⟨by rw [takeLevel_eq], by rw [takeLevel_eq], by rw [takeLevel_eq], fun d => by rw [hport], fun d =>
      by rw [hport],
    fun d i hd hc => ?_, fun d c hc hk => ?_⟩
  · rw [hport, hc]
    dsimp only [leveledClaim]
    split
    · rfl
    · split
      · exact selectedClaim_continues ((drains_iff s d).1 hd) rfl
      · rfl
  · rw [hport] at hc
    dsimp only [leveledClaim] at hc
    split at hc
    · exact (Option.filter_eq_some_iff.1 hc).1
    · split at hc
      · rcases selectedClaim_some hc with ⟨-, -, hold⟩ | ⟨-, hfalse, -⟩
        · exact hold
        · rw [hk] at hfalse; cases hfalse
      · exact hc

/-- What a die's blocks do to the other claims before its selection. -/
theorem prepare_present {s : State} {d : DieId} (hd : s.present d = true) :
    ∃ t, SameDrains s t ∧ s.prepare d = t.select d :=
  ⟨_, ((retest_sameDrains s d).trans (keepCareClaims_sameDrains _ d)).trans (keepChannelClaim_sameDrains _ d),
      if_pos hd⟩

theorem prepare_absent {s : State} {d : DieId} (hd : s.present d = false) : s.prepare d = s := by
  rw [State.prepare, if_neg (by simp [hd])]

theorem prepare_continuationsKept (s : State) (d : DieId) : ContinuationsKept s (s.prepare d) := by
  cases hd : s.present d with
  | true =>
    obtain ⟨t, hsame, ht⟩ := prepare_present hd
    rw [ht]
    exact hsame.continuationsKept.trans (select_continuationsKept t d)
  | false =>
    rw [prepare_absent hd]
    exact (SameDrains.refl s).continuationsKept

theorem prepare_right {s : State} {d : DieId} (hd : s.present d = true) : SelectionRight (s.prepare d) d := by
  obtain ⟨t, -, ht⟩ := prepare_present hd
  rw [ht]
  exact select_right t d

theorem SelectionRight.prepare {s : State} {e : DieId} (h : SelectionRight s e) (d : DieId) :
    SelectionRight (s.prepare d) e := by
  cases hd : s.present d with
  | true =>
    obtain ⟨t, hsame, ht⟩ := prepare_present hd
    rw [ht]
    exact (h.congr hsame).select d
  | false => rwa [prepare_absent hd]

/-! ### A die whose claim alone is out of order -/

/-- Drains are placed but for the drain claim of die d, which has no DRAINING entry. -/
structure PlacedBut (s : State) (d : DieId) : Prop where
  placed : DrainsPlaced (s.setDrainClaim d none)
  drained : ¬ Drains s d

namespace PlacedBut

variable {s t : State} {d : DieId}

theorem keeps (h : PlacedBut s d) (k : ContinuationsKept s t) : PlacedBut t d := by
  have hs := setDrainClaim_port s d none
  have ht := setDrainClaim_port t d none
  refine ⟨h.placed.claims k.entries k.reads k.chan (fun e => ?_) (fun e => ?_) (fun e i hd hc => ?_)
      fun e c hc hk => ?_,
    fun hd => h.drained ((k.drains d).1 hd)⟩
  · rw [ht, hs]; exact k.state e
  · rw [ht, hs]; exact k.slot e
  · rw [hs] at hc
    rw [ht]
    dsimp only at hc ⊢
    split at hc
    · cases hc
    next he => rw [if_neg he]; exact k.keep e i hd hc
  · rw [ht] at hc
    rw [hs]
    dsimp only at hc ⊢
    split at hc
    · cases hc
    next he => rw [if_neg he]; exact k.less e c hc hk

theorem tidied (h : PlacedBut s d) (hd : ∀ c ∈ (s.port d).drainClaim, c.continuation = false) : DrainsPlaced s := by
  have hs := setDrainClaim_port s d none
  refine h.placed.claims rfl rfl rfl (fun e => by rw [hs]) (fun e => by rw [hs]) (fun e i _ hc => ?_)
      fun e c hc hk => ?_
  · rw [hs] at hc
    dsimp only at hc
    split at hc
    · cases hc
    · exact hc
  · rw [hs]
    dsimp only
    split
    next he =>
      subst he
      rw [hd c hc] at hk
      cases hk
    · exact hc

/-- The die's selection withdraws the claim. -/
theorem prepared (h : PlacedBut s d) (hd : s.present d = true) :
    ∀ c ∈ ((s.prepare d).port d).drainClaim, c.continuation = false := by
  intro c hc
  obtain ⟨t, hsame, ht⟩ := prepare_present hd
  rw [ht, select_eq, setDrainClaim_port] at hc
  dsimp only at hc
  rw [if_pos rfl] at hc
  rcases selectedClaim_some hc with ⟨hdraining, -, -⟩ | ⟨-, hfalse, -⟩
  · exact absurd ((hsame.drains d).1 ((drains_iff t d).2 hdraining)) h.drained
  · exact hfalse

end PlacedBut

theorem leveledClaim_congr {s t : State} (ht : t.table = s.table) (hc : t.chan = s.chan) (hr : t.reads = s.reads)
    (hp : ∀ e, (t.port e).state = (s.port e).state) (hd : t.drain = s.drain) (hf : t.flushes = s.flushes) (d : DieId)
    (old : Option DrainClaim) : leveledClaim t d old = leveledClaim s d old := by
  have hlevel : t.level = s.level := by rw [State.level, State.level, ht, hf, hd]
  have hpresent : t.present d = s.present d := by rw [State.present, State.present, hc]
  have hselected : selectedClaim { t with drain := { t.drain with pressure := t.level } } d old =
      selectedClaim { s with drain := { s.drain with pressure := s.level } } d old :=
    selectedClaim_congr (s := { s with drain := { s.drain with pressure := s.level } })
      (t := { t with drain := { t.drain with pressure := t.level } }) (by rw [ht]) hc hr hp hlevel old
  rw [leveledClaim, leveledClaim, hselected, hpresent, hlevel, hd]

/-- A change of level keeps right claims right at the other dies. -/
theorem takeLevel_right_other {s : State} (hn : s.chan.settings.dieCount ∈ [1, 2, 4]) {d e : DieId}
    (h : PlacedBut s d) (he : d ≠ e) (k : SelectionRight s e) : SelectionRight s.takeLevel e := by
  have hs := setDrainClaim_port s d none
  have hsame : DieSame s (s.setDrainClaim d none) e :=
    ⟨rfl, rfl, rfl, by rw [hs]; exact if_neg he, by rw [hs], fun _ _ => Iff.rfl, fun _ _ => rfl⟩
  have hlevel := (takeLevel_drains (s := s.setDrainClaim d none) hn h.placed).2 e (hsame.right k)
  have hclaim : leveledClaim (s.setDrainClaim d none) e (s.port e).drainClaim =
      leveledClaim s e (s.port e).drainClaim :=
    leveledClaim_congr (s := s) (t := s.setDrainClaim d none) rfl rfl rfl (fun a => by rw [hs]) rfl rfl e _
  have hother : DieSame (s.setDrainClaim d none).takeLevel s.takeLevel e := by
    have kt := takeLevel_continuationsKept s
    have kd := takeLevel_continuationsKept (s.setDrainClaim d none)
    refine ⟨?_, ?_, ?_, ?_, ?_, fun line _ => ?_, fun i _ => ?_⟩
    · rw [kt.chan, kd.chan]; rfl
    · rw [kt.chan, kd.chan]; rfl
    · rw [takeLevel_drain s, takeLevel_drain (s.setDrainClaim d none)]; rfl
    · rw [takeLevel_port s, takeLevel_port (s.setDrainClaim d none), hs]
      dsimp only
      rw [if_neg he]
      exact hclaim.symm
    · rw [kt.state, kd.state, hs]
    · rw [Unheld, Unheld, kt.reads, kd.reads]; rfl
    · rw [entry_congr kt.entries, entry_congr kd.entries]; rfl
  exact hother.right hlevel

/-- An event whose own effect leaves drains placed but for the claim of a present die that it touches, and the selection
claims right but at present dies that it touches, or anywhere when the part state or the phase changes, leaves the
scheduler's claims in order. -/
theorem finish_placedBut {s : State} (before : State) (touched : DieId → Bool)
    (hn : s.chan.settings.dieCount ∈ [1, 2, 4]) {d₀ : DieId} (hd : s.present d₀ = true) (htouched : touched d₀ = true)
    (h : PlacedBut s d₀)
    (hr : ∀ d, SelectionRight s d ∨ (s.present d = true ∧ (touched d = true ∨
      s.chan.partState ≠ before.chan.partState ∨ s.chan.phase ≠ before.chan.phase))) :
    DrainsClaimed (s.finish before touched) := by
  unfold State.finish
  dsimp only
  have hm (d : DieId) : SelectionRight s d ∨ (s.present d = true ∧
      ((s.chan.partState != before.chan.partState || s.chan.phase != before.chan.phase) || touched d) = true) :=
    (hr d).imp id fun ⟨h1, h2⟩ => ⟨h1, by rcases h2 with h2 | h2 | h2 <;> simp_all⟩
  have same : SameDrains s s.testHysteresis := ⟨rfl, rfl, rfl, rfl, fun _ => rfl, fun _ => rfl, fun _ => rfl⟩
  generalize (s.chan.partState != before.chan.partState || s.chan.phase != before.chan.phase) = m at hm ⊢
  generalize levelStirs s.testHysteresis.drain.pressure s.testHysteresis.level = stirs
  have hc : s.testHysteresis.takeLevel.chan = s.chan := (takeLevel_internal _).chan
  have htest : PlacedBut s.testHysteresis d₀ := h.keeps same.continuationsKept
  have hlevel : PlacedBut s.testHysteresis.takeLevel d₀ := htest.keeps (takeLevel_continuationsKept _)
  have hmoved : (m || touched d₀) = true := by rw [htouched, Bool.or_true]
  have start (d : DieId) : SelectionRight s.testHysteresis.takeLevel d ∨
      (s.present d = true ∧ (m || touched d) = true) := by
    by_cases hdd : d₀ = d
    · exact .inr ⟨hdd ▸ hd, hdd ▸ hmoved⟩
    · exact (hm d).imp (fun k => takeLevel_right_other (s := s.testHysteresis) hn htest hdd (k.congr same)) id
  generalize s.testHysteresis.takeLevel = x at hc hlevel start ⊢
  have four (f : DieId → State → State) (hf : ∀ d y, DrainsClaimed y → DrainsClaimed (f d y)) (y : State)
      (hy : DrainsClaimed y) : DrainsClaimed (forDies f y) := hf 3 _ (hf 2 _ (hf 1 _ (hf 0 _ hy)))
  refine four _ (fun d y hy => by split <;> [exact hy.arbitrate d; exact hy]) _
      ((drainsClaimed_iff _).2 ⟨?_, fun d => ?_⟩)
  all_goals
    have step (d : DieId) (y : State) (hy : y.chan = s.chan ∧ PlacedBut y d₀) :
        (if m || touched d then y.prepare d else y).chan = s.chan ∧
          PlacedBut (if m || touched d then y.prepare d else y) d₀ := by
      split
      · exact ⟨(prepare_internal y d).chan.trans hy.1, hy.2.keeps (prepare_continuationsKept y d)⟩
      · exact hy
  · refine (fun k => k.1.2.tidied k.2) (forDies_turn (P := fun y => y.chan = s.chan ∧ PlacedBut y d₀)
      (Q := fun y => (y.chan = s.chan ∧ PlacedBut y d₀) ∧ ∀ c ∈ (y.port d₀).drainClaim, c.continuation = false)
      _ d₀ x ⟨hc, hlevel⟩ (fun e y _ hy => step e y hy) (fun y hy => ⟨step d₀ y hy, ?_⟩)
      fun e y _ hy => ⟨step e y hy.1, fun c hcl => ?_⟩)
    · rw [if_pos hmoved]
      exact hy.2.prepared (by simpa only [State.present, hy.1] using hd)
    · split at hcl
      · cases hk : c.continuation with
        | false => rfl
        | true => rw [← hk]; exact hy.2 c ((prepare_continuationsKept y e).less d₀ c hcl hk)
      · exact hy.2 c hcl
  · have keep (e : DieId) (y : State) (hy : SelectionRight y d) :
        SelectionRight (if m || touched e then y.prepare e else y) d := by
      split <;> [exact hy.prepare e; exact hy]
    refine (forDies_turn
      (P := fun y => y.chan = s.chan ∧ (SelectionRight y d ∨ (s.present d = true ∧ (m || touched d) = true)))
      (Q := fun y => SelectionRight y d) _ d x ⟨hc, start d⟩ (fun e y _ hy => ⟨?_, hy.2.imp (keep e y) id⟩)
      (fun y hy => ?_) fun e y _ hy => keep e y hy)
    · split <;> [exact (prepare_internal y e).chan.trans hy.1; exact hy.1]
    · rcases hy.2 with k | ⟨hp, ht⟩
      · exact keep d y k
      · rw [if_pos ht]
        exact prepare_right (by simpa only [State.present, hy.1] using hp)

end Sys2Proof.Machine
end

section
/-! SUPPORT. An effect on the entries, the slot and the drain claim of one die leaves the other dies' drains and
selections as they were (R15, R16, R18, R25 to R28). -/

namespace Sys2Proof.Machine

/-! ### The other dies -/

/-- Entry i is in use and does not lie on die d. -/
def LiveOff (s : State) (d : DieId) (i : Fin 32) : Prop := (s.entry i).state ≠ .free ∧ s.entryDie i ≠ some d

/-- Entries, slots and drain claims off die d stay, and the level; either the part state, the port states and the holds
of lines off die d stay too, or the part enters STOPPED. -/
structure Apart (d : DieId) (s u : State) : Prop where
  count : u.chan.settings.dieCount = s.chan.settings.dieCount
  pressure : u.drain.pressure = s.drain.pressure
  entries : ∀ i, LiveOff s d i ∨ LiveOff u d i → u.entry i = s.entry i
  claim : ∀ e, d ≠ e → (u.port e).drainClaim = (s.port e).drainClaim
  slot : ∀ e, d ≠ e → (u.port e).slot = (s.port e).slot
  part : (u.chan.partState = s.chan.partState ∧ (∀ e, d ≠ e → (u.port e).state = (s.port e).state) ∧
      ∀ line, s.dieIndex line ≠ d → (Unheld u line ↔ Unheld s line)) ∨
    (u.chan.partState = .stopped ∧ s.chan.partState ≠ .stopped)

theorem LiveOff.congr {s u : State} {d : DieId} (hcount : u.chan.settings.dieCount = s.chan.settings.dieCount)
    {i : Fin 32} (he : u.entry i = s.entry i) : LiveOff u d i ↔ LiveOff s d i := by
  rw [LiveOff, LiveOff, State.entryDie, State.entryDie, he, dieIndex_of_count hcount]

namespace Apart

variable {d : DieId} {s t u : State}

theorem refl (d : DieId) (s : State) : Apart d s s :=
  ⟨rfl, rfl, fun _ _ => rfl, fun _ _ => rfl, fun _ _ => rfl, .inl ⟨rfl, fun _ _ => rfl, fun _ _ => Iff.rfl⟩⟩

theorem trans (h : Apart d s t) (k : Apart d t u) : Apart d s u := by
  refine ⟨k.count.trans h.count, k.pressure.trans h.pressure, fun i hi => ?_, fun e he => (k.claim e he).trans
      (h.claim e he),
    fun e he => (k.slot e he).trans (h.slot e he), ?_⟩
  · rcases hi with hi | hi
    · have hts := h.entries i (.inl hi)
      exact (k.entries i (.inl ((LiveOff.congr h.count hts).2 hi))).trans hts
    · have hut := k.entries i (.inr hi)
      exact hut.trans (h.entries i (.inr ((LiveOff.congr k.count hut).1 hi)))
  · rcases h.part with ⟨hp, hs, hl⟩ | ⟨hstop, hwas⟩ <;> rcases k.part with ⟨kp, ks, kl⟩ | ⟨kstop, kwas⟩
    · refine .inl ⟨kp.trans hp, fun e he => (ks e he).trans (hs e he), fun line hline => (kl line ?_).trans
          (hl line hline)⟩
      rwa [dieIndex_of_count h.count]
    · exact .inr ⟨kstop, by rwa [← hp]⟩
    · exact .inr ⟨kp.trans hstop, hwas⟩
    · exact absurd hstop kwas

theorem resting (h : Apart d s u) (hr : Resting u) : Resting s := by
  rcases h.part with ⟨hp, -, -⟩ | ⟨hstop, -⟩
  · rwa [Resting, hp] at hr
  · rw [Resting, hstop] at hr
    rcases hr with hr | hr <;> cases hr

theorem entryDie (h : Apart d s u) {i : Fin 32} (hi : LiveOff s d i ∨ LiveOff u d i) : u.entryDie i = s.entryDie i := by
  rw [State.entryDie, State.entryDie, h.entries i hi, dieIndex_of_count h.count]

/-- A selection claim off die d stays right, unless the part stops. -/
theorem right (h : Apart d s u) (hn : s.chan.settings.dieCount ∈ [1, 2, 4]) (k : DrainsClaimed s) {e : DieId}
    (he : d ≠ e) : SelectionRight u e ∨ (u.present e = true ∧ u.chan.partState ≠ s.chan.partState) := by
  cases hp : u.present e with
  | false => exact .inl (.absent hn h.count hp (h.claim e he) k)
  | true =>
    rcases h.part with ⟨hpart, hstate, hheld⟩ | ⟨hstop, hwas⟩
    · have hoff {v : State} {i : Fin 32} (hi : LiveAt v e i) : LiveOff v d i :=
        ⟨hi.1, fun hd => he (Option.some.inj (hd.symm.trans hi.2))⟩
      have hsame : DieSame s u e := ⟨hpart, h.count, h.pressure, h.claim e he, hstate e he,
        fun line hl => hheld line (by rw [hl]; exact he.symm), fun i hi => h.entries i (hi.imp hoff hoff)⟩
      exact .inl (hsame.right (((drainsClaimed_iff s).1 k).2 e))
    · exact .inr ⟨rfl, by rw [hstop]; exact hwas.symm⟩

/-- Drains stay placed off die d; they are placed if they are so on it. -/
theorem placed (h : Apart d s u) (hr : ¬ Resting s) (k : DrainsPlaced s)
    (one : ∀ i j, (u.entry i).state = .draining → (u.entry j).state = .draining → u.entryDie i = some d →
      u.entryDie j = some d → i = j)
    (held : ∀ i, (u.entry i).state = .draining → u.entryDie i = some d → ContinuationHeld u d i)
    (slots : ∀ x ∈ (u.port d).slot, ∀ i, x.claimant = .drain i →
      x.op.drains = true ∧ (u.entry i).state = .draining ∧ u.entryDie i = some d)
    (continues : ∀ c ∈ (u.port d).drainClaim, c.continuation = true →
      u.entryDie c.entry = some d ∧ (u.entry c.entry).state = .draining) : DrainsPlaced u := by
  have hoff {v : State} {i : Fin 32} (hi : (v.entry i).state = .draining) (hd : v.entryDie i ≠ some d) :
      LiveOff v d i :=
    ⟨by rw [hi]; decide, hd⟩
  have hother {v : State} {e : DieId} {i : Fin 32} (he : d ≠ e) (hi : v.entryDie i = some e) : v.entryDie i ≠ some d :=
    fun hd => he (Option.some.inj (hd.symm.trans hi))
  have hback {i : Fin 32} (hi : (u.entry i).state = .draining) (hd : u.entryDie i ≠ some d) :
      (s.entry i).state = .draining ∧ u.entryDie i = s.entryDie i :=
    ⟨by rw [← h.entries i (.inr (hoff hi hd))]; exact hi, h.entryDie (.inr (hoff hi hd))⟩
  have hforth {e : DieId} {i : Fin 32} (he : d ≠ e) (hi : (s.entry i).state = .draining) (hd : s.entryDie i = some e) :
      (u.entry i).state = .draining ∧ u.entryDie i = some e :=
    have hl : LiveOff s d i := hoff hi (hother he hd)
    ⟨by rw [h.entries i (.inl hl)]; exact hi, (h.entryDie (.inl hl)).trans hd⟩
  refine ⟨fun i j hi hj hij => ?_, fun e i hi hd => ?_, fun e x hx i hxi => ?_, fun e c hc hk => ?_,
    fun hu => absurd (h.resting hu) hr⟩
  · by_cases hd : u.entryDie i = some d
    · exact one i j hi hj hd (hij.symm.trans hd)
    · obtain ⟨hsi, hdi⟩ := hback hi hd
      obtain ⟨hsj, hdj⟩ := hback hj (hij ▸ hd)
      exact k.one i j hsi hsj (by rw [← hdi, ← hdj, hij])
  · by_cases he : d = e
    · subst he; exact held i hi hd
    · obtain ⟨hsi, hdi⟩ := hback hi (hother he hd)
      have hheld := k.held e i hsi (hdi.symm.trans hd)
      unfold ContinuationHeld at hheld ⊢
      rwa [h.claim e he, h.slot e he]
  · by_cases he : d = e
    · subst he; exact slots x hx i hxi
    · rw [h.slot e he] at hx
      obtain ⟨hop, hsi, hdi⟩ := k.slots e x hx i hxi
      exact ⟨hop, hforth he hsi hdi⟩
  · by_cases he : d = e
    · subst he; exact continues c hc hk
    · rw [h.claim e he] at hc
      obtain ⟨hdi, hsi⟩ := k.continues e c hc hk
      exact (hforth he hsi hdi).symm

end Apart

/-! ### Single updates -/

theorem Touches.apart {bs : List Block} {s t : State} (h : Touches bs s t)
    (hb : ∀ b ∈ [Block.table, .drain, .reads, .ports, .chan], b ∉ bs) (d : DieId) : Apart d s t := by
  have hport (e : DieId) := h.port (hb .ports (by decide)) e
  have hchan := h.chan (hb .chan (by decide))
  refine ⟨by rw [hchan], by rw [h.drain (hb .drain (by decide))], fun i _ => h.entry (hb .table (by decide)) i,
    fun e _ => by rw [hport], fun e _ => by rw [hport], .inl
        ⟨by rw [hchan], fun e _ => by rw [hport], fun line _ => ?_⟩⟩
  rw [Unheld, Unheld, h.reads (hb .reads (by decide))]

theorem setPort_apart (s : State) (d : DieId) (p : Port) : Apart d s (s.setPort d p) := by
  have hport (e : DieId) (he : d ≠ e) : (s.setPort d p).port e = s.port e := by rw [State.setPort_port, if_neg he]
  exact ⟨rfl, rfl, fun _ _ => rfl, fun e he => by rw [hport e he], fun e he => by rw [hport e he],
    .inl ⟨rfl, fun e he => by rw [hport e he], fun _ _ => Iff.rfl⟩⟩

/-- A change of an entry that is FREE or lies on die d, before and after. -/
theorem setEntry_apart {s : State} {d : DieId} {i : Fin 32} {e : Entry} (hs : ¬ LiveOff s d i)
    (he : e.state = .free ∨ e.line.map s.dieIndex = some d) : Apart d s (s.setEntry i e) := by
  refine ⟨rfl, rfl, fun j hj => ?_, fun _ _ => rfl, fun _ _ => rfl, .inl ⟨rfl, fun _ _ => rfl, fun _ _ => Iff.rfl⟩⟩
  rw [State.setEntry_entry]
  split
  next hij =>
    subst hij
    refine absurd ?_ hs
    rcases hj with hj | ⟨hlive, hoff⟩
    · exact hj
    · rw [State.setEntry_entry_self] at hlive
      rw [State.entryDie, State.setEntry_entry_self] at hoff
      exact absurd he (not_or.2 ⟨hlive, hoff⟩)
  · rfl

theorem not_liveOff_of_die {s : State} {d : DieId} {i : Fin 32} (h : s.entryDie i = some d) : ¬ LiveOff s d i :=
  fun hoff => hoff.2 h

/-! ### Entries that stop draining -/

/-- Every entry stays, or does not drain any more. -/
def Sheds (s u : State) : Prop := ∀ i, u.entry i = s.entry i ∨ (u.entry i).state ≠ .draining

theorem Sheds.refl (s : State) : Sheds s s := fun _ => .inl rfl

theorem Sheds.trans {s t u : State} (h : Sheds s t) (k : Sheds t u) : Sheds s u := fun i => by
  rcases k i with hk | hk
  · rw [hk]; exact h i
  · exact .inr hk

theorem Sheds.not_draining {s u : State} (h : Sheds s u) {i : Fin 32} (hi : (s.entry i).state ≠ .draining) :
    (u.entry i).state ≠ .draining := by
  rcases h i with hk | hk
  · rwa [hk]
  · exact hk

theorem Touches.sheds {bs : List Block} {s t : State} (h : Touches bs s t) (hb : Block.table ∉ bs) : Sheds s t :=
  fun i => .inl (h.entry hb i)

theorem setEntry_sheds (s : State) (i : Fin 32) {e : Entry} (he : e.state ≠ .draining) : Sheds s (s.setEntry i e) := by
  intro j
  rw [State.setEntry_entry]
  split <;> [exact .inr he; exact .inl rfl]

/-! ### An entry leaves the table -/

theorem secondEntry_is {s : State} {line : LineAddr} {j : Fin 32} (h : s.secondEntry line = some j) :
    (s.entry j).state = .opened ∧ (s.entry j).gen = .second ∧ (s.entry j).line = some line :=
  (isSecond_iff _ line).1 (findEntry_some h)

theorem promote_apart {s : State} {d : DieId} {line : LineAddr} (hd : s.dieIndex line = d) :
    Apart d s (s.promote line) := by
  unfold State.promote
  split
  next j hj =>
    obtain ⟨-, -, hline⟩ := secondEntry_is hj
    have hon : (s.entry j).line.map s.dieIndex = some d := by rw [hline, Option.map_some, hd]
    exact setEntry_apart (not_liveOff_of_die hon) (.inr hon)
  · exact .refl d s

theorem promote_sheds (s : State) (line : LineAddr) : Sheds s (s.promote line) := by
  unfold State.promote
  split
  next j hj =>
    obtain ⟨hopened, -⟩ := secondEntry_is hj
    exact setEntry_sheds s j (by rw [hopened]; decide)
  · exact .refl s

/-- What an entry of die d that leaves the table changes (R15, R16). -/
theorem leave_apart {s : State} {d : DieId} {i : Fin 32} (hd : s.entryDie i = some d) (lost : Bool) :
    Apart d s (s.leave i lost) ∧ Sheds s (s.leave i lost) ∧ ((s.leave i lost).entry i).state ≠ .draining := by
  obtain ⟨line, hline, hindex⟩ := entryDie_some.1 hd
  have hfree : Apart d s (s.setEntry i Entry.freed) := setEntry_apart (not_liveOff_of_die hd) (.inl rfl)
  have hsheds : Sheds s (s.setEntry i Entry.freed) := setEntry_sheds s i (by decide)
  have hleft : s.leave i lost = ((s.setEntry i Entry.freed).promote line).notice lost (s.entry i).firstWsn := by
    rw [State.leave, hline]
  have hnotice := notice_touches ((s.setEntry i Entry.freed).promote line) lost (s.entry i).firstWsn
  have hafter := (promote_sheds (s.setEntry i Entry.freed) line).trans (hnotice.sheds (by decide))
  rw [hleft]
  refine ⟨(hfree.trans (promote_apart hindex)).trans (hnotice.apart (by decide) d), hsheds.trans hafter,
    hafter.not_draining ?_⟩
  rw [State.setEntry_entry_self]
  decide

/-! ### A revert -/

theorem revert_apart {s : State} {d : DieId} {i : Fin 32} (hd : s.entryDie i = some d) :
    Apart d s (s.revert i) ∧ Sheds s (s.revert i) ∧ ((s.revert i).entry i).state ≠ .draining := by
  have hset (e : Entry) (he : e.line = (s.entry i).line) : Apart d s (s.setEntry i e) :=
    setEntry_apart (not_liveOff_of_die hd) (.inr (by rw [he]; exact hd))
  unfold State.revert
  dsimp only
  split
  next j hj =>
    obtain ⟨line, hline, hsecond⟩ := Option.bind_eq_some_iff.1 hj
    obtain ⟨-, -, hjline⟩ := secondEntry_is hsecond
    have hjd : s.entryDie j = some d := by rw [State.entryDie, hjline, ← hline]; exact hd
    have habsorbed : ∀ e : Entry, e.line = (s.entry i).line → ¬ LiveOff (s.setEntry i e) d j := by
      intro e he hoff
      have hdie : (s.setEntry i e).entryDie j = some d := by
        rw [State.entryDie, State.setEntry_entry]
        split
        · rw [he]; exact hd
        · exact hjd
      exact hoff.2 hdie
    refine ⟨(hset _ (by rfl)).trans (setEntry_apart (habsorbed _ (by rfl)) (.inl rfl)),
      (setEntry_sheds s i (by exact nofun)).trans (setEntry_sheds _ j (by decide)), ?_⟩
    exact Sheds.not_draining (setEntry_sheds _ j (by decide)) (by rw [State.setEntry_entry_self]; exact nofun)
  · refine ⟨hset _ (by rfl), setEntry_sheds s i nofun, ?_⟩
    rw [State.setEntry_entry_self]
    exact nofun

theorem revertStep_apart (s : State) (d : DieId) (i : Fin 32) :
    Apart d s (s.revertStep d i) ∧ Sheds s (s.revertStep d i) ∧
      ¬ (((s.revertStep d i).entry i).state = .draining ∧ (s.revertStep d i).entryDie i = some d) := by
  unfold State.revertStep
  split
  next hi =>
    obtain ⟨hapart, hsheds, hnot⟩ := revert_apart hi.2
    exact ⟨hapart, hsheds, fun hk => hnot hk.1⟩
  next hi => exact ⟨.refl d s, .refl s, hi⟩

theorem reverts_apart (l : List (Fin 32)) (s : State) (d : DieId) :
    Apart d s (l.foldl (State.revertStep d) s) ∧ Sheds s (l.foldl (State.revertStep d) s) ∧
      ∀ i ∈ l, ¬ (((l.foldl (State.revertStep d) s).entry i).state = .draining ∧
        (l.foldl (State.revertStep d) s).entryDie i = some d) := by
  induction l generalizing s with
  | nil => exact ⟨.refl d s, .refl s, fun _ hi => absurd hi List.not_mem_nil⟩
  | cons a l ih =>
    obtain ⟨hapart, hsheds, hnot⟩ := revertStep_apart s d a
    obtain ⟨iapart, isheds, inot⟩ := ih (s.revertStep d a)
    rw [List.foldl_cons]
    refine ⟨hapart.trans iapart, hsheds.trans isheds, fun i hi => ?_⟩
    rcases List.mem_cons.1 hi with rfl | hi
    · rintro ⟨hdraining, hdie⟩
      have hsame := (isheds i).resolve_right fun hk => hk hdraining
      rw [hsame] at hdraining
      rw [State.entryDie, hsame, dieIndex_of_count iapart.count] at hdie
      exact hnot ⟨hdraining, hdie⟩
    · exact inot i hi

/-- After the reverts of die d nothing drains on it (R18). -/
theorem revertDie_apart (s : State) (d : DieId) :
    Apart d s (s.revertDie d) ∧ Sheds s (s.revertDie d) ∧ ¬ Drains (s.revertDie d) d := by
  obtain ⟨hapart, hsheds, hnot⟩ := reverts_apart (List.finRange 32) s d
  exact ⟨hapart, hsheds, fun ⟨i, hi⟩ => hnot i (List.mem_finRange i) hi⟩

theorem revertDie_rests {s : State} {d : DieId} (h : ∀ i, (s.entry i).state ≠ .draining) : s.revertDie d = s := by
  rw [revertDie_eq]
  have hstep (i : Fin 32) : s.revertStep d i = s := if_neg fun hi => h i hi.1
  generalize List.finRange 32 = l
  induction l with
  | nil => rfl
  | cons a l ih => rw [List.foldl_cons, hstep, ih]

/-! ### The part stops, or a loss is reported -/

theorem halts_port (s : State) (cause : StopCause) (e : DieId) :
    (s.halts cause).port e =
      { s.port e with
        readClaims := [], channelClaim := if (s.port e).channelClaim = some .parkExit then some .parkExit else none
            } := by
  have hended := endProcedure_touches
    (s.setChan { s.chan with partState := .stopped, phase := none, stopCause := some cause }) .failed s.stopDetail
  have hport := hended.port (by decide) e
  rw [State.halts, stopClaims_eq, stopFlushes_eq, stopReads_eq]
  simp only [State.port, Fin.getElem_fin, Vector.getElem_ofFn] at hport ⊢
  rw [hport]
  rfl

theorem halts_partState (s : State) (cause : StopCause) : (s.halts cause).chan.partState = .stopped := by
  rw [State.halts, stopClaims_eq, stopFlushes_eq, stopReads_eq]
  exact endProcedure_partState _ _ _

/-- The part may stop: the ports keep their slots and drain claims. -/
theorem enterStopped_apart (s : State) (cause : StopCause) (d : DieId) :
    Apart d s (s.enterStopped cause) ∧ ∀ e, ((s.enterStopped cause).port e).slot = (s.port e).slot ∧
      ((s.enterStopped cause).port e).drainClaim = (s.port e).drainClaim := by
  rw [enterStopped_eq]
  split
  next hp =>
    have htouch := halts_touches s cause
    have hport := halts_port s cause
    refine ⟨⟨by rw [(htouch.settings (by decide)).1], by rw [htouch.drain (by decide)],
      fun i _ => htouch.entry (by decide) i, fun e _ => by rw [hport], fun e _ => by rw [hport],
      .inr ⟨halts_partState s cause, fun hs => ?_⟩⟩, fun e => by rw [hport]; exact ⟨rfl, rfl⟩⟩
    rw [hs] at hp
    revert hp
    decide
  · exact ⟨.refl d s, fun _ => ⟨rfl, rfl⟩⟩

theorem markLost_apart (s : State) (line : LineAddr) (d : DieId) : Apart d s (s.markLost line) := by
  refine ⟨rfl, rfl, fun _ _ => rfl, fun _ _ => rfl, fun _ _ => rfl, .inl ⟨rfl, fun _ _ => rfl, fun l _ => ?_⟩⟩
  have hmark (r : ReadRecord) : (if r.line = line then { r with lost := true } else r).line = r.line := by
    split <;> rfl
  simp only [Unheld, State.markLost, State.setReads_reads, List.mem_map, forall_exists_index, and_imp,
    forall_apply_eq_imp_iff₂, hmark]

/-- An effect off the entries and claims of die d that leaves every slot. -/
structure SlotsApart (d : DieId) (s u : State) : Prop where
  apart : Apart d s u
  slots : ∀ e, (u.port e).slot = (s.port e).slot

theorem SlotsApart.trans {d : DieId} {s t u : State} (h : SlotsApart d s t) (k : SlotsApart d t u) : SlotsApart d s u :=
  ⟨h.apart.trans k.apart, fun e => (k.slots e).trans (h.slots e)⟩

theorem Touches.slotsApart {bs : List Block} {s t : State} (h : Touches bs s t)
    (hb : ∀ b ∈ [Block.table, .drain, .reads, .ports, .chan], b ∉ bs) (d : DieId) : SlotsApart d s t :=
  ⟨h.apart hb d, fun e => by rw [h.port (hb .ports (by decide))]⟩

/-- A reported loss leaves the table, the slots and the drain claims alone (R163). -/
theorem reportLoss_apart (s : State) (line : LineAddr) (wsn : Wsn) (cause : LossCause) (d : DieId) :
    SlotsApart d s (s.reportLoss line wsn cause) := by
  have hmark (t : State) (ht : Touches [.errs] s t) (n : LogNote) :
      SlotsApart d s (((t.logNote n).latch .writeLost).markLost line) :=
    ((ht.slotsApart (by decide) d).trans ((noteAndLatch_touches t n _).slotsApart (by decide) d)).trans
      ⟨markLost_apart _ line d, fun _ => rfl⟩
  have hlisted (b : Prop) [Decidable b] (e : Errors) : Touches [.errs] s (if b then s else s.setErrs e) := by
    split <;> [exact .refl _ s; exact setErrs_touches s _]
  have hstop (t : State) : SlotsApart d t (t.enterStopped .poisonFull) :=
    ⟨(enterStopped_apart t .poisonFull d).1, fun e => ((enterStopped_apart t .poisonFull d).2 e).1⟩
  unfold State.reportLoss
  dsimp only
  split
  · exact ((hmark _ (hlisted _ _) _).trans ((noteAndLatch_touches _ _ _).slotsApart (by decide) d)).trans (hstop _)
  · exact hmark _ (hlisted _ _) _

end Sys2Proof.Machine
end

section
/-! SUPPORT. Every event closes with the Drain Scheduler's claims in order: a drain that is done, lost or tried again, a
port that fails, and what Channel Control, Read Service and the Maintenance Unit do (R15, R16, R18, R25 to R34). -/

namespace Sys2Proof.Machine

/-! ### A drain leaves its slot -/

namespace Apart

variable {d : DieId} {s u : State}

/-- A die without a DRAINING entry and with an empty slot is in order but for its claim. -/
theorem vacated (h : Apart d s u) (hr : ¬ Resting s) (k : DrainsPlaced s) (hd : ¬ Drains u d)
    (hslot : (u.port d).slot = none) : PlacedBut u d := by
  have hport := setDrainClaim_port u d none d
  rw [if_pos rfl] at hport
  refine ⟨(h.trans (setPort_apart u d { u.port d with drainClaim := none })).placed hr k
    (fun i _ hi _ hdie _ => absurd ⟨i, hi, hdie⟩ hd) (fun i hi hdie => absurd ⟨i, hi, hdie⟩ hd) (fun x hx => ?_)
    fun c hc => ?_, hd⟩
  · have hx : x ∈ ((u.setDrainClaim d none).port d).slot := hx
    rw [hport, hslot] at hx
    cases hx
  · have hc : c ∈ ((u.setDrainClaim d none).port d).drainClaim := hc
    rw [hport] at hc
    cases hc

variable (hn : s.chan.settings.dieCount ∈ [1, 2, 4]) (k : DrainsClaimed s) {touched : DieId → Bool}
include hn k

theorem rightOrTouched (h : Apart d s u) (hp : u.present d = true) (ht : touched d = true) (e : DieId) :
    SelectionRight u e ∨ (u.present e = true ∧ (touched e = true ∨
      u.chan.partState ≠ s.chan.partState ∨ u.chan.phase ≠ s.chan.phase)) := by
  by_cases he : d = e
  · subst he
    exact .inr ⟨hp, .inl ht⟩
  · exact (h.right hn k he).imp id fun ⟨hpe, hpart⟩ => ⟨hpe, .inr (.inl hpart)⟩

theorem finish_vacated (h : Apart d s u) (hr : ¬ Resting s) (hd : ¬ Drains u d) (hslot : (u.port d).slot = none)
    (hp : u.present d = true) (ht : touched d = true) : DrainsClaimed (u.finish s touched) :=
  finish_placedBut s touched (h.count ▸ hn) hp ht (h.vacated hr ((drainsClaimed_iff s).1 k).1 hd hslot)
    (h.rightOrTouched hn k hp ht)

/-- The same of a die that may be absent, with no drain claim pending. -/
theorem finish_emptied (h : Apart d s u) (hr : ¬ Resting s) (hd : ¬ Drains u d) (hslot : (u.port d).slot = none)
    (hclaim : (u.port d).drainClaim = none) (ht : touched d = true) : DrainsClaimed (u.finish s touched) := by
  cases hp : u.present d with
  | true => exact h.finish_vacated hn k hr hd hslot hp ht
  | false =>
    have hplaced : DrainsPlaced u :=
      (h.vacated hr ((drainsClaimed_iff s).1 k).1 hd hslot).tidied fun c hc => (nomatch hclaim.symm.trans hc)
    refine finish_drains s touched (h.count ▸ hn) hplaced fun e => ?_
    by_cases he : d = e
    · subst he
      refine .inl ⟨fun c hc => (nomatch hclaim.symm.trans hc), fun i _ _ ho => ?_⟩
      rw [entryDie_present (h.count ▸ hn) ho.2.1] at hp
      cases hp
    · exact (h.right hn k he).imp id fun ⟨hpe, hpart⟩ => ⟨hpe, .inr (.inl hpart)⟩

/-- The die's one DRAINING entry has its continuation claim pending. -/
theorem finish_continues (h : Apart d s u) (hr : ¬ Resting s) {i : Fin 32} (hi : (u.entry i).state = .draining)
    (hdie : u.entryDie i = some d)
    (only : ∀ j, (u.entry j).state = .draining → u.entryDie j = some d → j = i)
    (hslot : (u.port d).slot = none) (hclaim : (u.port d).drainClaim = some { entry := i, continuation := true })
    (hp : u.present d = true) (ht : touched d = true) : DrainsClaimed (u.finish s touched) := by
  refine finish_drains s touched (h.count ▸ hn) (h.placed hr ((drainsClaimed_iff s).1 k).1
    (fun a b ha hb hda hdb => (only a ha hda).trans (only b hb hdb).symm) (fun j hj hdj => ?_) (fun x hx => ?_)
    fun c hc _ => ?_) (h.rightOrTouched hn k hp ht)
  · rw [only j hj hdj]
    exact .inl hclaim
  · rw [hslot] at hx
    cases hx
  · rw [hclaim] at hc
    cases hc
    exact ⟨hdie, hi⟩

end Apart

theorem emptySlot_apart (s : State) (d : DieId) : Apart d s (s.emptySlot d) := setPort_apart s d _

theorem present_of_count {s t : State} (h : t.chan.settings.dieCount = s.chan.settings.dieCount) (d : DieId) :
    t.present d = s.present d := by
  rw [State.present, State.present, h]

section
variable {s : State} (hn : s.chan.settings.dieCount ∈ [1, 2, 4]) (k : DrainsClaimed s) {d : DieId} {i : Fin 32}
  (hi : (s.entry i).state = .draining) (hd : s.entryDie i = some d) {touched : DieId → Bool} (ht : touched d = true)

theorem not_resting_of_draining {s : State} (k : DrainsClaimed s) {i : Fin 32} (hi : (s.entry i).state = .draining) :
    ¬ Resting s := fun hr => by
  rw [(k.undrained hr).entries i] at hi
  cases hi

include hn k hi hd ht

/-- The entry of the drain in a slot leaves the table (R15, R16). -/
theorem leave_finish {r : State} (hr : Apart d s r) (hentry : ∀ j, r.entry j = s.entry j)
    (hslot : (r.port d).slot = none) (lost : Bool) : DrainsClaimed ((r.leave i lost).finish s touched) := by
  have hdie (j : Fin 32) : r.entryDie j = s.entryDie j := by
    rw [State.entryDie, State.entryDie, hentry, dieIndex_of_count hr.count]
  obtain ⟨hapart, hsheds, hgone⟩ := leave_apart ((hdie i).trans hd) lost
  have hall := hr.trans hapart
  refine hall.finish_vacated hn k (not_resting_of_draining k hi) ?_ ?_ ?_ ht
  · rintro ⟨j, hj, hdj⟩
    have hsame := (hsheds j).resolve_right fun hk => hk hj
    have hjr : r.entryDie j = some d := by
      rw [← hdj, State.entryDie, State.entryDie, hsame, dieIndex_of_count hapart.count]
    have hji : j = i := (((drainsClaimed_iff s).1 k).1).one j i (by rw [← hentry, ← hsame]; exact hj) hi
      ((hdie j).symm.trans (hjr.trans hd.symm))
    exact hgone (hji ▸ hj)
  · rw [State.port, (leave_chan r i lost).2]
    exact hslot
  · rw [present_of_count hall.count]
    exact entryDie_present hn hd

/-- The drain in a slot is lost (R16). -/
theorem lose_finish (cause : LossCause) : DrainsClaimed (((s.emptySlot d).lose i cause).finish s touched) := by
  obtain ⟨line, hline, -⟩ := entryDie_some.1 hd
  rw [lose_eq (s := s.emptySlot d) hline]
  have hloss := reportLoss_apart (s.emptySlot d) line ((s.emptySlot d).entry i).firstWsn cause d
  exact leave_finish hn k hi hd ht ((emptySlot_apart s d).trans hloss.apart)
    (fun j => (reportLoss_touches (s.emptySlot d) line _ cause).entry (by decide) j)
    ((hloss.slots d).trans (emptySlot_slot s d)) true

/-- The drain in a slot goes on with another step, or the same one again (R31, R34). -/
theorem continue_finish {e : Entry} (hstate : e.state = .draining) (hline : e.line = (s.entry i).line) :
    DrainsClaimed ((((s.emptySlot d).setEntry i e).setDrainClaim d
      (some { entry := i, continuation := true })).finish s touched) := by
  have hset : Apart d (s.emptySlot d) ((s.emptySlot d).setEntry i e) :=
    setEntry_apart (not_liveOff_of_die hd) (.inr (by rw [hline]; exact hd))
  have hall := ((emptySlot_apart s d).trans hset).trans
    (setPort_apart _ d { ((s.emptySlot d).setEntry i e).port d with
      drainClaim := some { entry := i, continuation := true } })
  have hport := setDrainClaim_port ((s.emptySlot d).setEntry i e) d (some { entry := i, continuation := true }) d
  rw [if_pos rfl] at hport
  have hentry (j : Fin 32) : (((s.emptySlot d).setEntry i e).setDrainClaim d
      (some { entry := i, continuation := true })).entry j = if i = j then e else s.entry j :=
    State.setEntry_entry _ i j e
  have hdie (j : Fin 32) : (((s.emptySlot d).setEntry i e).setDrainClaim d
      (some { entry := i, continuation := true })).entryDie j = s.entryDie j := by
    rw [State.entryDie, hentry, State.entryDie]
    split
    next hij => subst hij; rw [hline]; rfl
    · rfl
  refine Apart.finish_continues hn k hall (not_resting_of_draining k hi) (i := i) ?_ ((hdie i).trans hd)
    (fun j hj hdj => ?_) ?_ ?_ ?_ ht
  · exact (congrArg Entry.state (hentry i)).trans (by rw [if_pos rfl, hstate])
  · by_contra hne
    have hj' : (s.entry j).state = .draining := by
      rw [← hj]
      exact (congrArg Entry.state ((hentry j).trans (if_neg fun hij => hne hij.symm))).symm
    exact hne (((drainsClaimed_iff s).1 k).1.one j i hj' hi (((hdie j).symm.trans hdj).trans hd.symm))
  · exact (congrArg Port.slot hport).trans (emptySlot_slot s d)
  · exact congrArg Port.drainClaim hport
  · exact entryDie_present hn hd

end

/-- What a drain in a slot says of its entry. -/
theorem DrainsClaimed.slot_entry {s : State} (k : DrainsClaimed s) {d : DieId} {z : Slot} {i : Fin 32}
    (hslot : (s.port d).slot = some z) (hz : z.claimant = .drain i) :
    z.op.drains = true ∧ (s.entry i).state = .draining ∧ s.entryDie i = some d :=
  ((drainsClaimed_iff s).1 k).1.slots d z hslot i hz

section
variable {s : State} (hn : s.chan.settings.dieCount ∈ [1, 2, 4]) (k : DrainsClaimed s) {d : DieId}
include hn k

/-- An operation of no drain completes; its claimant leaves drains alone. -/
theorem completion_finish {z : Slot} (hslot : (s.port d).slot = some z) (hz : ∀ i, z.claimant ≠ .drain i) {u : State}
    (h : Calm (fun e => e == d) (s.emptySlot d) u) : DrainsClaimed (u.finish s fun e => e == d) :=
  ((emptySlot_calm hslot hz).trans h).finish hn k fun _ hd => .inl hd

theorem takeWriteStep_finish {z : Slot} (hslot : (s.port d).slot = some z) (stored : Bool) :
    DrainsClaimed (((s.emptySlot d).takeWriteStep d z.claimant stored).finish s fun e => e == d) := by
  have ht : (fun e => e == d : DieId → Bool) d = true := beq_self_eq_true d
  cases hz : z.claimant with
  | drain i =>
    obtain ⟨-, hi, hd⟩ := k.slot_entry hslot hz
    unfold State.takeWriteStep
    dsimp only
    split
    · exact leave_finish hn k hi hd (touched := fun e => e == d) ht (emptySlot_apart s d) (fun _ => rfl)
          (emptySlot_slot s d) false
    · unfold State.retryOrLose
      dsimp only
      split
      · exact continue_finish hn k hi hd (touched := fun e => e == d) ht
          (e := { s.entry i with attempts := (s.entry i).attempts + 1 }) hi rfl
      · exact lose_finish hn k hi hd (touched := fun e => e == d) ht _
  | reads claim => exact completion_finish hn k hslot (by rw [hz]; exact fun _ => nofun) (.refl _ _)
  | channel => exact completion_finish hn k hslot (by rw [hz]; exact fun _ => nofun) (.refl _ _)
  | maintenance => exact completion_finish hn k hslot (by rw [hz]; exact fun _ => nofun) (.refl _ _)

theorem takeLineRead_finish (hreads : ReadsClaimed s) {z : Slot} (hslot : (s.port d).slot = some z)
    (data : Option LineData) :
    DrainsClaimed (((s.emptySlot d).takeLineRead d z.claimant data).finish s fun e => e == d) := by
  have ht : (fun e => e == d : DieId → Bool) d = true := beq_self_eq_true d
  cases hz : z.claimant with
  | drain i =>
    obtain ⟨-, hi, hd⟩ := k.slot_entry hslot hz
    unfold State.takeLineRead
    dsimp only
    split
    next bytes =>
      exact continue_finish hn k hi hd (touched := fun e => e == d) ht
        (e := { s.entry i with data := overlay (s.entry i).mask (s.entry i).data bytes, step := some .rmwWrite }) hi rfl
    · exact lose_finish hn k hi hd (touched := fun e => e == d) ht _
  | reads claim =>
    refine completion_finish hn k hslot (by rw [hz]; exact fun _ => nofun) ?_
    unfold State.takeLineRead
    dsimp only
    split
    next r hf =>
      have hclaim : r.claim = claim := by simpa using List.find?_some hf
      obtain ⟨-, -, hslots, hdies, -, -⟩ := hreads
      refine answerRead_calm (x := fun e => e == d) ht (fun q hq hqr => ?_) data
      have hq : q ∈ s.reads.list := hq
      rw [← (hslots d z hslot q hq (by rw [hz, hqr, hclaim])).1, hdies q hq]
      rfl
    · exact .refl _ _
  | channel => exact completion_finish hn k hslot (by rw [hz]; exact fun _ => nofun) (.refl _ _)
  | maintenance => exact completion_finish hn k hslot (by rw [hz]; exact fun _ => nofun) (.refl _ _)

/-- A port fails: its die's drain reverts, and the part stops or its START fails (R18, R85, R118). -/
theorem failPort_finish (detail : Status) : DrainsClaimed ((s.failPort d detail).finish s fun e => e == d) := by
  have ht : (fun e => e == d : DieId → Bool) d = true := beq_self_eq_true d
  rw [failPort_eq]
  by_cases hr : Resting s
  · have hnoted : Calm (fun e => e == d) s ((s.logNote (s.failureNote d detail)).latch .dieFailed) :=
      (noteAndLatch_touches s _ _).calm (by decide) _
    have hempty := hnoted.emptied hr d (s.port d).fail rfl rfl
    have hfailed : Calm (fun e => e == d) s (s.portFailed d detail) := by
      unfold State.portFailed
      rw [revertDie_rests fun i => ?_]
      · exact hempty
      · rw [(hempty.undrained (k.undrained hr)).entries i]
        decide
    refine Calm.finish (x := fun e => e == d) ?_ hn k fun _ hx => .inl hx
    split
    · exact (hfailed.trans (addFailed_calm _ _ d)).trans (abortBringup_calm _ _)
    next hb =>
      have hconfig : s.chan.partState = .config := hr.resolve_right hb
      rw [enterStopped_eq, (portFailed_touches s d detail).chan (by decide), if_neg (by rw [hconfig]; decide)]
      exact hfailed
  · rw [if_neg fun hb => hr (.inr hb)]
    have hport : Apart d s (((s.logNote (s.failureNote d detail)).latch .dieFailed).setPort d (s.port d).fail) :=
      ((noteAndLatch_touches s _ _).apart (by decide) d).trans (setPort_apart _ d _)
    obtain ⟨hrevert, -, hnone⟩ := revertDie_apart
      (((s.logNote (s.failureNote d detail)).latch .dieFailed).setPort d (s.port d).fail) d
    have hfailed : Apart d s (s.portFailed d detail) := hport.trans hrevert
    obtain ⟨hstop, hkept⟩ := enterStopped_apart (s.portFailed d detail) .dieFailed d
    have hall := hfailed.trans hstop
    have hslot : ((s.portFailed d detail).port d).slot = none := by
      rw [portFailed_port, if_pos rfl]
      rfl
    have hclaim : ((s.portFailed d detail).port d).drainClaim = none := by
      rw [portFailed_port, if_pos rfl]
      rfl
    have htouch := enterStopped_touches (s.portFailed d detail) .dieFailed
    have hd : ¬ Drains ((s.portFailed d detail).enterStopped .dieFailed) d := by
      rintro ⟨i, hi, hdi⟩
      rw [htouch.entry (by decide)] at hi
      rw [State.entryDie, htouch.entry (by decide), dieIndex_of_count hstop.count] at hdi
      exact hnone ⟨i, hi, hdi⟩
    exact hall.finish_emptied hn k hr hd ((hkept d).1.trans hslot) ((hkept d).2.trans hclaim) ht

end

end Sys2Proof.Machine
end

section
/-! SUPPORT. Every command keeps the Drain Scheduler's claims in order, and with them the level and the hysteresis flag
as R22 and R23 have them (R22, R23, R25 to R28, R34). -/

namespace Sys2Proof.Machine

/-! ### Effects that no event closes -/

/-- An effect that leaves drains, the part state and every die alone keeps the scheduler's claims in order. -/
theorem Calm.claimed {s u : State} (h : Calm (fun _ => false) s u) (hp : u.chan.partState = s.chan.partState)
    (k : DrainsClaimed s) : DrainsClaimed u := by
  by_cases hr : Resting s
  · exact (h.undrained (k.undrained hr)).drainsClaimed
  · obtain ⟨hplaced, hright⟩ := (drainsClaimed_iff s).1 k
    exact (drainsClaimed_iff u).2 ⟨h.placed hr hplaced, fun d => (h.dieSame hr hp rfl).right (hright d)⟩

theorem Touches.drainsClaimed {bs : List Block} {s t : State} (h : Touches bs s t)
    (hb : ∀ b ∈ [Block.table, .drain, .reads, .ports, .chan, .settings], b ∉ bs) (k : DrainsClaimed s) :
    DrainsClaimed t :=
  (h.calm hb _).claimed (by rw [h.chan (hb .chan (by decide))]) k

/-- A change of timers and flags, not of the level. -/
theorem setDrain_drainsClaimed {s : State} (x : Drain) (h : x.pressure = s.drain.pressure) (k : DrainsClaimed s) :
    DrainsClaimed (s.setDrain x) := by
  have hcalm : Calm (fun _ => false) s (s.setDrain x) :=
    ⟨rfl, rfl, h, fun _ => .inl rfl, fun _ _ _ _ => id, fun _ _ _ _ => .inl, fun _ _ => .inl rfl,
      fun _ _ => Iff.rfl, id⟩
  exact hcalm.claimed rfl k

/-- A change of settings and profiles other than DIE_COUNT. -/
theorem setChan_drainsClaimed {s : State} (c : Channel)
    (h : (c.partState, c.settings.dieCount) = (s.chan.partState, s.chan.settings.dieCount)) (k : DrainsClaimed s) :
    DrainsClaimed (s.setChan c) := by
  simp only [Prod.mk.injEq] at h
  refine (setChan_calm s c _ h.2 fun hr => ?_).claimed h.1 k
  unfold Resting at hr ⊢
  rwa [← h.1]

theorem setClocks_drainsClaimed {s : State} (period : Nat) (k : DrainsClaimed s) : DrainsClaimed (s.setClocks period) :=
  Calm.claimed (.forDies (fun d t => setPort_same_calm t d _ _ (by rfl)) s)
    (by rw [(setClocks_touches s period).chan (by decide)]) k

theorem Undrained.setChan {s : State} (h : Undrained s) (c : Channel) : Undrained (s.setChan c) :=
  ⟨h.entries, h.claims, h.slots⟩

/-- An emptied table with empty ports. -/
theorem undrained_of_reset {t : State} (htable : t.table = State.reset.table)
    (hport : ∀ d, ∃ clock, t.port d = Port.atReset clock) : Undrained t := by
  have hentry (i : Fin 32) : t.entry i = Entry.freed := by
    rw [State.entry, htable]
    exact Vector.getElem_replicate i.isLt
  refine ⟨fun i => by rw [hentry]; rfl, fun d => ?_, fun d x hx => ?_⟩
  · obtain ⟨clock, hclock⟩ := hport d
    rw [hclock]
    rfl
  · obtain ⟨clock, hclock⟩ := hport d
    rw [hclock] at hx
    cases hx

/-! ### Events -/

theorem event_finish {s u : State} {touched : DieId → Bool} (h : Event s u touched) (hreads : Claimed s)
    (hn : s.chan.settings.dieCount ∈ [1, 2, 4]) (k : DrainsClaimed s) : DrainsClaimed (u.finish s touched) := by
  obtain ⟨hanswerable, hclaimed⟩ := hreads
  obtain ⟨-, -, hslots, hdies, -, -⟩ := id hclaimed
  -- an operation that is no drain's
  have control {d : DieId} {z : Slot} (hslot : (s.port d).slot = some z) (hz : z.op.drains = false) (i : Fin 32) :
      z.claimant ≠ .drain i := by
    intro hi
    obtain ⟨hop, -, -⟩ := k.slot_entry hslot hi
    rw [hz] at hop
    cases hop
  have same (d : DieId) : (fun e => e == d : DieId → Bool) d = true := beq_self_eq_true d
  cases h with
  | linkReset => exact (linkEmptied_calm hdies).finish hn k fun _ hx => .inl hx
  | park may =>
    refine Calm.finish (x := fun _ => true) ?_ hn k fun _ hx => .inl hx
    have hset :
        Calm (fun _ => true) s (s.setChan { s.chan with partState := .parking, phase := none, parkDelay := none }) :=
      setChan_calm s _ _ rfl fun hr => by rcases hr with hr | hr <;> cases hr
    exact hset.trans (claimAll_calm _ _ fun _ => .parkEnter)
  | relock =>
    have hset : Calm (fun _ => true) s (s.setChan { s.chan with relock := none }) := setChan_rest_calm s _ _ (by rfl)
    exact (hset.trans (beginPhase_calm _ _ _ _)).finish hn k fun _ hx => .inl hx
  | settle d => exact (settleExpired_calm (x := fun e => e == d) s (same d)).finish hn k fun _ hx => .inl hx
  | fail d detail => exact failPort_finish hn k detail
  | deadline r listed =>
    have hnoted : Calm (fun e => e == r.die) s (s.close (Answer.plain r.tag .timeout 0)) :=
      (close_touches s _).calm (by decide) _
    refine ((hnoted.trans ((logNote_touches _ _).calm (by decide) _)).trans
      (dropRead_calm (same r.die) fun q hq hqr => ?_)).finish hn k fun _ hx => .inl hx
    have hq : q ∈ s.reads.list := hq
    rw [← claim_unique hanswerable.1.2.1 hq listed hqr]
    exact (hdies q hq).symm
  | refreshDue d => exact ((refreshDebited_touches s d).calm (by decide) _).finish hn k fun _ hx => .inl hx
  | recalDue d => exact ((setCare_touches s d _).calm (by decide) _).finish hn k fun _ hx => .inl hx
  | poll => exact ((polled_touches s).calm (by decide) _).finish hn k fun _ hx => .inl hx
  | lineRead d _ _ _ _ data slot => exact takeLineRead_finish hn k hclaimed slot data
  | lineWrite d _ _ _ _ _ _ _ stored slot => exact takeWriteStep_finish hn k slot stored
  | maskedWrite d _ _ _ _ _ _ _ _ stored slot => exact takeWriteStep_finish hn k slot stored
  | refresh d _ _ _ slot =>
    exact completion_finish hn k slot (control slot rfl) ((setBalance_touches _ d _).calm (by decide) _)
  | shortRecal d _ _ _ slot =>
    exact completion_finish hn k slot (control slot rfl) ((clearRecal_touches _ d).calm (by decide) _)
  | longRecal d _ _ _ slot => exact completion_finish hn k slot (control slot rfl) (longRecalDone_calm _ d)
  | tempRead d _ _ band slot =>
    exact completion_finish hn k slot (control slot rfl) ((takeBand_touches _ d band).calm (by decide) _)
  | set d _ _ _ _ slot =>
    exact completion_finish hn k slot (control slot rfl) (setPort_state_calm _ d _ (same d) (by rfl))
  | dieReset d _ _ slot =>
    exact completion_finish hn k slot (control slot rfl) ((bringupClaim_calm _ _ d _).trans (abortBringup_calm _ _))
  | parkEnter d _ _ _ slot => exact completion_finish hn k slot (control slot rfl) (parkEnterDone_calm _ (same d))
  | parkExit d mode _ _ _ slot => exact completion_finish hn k slot (control slot rfl) (parkExitDone_calm _ d mode)

theorem poweredOn_undrained (s : State) : Undrained s.poweredOn :=
  undrained_of_reset rfl fun d => ⟨_, reset_port d⟩

theorem eventStep_drainsClaimed {s t : State} (h : EventStep s t) (hreads : Claimed s)
    (hn : s.chan.settings.dieCount ∈ [1, 2, 4]) (k : DrainsClaimed s) : DrainsClaimed t := by
  cases h with
  | rests => exact k
  | powersOn => exact (poweredOn_undrained s).drainsClaimed
  | delaysParking => exact setChan_drainsClaimed _ (by rfl) k
  | idles =>
    exact DrainsClaimed.relevel (s := s.setDrain { s.drain with idleTimer := none, idleFlag := true }) hn
      (setDrain_drainsClaimed _ rfl k)
  | closes event => exact event_finish event hreads hn k

/-! ### A posted WRITE -/

/-- The entry that a WRITE is posted to is the line's OPEN one or a FREE one, and is OPEN for the line afterwards (R8,
R9). -/
theorem posting_opens {s : State} {line : LineAddr} {m : Mask} {data : LineData} {i : Fin 32} {e : Entry}
    (h : s.posting line m data = .entry i e) :
    ((s.entry i).state = .free ∨ (s.entry i).state = .opened ∧ (s.entry i).line = some line) ∧ e.state = .opened ∧
      e.line = some line := by
  obtain ⟨-, ⟨hopen, rfl⟩ | ⟨-, hfree, rfl⟩⟩ := posting_entry h
  · have hfound := findEntry_some hopen
    simp only [Bool.and_eq_true, beq_iff_eq] at hfound
    exact ⟨.inr hfound, hfound⟩
  · have hfound := findEntry_some hfree
    rw [beq_iff_eq] at hfound
    exact ⟨.inl hfound, rfl, rfl⟩

/-- Where the DRAINING entries, the slots and the drain claims stay, drains stay placed. -/
theorem DrainsPlaced.posted {s u : State} (k : DrainsPlaced s)
    (hcount : u.chan.settings.dieCount = s.chan.settings.dieCount)
    (hentries : ∀ j, (s.entry j).state = .draining ∨ (u.entry j).state = .draining → u.entry j = s.entry j)
    (hports : ∀ d, (u.port d).slot = (s.port d).slot ∧ (u.port d).drainClaim = (s.port d).drainClaim)
    (hr : ¬ Resting u) : DrainsPlaced u := by
  have hdie {j : Fin 32} (hj : (s.entry j).state = .draining ∨ (u.entry j).state = .draining) :
      u.entryDie j = s.entryDie j := by
    rw [State.entryDie, State.entryDie, hentries j hj, dieIndex_of_count hcount]
  have hback {j : Fin 32} (hj : (u.entry j).state = .draining) : (s.entry j).state = .draining := by
    rwa [← hentries j (.inr hj)]
  have hforth {j : Fin 32} (hj : (s.entry j).state = .draining) : (u.entry j).state = .draining := by
    rwa [hentries j (.inl hj)]
  refine ⟨fun i j hi hj hij => k.one i j (hback hi) (hback hj) ?_, fun d i hi hd => ?_, fun d x hx i hxi => ?_,
    fun d c hc hk => ?_, fun hu => absurd hu hr⟩
  · rwa [← hdie (.inr hi), ← hdie (.inr hj)]
  · have hheld := k.held d i (hback hi) ((hdie (.inr hi)).symm.trans hd)
    unfold ContinuationHeld at hheld ⊢
    rwa [(hports d).1, (hports d).2]
  · rw [(hports d).1] at hx
    obtain ⟨hop, hi, hd⟩ := k.slots d x hx i hxi
    exact ⟨hop, hforth hi, (hdie (.inl hi)).trans hd⟩
  · rw [(hports d).2] at hc
    obtain ⟨hd, hi⟩ := k.continues d c hc hk
    exact ⟨(hdie (.inl hi)).trans hd, hforth hi⟩

theorem post_apart {s : State} {line : LineAddr} {m : Mask} {data : LineData} {i : Fin 32} {e : Entry}
    (h : s.posting line m data = .entry i e) : Apart (s.dieIndex line) s (s.post i e line m) := by
  obtain ⟨hwas, -, hline⟩ := posting_opens h
  have htouch := post_touches s i e line m
  have hoff : ¬ LiveOff s (s.dieIndex line) i := by
    rintro ⟨hlive, hd⟩
    rcases hwas with hfree | ⟨-, hl⟩
    · exact hlive hfree
    · exact hd (by rw [State.entryDie, hl]; rfl)
  have hset : Apart (s.dieIndex line) s (s.setEntry i e) :=
    setEntry_apart hoff (.inr (by rw [hline]; rfl))
  have hentry (j : Fin 32) : (s.post i e line m).entry j = (s.setEntry i e).entry j := by
    rw [post_entry, State.setEntry_entry]
  have hport (d : DieId) := htouch.port (by decide) d
  have hchan := htouch.chan (by decide)
  refine ⟨by rw [hchan], by rw [htouch.drain (by decide)], fun j hj => ?_, fun d _ => by rw [hport],
    fun d _ => by rw [hport], .inl ⟨by rw [hchan], fun d _ => by rw [hport], fun l _ => ?_⟩⟩
  · rw [hentry]
    exact hset.entries j (hj.imp id (LiveOff.congr (s := s.setEntry i e) (by rw [hchan]; rfl) (hentry j)).1)
  · rw [Unheld, Unheld, htouch.reads (by decide)]

theorem wake_or (s : State) :
    s.wake = s ∨ s.wake.chan.partState = .waking ∧ (s.chan.partState = .parking ∨ s.chan.partState = .parked) := by
  unfold State.wake
  split
  next hp => exact .inr ⟨rfl, hp⟩
  · exact .inl rfl

/-- A posted WRITE touches its line's die, and may wake the part (R7, R122). -/
theorem post_finish {s : State} {line : LineAddr} {m : Mask} {data : LineData} {i : Fin 32} {e : Entry}
    (h : s.posting line m data = .entry i e) (a : Answer)
    (up : s.chan.partState ∈ [PartState.running, .parking, .parked, .waking, .switching])
    (hn : s.chan.settings.dieCount ∈ [1, 2, 4]) (k : DrainsClaimed s) :
    DrainsClaimed ((((s.post i e line m).queue a).wake).finish s fun d => d == s.dieIndex line) := by
  have hpost : Apart (s.dieIndex line) s ((s.post i e line m).queue a) :=
    (post_apart h).trans ((queue_touches _ a).apart (by decide) _)
  obtain ⟨hwas, hopened, hline⟩ := posting_opens h
  have htouch : Touches [.table, .errs, .link, .chan] s ((s.post i e line m).queue a).wake :=
    (((post_touches s i e line m).mono (by decide)).andThen (queue_touches _ a) (by decide)).andThen (wake_touches _)
      (by decide)
  have hcount := congrArg Settings.dieCount (htouch.settings (by decide)).1
  have hentry (j : Fin 32) : ((s.post i e line m).queue a).wake.entry j = if i = j then e else s.entry j :=
    ((wake_touches _).entry (by decide) j).trans (post_entry s i e line m j)
  have hport (d : DieId) := htouch.port (by decide) d
  have hplaced : DrainsPlaced ((s.post i e line m).queue a).wake := by
    refine ((drainsClaimed_iff s).1 k).1.posted hcount (fun j hj => ?_) (fun d => by rw [hport]; exact ⟨rfl, rfl⟩) ?_
    · rw [hentry] at hj ⊢
      split
      next hij =>
        subst hij
        rw [if_pos rfl, hopened] at hj
        rcases hj with hj | hj
        · rcases hwas with hw | ⟨hw, -⟩ <;> rw [hw] at hj <;> cases hj
        · cases hj
      · rfl
    · have hchan : ((s.post i e line m).queue a).chan = s.chan := (post_touches s i e line m).chan (by decide)
      unfold State.wake
      split
      · rintro (hr | hr) <;> cases hr
      · rw [Resting, hchan]
        rintro (hr | hr) <;> rw [hr] at up <;> revert up <;> decide
  have hpresent : ((s.post i e line m).queue a).wake.present (s.dieIndex line) = true := by
    refine entryDie_present (hcount ▸ hn) (i := i) ?_
    rw [State.entryDie, hentry, if_pos rfl, hline, dieIndex_of_count hcount]
    rfl
  refine finish_drains s _ (hcount ▸ hn) hplaced fun d => ?_
  by_cases hd : s.dieIndex line = d
  · subst hd
    exact .inr ⟨hpresent, .inl (beq_self_eq_true _)⟩
  · rcases wake_or ((s.post i e line m).queue a) with hsame | ⟨hwaking, hparked⟩
    · rw [hsame]
      exact (hpost.right hn k hd).imp id fun ⟨hp, hpart⟩ => ⟨hp, .inr (.inl hpart)⟩
    · cases hp : ((s.post i e line m).queue a).wake.present d with
      | false => exact .inl (.absent hn hcount hp (by rw [hport]) k)
      | true =>
        have hpart : ((s.post i e line m).queue a).chan.partState = s.chan.partState :=
          congrArg Channel.partState ((post_touches s i e line m).chan (by decide))
        refine .inr ⟨rfl, .inr (.inl fun hs => ?_)⟩
        rw [hpart, ← hs, hwaking] at hparked
        rcases hparked with hparked | hparked <;> cases hparked

/-! ### Services -/

theorem accept_dieCount {bad : State → Nat → Bool} {configOnly : Bool} {accept : Nat → State → State}
    (k : Setting bad configOnly accept) {v : Nat} {s : State} (good : bad s v = false)
    (hn : s.chan.settings.dieCount ∈ [1, 2, 4]) : (accept v s).chan.settings.dieCount ∈ [1, 2, 4] := by
  have hclosed (u before : State) (touched : DieId → Bool) (hu : u.chan.settings.dieCount = s.chan.settings.dieCount) :
      (u.finish before touched).chan.settings.dieCount ∈ [1, 2, 4] := by
    rw [(finish_internal u before touched).chan, hu]
    exact hn
  cases k with
  | highMark => exact hclosed _ _ _ rfl
  | lowMark => exact hclosed _ _ _ rfl
  | pullIn => exact hclosed _ _ _ rfl
  | idleDrainTime =>
    rw [acceptIdleDrainTime, (relevel_internal _).chan]
    exact hn
  | dieCount =>
    rw [acceptDieCount_eq, (setClocks_touches _ _).chan (by decide)]
    have hv := notOneTwoFour_true.not.1 (Bool.eq_false_iff.1 good)
    show v ∈ [1, 2, 4]
    simp only [List.mem_cons, List.not_mem_nil, or_false]
    omega
  | granularity =>
    rw [acceptGranularity, State.setChan_chan, setProfile_settings]
    exact hn
  | parkDelay => exact hn
  | tempPoll => exact hn
  | checkPolicy => exact hn
  | readWaitLimit => exact hn
  | wakeMode => exact hn
  | maskedWrites => exact hn
  | dieLinesLog2 => exact hn
  | drainRetry => exact hn
  | dieOpLimit => exact hn

theorem setProfile_partState (c : Channel) (p : ProfileId) (v : Profile) :
    (c.setProfile p v).partState = c.partState := by
  cases p <;> rfl

theorem accept_drainsClaimed {bad : State → Nat → Bool} {configOnly : Bool} {accept : Nat → State → State}
    (k : Setting bad configOnly accept) (v : Nat) {s : State} (config : configOnly = true → s.chan.partState = .config)
    (hn : s.chan.settings.dieCount ∈ [1, 2, 4]) (h : DrainsClaimed s) : DrainsClaimed (accept v s) := by
  have hset (c : Settings) (hc : c.dieCount = s.chan.settings.dieCount) : DrainsClaimed (s.setSettings c) :=
    setChan_drainsClaimed { s.chan with settings := c } (by rw [hc]) h
  have hclosed (c : Settings) (hc : c.dieCount = s.chan.settings.dieCount) (touched : DieId → Bool) :
      DrainsClaimed ((s.setSettings c).finish s touched) := by
    have hcalm : Calm (fun _ => false) s (s.setSettings c) := setChan_calm s { s.chan with settings := c } _ hc id
    exact hcalm.finish hn h fun _ hx => absurd hx Bool.false_ne_true
  cases k with
  | highMark => exact hclosed { s.chan.settings with highMark := v } rfl _
  | lowMark => exact hclosed { s.chan.settings with lowMark := v } rfl _
  | pullIn => exact hclosed { s.chan.settings with pullIn := v } rfl _
  | idleDrainTime =>
    refine DrainsClaimed.relevel (s := (s.setSettings
        { s.chan.settings with idleDrainTime := v }).restartIdleDrain) hn ?_
    exact setDrain_drainsClaimed _ rfl (hset { s.chan.settings with idleDrainTime := v } rfl)
  | dieCount =>
    rw [acceptDieCount_eq, setClocks_eq]
    have hrest := (h.undrained (.inl (config rfl))).setChan
      { s.chan with settings := { s.chan.settings with dieCount := v } }
    refine Undrained.drainsClaimed ⟨hrest.entries, fun d => ?_, fun d x hx => ?_⟩
    · simpa [State.port] using hrest.claims d
    · exact hrest.slots d x (by simpa [State.port] using hx)
  | parkDelay => exact setChan_drainsClaimed _ (by rfl) (hset { s.chan.settings with parkDelay := v } rfl)
  | granularity =>
    rw [acceptGranularity]
    refine setChan_drainsClaimed _ ?_ (hset { s.chan.settings with granularity := v } rfl)
    rw [setProfile_settings, setProfile_partState]
  | tempPoll => exact (setMaint_touches _ _).drainsClaimed (by decide) (hset { s.chan.settings with tempPoll := v } rfl)
  | checkPolicy => exact hset { s.chan.settings with checkPolicy := v } rfl
  | readWaitLimit => exact hset { s.chan.settings with readWaitLimit := v } rfl
  | wakeMode => exact hset { s.chan.settings with wakeMode := v } rfl
  | maskedWrites => exact hset { s.chan.settings with maskedWrites := v } rfl
  | dieLinesLog2 => exact hset { s.chan.settings with dieLinesLog2 := v } rfl
  | drainRetry => exact hset { s.chan.settings with drainRetry := v } rfl
  | dieOpLimit => exact hset { s.chan.settings with dieOpLimit := v } rfl

theorem setProfile_drainsClaimed {s : State} (p : ProfileId) (v : Profile) (h : DrainsClaimed s) :
    DrainsClaimed (s.setChan (s.chan.setProfile p v)) :=
  setChan_drainsClaimed _ (by rw [setProfile_settings, setProfile_partState]) h

theorem writeField_drainsClaimed {s : State} (p : ProfileId) (n : Fin 16) (v : BitVec 16) (h : DrainsClaimed s) :
    DrainsClaimed (s.writeField p n v) := by
  unfold State.writeField
  dsimp only
  split
  · exact setClocks_drainsClaimed _ (setProfile_drainsClaimed p _ h)
  · exact setProfile_drainsClaimed p _ h

theorem writeField_dieCount (s : State) (p : ProfileId) (n : Fin 16) (v : BitVec 16) :
    (s.writeField p n v).chan.settings.dieCount = s.chan.settings.dieCount := by
  unfold State.writeField
  dsimp only
  split
  · rw [(setClocks_touches _ _).chan (by decide), State.setChan_chan, setProfile_settings]
  · rw [State.setChan_chan, setProfile_settings]

theorem restarted_undrained (s : State) : Undrained s.restarted :=
  undrained_of_reset rfl fun d => ⟨_, restarted_port s d⟩

theorem beginProcedure_calm (x : DieId → Bool) (s : State) (kind : ProcedureKind) (tag : Tag) :
    Calm x s (s.beginProcedure kind tag) :=
  Calm.trans (setChan_rest_calm s _ x (by rfl)) ((joinTag_touches _ tag).calm (by decide) x)

theorem service_drainsClaimed {s t : State} (h : Service s t) (hn : s.chan.settings.dieCount ∈ [1, 2, 4])
    (k : DrainsClaimed s) : DrainsClaimed t := by
  have hqueue {u : State} (hu : DrainsClaimed u) (a : Answer) : DrainsClaimed (u.queue a) :=
    (queue_touches u a).drainsClaimed (by decide) hu
  cases h with
  | answer a => exact hqueue k a
  | read h =>
    have hjoined : Calm (fun d => d == s.dieIndex h.line) s (s.joinReads (s.readRecord h)) :=
      joinReads_calm s _ (beq_self_eq_true _)
    exact (hjoined.trans (wake_calm _ _)).finish hn k fun _ hx => .inl hx
  | writeRests a line =>
    have hqueued : Calm (fun d => d == s.dieIndex line) s (s.queue a) := (queue_touches s a).calm (by decide) _
    exact (hqueued.trans (wake_calm _ _)).finish hn k fun _ hx => .inl hx
  | writePosts a line m data i e up posts => exact post_finish posts a up hn k
  | flush tag =>
    have hflush : Calm (fun _ => false) s
        (s.setFlushes (s.flushes ++ [{ tag := tag, boundary := s.table.nextWsn, loss := false }])) :=
      (setFlushes_touches s _).calm (by decide) _
    exact (hflush.trans ((joinTag_touches _ tag).calm (by decide) _)).finish hn k fun _ hx => .inl hx
  | setting a v setting good config => exact hqueue (accept_drainsClaimed setting v config hn k) a
  | field a p n v => exact hqueue (writeField_drainsClaimed p n v k) a
  | commit a p => exact hqueue (setProfile_drainsClaimed p _ k) a
  | start tag free config =>
    have hbegun : Calm (fun _ => true) s ((s.beginProcedure (.start 0) tag).setPartState .bringup none) :=
      (beginProcedure_calm _ s _ tag).restful (.inl config) _ (by rfl)
    exact (hbegun.trans (claimAll_calm _ _ fun _ => .dieReset)).finish hn k fun _ hx => .inl hx
  | rateSwitch target tag =>
    have hbegun : Calm (fun _ => true) s
        ((s.beginProcedure (.rateSwitch target) tag).setPartState .switching (some .quiesce)) :=
      (beginProcedure_calm _ s _ tag).trans (setPartState_calm _ _ _ _ (by decide))
    unfold State.beginSwitch
    refine Calm.finish (x := fun _ => true) ?_ hn k fun _ hx => .inl hx
    split
    · exact hbegun.trans (enterClock_calm _ _)
    · exact hbegun
  | clearErrors a mask => exact hqueue ((setErrs_touches s _).drainsClaimed (by decide) k) a
  | restart a => exact hqueue (restarted_undrained s).drainsClaimed a
  | forward h =>
    have hbegun (kind : ProcedureKind) :
        Calm (fun _ => false) s ((s.beginProcedure kind h.tag).wake.claimForwardNow) :=
      ((beginProcedure_calm _ s kind h.tag).trans (wake_calm _ _)).trans (claimForwardNow_calm _ _)
    unfold State.beginForward
    dsimp only
    exact (hbegun _).finish hn k fun _ hx => absurd hx Bool.false_ne_true
  | log a => exact hqueue ((setErrs_touches s _).drainsClaimed (by decide) k) a

theorem service_dieCount {s t : State} (h : Service s t) (hn : s.chan.settings.dieCount ∈ [1, 2, 4]) :
    t.chan.settings.dieCount ∈ [1, 2, 4] := by
  obtain k | ⟨a, v, bad, configOnly, accept, k, good, -, rfl⟩ | ⟨a, p, n, v, rfl⟩ | ⟨a, p, -, rfl⟩ := service_settings h
  · rw [(k.settings (by decide)).1]
    exact hn
  · exact accept_dieCount k good hn
  · show (s.writeField p n v).chan.settings.dieCount ∈ [1, 2, 4]
    rw [writeField_dieCount]
    exact hn
  · show (s.chan.setProfile p _).settings.dieCount ∈ [1, 2, 4]
    rw [setProfile_settings]
    exact hn

/-! ### Every command -/

theorem reset_dieCount : State.reset.chan.settings.dieCount ∈ [1, 2, 4] := by decide

/-- The claims of Read Service and of the Drain Scheduler are in order, with one, two or four dies. -/
structure Scheduled (s : State) : Prop where
  claimed : Claimed s
  count : s.chan.settings.dieCount ∈ [1, 2, 4]
  drains : DrainsClaimed s

theorem scheduled_execKeeps : ExecKeeps Scheduled where
  held s l h := ⟨claimed_execKeeps.held s l h.claimed, h.count, (setLink_touches s _).drainsClaimed (by decide)
      h.drains⟩
  sent s h := ⟨claimed_execKeeps.sent s h.claimed, h.count, (setLink_touches s _).drainsClaimed (by decide) h.drains⟩
  headerFault s h := ⟨claimed_execKeeps.headerFault s h.claimed, h.count,
    (noteAndLatch_touches s _ _).drainsClaimed (by decide) h.drains⟩
  arrive s h := by
    have hdelay : DrainsClaimed s.restartIdleDrain.restartParkDelay :=
      setChan_drainsClaimed _ (by rfl) (setDrain_drainsClaimed _ rfl h.drains)
    refine ⟨claimed_execKeeps.arrive s h.claimed, ?_, hdelay.relevel h.count⟩
    rw [((arrive_touches s).settings (by decide)).1]
    exact h.count
  dataFault s r h := ⟨claimed_execKeeps.dataFault s r h.claimed, h.count,
    (noteAndLatch_touches s _ _).drainsClaimed (by decide) h.drains⟩
  service s t hp hs h := ⟨claimed_execKeeps.service s t hp hs h.claimed, service_dieCount hs h.count,
    service_drainsClaimed hs h.count h.drains⟩
  event s t hs h := by
    refine ⟨claimed_execKeeps.event s t hs h.claimed, ?_, eventStep_drainsClaimed hs h.claimed h.count h.drains⟩
    obtain rfl | k := eventStep_touches hs
    · exact reset_dieCount
    · rw [(k.settings (by decide)).1]
      exact h.count

/-- Settles O56: every event re-evaluates the level and tests the flag once, and the touched dies select anew. -/
theorem stepKeepsPressureLevel : Obligations.StepKeepsPressureLevel := by
  intro s t hx
  refine ⟨levelKept_execKeeps.step (fun _ _ h => h) hx, hysteresisFollows_execKeeps.step (fun _ _ h => h) hx,
    fun hheld hlow hhigh => (step_flagStep hx hheld).between hlow hhigh, fun ⟨htags, hset, hreads, hdrains⟩ => ?_⟩
  obtain ⟨-, -, -, -, -, -, -, -, -, -, hcount, -⟩ := hset
  have hs : Scheduled s := ⟨⟨(answerable_iff s).2 htags, hreads⟩, hcount, hdrains⟩
  exact (scheduled_execKeeps.step (fun _ _ h => ⟨h.claimed, h.count, h.drains⟩) hx hs).drains

end Sys2Proof.Machine
end
